-- ==== Sys2Proof/Word.lean ====
section
/-!
DEFINITION. Word types of the DV3148: bytes, tick values and the index ranges of 00_scope.md (Numbers, Conventions).
-/
namespace Sys2Proof

/-- One byte of the window, of a staging buffer or of a latch. -/
abbrev Byte := BitVec 8

/-- A 24-bit tick value; tick arithmetic is modulo 16,777,216 (00_scope.md, Conventions; R28). -/
abbrev Tick := BitVec 24

/-- A timer entry, 0–47. -/
abbrev EntryIdx := Fin 48

/-- A hold group, 0–7. -/
abbrev GroupIdx := Fin 8

/-- A trigger line, 0–3. -/
abbrev TrigIdx := Fin 4

/-- An output line, 0–15. -/
abbrev LineIdx := Fin 16

end Sys2Proof
end

