-- ==== Sys2Proof/Syntax.lean ====
section
/-!
DEFINITION. The commands: one constructor per row of spec/opcode_table.json, with the row's operands.
A row is one step of the part, whole and indivisible (95_what_each_step_holds.md).
-/
namespace Sys2Proof

/-- The two timebases TB0 and TB1 (R23); each names its pending list too (R43). -/
inductive Timebase where
  | tb0
  | tb1
  deriving DecidableEq, Repr

/-- The two notice queues NQ0 and NQ1 (R91). -/
inductive QueueId where
  | nq0
  | nq1
  deriving DecidableEq, Repr

/-- The three window offsets at which every write is refused (R184): 9H, AH and CH. -/
inductive RefusedOffset where
  | qlevel0
  | qlevel1
  | view
  deriving DecidableEq, Repr

/-- The rows of the opcode table. Where the step belongs to a command of the host (ALLOC, ARM, …), its
parameters stand in the command in execution (R127), so the row carries none. -/
inductive Instr where
  /-- RST# held low, then high, with TKI and TRG0–TRG3 at the given levels at that moment (R183). -/
  | hardwareReset (tki : Bool) (trg : BitVec 4)
  /-- A change of level on TKI (R25). -/
  | tkiEdge
  /-- The counted event that brings a timebase's partial count to divider + 1 (R25, R26). -/
  | tick (t : Timebase)
  /-- A change of level on one trigger line (R155). -/
  | triggerEdge (line : TrigIdx)
  /-- A write of a command code to CMD, offset 3H (R128, R131). -/
  | cmd (code : Byte)
  /-- The Command Unit answers the NOP in execution (R140). -/
  | nop
  /-- The Timer Table takes the ALLOC in execution (R11, R12). -/
  | alloc
  /-- The Timer Table takes the SETUP TIMING in execution (R13). -/
  | setupTiming
  /-- The Timer Table takes the SETUP BEHAVIOR in execution (R14). -/
  | setupBehavior
  /-- The Timer Table takes the RETUNE in execution (R15). -/
  | retune
  /-- The List Engine grants the ARM in execution (R55). -/
  | arm
  /-- The List Engine grants the ARM AT in execution (R56). -/
  | armAt
  /-- The List Engine grants the CANCEL in execution (R57). -/
  | cancel
  /-- The List Engine grants the FREE in execution (R59). -/
  | free
  /-- The List Engine grants the HOLD in execution (R114). -/
  | hold
  /-- The List Engine grants the RESUME in execution (R116). -/
  | resume
  /-- The Timebase Unit takes the SET DIVIDER in execution (R35). -/
  | setDivider
  /-- The Timebase Unit takes the START in execution (R36). -/
  | start
  /-- The Timebase Unit takes the STOP in execution (R36). -/
  | stop
  /-- The List Engine grants the CLEAR NOW in execution (R37). -/
  | clearNow
  /-- The Timebase Unit takes the CLEAR FAULT in execution (R38). -/
  | clearFault
  /-- The Notice Unit takes the QUEUE CONFIG in execution (R105). -/
  | queueConfig
  /-- The Notice Unit takes the FLUSH QUEUE in execution (R103). -/
  | flushQueue
  /-- The Trigger Unit takes the BIND TRIGGER in execution (R163). -/
  | bindTrigger
  /-- The List Engine grants the expiry requester (R66). -/
  | service
  /-- The output hand-over of the service in flight (R170). -/
  | lineOperation
  /-- The post hand-over of the service in flight (R93). -/
  | post
  /-- The List Engine grants the Trigger Unit a pending ARM record (R160). -/
  | triggerArm
  /-- The List Engine grants the Trigger Unit a pending CANCEL record (R161). -/
  | triggerCancel
  /-- The List Engine grants the Trigger Unit a pending HOLD record (R125). -/
  | triggerHold
  /-- The List Engine grants the Trigger Unit a pending RESUME record (R125). -/
  | triggerResume
  /-- The walk in flight moves its next member (R115, R117). -/
  | walkMemberStep
  /-- The final step of the operation in flight (R45). -/
  | finalStep
  /-- The completion of the operation in flight (R47). -/
  | operationCompletion
  /-- The Timer Table takes a waiting release report naming `e` (R10). -/
  | releaseReport (e : EntryIdx)
  /-- A write to PARAM, offset 4H (R129). -/
  | paramWrite (b : Byte)
  /-- A read of PARAM, offset 4H (R129). -/
  | paramRead
  /-- A write to PPTR, offset 5H (R130). -/
  | pptrWrite (b : Byte)
  /-- A read of the RESULT port, offset 6H (R143). -/
  | resultRead
  /-- A write to the RESULT port, offset 6H (R144); the byte is not examined. -/
  | resultPop (b : Byte)
  /-- A read of a notice port, offset 7H or 8H (R96). -/
  | noticeRead (q : QueueId)
  /-- A write of an expected index to a notice port, offset 7H or 8H (R98). -/
  | noticePop (q : QueueId) (index : Byte)
  /-- The standing pop of a queue is taken at the end of the engine claim (R100). -/
  | standingPop (q : QueueId)
  /-- A write to VSEL, offset BH (R186). -/
  | vselWrite (b : Byte)
  /-- A read of the VIEW port, offset CH (R185). -/
  | viewRead
  /-- A write to NSEL, offset DH (R40, R186). -/
  | nselWrite (b : Byte)
  /-- A read of the NOW port, offset DH (R40). -/
  | nowRead
  /-- A write to ICLR, offset 1H (R176). -/
  | iclrWrite (b : Byte)
  /-- A write to IEN, offset 2H (R177). -/
  | ienWrite (b : Byte)
  /-- An OUTOP write of a byte whose operation bits say SET (R168). -/
  | outopSet (b : Byte)
  /-- An OUTOP write of a byte whose operation bits say CLEAR (R168). -/
  | outopClear (b : Byte)
  /-- An OUTOP write of a byte whose operation bits say TOGGLE (R168). -/
  | outopToggle (b : Byte)
  /-- An OUTOP write of a byte with the fourth operation encoding (R168). -/
  | outopFourthEncoding (b : Byte)
  /-- A write to offset FH, the trigger flag clear (R162). -/
  | triggerFlagClear (b : Byte)
  /-- A write to offset 9H, AH or CH (R184). -/
  | refusedWindowWrite (offset : RefusedOffset) (b : Byte)
  /-- The GCTRL write of `b`, named for the output enable it sets (R167, R188). -/
  | outputEnable (b : Byte)
  /-- The GCTRL write of `b`, named for the master enable it sets (R178, R188). -/
  | masterEnable (b : Byte)
  /-- The GCTRL write of a byte whose DISCARD bit is 1 (R149, R188). -/
  | discard (b : Byte)
  /-- The GCTRL write of a byte whose CLEAR bit is 1 (R188, R189). -/
  | schedulerClear (b : Byte)
  /-- The GCTRL write of a byte whose WM clear bit is 1 (R187, R188). -/
  | wmClear (b : Byte)
  /-- One CLK period (R25). -/
  | clkPeriod
  deriving DecidableEq, Repr

end Sys2Proof
end

