-- ==== Sys2Proof/Decode.lean ====
section
/-!
DEFINITION. The opcode table gives no row a bit pattern (98_reader.md: n_rows_with_fixed 0), so no word spells a
command. The host's bus accesses are mapped to rows in Machine/Window.lean (R184).
-/
namespace Sys2Proof

/-- The command that a word spells by the table's bits: none, for the table gives no bits. -/
def decodeTableWord (_nbits _w : Nat) : Option Instr := none

end Sys2Proof
end

