-- ==== Sys2Proof/Config.lean ====
section
/-!
DEFINITION. The fixed numbers of the part (00_scope.md, Numbers). The spec leaves no value open, so there is no
free value here.
-/
namespace Sys2Proof.Config

/-- The fault threshold, a distance of −4,194,304 ticks (R26). -/
def faultThreshold : Int := -4194304

/-- Half of the tick range: the first value of (d − NOW) that reads as negative (R28). -/
def halfRange : Nat := 8388608

/-- The tick modulus (R28). -/
def tickRange : Nat := 16777216

/-- Lateness stops at 65,535 (R31). -/
def latenessCap : Nat := 65535

/-- A notice count stops at 255 (R90). -/
def countCap : Nat := 255

/-- Notices in a queue proper (R91). -/
def queueCapacity : Nat := 16

/-- Commands in the command queue (R127). -/
def commandCapacity : Nat := 4

/-- Records in the result queue (R127). -/
def resultCapacity : Nat := 4

/-- The greatest hold depth (R112). -/
def maxDepth : BitVec 4 := 15

/-- The code of ALLOC, whose failed checks carry the value FFH (R148). -/
def allocCode : Byte := 0x01

end Sys2Proof.Config
end

