-- ==== Sys2Proof/Machine/State.lean ====
section
/-!
DEFINITION. The state of the DV3148, one record per block of 00_scope.md, and its value after a hardware reset.
-/
namespace Sys2Proof.Machine

/-! ## Timer Table (R1–R22) -/

/-- The five entry states (R5). -/
inductive EntryState where
  | free
  | idle
  | armed
  | held
  | spent
  deriving DecidableEq, Repr

/-- Catch-up policy (R1, R69, R70). -/
inductive CatchUp where
  | skip
  | keep
  deriving DecidableEq, Repr

/-- Entry action (R1, R74). -/
inductive Action where
  | none
  | set
  | clear
  | toggle
  deriving DecidableEq, Repr

/-- Post mode (R1, R82). -/
inductive PostMode where
  | off
  | every
  | final
  deriving DecidableEq, Repr

/-- The eleven program fields that SETUP BEHAVIOR writes together (R14). -/
structure Behavior where
  timebase : Timebase
  catchUp : CatchUp
  autoFree : Bool
  postMode : PostMode
  queue : QueueId
  action : Action
  line : LineIdx
  repeatLoad : Byte
  tag : Byte
  group : Option GroupIdx
  successor : Option EntryIdx
  deriving DecidableEq, Repr

/-- The defaults of R3. -/
def Behavior.defaults : Behavior :=
  { timebase := .tb0, catchUp := .skip, autoFree := false, postMode := .off, queue := .nq0,
    action := .none, line := 0, repeatLoad := 0, tag := 0, group := none, successor := none }

/-- One entry record (R1). The field next of R1 has its home in the lists and is computed from them. -/
structure Entry where
  state : EntryState
  startDelay : Tick
  period : Tick
  behavior : Behavior
  repeatsLeft : Byte
  deadline : Tick
  remaining : Tick
  deriving DecidableEq, Repr

/-- A FREE entry with the default program (R21). -/
def Entry.reset : Entry :=
  { state := .free, startDelay := 0, period := 0, behavior := .defaults,
    repeatsLeft := 0, deadline := 0, remaining := 0 }

/-- The Timer Table: 48 records and the free list, head first (R1, R7). -/
structure TimerTable where
  entries : Vector Entry 48
  freeList : List EntryIdx
  deriving DecidableEq, Repr

/-- Every entry FREE, the free list 0, 1, …, 47 (R21). -/
def TimerTable.reset : TimerTable :=
  { entries := Vector.replicate 48 Entry.reset, freeList := List.finRange 48 }

/-! ## Timebase Unit (R23–R42) -/

/-- The three timebase states (R24). -/
inductive TimebaseState where
  | stopped
  | running
  | faulted
  deriving DecidableEq, Repr

/-- The TKI edge that TB1 counts (R23). -/
inductive TkiEdge where
  | rising
  | falling
  deriving DecidableEq, Repr

/-- One timebase record (R23). -/
structure TimebaseRecord where
  state : TimebaseState
  divider : BitVec 16
  partialCount : BitVec 16
  now : Tick
  deriving DecidableEq, Repr

/-- STOPPED, divider 0, partial count 0, NOW 0 (R41). -/
def TimebaseRecord.reset : TimebaseRecord :=
  { state := .stopped, divider := 0, partialCount := 0, now := 0 }

/-- The Timebase Unit (R23). -/
structure TimebaseUnit where
  tb0 : TimebaseRecord
  tb1 : TimebaseRecord
  tkiEdge : TkiEdge
  tkiLevel : Bool
  deriving DecidableEq, Repr

/-- The reset values of R41; the TKI last level is the level when RST# goes high. -/
def TimebaseUnit.reset (tki : Bool) : TimebaseUnit :=
  { tb0 := .reset, tb1 := .reset, tkiEdge := .rising, tkiLevel := tki }

/-! ## Notice Unit (R90–R111) -/

/-- One notice (R90). -/
structure Notice where
  entry : EntryIdx
  tag : Byte
  timebase : Timebase
  final : Bool
  chainMiss : Bool
  saturated : Bool
  count : Byte
  deadline : Tick
  lateness : BitVec 16
  deriving DecidableEq, Repr

/-- One post of a service (R83). The count is carried in full (R72). -/
structure Post where
  queue : QueueId
  entry : EntryIdx
  tag : Byte
  timebase : Timebase
  final : Bool
  chainMiss : Bool
  count : Nat
  deadline : Tick
  lateness : BitVec 16
  deriving DecidableEq, Repr

/-- One notice queue: the queue proper, head first, and the backlog (R91); whether the head is sealed (R92); the
watermark (R105); the port (R96), whose empty latch is the empty list; and the standing pop (R100). -/
structure NoticeQueue where
  proper : List Notice
  headSealed : Bool
  backlog : List Notice
  watermark : Byte
  pointer : Fin 9
  latch : List Byte
  standing : Option EntryIdx
  deriving DecidableEq, Repr

/-- An empty queue with watermark `w` (R110, R111). -/
def NoticeQueue.cleared (w : Byte) : NoticeQueue :=
  { proper := [], headSealed := false, backlog := [], watermark := w, pointer := 0, latch := [],
    standing := none }

/-- The Notice Unit, with the release reports that wait for an engine claim to end (R17, R106), oldest first. -/
structure NoticeUnit where
  nq0 : NoticeQueue
  nq1 : NoticeQueue
  reports : List EntryIdx
  deriving DecidableEq, Repr

/-- The reset values of R110. -/
def NoticeUnit.reset : NoticeUnit := { nq0 := .cleared 1, nq1 := .cleared 1, reports := [] }

/-! ## Trigger Unit (R154–R165) -/

/-- Which edges a binding counts (R155). -/
inductive BindingEdge where
  | off
  | rising
  | falling
  | both
  deriving DecidableEq, Repr

/-- A trigger action with its target: an entry for ARM and CANCEL, a group for HOLD and RESUME (R154). -/
inductive TriggerAction where
  | arm (e : EntryIdx)
  | cancel (e : EntryIdx)
  | hold (g : GroupIdx)
  | resume (g : GroupIdx)
  deriving DecidableEq, Repr

/-- What a record or a held edge copies and captures at its edge (R154, R156). -/
structure Capture where
  action : TriggerAction
  now0 : Tick
  now1 : Tick
  deriving DecidableEq, Repr

/-- The four conditions of a trigger line's record and held edge (R154). -/
inductive TriggerRecord where
  | none
  | pending (c : Capture)
  | inService (c : Capture) (heldEdge : Option Capture)
  deriving DecidableEq, Repr

/-- One trigger line (R154). -/
structure TriggerLine where
  edge : BindingEdge
  action : TriggerAction
  level : Bool
  record : TriggerRecord
  overrun : Bool
  miss : Bool
  deriving DecidableEq, Repr

/-- The reset values of R165; the last level is given. -/
def TriggerLine.reset (level : Bool) : TriggerLine :=
  { edge := .off, action := .arm 0, level := level, record := .none, overrun := false, miss := false }

/-- The Trigger Unit: four lines (R154). -/
structure TriggerUnit where
  lines : Vector TriggerLine 4
  deriving DecidableEq, Repr

/-- Every line at its reset values, line n at bit n of the levels (R155, R165). -/
def TriggerUnit.reset (levels : BitVec 4) : TriggerUnit :=
  { lines := Vector.ofFn fun (l : Fin 4) => TriggerLine.reset (levels.getLsbD l) }

/-! ## Command Unit (R127–R153) -/

/-- The nine result statuses (R147). -/
inductive Status where
  | ok
  | noEffect
  | badCode
  | badIndex
  | range
  | state
  | exhausted
  | faulted
  | limit
  deriving DecidableEq, Repr

/-- A queued command: code, staging bytes and sequence number, copied at the CMD write (R127, R128). -/
structure QueuedCommand where
  code : Byte
  params : Vector Byte 8
  seq : BitVec 4
  deriving DecidableEq, Repr

/-- The stages of the command in execution (R135). -/
inductive Stage where
  | check
  | owner
  | grantWait
  | engine
  deriving DecidableEq, Repr

/-- The command in execution with its stage (R127). -/
structure Execution where
  command : QueuedCommand
  stage : Stage
  deriving DecidableEq, Repr

/-- One result record (R141). -/
structure ResultRecord where
  seq : BitVec 4
  code : Byte
  status : Status
  value : Byte
  deriving DecidableEq, Repr

/-- The Command Unit (R127); queues are oldest first, an empty latch is the empty list. -/
structure CommandUnit where
  staging : Vector Byte 8
  pptr : Fin 8
  queue : List QueuedCommand
  seq : BitVec 4
  execution : Option Execution
  results : List ResultRecord
  resultPointer : Fin 4
  resultLatch : List Byte
  deriving DecidableEq, Repr

/-- The reset values of R152. -/
def CommandUnit.reset : CommandUnit :=
  { staging := Vector.replicate 8 0, pptr := 0, queue := [], seq := 0, execution := none,
    results := [], resultPointer := 0, resultLatch := [] }

/-! ## List Engine (R43–R65) and groups (R112–R126) -/

/-- The three requesters of the List Engine (R48). -/
inductive Requester where
  | expiry
  | command
  | trigger
  deriving DecidableEq, Repr

/-- The four group phases (R113). -/
inductive GroupPhase where
  | running
  | holding
  | held
  | resuming
  deriving DecidableEq, Repr

/-- One group record (R112). -/
structure Group where
  phase : GroupPhase
  depth : BitVec 4
  heldCount : Nat
  deriving DecidableEq, Repr

/-- RUNNING, depth 0, held count 0 (R126). -/
def Group.reset : Group := { phase := .running, depth := 0, heldCount := 0 }

/-- A line operation (R166). -/
inductive LineOp where
  | set
  | clear
  | toggle
  deriving DecidableEq, Repr

/-- One write of a final step (R45, R46, R66). -/
inductive Act where
  /-- Insert or relink `e` at a deadline with the given repeats left; ARMED (R45). -/
  | link (e : EntryIdx) (deadline : Tick) (repeats : Byte)
  /-- Give `e` a remaining and repeats left; HELD (R55, R78, R119). -/
  | hold (e : EntryIdx) (remaining : Tick) (repeats : Byte)
  /-- Make `e` IDLE (R57). -/
  | idle (e : EntryIdx)
  /-- Remove `e` and settle it by auto-free (R16, R81). -/
  | retire (e : EntryIdx)
  /-- Unlink `e` and release it to the free list (R8, R59). -/
  | release (e : EntryIdx)
  /-- Write a hold depth (R114, R116). -/
  | depth (g : GroupIdx) (n : BitVec 4)
  /-- The closing step of a walk (R115, R117). -/
  | closeWalk (g : GroupIdx) (phase : GroupPhase)
  /-- Set NOW to 0 (R37). -/
  | clearNow (t : Timebase)
  deriving DecidableEq, Repr

/-- Which way a walk moves its members (R115, R117). -/
inductive WalkKind where
  | hold
  | resume
  deriving DecidableEq, Repr

/-- The members a walk has still to move, in order (R115, R117). -/
structure Walk where
  kind : WalkKind
  group : GroupIdx
  todo : List EntryIdx
  deriving DecidableEq, Repr

/-- What the engine has decided at a grant and not yet done: the claims it holds (R17), the line operation and the
post of a service (R66), the purge request (R58), the walk (R61), the writes of the final step, the outcome for the
requester (R47), and the longest duration that R51 allows the operation. -/
structure Plan where
  claims : List EntryIdx
  lineOp : Option (LineIdx × LineOp)
  post : Option Post
  purge : Option EntryIdx
  walk : Option Walk
  acts : List Act
  status : Status
  value : Nat
  bound : Nat
  deriving DecidableEq, Repr

/-- To whom an operation was granted; for the Trigger Unit, the line whose record is IN SERVICE (R47, R158). -/
inductive Client where
  | expiry
  | command
  | trigger (line : TrigIdx)
  deriving DecidableEq, Repr

/-- The operation in flight: its client, the NOW0 and NOW1 of its grant (R27), and its plan. -/
structure Operation where
  client : Client
  now0 : Tick
  now1 : Tick
  plan : Plan
  deriving DecidableEq, Repr

/-- What the engine is doing (R47, R49). `deciding` and `chosen` lie between a completion and the next grant, where
the engine is not IDLE. -/
inductive Activity where
  | idle
  /-- An operation has completed; the next grant is not decided yet. -/
  | deciding
  /-- The next grant is decided and comes within one CLK period. -/
  | chosen (r : Requester)
  /-- An operation is in flight. -/
  | busy (op : Operation)
  deriving DecidableEq, Repr

/-- The List Engine with both pending lists, head first, the group table and the rotation pointer (R47). `clocks`
counts the CLK periods since the last grant or completion, for R51. -/
structure ListEngine where
  list0 : List EntryIdx
  list1 : List EntryIdx
  groups : Vector Group 8
  rotation : Requester
  activity : Activity
  clocks : Nat
  deriving DecidableEq, Repr

/-- The reset values of R64 and R126. -/
def ListEngine.reset : ListEngine :=
  { list0 := [], list1 := [], groups := Vector.replicate 8 Group.reset, rotation := .expiry,
    activity := .idle, clocks := 0 }

/-! ## Output Unit, Interrupt Unit, Bus Interface -/

/-- The Output Unit: sixteen latch levels and the output enable (R166). -/
structure OutputUnit where
  latch : Vector Bool 16
  enable : Bool
  deriving DecidableEq, Repr

/-- Every level low, the enable off (R172). -/
def OutputUnit.reset : OutputUnit := { latch := Vector.replicate 16 false, enable := false }

/-- The Interrupt Unit: REJ, the seven enables of IEN and the master enable (R174). -/
structure InterruptUnit where
  rej : Bool
  ien : BitVec 7
  master : Bool
  deriving DecidableEq, Repr

/-- REJ clear, every enable off (R181). -/
def InterruptUnit.reset : InterruptUnit := { rej := false, ien := 0, master := false }

/-- The items that VSEL selects (R186). -/
inductive ViewItem where
  | entry (e : EntryIdx)
  | group (g : GroupIdx)
  | trigger (l : TrigIdx)
  | list (t : Timebase)
  | freeList
  deriving DecidableEq, Repr

/-- The Bus Interface: WM, the selectors, and the VIEW and NOW ports (R185–R187, R40); an empty latch is the empty
list. `readData` is the byte that the last port read formed (R184). -/
structure BusInterface where
  wm : Bool
  vsel : ViewItem
  viewPointer : Nat
  viewLatch : List Byte
  nsel : Timebase
  nowPointer : Fin 3
  nowLatch : List Byte
  readData : Option Byte
  deriving DecidableEq, Repr

/-- The reset values of R190. -/
def BusInterface.reset : BusInterface :=
  { wm := false, vsel := .entry 0, viewPointer := 0, viewLatch := [], nsel := .tb0, nowPointer := 0,
    nowLatch := [], readData := none }

/-! ## The state -/

/-- The whole part, and the queue of the steps that wait to be taken, first in first out. -/
structure State where
  pending : List Instr
  bus : BusInterface
  cmd : CommandUnit
  table : TimerTable
  time : TimebaseUnit
  engine : ListEngine
  notices : NoticeUnit
  trig : TriggerUnit
  out : OutputUnit
  irq : InterruptUnit
  deriving DecidableEq, Repr

/-- The part when RST# goes high with the given levels on TKI and TRG0–TRG3 (R183). -/
def State.resetWith (tki : Bool) (trg : BitVec 4) : State :=
  { pending := [], bus := .reset, cmd := .reset, table := .reset, time := .reset tki, engine := .reset,
    notices := .reset, trig := .reset trg, out := .reset, irq := .reset }

/-- The part right after reset. DESIGN CHOICE (notes/assumptions/6.md): TKI and TRG0–TRG3 stand low. -/
def State.reset : State := State.resetWith false 0

/-- The part never stops with a fault: no rule of the spec gives one, so there is no constructor. -/
inductive Fault where
  deriving DecidableEq, Repr

/-- Reasons to refuse a command. -/
inductive Refusal where
  /-- Raised only by an arm of `exec` whose row has no meaning; no arm raises it. Safe. -/
  | notModelled (mnemonic : String)
  deriving DecidableEq, Repr

end Sys2Proof.Machine
end

