-- ==== Sys2Proof/Machine/Operands.lean ====
section
/-!
DEFINITION. Parameter blocks: the layouts and encodings of R194, the checks of R136 and R137 in their order, and the
inverse encodings that the views show (R192).
-/
namespace Sys2Proof.Machine

/-! ## Fields of a byte -/

/-- The `n` bits of a byte from bit `at` (11.6: bits count from bit 0, the least significant). -/
def field (b : Byte) (pos n : Nat) : Nat := (b.toNat / 2 ^ pos) % 2 ^ n

/-- A three-byte value, least significant byte first (11.6). -/
def tickOfBytes (b0 b1 b2 : Byte) : Tick := BitVec.ofNat 24 (b0.toNat + 256 * b1.toNat + 65536 * b2.toNat)

/-- A two-byte value, least significant byte first (11.6). -/
def wordOfBytes (b0 b1 : Byte) : BitVec 16 := BitVec.ofNat 16 (b0.toNat + 256 * b1.toNat)

/-- Byte `i` of a value, least significant byte first (11.6). -/
def byteOf (v i : Nat) : Byte := BitVec.ofNat 8 (v / 256 ^ i)

/-! ## Indices and ranges (R137) -/

def entryOfByte (b : Byte) : Option EntryIdx := if h : b.toNat < 48 then some ⟨b.toNat, h⟩ else none

def groupOfByte (b : Byte) : Option GroupIdx := if h : b.toNat < 8 then some ⟨b.toNat, h⟩ else none

def trigOfByte (b : Byte) : Option TrigIdx := if h : b.toNat < 4 then some ⟨b.toNat, h⟩ else none

/-- 0 and 1 name a timebase; every other value is out of its limit. -/
def timebaseOfNat (n : Nat) : Option Timebase :=
  match n with
  | 0 => some .tb0
  | 1 => some .tb1
  | _ => none

/-- 0 and 1 name a queue; every other value is out of its limit. -/
def queueOfNat (n : Nat) : Option QueueId :=
  match n with
  | 0 => some .nq0
  | 1 => some .nq1
  | _ => none

/-- A field in which FFH means none, with the index reader for the other values (R137). -/
def orNone {α : Type} (read : Byte → Option α) (b : Byte) : Option (Option α) :=
  if b = 0xFF then some none else (read b).map some

/-- A start delay or a period: bit 7 of the third byte must be clear (R194). -/
def durationOfBytes (b0 b1 b2 : Byte) : Option Tick :=
  if b2.getLsbD 7 then none else some (tickOfBytes b0 b1 b2)

/-! ## Encoded fields (R194) -/

def postModeOfNat (n : Nat) : Option PostMode :=
  match n with
  | 0 => some .off
  | 1 => some .every
  | 2 => some .final
  | _ => none

def actionOfNat (n : Nat) : Option Action :=
  match n with
  | 0 => some .none
  | 1 => some .set
  | 2 => some .clear
  | 3 => some .toggle
  | _ => none

def tkiEdgeOfByte (b : Byte) : Option TkiEdge :=
  if b = 0 then some .rising else if b = 1 then some .falling else none

def bindingEdgeOfByte (b : Byte) : Option BindingEdge :=
  if b = 0 then some .off else if b = 1 then some .rising else if b = 2 then some .falling
  else if b = 3 then some .both else none

/-- A line number, bits 0–4 of the action-and-line byte: 16–31 is out of its limit. -/
def lineOfNat (n : Nat) : Option LineIdx := if h : n < 16 then some ⟨n, h⟩ else none

/-! ## Commands -/

/-- A command whose checks have passed, with its parameters read. -/
inductive Command where
  | nop
  | alloc (wanted : Option EntryIdx)
  | setupTiming (e : EntryIdx) (startDelay period : Tick)
  | setupBehavior (e : EntryIdx) (b : Behavior)
  | arm (e : EntryIdx)
  | armAt (e : EntryIdx) (deadline : Tick)
  | cancel (e : EntryIdx) (purge : Bool)
  | free (e : EntryIdx)
  | hold (g : GroupIdx)
  | resume (g : GroupIdx)
  | setDivider (t : Timebase) (divider : BitVec 16) (edge : Option TkiEdge)
  | start (t : Timebase)
  | stop (t : Timebase)
  | clearNow (t : Timebase)
  | clearFault (t : Timebase)
  | queueConfig (q : QueueId) (watermark : Byte)
  | flushQueue (q : QueueId)
  | bindTrigger (l : TrigIdx) (edge : BindingEdge) (action : TriggerAction)
  | retune (e : EntryIdx) (period : Tick)
  deriving DecidableEq, Repr

/-- The outcome of the checks of R136. -/
abbrev Checked := Except Status Command

/-- One index parameter, then the rest of the check (R136). -/
def withIndex {α : Type} (x : Option α) (k : α → Checked) : Checked :=
  match x with
  | some a => k a
  | none => .error .badIndex

/-- One range parameter, then the rest of the check (R136). -/
def withRange {α : Type} (x : Option α) (k : α → Checked) : Checked :=
  match x with
  | some a => k a
  | none => .error .range

/-- ALLOC: FFH is any, 48–FEH is BAD_INDEX (R12, R137). -/
def checkAlloc (p : Vector Byte 8) : Checked :=
  withIndex (orNone entryOfByte p[0]) fun w => .ok (.alloc w)

def checkSetupTiming (p : Vector Byte 8) : Checked :=
  withIndex (entryOfByte p[0]) fun e =>
  withRange (durationOfBytes p[1] p[2] p[3]) fun sd =>
  withRange (durationOfBytes p[4] p[5] p[6]) fun per => .ok (.setupTiming e sd per)

/-- Every index of SETUP BEHAVIOR before any range (R14, R136, R194). -/
def checkSetupBehavior (p : Vector Byte 8) : Checked :=
  withIndex (entryOfByte p[0]) fun e =>
  withIndex (orNone groupOfByte p[5]) fun g =>
  withIndex (orNone entryOfByte p[6]) fun s =>
  withIndex (lineOfNat (field p[2] 0 5)) fun l =>
  withIndex (queueOfNat (field p[1] 6 2)) fun q =>
  withIndex (timebaseOfNat (field p[1] 0 2)) fun t =>
  withRange (postModeOfNat (field p[1] 4 2)) fun m =>
  withRange (actionOfNat (field p[2] 5 3)) fun a =>
  .ok (.setupBehavior e
    { timebase := t, catchUp := if p[1].getLsbD 2 then .keep else .skip, autoFree := p[1].getLsbD 3,
      postMode := m, queue := q, action := a, line := l, repeatLoad := p[3], tag := p[4], group := g,
      successor := s })

def checkArmAt (p : Vector Byte 8) : Checked :=
  withIndex (entryOfByte p[0]) fun e => .ok (.armAt e (tickOfBytes p[1] p[2] p[3]))

/-- CANCEL: a purge parameter other than 0 or 1 is out of range (R54, R137). -/
def checkCancel (p : Vector Byte 8) : Checked :=
  withIndex (entryOfByte p[0]) fun e =>
  if p[1] = 0 then .ok (.cancel e false) else if p[1] = 1 then .ok (.cancel e true) else .error .range

/-- SET DIVIDER: divider and edge are examined for TB1 only (R34, R137). -/
def checkSetDivider (t : Timebase) (p : Vector Byte 8) : Checked :=
  match t with
  | .tb0 => .ok (.setDivider .tb0 (wordOfBytes p[2] p[3]) none)
  | .tb1 =>
    if p[3] = 0 then
      withRange (tkiEdgeOfByte p[4]) fun e => .ok (.setDivider .tb1 (wordOfBytes p[2] p[3]) (some e))
    else .error .range

/-- TIMEBASE: the timebase, then the action, then what the action examines (R34). -/
def checkTimebase (p : Vector Byte 8) : Checked :=
  withIndex (timebaseOfNat p[0].toNat) fun t =>
  match p[1].toNat with
  | 0 => checkSetDivider t p
  | 1 => .ok (.start t)
  | 2 => .ok (.stop t)
  | 3 => .ok (.clearNow t)
  | 4 => .ok (.clearFault t)
  | _ => .error .range

def checkQueueConfig (p : Vector Byte 8) : Checked :=
  withIndex (queueOfNat p[0].toNat) fun q =>
  if 1 ≤ p[1].toNat ∧ p[1].toNat ≤ 16 then .ok (.queueConfig q p[1]) else .error .range

/-- The target byte against the limit of the action; `none` inside when the action names none (R137). -/
def triggerTarget (action target : Byte) : Option (Option TriggerAction) :=
  match action.toNat with
  | 0 => some ((entryOfByte target).map .arm)
  | 1 => some ((entryOfByte target).map .cancel)
  | 2 => some ((groupOfByte target).map .hold)
  | 3 => some ((groupOfByte target).map .resume)
  | _ => none

/-- BIND TRIGGER: line, then the action (so that the target's limit is known), the target, the edge (R137). -/
def checkBindTrigger (p : Vector Byte 8) : Checked :=
  withIndex (trigOfByte p[0]) fun l =>
  withRange (triggerTarget p[2] p[3]) fun target =>
  withIndex target fun a =>
  withRange (bindingEdgeOfByte p[1]) fun e => .ok (.bindTrigger l e a)

def checkRetune (p : Vector Byte 8) : Checked :=
  withIndex (entryOfByte p[0]) fun e =>
  withRange (durationOfBytes p[1] p[2] p[3]) fun per => .ok (.retune e per)

/-- The checks of a taken command: the code, then the indices, then the ranges (R136). -/
def QueuedCommand.check (c : QueuedCommand) : Checked :=
  match c.code.toNat with
  | 0x00 => .ok .nop
  | 0x01 => checkAlloc c.params
  | 0x02 => checkSetupTiming c.params
  | 0x03 => checkSetupBehavior c.params
  | 0x04 => withIndex (entryOfByte c.params[0]) fun e => .ok (.arm e)
  | 0x05 => checkArmAt c.params
  | 0x06 => checkCancel c.params
  | 0x07 => withIndex (entryOfByte c.params[0]) fun e => .ok (.free e)
  | 0x08 => withIndex (groupOfByte c.params[0]) fun g => .ok (.hold g)
  | 0x09 => withIndex (groupOfByte c.params[0]) fun g => .ok (.resume g)
  | 0x0A => checkTimebase c.params
  | 0x0B => checkQueueConfig c.params
  | 0x0C => withIndex (queueOfNat c.params[0].toNat) fun q => .ok (.flushQueue q)
  | 0x0D => checkBindTrigger c.params
  | 0x0E => checkRetune c.params
  | _ => .error .badCode

/-- The value byte of a command that fails a check (R148). -/
def QueuedCommand.failValue (c : QueuedCommand) : Byte := if c.code = Config.allocCode then 0xFF else 0

/-- The stage a command reaches when its checks have passed (R135, R138–R140). -/
def Command.firstStage (c : Command) : Stage :=
  match c with
  | .nop => .check
  | .arm _ | .armAt _ _ | .cancel _ _ | .free _ | .hold _ | .resume _ | .clearNow _ => .grantWait
  | .alloc _ | .setupTiming _ _ _ | .setupBehavior _ _ | .setDivider _ _ _ | .start _ | .stop _
  | .clearFault _ | .queueConfig _ _ | .flushQueue _ | .bindTrigger _ _ _ | .retune _ _ => .owner

/-! ## Encodings that the host reads (R191, R192) -/

def Timebase.code (t : Timebase) : Nat := match t with | .tb0 => 0 | .tb1 => 1

def QueueId.code (q : QueueId) : Nat := match q with | .nq0 => 0 | .nq1 => 1

def CatchUp.code (c : CatchUp) : Nat := match c with | .skip => 0 | .keep => 1

def PostMode.code (m : PostMode) : Nat := match m with | .off => 0 | .every => 1 | .final => 2

def Action.code (a : Action) : Nat := match a with | .none => 0 | .set => 1 | .clear => 2 | .toggle => 3

def EntryState.code (s : EntryState) : Nat :=
  match s with
  | .free => 0
  | .idle => 1
  | .armed => 2
  | .held => 3
  | .spent => 4

def TimebaseState.code (s : TimebaseState) : Nat := match s with | .stopped => 0 | .running => 1 | .faulted => 2

def GroupPhase.code (p : GroupPhase) : Nat :=
  match p with
  | .running => 0
  | .holding => 1
  | .held => 2
  | .resuming => 3

def Status.code (s : Status) : Nat :=
  match s with
  | .ok => 0
  | .noEffect => 1
  | .badCode => 2
  | .badIndex => 3
  | .range => 4
  | .state => 5
  | .exhausted => 6
  | .faulted => 7
  | .limit => 8

def BindingEdge.code (e : BindingEdge) : Nat :=
  match e with
  | .off => 0
  | .rising => 1
  | .falling => 2
  | .both => 3

def TriggerAction.code (a : TriggerAction) : Nat :=
  match a with
  | .arm _ => 0
  | .cancel _ => 1
  | .hold _ => 2
  | .resume _ => 3

def TriggerAction.target (a : TriggerAction) : Nat :=
  match a with
  | .arm e | .cancel e => e.val
  | .hold g | .resume g => g.val

/-- The mode byte (R194). -/
def Behavior.modeByte (b : Behavior) : Byte :=
  BitVec.ofNat 8 (Timebase.code b.timebase + 4 * CatchUp.code b.catchUp + 8 * b.autoFree.toNat
    + 16 * PostMode.code b.postMode + 64 * QueueId.code b.queue)

/-- The action-and-line byte (R194). -/
def Behavior.actionLineByte (b : Behavior) : Byte :=
  BitVec.ofNat 8 (b.line.val + 32 * Action.code b.action)

/-- An index, or FFH for none (R192). -/
def indexByte {n : Nat} (x : Option (Fin n)) : Byte :=
  match x with
  | none => 0xFF
  | some i => BitVec.ofNat 8 i.val

end Sys2Proof.Machine
end

