-- ==== Sys2Proof/Machine/Ops.lean ====
section
/-!
DEFINITION. The shared operations: accessors, deadline arithmetic, pending lists, moves of an entry between states,
notice queues with release reports, and line operations. Every block's rules go through these.
-/
namespace Sys2Proof.Machine

/-! ## Accessors: every record has one home -/

def State.entry (s : State) (e : EntryIdx) : Entry := s.table.entries[e]

def State.setEntry (s : State) (e : EntryIdx) (x : Entry) : State :=
  { s with table := { s.table with entries := s.table.entries.set e x } }

def State.timebase (s : State) (t : Timebase) : TimebaseRecord :=
  match t with
  | .tb0 => s.time.tb0
  | .tb1 => s.time.tb1

def State.setTimebase (s : State) (t : Timebase) (r : TimebaseRecord) : State :=
  match t with
  | .tb0 => { s with time := { s.time with tb0 := r } }
  | .tb1 => { s with time := { s.time with tb1 := r } }

/-- NOW of a timebase, as it stands. -/
def State.now (s : State) (t : Timebase) : Tick := (s.timebase t).now

def State.list (s : State) (t : Timebase) : List EntryIdx :=
  match t with
  | .tb0 => s.engine.list0
  | .tb1 => s.engine.list1

def State.setList (s : State) (t : Timebase) (l : List EntryIdx) : State :=
  match t with
  | .tb0 => { s with engine := { s.engine with list0 := l } }
  | .tb1 => { s with engine := { s.engine with list1 := l } }

def State.group (s : State) (g : GroupIdx) : Group := s.engine.groups[g]

def State.setGroup (s : State) (g : GroupIdx) (r : Group) : State :=
  { s with engine := { s.engine with groups := s.engine.groups.set g r } }

def State.setActivity (s : State) (a : Activity) : State :=
  { s with engine := { s.engine with activity := a } }

def State.queue (s : State) (q : QueueId) : NoticeQueue :=
  match q with
  | .nq0 => s.notices.nq0
  | .nq1 => s.notices.nq1

def State.setQueue (s : State) (q : QueueId) (n : NoticeQueue) : State :=
  match q with
  | .nq0 => { s with notices := { s.notices with nq0 := n } }
  | .nq1 => { s with notices := { s.notices with nq1 := n } }

def State.setReports (s : State) (l : List EntryIdx) : State :=
  { s with notices := { s.notices with reports := l } }

def State.line (s : State) (l : TrigIdx) : TriggerLine := s.trig.lines[l]

def State.setLine (s : State) (l : TrigIdx) (r : TriggerLine) : State :=
  { s with trig := { lines := s.trig.lines.set l r } }

/-- The window misuse flag is set (R187). -/
def State.misuse (s : State) : State := { s with bus := { s.bus with wm := true } }

/-- A read forms the byte `b` (R184). -/
def State.answerRead (s : State) (b : Byte) : State := { s with bus := { s.bus with readData := some b } }

/-! ## Deadline arithmetic (R28, R29, R31) -/

/-- The distance of a deadline against NOW (R28). -/
def distance (d now : Tick) : Int :=
  if (d - now).toNat < Config.halfRange then (d - now).toNat
  else ((d - now).toNat : Int) - Config.tickRange

/-- A deadline is due when its distance is 0 or less (R29). -/
def isDue (d now : Tick) : Bool := decide (distance d now ≤ 0)

/-- The clamp of R31: a deadline of negative distance is taken as NOW. -/
def clampDeadline (d now : Tick) : Tick := if distance d now < 0 then now else d

/-- The lateness of a deadline at or behind NOW, capped at 65,535 (R31). -/
def latenessOf (d now : Tick) : BitVec 16 :=
  BitVec.ofNat 16 (min (-(distance d now)).toNat Config.latenessCap)

/-- The remaining that a hold walk captures: the distance when it is 1 or more, else 0 (R115). -/
def heldRemaining (d now : Tick) : Tick := if 1 ≤ distance d now then d - now else 0

/-! ## Entries -/

/-- Repeats left after a reload (R4). -/
def Entry.reload (x : Entry) : Byte := if x.period = 0 then 1 else x.behavior.repeatLoad

/-- An entry at `st` with its live fields 0 (R2). -/
def Entry.settled (x : Entry) (st : EntryState) : Entry :=
  { x with state := st, deadline := 0, remaining := 0, repeatsLeft := 0 }

/-- ARMED with a deadline and repeats left (R2, R45). -/
def Entry.armed (x : Entry) (deadline : Tick) (repeats : Byte) : Entry :=
  { x with state := .armed, deadline := deadline, remaining := 0, repeatsLeft := repeats }

/-- HELD with a remaining and repeats left (R2, R115). -/
def Entry.heldWith (x : Entry) (remaining : Tick) (repeats : Byte) : Entry :=
  { x with state := .held, deadline := 0, remaining := remaining, repeatsLeft := repeats }

/-- The entry that ALLOC loads (R3). -/
def Entry.allocated : Entry :=
  { state := .idle, startDelay := 0, period := 0, behavior := .defaults, repeatsLeft := 0,
    deadline := 0, remaining := 0 }

/-- The entry after `e` on a list (R7, R43). -/
def following (l : List EntryIdx) (e : EntryIdx) : Option EntryIdx :=
  match l with
  | a :: rest => if a = e then rest.head? else following rest e
  | [] => none

/-- The next field of an entry (R1, R2). -/
def State.nextOf (s : State) (e : EntryIdx) : Option EntryIdx :=
  match (s.entry e).state with
  | .free => following s.table.freeList e
  | .armed => following (s.list (s.entry e).behavior.timebase) e
  | .idle | .held | .spent => none

/-! ## Pending lists (R43, R45, R46) -/

/-- The place of an insertion: behind the last of the leading entries whose distance is equal or smaller (R45). -/
def insertByDistance (dist : EntryIdx → Int) (e : EntryIdx) (d : Int) (l : List EntryIdx) : List EntryIdx :=
  match l with
  | [] => [e]
  | a :: rest => if dist a ≤ d then a :: insertByDistance dist e d rest else e :: a :: rest

/-- How many entries the search for that place passes (R51). -/
def passedByDistance (dist : EntryIdx → Int) (d : Int) (l : List EntryIdx) : Nat :=
  match l with
  | [] => 0
  | a :: rest => if dist a ≤ d then passedByDistance dist d rest + 1 else 0

/-- The head of a pending list, when it is due against NOW as it stands (R29). -/
def State.dueHead (s : State) (t : Timebase) : Option EntryIdx :=
  match s.list t with
  | [] => none
  | e :: _ => if isDue (s.entry e).deadline (s.now t) then some e else none

/-- The expiry request: a head is due (R29). -/
def State.expiryRequest (s : State) : Bool := (s.dueHead .tb0).isSome || (s.dueHead .tb1).isSome

/-- Take an entry off its pending list (R46). -/
def State.unlink (s : State) (e : EntryIdx) : State :=
  s.setList (s.entry e).behavior.timebase ((s.list (s.entry e).behavior.timebase).erase e)

/-- The search passes over the entry's own old place, and places it by distance against the operation's NOW (R45). -/
def State.insertAt (s : State) (now : Tick) (e : EntryIdx) (deadline : Tick) : State :=
  s.setList (s.entry e).behavior.timebase
    (insertByDistance (fun a => distance (s.entry a).deadline now) e (distance deadline now)
      ((s.list (s.entry e).behavior.timebase).erase e))

/-- The final step of an insertion: the links and the entry's live fields together (R45). -/
def State.link (s : State) (now : Tick) (e : EntryIdx) (deadline : Tick) (repeats : Byte) : State :=
  (s.insertAt now e deadline).setEntry e ((s.entry e).armed deadline repeats)

/-! ## Groups (R112) -/

/-- The held count of an entry's group rises by one. -/
def State.raiseHeld (s : State) (g : Option GroupIdx) : State :=
  match g with
  | none => s
  | some g => s.setGroup g { s.group g with heldCount := (s.group g).heldCount + 1 }

/-- The held count of an entry's group falls by one. -/
def State.lowerHeld (s : State) (g : Option GroupIdx) : State :=
  match g with
  | none => s
  | some g => s.setGroup g { s.group g with heldCount := (s.group g).heldCount - 1 }

/-- The group of an entry is in phase HELD (R113). -/
def State.groupHeld (s : State) (e : EntryIdx) : Bool :=
  match (s.entry e).behavior.group with
  | none => false
  | some g => (s.group g).phase == .held

/-! ## Moves of an entry -/

/-- An ARMED entry leaves its list, and a HELD entry leaves its group's held count (R46, R112). -/
def State.detach (s : State) (e : EntryIdx) : State :=
  match (s.entry e).state with
  | .armed => s.unlink e
  | .held => s.lowerHeld (s.entry e).behavior.group
  | .free | .idle | .spent => s

/-- Release: to the tail of the free list, FREE, live fields 0, program kept (R8). -/
def State.release (s : State) (e : EntryIdx) : State :=
  let s' := s.setEntry e ((s.entry e).settled .free)
  { s' with table := { s'.table with freeList := s'.table.freeList ++ [e] } }

/-! ## Engine claims (R17) -/

/-- The entries that the operation in flight has claimed. -/
def State.claims (s : State) : List EntryIdx :=
  match s.engine.activity with
  | .busy op => op.plan.claims
  | .idle | .deciding | .chosen _ => []

def State.claimed (s : State) (e : EntryIdx) : Bool := s.claims.contains e

/-! ## Notices (R90–R99) -/

/-- The notices of one queue that name `e`, in the queue proper and the backlog together (R107). -/
def NoticeQueue.countOf (n : NoticeQueue) (e : EntryIdx) : Nat :=
  n.proper.countP (·.entry == e) + n.backlog.countP (·.entry == e)

/-- The notices naming `e` across both queues and both backlogs (R106). -/
def State.noticesOf (s : State) (e : EntryIdx) : Nat :=
  (s.queue .nq0).countOf e + (s.queue .nq1).countOf e

/-- A count as a notice holds it: stopped at 255 (R90). -/
def cappedCount (n : Nat) : Byte := BitVec.ofNat 8 (min n Config.countCap)

/-- The notice that a post opens (R93). -/
def Post.opened (p : Post) : Notice :=
  { entry := p.entry, tag := p.tag, timebase := p.timebase, final := p.final, chainMiss := p.chainMiss,
    saturated := decide (Config.countCap < p.count), count := cappedCount p.count,
    deadline := p.deadline, lateness := p.lateness }

/-- A post merged into a notice (R94). -/
def Notice.merged (n : Notice) (p : Post) : Notice :=
  { entry := n.entry, tag := p.tag, timebase := p.timebase, final := n.final || p.final,
    chainMiss := n.chainMiss || p.chainMiss,
    saturated := n.saturated || decide (Config.countCap < n.count.toNat + p.count),
    count := cappedCount (n.count.toNat + p.count), deadline := p.deadline, lateness := p.lateness }

/-- Merge a post into the notice that names its entry, where it stands. -/
def mergeWhere (p : Post) (l : List Notice) : List Notice :=
  match l with
  | [] => []
  | n :: rest => if n.entry = p.entry then n.merged p :: rest else n :: mergeWhere p rest

/-- The sealed head, or nothing (R92). -/
def NoticeQueue.sealedPart (n : NoticeQueue) : List Notice := if n.headSealed then n.proper.take 1 else []

/-- The open notices of the queue proper (R92). -/
def NoticeQueue.openPart (n : NoticeQueue) : List Notice := if n.headSealed then n.proper.drop 1 else n.proper

/-- A new notice joins the backlog at the position of its entry index (R91). -/
def insertByEntry (x : Notice) (l : List Notice) : List Notice :=
  match l with
  | [] => [x]
  | n :: rest => if n.entry < x.entry then n :: insertByEntry x rest else x :: n :: rest

/-- The four cases of a post, in their order (R93). -/
def NoticeQueue.posted (n : NoticeQueue) (p : Post) : NoticeQueue :=
  if n.openPart.any (·.entry == p.entry) then
    { n with proper := n.sealedPart ++ mergeWhere p n.openPart }
  else if n.backlog.any (·.entry == p.entry) then
    { n with backlog := mergeWhere p n.backlog }
  else if n.proper.length < Config.queueCapacity then
    { n with proper := n.proper ++ [p.opened] }
  else
    { n with backlog := insertByEntry p.opened n.backlog }

/-- Move the lowest backlog notices to the tail of a queue proper while it has room (R99). -/
def drainInto (proper backlog : List Notice) : List Notice × List Notice :=
  match backlog with
  | [] => (proper, [])
  | b :: rest =>
    if proper.length < Config.queueCapacity then drainInto (proper ++ [b]) rest else (proper, b :: rest)

/-- The drain that is part of every removal (R99). -/
def NoticeQueue.drained (n : NoticeQueue) : NoticeQueue :=
  { n with proper := (drainInto n.proper n.backlog).1, backlog := (drainInto n.proper n.backlog).2 }

/-- The head names `e`. -/
def NoticeQueue.headNames (n : NoticeQueue) (e : EntryIdx) : Bool :=
  match n.proper with
  | [] => false
  | h :: _ => h.entry == e

/-- The head is removed, sealed or open; the port is reset and the place refilled (R97, R98). -/
def NoticeQueue.popped (n : NoticeQueue) : NoticeQueue :=
  { n with proper := n.proper.drop 1, headSealed := false, pointer := 0, latch := [] }.drained

/-- Every notice naming `e` is removed, a sealed head included (R101). -/
def NoticeQueue.purged (n : NoticeQueue) (e : EntryIdx) : NoticeQueue :=
  { n with
    proper := n.proper.filter (·.entry != e), backlog := n.backlog.filter (·.entry != e),
    headSealed := n.headSealed && !n.headNames e }.drained

/-- Every notice of the queue is removed (R103); port and standing pop are not touched. -/
def NoticeQueue.flushed (n : NoticeQueue) : NoticeQueue :=
  { n with proper := [], backlog := [], headSealed := false }

/-! ## Release reports (R10, R106) -/

/-- The Timer Table takes a report (R10). -/
def State.takeReport (s : State) (e : EntryIdx) : State :=
  if (s.entry e).state = .spent ∧ s.noticesOf e = 0 then s.release e else s

/-- The Notice Unit sends a report: taken at once, or waiting while the entry is under an engine claim (R17). -/
def State.sendReport (s : State) (e : EntryIdx) : State :=
  if s.claimed e then s.setReports (s.notices.reports ++ [e]) else s.takeReport e

/-- A report is sent when a removal has left no notice naming `e` (R106). -/
def State.reportIfNone (s : State) (e : EntryIdx) : State :=
  if s.noticesOf e = 0 then s.sendReport e else s

/-- A purge in both queues, with its report (R101). -/
def State.purge (s : State) (e : EntryIdx) : State :=
  let s' := (s.setQueue .nq0 ((s.queue .nq0).purged e)).setQueue .nq1 ((s.queue .nq1).purged e)
  if s.noticesOf e = 0 then s' else s'.sendReport e

/-! ## Output lines (R166) -/

/-- The level of a line after an operation (R166). -/
def LineOp.apply (o : LineOp) (level : Bool) : Bool :=
  match o with
  | .set => true
  | .clear => false
  | .toggle => !level

/-- A line operation changes the named line only (R166). -/
def State.lineOp (s : State) (n : LineIdx) (o : LineOp) : State :=
  { s with out := { s.out with latch := s.out.latch.set n (o.apply s.out.latch[n]) } }

end Sys2Proof.Machine
end

