-- ==== Sys2Proof/Machine/Flags.lean ====
section
/-!
DEFINITION. Conditions and bytes that the host sees without a side effect: the seven interrupt sources and INT#, the
status locations, the pins, and the contents of the views and ports (R174–R180, R108, R132, R167, R169, R191–R193).
-/
namespace Sys2Proof.Machine

/-! ## Bits -/

/-- The number whose bits are the listed ones, least significant first. -/
def natOfBits (l : List Bool) : Nat :=
  match l with
  | [] => 0
  | b :: rest => b.toNat + 2 * natOfBits rest

def byteOfBits (l : List Bool) : Byte := BitVec.ofNat 8 (natOfBits l)

/-! ## Interrupt sources (R174) -/

/-- NQ0 or NQ1 is pending (R109). -/
def NoticeQueue.pending (n : NoticeQueue) : Bool :=
  decide (n.watermark.toNat ≤ n.proper.length) || !n.backlog.isEmpty

/-- RES is pending (R151). -/
def State.resPending (s : State) : Bool := !s.cmd.results.isEmpty

/-- FLT0 or FLT1 is pending (R24). -/
def State.faultPending (s : State) (t : Timebase) : Bool := (s.timebase t).state == .faulted

/-- TRG is pending (R162). -/
def State.trgPending (s : State) : Bool := s.trig.lines.toList.any fun l => l.overrun || l.miss

/-- The seven sources in the order of IPEND (R193). -/
def State.sources (s : State) : List Bool :=
  [s.notices.nq0.pending, s.notices.nq1.pending, s.resPending, s.irq.rej, s.faultPending .tb0,
    s.faultPending .tb1, s.trgPending]

/-- IPEND (R177, R193). -/
def State.ipend (s : State) : Byte := byteOfBits s.sources

/-- IEN as it is read: the eighth position is 0 (R177). -/
def State.ienByte (s : State) : Byte := s.irq.ien.setWidth 8

/-- The condition of INT#, on the part as it stands (R179). -/
def State.intAsserted (s : State) : Bool := s.irq.master && ((s.ipend &&& s.ienByte) != 0)

/-- OUTn: driven to its latch level, or high impedance (R167). -/
def State.pin (s : State) (n : LineIdx) : Option Bool := if s.out.enable then some s.out.latch[n] else none

/-! ## Single-byte locations (R193) -/

/-- A command is shown as in execution (R151). -/
def State.commandShown (s : State) : Bool := s.cmd.execution.isSome

/-- GSTAT (R180, R193). -/
def State.gstat (s : State) : Byte :=
  BitVec.ofNat 8 (s.time.tb0.state.code + 4 * s.time.tb1.state.code + 16 * s.out.enable.toNat
    + 32 * s.irq.master.toNat + 64 * s.bus.wm.toNat + 128 * s.commandShown.toNat)

/-- CQSTAT (R132, R193). -/
def State.cqstat (s : State) : Byte :=
  BitVec.ofNat 8 ((Config.commandCapacity - s.cmd.queue.length) + 16 * s.cmd.seq.toNat)

/-- QLEVEL0 or QLEVEL1 (R108, R193). -/
def NoticeQueue.level (n : NoticeQueue) : Byte :=
  BitVec.ofNat 8 (n.proper.length + 32 * (!n.backlog.isEmpty).toNat + 64 * n.headSealed.toNat
    + 128 * n.standing.isSome.toNat)

/-- The OUT locations: lines 0–7, and lines 8–15 (R169). -/
def State.outByte (s : State) (high : Bool) : Byte :=
  byteOfBits (if high then s.out.latch.toList.drop 8 else s.out.latch.toList.take 8)

/-! ## Port items (R191, R192) -/

/-- A result record as the RESULT port returns it (R191). -/
def ResultRecord.bytes (r : ResultRecord) : List Byte :=
  [r.seq.setWidth 8, r.code, BitVec.ofNat 8 r.status.code, r.value]

/-- A notice as its port returns it (R191). -/
def Notice.bytes (n : Notice) : List Byte :=
  [BitVec.ofNat 8 n.entry.val, n.tag,
    BitVec.ofNat 8 (Timebase.code n.timebase + 2 * n.final.toNat + 4 * n.chainMiss.toNat
      + 8 * n.saturated.toNat),
    n.count, byteOf n.deadline.toNat 0, byteOf n.deadline.toNat 1, byteOf n.deadline.toNat 2,
    byteOf n.lateness.toNat 0, byteOf n.lateness.toNat 1]

/-- The empty pattern of a port of `n` bytes (R191). -/
def emptyPattern (n : Nat) : List Byte := 0xFF :: List.replicate (n - 1) 0

/-- Byte 18 of an entry view: the outstanding-notice summary (R107, R192). -/
def State.outstanding (s : State) (e : EntryIdx) : Byte :=
  BitVec.ofNat 8 ((s.queue .nq0).countOf e + 4 * ((s.queue .nq0).backlog.any (·.entry == e)).toNat
    + 8 * (s.queue .nq1).countOf e + 32 * ((s.queue .nq1).backlog.any (·.entry == e)).toNat)

/-- The time field of an entry view (R192). -/
def Entry.time (x : Entry) : Tick :=
  match x.state with
  | .armed => x.deadline
  | .held => x.remaining
  | .free | .idle | .spent => 0

/-- An entry view (R192). -/
def State.entryView (s : State) (e : EntryIdx) : List Byte :=
  let x := s.entry e
  [BitVec.ofNat 8 x.state.code, x.behavior.modeByte, x.behavior.actionLineByte, x.behavior.repeatLoad,
    x.behavior.tag, indexByte x.behavior.group, indexByte x.behavior.successor,
    byteOf x.startDelay.toNat 0, byteOf x.startDelay.toNat 1, byteOf x.startDelay.toNat 2,
    byteOf x.period.toNat 0, byteOf x.period.toNat 1, byteOf x.period.toNat 2, x.repeatsLeft,
    byteOf x.time.toNat 0, byteOf x.time.toNat 1, byteOf x.time.toNat 2, indexByte (s.nextOf e),
    s.outstanding e]

/-- A group view (R192). -/
def State.groupView (s : State) (g : GroupIdx) : List Byte :=
  [BitVec.ofNat 8 (s.group g).phase.code, (s.group g).depth.setWidth 8, BitVec.ofNat 8 (s.group g).heldCount]

/-- The record a trigger view shows, with its condition code (R192). -/
def TriggerRecord.shown (r : TriggerRecord) : Nat × Option Capture :=
  match r with
  | .none => (0, Option.none)
  | .pending c => (1, some c)
  | .inService c _ => (2, some c)

/-- A held edge waits (R164). -/
def TriggerRecord.hasHeldEdge (r : TriggerRecord) : Bool :=
  match r with
  | .inService _ (some _) => true
  | .none | .pending _ | .inService _ Option.none => false

/-- Bytes 3–9 of a trigger view, and the record action (R192). -/
def Capture.fields (c : Option Capture) : Nat × List Byte :=
  match c with
  | none => (0, List.replicate 7 0)
  | some c => (c.action.code,
      [BitVec.ofNat 8 c.action.target, byteOf c.now0.toNat 0, byteOf c.now0.toNat 1, byteOf c.now0.toNat 2,
        byteOf c.now1.toNat 0, byteOf c.now1.toNat 1, byteOf c.now1.toNat 2])

/-- A trigger view (R192). -/
def State.triggerView (s : State) (l : TrigIdx) : List Byte :=
  let x := s.line l
  [BitVec.ofNat 8 (x.edge.code + 4 * x.action.code + 16 * x.level.toNat + 32 * x.record.shown.1
      + 128 * x.record.hasHeldEdge.toNat),
    BitVec.ofNat 8 x.action.target,
    BitVec.ofNat 8 ((Capture.fields x.record.shown.2).1 + 4 * x.overrun.toNat + 8 * x.miss.toNat)]
  ++ (Capture.fields x.record.shown.2).2

/-- A list summary (R44, R192). -/
def State.listSummary (s : State) (t : Timebase) : List Byte :=
  [indexByte (s.list t).head?, BitVec.ofNat 8 (s.list t).length]

/-- The free-list summary (R7, R192). -/
def State.freeSummary (s : State) : List Byte :=
  [indexByte s.table.freeList.head?, indexByte s.table.freeList.getLast?,
    BitVec.ofNat 8 s.table.freeList.length]

/-- The length of a view item (R185). -/
def ViewItem.length (v : ViewItem) : Nat :=
  match v with
  | .entry _ => 19
  | .group _ => 3
  | .trigger _ => 10
  | .list _ => 2
  | .freeList => 3

/-- A view item as the VIEW port latches it (R185). -/
def State.viewBytes (s : State) (v : ViewItem) : List Byte :=
  match v with
  | .entry e => s.entryView e
  | .group g => s.groupView g
  | .trigger l => s.triggerView l
  | .list t => s.listSummary t
  | .freeList => s.freeSummary

/-- The item that a VSEL code selects; none for an invalid code (R186). -/
def ViewItem.ofCode (b : Byte) : Option ViewItem :=
  if h : b.toNat < 48 then some (.entry ⟨b.toNat, h⟩)
  else if h : 0x40 ≤ b.toNat ∧ b.toNat < 0x48 then some (.group ⟨b.toNat - 0x40, by omega⟩)
  else if h : 0x50 ≤ b.toNat ∧ b.toNat < 0x54 then some (.trigger ⟨b.toNat - 0x50, by omega⟩)
  else if b = 0x60 then some (.list .tb0)
  else if b = 0x61 then some (.list .tb1)
  else if b = 0x62 then some .freeList
  else none

/-- The VSEL code of an item (R186). -/
def ViewItem.code (v : ViewItem) : Byte :=
  match v with
  | .entry e => BitVec.ofNat 8 e.val
  | .group g => BitVec.ofNat 8 (0x40 + g.val)
  | .trigger l => BitVec.ofNat 8 (0x50 + l.val)
  | .list .tb0 => 0x60
  | .list .tb1 => 0x61
  | .freeList => 0x62

/-- NOW as the NOW port latches it (R40). -/
def nowBytes (v : Tick) : List Byte := [byteOf v.toNat 0, byteOf v.toNat 1, byteOf v.toNat 2]

end Sys2Proof.Machine
end

