-- ==== Sys2Proof/Machine/CommandUnit.lean ====
section
/-!
DEFINITION. The Command Unit (R127–R153): acceptance, the take with its checks, results and their port, DISCARD.
-/
namespace Sys2Proof.Machine

/-- A record joins the tail of the result queue (R141). -/
def State.addResult (s : State) (c : QueuedCommand) (status : Status) (value : Byte) : State :=
  { s with cmd := { s.cmd with results := s.cmd.results ++
      [{ seq := c.seq, code := c.code, status := status, value := value }] } }

/-- The take conditions other than a non-empty queue (R134). -/
def State.canTake (s : State) : Bool :=
  s.cmd.execution.isNone && decide (s.cmd.results.length < Config.resultCapacity)

/-- Take commands from the given queue while R134 allows: a failed check is answered in the take event (R136) and
the next command is then taken; a command that passes becomes the command in execution. -/
def takeFrom (queue : List QueuedCommand) (s : State) : State :=
  match queue with
  | [] => { s with cmd := { s.cmd with queue := [] } }
  | c :: rest =>
    if s.canTake then
      match c.check with
      | .error status => takeFrom rest (s.addResult c status c.failValue)
      | .ok command =>
        { s with cmd := { s.cmd with queue := rest, execution := some ⟨c, command.firstStage⟩ } }
    else { s with cmd := { s.cmd with queue := c :: rest } }

/-- The take of the Command Unit (R134). -/
def State.take (s : State) : State := takeFrom s.cmd.queue s

/-- The command in execution leaves it with its result, and the next command is taken (R134, R141). -/
def State.answer (s : State) (status : Status) (value : Byte) : State :=
  match s.cmd.execution with
  | none => s
  | some x =>
    (({ s with cmd := { s.cmd with execution := none } } : State).addResult x.command status value).take

/-- The command in execution at a stage, with its parameters read. -/
def State.executing (s : State) (stage : Stage) : Option Command :=
  match s.cmd.execution with
  | none => none
  | some x =>
    if x.stage = stage then
      match x.command.check with
      | .ok c => some c
      | .error _ => none
    else none

/-- The command in execution moves to another stage (R135). -/
def State.setStage (s : State) (stage : Stage) : State :=
  { s with cmd := { s.cmd with execution := s.cmd.execution.map fun x => { x with stage := stage } } }

/-- A write to CMD: accepted, or refused with REJ (R128, R131). -/
def State.writeCmd (s : State) (code : Byte) : State :=
  if s.cmd.queue.length < Config.commandCapacity then
    ({ s with cmd := { s.cmd with
        queue := s.cmd.queue ++ [{ code := code, params := s.cmd.staging, seq := s.cmd.seq }],
        seq := s.cmd.seq + 1, pptr := 0 } } : State).take
  else { s with irq := { s.irq with rej := true } }

/-- A write to PARAM (R129). -/
def State.writeParam (s : State) (b : Byte) : State :=
  { s with cmd := { s.cmd with staging := s.cmd.staging.set s.cmd.pptr b, pptr := s.cmd.pptr + 1 } }

/-- A read of PARAM (R129). -/
def State.readParam (s : State) : State :=
  ({ s with cmd := { s.cmd with pptr := s.cmd.pptr + 1 } } : State).answerRead s.cmd.staging[s.cmd.pptr]

/-- A write to PPTR: 0–7 sets the pointer, any other value is refused with WM (R130). -/
def State.writePptr (s : State) (b : Byte) : State :=
  if h : b.toNat < 8 then { s with cmd := { s.cmd with pptr := ⟨b.toNat, h⟩ } } else s.misuse

/-- A read of the RESULT port (R143). -/
def State.readResult (s : State) : State :=
  let latch :=
    if s.cmd.resultPointer = 0 then
      match s.cmd.results with
      | [] => emptyPattern 4
      | r :: _ => r.bytes
    else s.cmd.resultLatch
  ({ s with cmd := { s.cmd with resultLatch := latch, resultPointer := s.cmd.resultPointer + 1 } } :
    State).answerRead (latch.getD s.cmd.resultPointer 0)

/-- A RESULT pop (R144), after which the next command may be taken (R134). -/
def State.popResult (s : State) : State :=
  match s.cmd.results with
  | [] => s.misuse
  | _ :: rest =>
    ({ s with cmd := { s.cmd with results := rest, resultPointer := 0, resultLatch := [] } } : State).take

/-- A DISCARD at the Command Unit (R149). -/
def State.discardCommands (s : State) : State := { s with cmd := { s.cmd with queue := [] } }

end Sys2Proof.Machine
end

