-- ==== Sys2Proof/Machine/TimerTable.lean ====
section
/-!
DEFINITION. The commands that the Timer Table owns (R11–R15). Each gives the state, the status and the value byte at
the point at which the table takes the command.
-/
namespace Sys2Proof.Machine

/-- What an owner returns to the Command Unit (R138). -/
abbrev Owned := State × Status × Byte

def entryByte (e : EntryIdx) : Byte := BitVec.ofNat 8 e.val

/-- A FREE entry leaves the free list, wherever it stands, and is loaded with the defaults (R3, R11, R12). -/
def State.allocate (s : State) (e : EntryIdx) : State :=
  let s' := s.setEntry e .allocated
  { s' with table := { s'.table with freeList := s'.table.freeList.erase e } }

/-- ALLOC: the head of the free list for "any", else the named entry if it is FREE (R11, R12). -/
def ownAlloc (wanted : Option EntryIdx) (s : State) : Owned :=
  match wanted with
  | none =>
    match s.table.freeList with
    | [] => (s, .exhausted, 0xFF)
    | e :: _ => (s.allocate e, .ok, entryByte e)
  | some e => if (s.entry e).state = .free then (s.allocate e, .ok, entryByte e) else (s, .state, 0xFF)

/-- SETUP TIMING (R13). -/
def ownSetupTiming (e : EntryIdx) (startDelay period : Tick) (s : State) : Owned :=
  if (s.entry e).state = .idle then
    (s.setEntry e { s.entry e with startDelay := startDelay, period := period }, .ok, entryByte e)
  else (s, .state, entryByte e)

/-- SETUP BEHAVIOR (R14). -/
def ownSetupBehavior (e : EntryIdx) (b : Behavior) (s : State) : Owned :=
  if (s.entry e).state = .idle then (s.setEntry e { s.entry e with behavior := b }, .ok, entryByte e)
  else (s, .state, entryByte e)

/-- Repeats left of an ARMED or HELD entry after its period changes (R15). -/
def retunedRepeats (x : Entry) (period : Tick) : Byte :=
  if x.period = 0 then (if period = 0 then x.repeatsLeft else x.behavior.repeatLoad)
  else if period = 0 then 1 else x.repeatsLeft

/-- RETUNE (R15). -/
def ownRetune (e : EntryIdx) (period : Tick) (s : State) : Owned :=
  match (s.entry e).state with
  | .idle => (s.setEntry e { s.entry e with period := period }, .ok, entryByte e)
  | .armed | .held =>
    (s.setEntry e { s.entry e with period := period, repeatsLeft := retunedRepeats (s.entry e) period },
      .ok, entryByte e)
  | .free | .spent => (s, .state, entryByte e)

end Sys2Proof.Machine
end

