-- ==== Sys2Proof/Machine/TimebaseUnit.lean ====
section
/-!
DEFINITION. The Timebase Unit (R23–R42): counted events, ticks with the falling-behind fault, the directly handed
TIMEBASE actions, and the NOW port.
-/
namespace Sys2Proof.Machine

/-- What a tick makes of a timebase record, from the distance of the list head if there is one (R26). -/
def TimebaseRecord.ticked (r : TimebaseRecord) (head : Option Tick) : TimebaseRecord :=
  match head with
  | none => { r with now := r.now + 1 }
  | some d =>
    if distance d r.now ≤ Config.faultThreshold then { r with state := .faulted }
    else if distance d (r.now + 1) = Config.faultThreshold then
      { r with now := r.now + 1, state := .faulted }
    else { r with now := r.now + 1 }

/-- The deadline of the head of a pending list (R26). -/
def State.headDeadline (s : State) (t : Timebase) : Option Tick :=
  (s.list t).head?.map fun e => (s.entry e).deadline

/-- The next counted event of a RUNNING timebase is a tick (R25). -/
def TimebaseRecord.aboutToTick (r : TimebaseRecord) : Bool :=
  r.state == .running && decide (r.divider.toNat ≤ r.partialCount.toNat)

/-- A counted event: the partial count rises, or becomes 0 with a tick; nothing while not RUNNING (R25). -/
def State.countEvent (s : State) (t : Timebase) : State :=
  if (s.timebase t).state = .running then
    if (s.timebase t).aboutToTick then
      s.setTimebase t (({ s.timebase t with partialCount := 0 } : TimebaseRecord).ticked (s.headDeadline t))
    else s.setTimebase t { s.timebase t with partialCount := (s.timebase t).partialCount + 1 }
  else s

/-- The engine is not IDLE, so a CLK period counts towards the durations of R51. -/
def Activity.timed (a : Activity) : Bool :=
  match a with
  | .idle => false
  | .deciding | .chosen _ | .busy _ => true

/-- One CLK period: a counted event of TB0 (R25). -/
def State.clkPeriod (s : State) : State :=
  let s' := s.countEvent .tb0
  if s'.engine.activity.timed then { s' with engine := { s'.engine with clocks := s'.engine.clocks + 1 } }
  else s'

/-- The change to `level` is an edge of the selected kind (R25). -/
def TkiEdge.selects (e : TkiEdge) (level : Bool) : Bool :=
  match e with
  | .rising => level
  | .falling => !level

/-- A change of level on TKI: the last level is replaced, and an edge of the selected kind is counted (R23, R25). -/
def State.tkiChange (s : State) : State :=
  let s' : State := { s with time := { s.time with tkiLevel := !s.time.tkiLevel } }
  if s.time.tkiEdge.selects (!s.time.tkiLevel) then s'.countEvent .tb1 else s'

/-- The counted event that makes a tick: a CLK period for TB0, a qualifying TKI edge for TB1. Where the next such
event would be no tick, the tick does not take place. -/
def State.tick (s : State) (t : Timebase) : State :=
  match t with
  | .tb0 => if s.time.tb0.aboutToTick then s.clkPeriod else s
  | .tb1 =>
    if s.time.tb1.aboutToTick && s.time.tkiEdge.selects (!s.time.tkiLevel) then s.tkiChange else s

/-- SET DIVIDER (R35). -/
def ownSetDivider (t : Timebase) (divider : BitVec 16) (edge : Option TkiEdge) (s : State) : Owned :=
  let s' := s.setTimebase t { s.timebase t with divider := divider, partialCount := 0 }
  match edge with
  | none => (s', .ok, 0)
  | some e => ({ s' with time := { s'.time with tkiEdge := e } }, .ok, 0)

/-- START (R36). -/
def ownStart (t : Timebase) (s : State) : Owned :=
  match (s.timebase t).state with
  | .stopped => (s.setTimebase t { s.timebase t with state := .running, partialCount := 0 }, .ok, 0)
  | .running => (s, .noEffect, 0)
  | .faulted => (s, .faulted, 0)

/-- STOP (R36). -/
def ownStop (t : Timebase) (s : State) : Owned :=
  match (s.timebase t).state with
  | .stopped => (s, .noEffect, 0)
  | .running => (s.setTimebase t { s.timebase t with state := .stopped }, .ok, 0)
  | .faulted => (s, .faulted, 0)

/-- CLEAR FAULT (R38). -/
def ownClearFault (t : Timebase) (s : State) : Owned :=
  match (s.timebase t).state with
  | .faulted => (s.setTimebase t { s.timebase t with state := .stopped }, .ok, 0)
  | .stopped | .running => (s, .noEffect, 0)

/-- Set NOW to 0 (R37). -/
def State.zeroNow (s : State) (t : Timebase) : State := s.setTimebase t { s.timebase t with now := 0 }

/-- A timebase after a scheduler clear: its divider is kept (R42). -/
def TimebaseRecord.cleared (r : TimebaseRecord) : TimebaseRecord :=
  { state := .stopped, divider := r.divider, partialCount := 0, now := 0 }

end Sys2Proof.Machine
end

