-- ==== Sys2Proof/Machine/TriggerUnit.lean ====
section
/-!
DEFINITION. The Trigger Unit (R154–R165): edges, records, flags and BIND TRIGGER.
-/
namespace Sys2Proof.Machine

/-- Whether a binding counts the edge to `level` (R155). -/
def BindingEdge.counts (b : BindingEdge) (level : Bool) : Bool :=
  match b with
  | .off => false
  | .rising => level
  | .falling => !level
  | .both => true

/-- A counted edge: a new record, a merge with OVERRUN, or a held edge (R156–R158). -/
def TriggerLine.counted (x : TriggerLine) (now0 now1 : Tick) : TriggerLine :=
  match x.record with
  | .none => { x with record := .pending ⟨x.action, now0, now1⟩ }
  | .pending _ => { x with overrun := true }
  | .inService c none => { x with record := .inService c (some ⟨x.action, now0, now1⟩) }
  | .inService _ (some _) => { x with overrun := true }

/-- A change of level: the last level is replaced, and a counted edge is taken (R155). -/
def TriggerLine.changed (x : TriggerLine) (now0 now1 : Tick) : TriggerLine :=
  let x' := { x with level := !x.level }
  if x.edge.counts (!x.level) then x'.counted now0 now1 else x'

/-- A change of level on a trigger line (R155). -/
def State.triggerChange (s : State) (l : TrigIdx) : State :=
  s.setLine l ((s.line l).changed (s.now .tb0) (s.now .tb1))

/-- The pending record of a line. -/
def TriggerLine.waiting (x : TriggerLine) : Option Capture :=
  match x.record with
  | .pending c => some c
  | .none | .inService _ _ => none

/-- The lowest-numbered line with a PENDING record, with that record (R48, R159). -/
def State.waitingLine (s : State) : Option (TrigIdx × Capture) :=
  (List.finRange 4).findSome? fun l => (s.line l).waiting.map fun c => (l, c)

/-- At the completion the record is removed and a held edge becomes the PENDING record; an outcome that a command
would report as STATE, FAULTED or LIMIT sets MISS (R158, R160, R161). -/
def TriggerLine.finished (x : TriggerLine) (status : Status) : TriggerLine :=
  let failed : Bool :=
    match status with
    | .state | .faulted | .limit => true
    | .ok | .noEffect | .badCode | .badIndex | .range | .exhausted => false
  let record : TriggerRecord :=
    match x.record with
    | .inService _ (some h) => .pending h
    | .none | .pending _ | .inService _ none => .none
  { x with record := record, miss := x.miss || failed }

/-- A write to the trigger flag clear location (R162, R193). -/
def State.clearTriggerFlags (s : State) (b : Byte) : State :=
  { s with trig := { lines := Vector.ofFn fun (l : Fin 4) =>
      { s.line l with
        overrun := (s.line l).overrun && !b.getLsbD l.val
        miss := (s.line l).miss && !b.getLsbD (l.val + 4) } } }

/-- BIND TRIGGER (R163). -/
def ownBindTrigger (l : TrigIdx) (edge : BindingEdge) (action : TriggerAction) (s : State) : Owned :=
  (s.setLine l { s.line l with edge := edge, action := action }, .ok, 0)

/-- The Trigger Unit after a scheduler clear: last levels kept (R165). -/
def TriggerUnit.cleared (t : TriggerUnit) : TriggerUnit :=
  { lines := t.lines.map fun x => TriggerLine.reset x.level }

end Sys2Proof.Machine
end

