-- ==== Sys2Proof/Machine/ListEngine.lean ====
section
/-!
DEFINITION. The List Engine (R43–R65): requests and rotation, the plan of each engine command and trigger operation,
the final step, and completion.
-/
namespace Sys2Proof.Machine

/-! ## Requests and rotation (R48, R49) -/

/-- A requester is waiting (R48). -/
def State.waits (s : State) (r : Requester) : Bool :=
  match r with
  | .expiry => s.expiryRequest
  | .command => (s.executing .grantWait).any fun c => c.firstStage == .grantWait
  | .trigger => s.waitingLine.isSome

/-- The requester after another in the rotation (R49). -/
def Requester.next (r : Requester) : Requester :=
  match r with
  | .expiry => .command
  | .command => .trigger
  | .trigger => .expiry

/-- The first waiting requester, beginning at the pointer and following the rotation (R49). -/
def State.firstWaiting (s : State) (r : Requester) : Option Requester :=
  if s.waits r then some r
  else if s.waits r.next then some r.next
  else if s.waits r.next.next then some r.next.next
  else none

/-- The next grant is decided among the requesters waiting at the completion (R49). -/
def State.decideGrant (s : State) : State :=
  s.setActivity
    (match s.firstWaiting s.engine.rotation with
     | some r => .chosen r
     | none => .idle)

/-- The engine can grant requester `r`: it is IDLE, or `r` was chosen at the completion (R49). -/
def State.offers (s : State) (r : Requester) : Bool :=
  match s.engine.activity with
  | .idle => true
  | .chosen r' => r' == r
  | .deciding | .busy _ => false

/-- A grant: the engine is BUSY with the plan, on the NOW0 and NOW1 of this moment (R27, R47). -/
def State.begin (s : State) (client : Client) (plan : Plan) : State :=
  { s with engine := { s.engine with
      activity := .busy { client := client, now0 := s.now .tb0, now1 := s.now .tb1, plan := plan }
      clocks := 0 } }

/-- NOW of a timebase as the operation took it at its grant (R27). -/
def Operation.now (op : Operation) (t : Timebase) : Tick :=
  match t with
  | .tb0 => op.now0
  | .tb1 => op.now1

/-! ## Plans -/

/-- An operation that writes nothing, with its claims and outcome; its duration is the short one of R51. -/
def Plan.refused (claims : List EntryIdx) (status : Status) (value : Nat) : Plan :=
  { claims := claims, lineOp := none, post := none, purge := none, walk := none, acts := [],
    status := status, value := value, bound := 2 }

/-- The duration of an insertion at a deadline, on the lists as they stand: 4 and 1 for each entry passed, the
entries in `skip` being passed over (R45, R51). -/
def State.insertionBound (s : State) (t : Timebase) (skip : List EntryIdx) (deadline : Tick) : Nat :=
  4 + passedByDistance (fun a => distance (s.entry a).deadline (s.now t)) (distance deadline (s.now t))
    ((s.list t).filter fun a => !skip.contains a)

/-- What a start of an entry comes to, in the order of the rows of R55 (and R78, R160). -/
inductive StartOutcome where
  | refuse (status : Status)
  | link
  | hold
  deriving DecidableEq, Repr

/-- The entry's timebase is FAULTED. -/
def State.onFaulted (s : State) (e : EntryIdx) : Bool :=
  (s.timebase (s.entry e).behavior.timebase).state == .faulted

/-- The state table of R55, R78 and R160. -/
def State.startOutcome (s : State) (e : EntryIdx) : StartOutcome :=
  match (s.entry e).state with
  | .free | .spent => .refuse .state
  | .idle => if s.onFaulted e then .refuse .faulted else if s.groupHeld e then .hold else .link
  | .armed => if s.onFaulted e then .refuse .faulted else .link
  | .held => .hold

/-- NOW of an entry's timebase, as it stands. -/
def State.nowOf (s : State) (e : EntryIdx) : Tick := s.now (s.entry e).behavior.timebase

/-- ARM, ARM AT and a trigger ARM of `e` at a deadline (R55, R56, R160): a held start takes the deadline's distance
as its remaining (R119). -/
def State.startPlan (s : State) (e : EntryIdx) (deadline : Tick) : Plan :=
  match s.startOutcome e with
  | .refuse status => .refused [e] status e.val
  | .link =>
    { Plan.refused [e] .ok e.val with
      acts := [.link e deadline (s.entry e).reload]
      bound := s.insertionBound (s.entry e).behavior.timebase [e] deadline }
  | .hold =>
    { Plan.refused [e] .ok e.val with
      acts := [.hold e (deadline - s.nowOf e) (s.entry e).reload]
      bound := 3 }

/-- ARM: NOW plus the start delay (R55). -/
def State.armPlan (s : State) (e : EntryIdx) : Plan :=
  s.startPlan e (s.nowOf e + (s.entry e).startDelay)

/-- ARM AT: the given deadline after the clamp (R56). -/
def State.armAtPlan (s : State) (e : EntryIdx) (deadline : Tick) : Plan :=
  s.startPlan e (clampDeadline deadline (s.nowOf e))

/-- Trigger ARM: the captured NOW of the entry's timebase plus the start delay, after the clamp (R160). -/
def State.triggerArmPlan (s : State) (e : EntryIdx) (c : Capture) : Plan :=
  let captured : Tick :=
    match (s.entry e).behavior.timebase with
    | .tb0 => c.now0
    | .tb1 => c.now1
  s.startPlan e (clampDeadline (captured + (s.entry e).startDelay) (s.nowOf e))

/-- CANCEL, with or without purge (R57). -/
def State.cancelPlan (s : State) (e : EntryIdx) (purge : Bool) : Plan :=
  match (s.entry e).state with
  | .free | .spent => .refused [e] .state 0
  | .idle =>
    { Plan.refused [e] .noEffect 0 with
      purge := if purge then some e else none, bound := if purge then 7 else 3 }
  | .armed | .held =>
    { Plan.refused [e] .ok 0 with
      purge := if purge then some e else none, acts := [.idle e], bound := if purge then 7 else 3 }

/-- FREE (R59). -/
def State.freePlan (s : State) (e : EntryIdx) : Plan :=
  if (s.entry e).state = .free then .refused [e] .state 0
  else { Plan.refused [e] .ok 0 with purge := some e, acts := [.release e], bound := 7 }

/-- The ARMED members of a group in the order of a hold walk (R115). -/
def State.armedMembers (s : State) (g : GroupIdx) : List EntryIdx :=
  (s.list .tb0 ++ s.list .tb1).filter fun e => (s.entry e).behavior.group == some g

/-- The HELD members of a group in ascending order of index (R117). -/
def State.heldMembers (s : State) (g : GroupIdx) : List EntryIdx :=
  (List.finRange 48).filter fun e =>
    ((s.entry e).state == .held) && ((s.entry e).behavior.group == some g)

/-- A resume walk moves a member: linked at the walk's NOW plus its remaining (R117). -/
def State.resumeMember (s : State) (now : Tick) (g : GroupIdx) (e : EntryIdx) : State :=
  (s.link now e (now + (s.entry e).remaining) (s.entry e).repeatsLeft).lowerHeld (some g)

/-- A hold walk moves a member: off its list, its remaining captured from the walk's NOW (R115). -/
def State.holdMember (s : State) (now : Tick) (g : GroupIdx) (e : EntryIdx) : State :=
  ((s.unlink e).setEntry e
    ((s.entry e).heldWith (heldRemaining (s.entry e).deadline now) (s.entry e).repeatsLeft)).raiseHeld (some g)

/-- The insertions of a resume walk, one after another, for R51. -/
def State.resumeBound (s : State) (g : GroupIdx) (todo : List EntryIdx) : Nat :=
  match todo with
  | [] => 0
  | e :: rest =>
    s.insertionBound (s.entry e).behavior.timebase [e] (s.nowOf e + (s.entry e).remaining)
      + (s.resumeMember (s.nowOf e) g e).resumeBound g rest

/-- HOLD (R114). The phases HOLDING and RESUMING are not found by a grant (R61). -/
def State.holdPlan (s : State) (g : GroupIdx) : Plan :=
  match (s.group g).phase with
  | .running =>
    { Plan.refused [] .ok 0 with
      walk := some { kind := .hold, group := g, todo := s.armedMembers g }
      acts := [.closeWalk g .held]
      bound := 6 + 2 * (s.list .tb0 ++ s.list .tb1).length }
  | .held | .holding | .resuming =>
    if (s.group g).depth = Config.maxDepth then .refused [] .limit 0
    else { Plan.refused [] .ok 0 with acts := [.depth g ((s.group g).depth + 1)] }

/-- RESUME (R116). -/
def State.resumePlan (s : State) (g : GroupIdx) : Plan :=
  match (s.group g).phase with
  | .held =>
    if (s.group g).depth = 1 then
      { Plan.refused [] .ok 0 with
        walk := some { kind := .resume, group := g, todo := s.heldMembers g }
        acts := [.closeWalk g .running]
        bound := 6 + s.resumeBound g (s.heldMembers g) }
    else { Plan.refused [] .ok 0 with acts := [.depth g ((s.group g).depth - 1)] }
  | .running | .holding | .resuming => .refused [] .noEffect 0

/-- CLEAR NOW (R37). -/
def State.clearNowPlan (s : State) (t : Timebase) : Plan :=
  if (s.timebase t).state = .stopped ∧ s.list t = [] then
    { Plan.refused [] .ok 0 with acts := [.clearNow t] }
  else .refused [] .state 0

/-- The opening step of a walk: phase and depth (R115, R117). -/
def State.openWalk (s : State) (w : Option Walk) : State :=
  match w with
  | none => s
  | some ⟨.hold, g, _⟩ => s.setGroup g { s.group g with phase := .holding, depth := 1 }
  | some ⟨.resume, g, _⟩ => s.setGroup g { s.group g with phase := .resuming, depth := 0 }

/-- The plan of an engine command, decided at the grant (R54); none for a command of another owner. -/
def State.commandPlan (s : State) (c : Command) : Option Plan :=
  match c with
  | .arm e => some (s.armPlan e)
  | .armAt e d => some (s.armAtPlan e d)
  | .cancel e purge => some (s.cancelPlan e purge)
  | .free e => some (s.freePlan e)
  | .hold g => some (s.holdPlan g)
  | .resume g => some (s.resumePlan g)
  | .clearNow t => some (s.clearNowPlan t)
  | .nop | .alloc _ | .setupTiming _ _ _ | .setupBehavior _ _ | .setDivider _ _ _ | .start _ | .stop _
  | .clearFault _ | .queueConfig _ _ | .flushQueue _ | .bindTrigger _ _ _ | .retune _ _ => none

/-- The plan of a trigger record (R60): a triggered CANCEL never purges. -/
def State.triggerPlan (s : State) (c : Capture) : Plan :=
  match c.action with
  | .arm e => s.triggerArmPlan e c
  | .cancel e => s.cancelPlan e false
  | .hold g => s.holdPlan g
  | .resume g => s.resumePlan g

/-! ## Grants (R47, R48) -/

/-- Grant the Command Unit's engine command, if `kind` accepts it (R139). -/
def State.grantCommand (s : State) (kind : Command → Bool) : State :=
  match s.executing .grantWait with
  | none => s
  | some c =>
    match s.commandPlan c with
    | none => s
    | some plan =>
      if kind c then ((s.openWalk plan.walk).begin .command plan).setStage .engine else s

/-- Grant the Trigger Unit its lowest pending record, if `kind` accepts the record's action (R158, R159). -/
def State.grantTrigger (s : State) (kind : TriggerAction → Bool) : State :=
  match s.waitingLine with
  | none => s
  | some (l, c) =>
    if kind c.action then
      let plan := s.triggerPlan c
      let s' := (s.openWalk plan.walk).begin (.trigger l) plan
      s'.setLine l { s'.line l with record := .inService c none }
    else s

/-! ## The steps of an operation in flight -/

/-- The plan in flight is replaced. -/
def State.setPlan (s : State) (op : Operation) (plan : Plan) : State :=
  s.setActivity (.busy { op with plan := plan })

/-- The walk moves its next member (R115, R117). -/
def State.walkStep (s : State) : State :=
  match s.engine.activity with
  | .busy op =>
    match op.plan.walk with
    | some ⟨kind, g, e :: rest⟩ =>
      let s' := s.setPlan op { op.plan with walk := some ⟨kind, g, rest⟩, value := op.plan.value + 1 }
      match kind with
      | .hold => s'.holdMember (op.now (s.entry e).behavior.timebase) g e
      | .resume => s'.resumeMember (op.now (s.entry e).behavior.timebase) g e
    | some ⟨_, _, []⟩ | none => s
  | .idle | .deciding | .chosen _ => s

/-- The walk has members still to move. -/
def Plan.walking (p : Plan) : Bool :=
  match p.walk with
  | some ⟨_, _, _ :: _⟩ => true
  | some ⟨_, _, []⟩ | none => false

/-- The output and post hand-overs are made and the walk has moved its members, so the final step is next. -/
def Plan.atFinalStep (p : Plan) : Bool := p.lineOp.isNone && p.post.isNone && !p.walking

/-- The final step has writes or a purge to make. -/
def Plan.hasFinalStep (p : Plan) : Bool := !p.acts.isEmpty || p.purge.isSome

/-- The Timer Table settles a retiring entry (R16, R81). -/
def State.settleEntry (s : State) (e : EntryIdx) : State :=
  if (s.entry e).behavior.autoFree then
    if s.noticesOf e = 0 then s.release e else s.setEntry e ((s.entry e).settled .spent)
  else s.setEntry e ((s.entry e).settled .idle)

/-- An IDLE entry that goes to HELD raises its group's held count; a HELD one leaves it (R119). -/
def State.holdStart (s : State) (e : EntryIdx) (remaining : Tick) (repeats : Byte) : State :=
  let s' := s.setEntry e ((s.entry e).heldWith remaining repeats)
  if (s.entry e).state = .held then s' else s'.raiseHeld (s.entry e).behavior.group

/-- One write of the final step, on the operation's NOW0 and NOW1. -/
def State.act (s : State) (op : Operation) (a : Act) : State :=
  match a with
  | .link e deadline repeats => s.link (op.now (s.entry e).behavior.timebase) e deadline repeats
  | .hold e remaining repeats => s.holdStart e remaining repeats
  | .idle e => (s.detach e).setEntry e ((s.entry e).settled .idle)
  | .retire e => (s.unlink e).settleEntry e
  | .release e => (s.detach e).release e
  | .depth g n => s.setGroup g { s.group g with depth := n }
  | .closeWalk g phase => s.setGroup g { s.group g with phase := phase }
  | .clearNow t => s.zeroNow t

/-- The entry whose state an act writes, whose claim ends with the final step (R17). -/
def Act.entry (a : Act) : Option EntryIdx :=
  match a with
  | .link e _ _ | .hold e _ _ | .idle e | .retire e | .release e => some e
  | .depth _ _ | .closeWalk _ _ | .clearNow _ => none

/-- The claims that remain after the final step: those on entries whose state it did not write (R17). -/
def Plan.claimsAfter (p : Plan) : List EntryIdx :=
  p.claims.filter fun e => !(p.acts.any fun a => a.entry == some e)

/-- The purge of a final step, if one was requested (R58). -/
def State.purgeRequested (s : State) (e : Option EntryIdx) : State :=
  match e with
  | none => s
  | some e => s.purge e

/-- How many notices the purge of a final step removes (R58). -/
def State.purgeCount (s : State) (e : Option EntryIdx) : Nat :=
  match e with
  | none => 0
  | some e => s.noticesOf e

/-- The final step: the purge and every write, in one event (R45, R46, R58, R59, R66); then the claims on the entries
written end (R17). -/
def State.finalStep (s : State) : State :=
  match s.engine.activity with
  | .busy op =>
    if op.plan.atFinalStep && op.plan.hasFinalStep then
      (op.plan.acts.foldl (fun s a => s.act op a) (s.purgeRequested op.plan.purge)).setPlan op
        { op.plan with
          claims := op.plan.claimsAfter, purge := none, walk := none, acts := [],
          value := op.plan.value + s.purgeCount op.plan.purge }
    else s
  | .idle | .deciding | .chosen _ => s

/-- The outcome goes to the requester: a result record, or the trigger line's record and MISS (R47, R60, R139). -/
def State.handBack (s : State) (client : Client) (status : Status) (value : Nat) : State :=
  match client with
  | .expiry => s
  | .command => s.answer status (BitVec.ofNat 8 value)
  | .trigger l => s.setLine l ((s.line l).finished status)

def Client.requester (c : Client) : Requester :=
  match c with
  | .expiry => .expiry
  | .command => .command
  | .trigger _ => .trigger

/-- Completion: the claims end, the pointer moves on, the outcome is handed back (R47, R49). -/
def State.complete (s : State) : State :=
  match s.engine.activity with
  | .busy op =>
    if op.plan.atFinalStep && !op.plan.hasFinalStep then
      ({ s with engine := { s.engine with
          activity := .deciding, rotation := op.client.requester.next, clocks := 0 } } :
        State).handBack op.client op.plan.status op.plan.value
    else s
  | .idle | .deciding | .chosen _ => s

end Sys2Proof.Machine
end

