-- ==== Sys2Proof/Machine/NoticeUnit.lean ====
section
/-!
DEFINITION. The Notice Unit (R90–R111): posts, ports, pops and standing pops, FLUSH QUEUE and QUEUE CONFIG.
-/
namespace Sys2Proof.Machine

/-- The Notice Unit takes a post (R93). -/
def State.takePost (s : State) (p : Post) : State := s.setQueue p.queue ((s.queue p.queue).posted p)

/-- A read of a notice port (R96): byte 0 latches and seals the head, or latches the empty pattern. -/
def State.readNotice (s : State) (q : QueueId) : State :=
  let n := s.queue q
  let fresh : NoticeQueue :=
    match n.proper with
    | [] => { n with latch := emptyPattern 9 }
    | h :: _ => { n with latch := h.bytes, headSealed := true }
  let n' := if n.pointer = 0 then fresh else n
  (s.setQueue q { n' with pointer := n.pointer + 1 }).answerRead (n'.latch.getD n.pointer 0)

/-- A pop with expected index `index` is taken against the queue as it stands (R98). -/
def State.takePop (s : State) (q : QueueId) (index : Nat) : State :=
  match (s.queue q).proper with
  | [] => s.misuse
  | h :: _ =>
    if h.entry.val = index then (s.setQueue q (s.queue q).popped).reportIfNone h.entry else s.misuse

/-- Taking the pop would leave a SPENT entry under an engine claim without notices (R100). -/
def State.popMustStand (s : State) (h : Notice) (index : Nat) : Bool :=
  decide (h.entry.val = index) && ((s.entry h.entry).state == .spent) && s.claimed h.entry
    && decide (s.noticesOf h.entry = 1)

/-- A write of an expected index to a notice port (R98, R100). -/
def State.popNotice (s : State) (q : QueueId) (index : Nat) : State :=
  if (s.queue q).standing.isSome then s.misuse
  else
    match (s.queue q).proper with
    | [] => s.misuse
    | h :: _ =>
      if s.popMustStand h index then s.setQueue q { s.queue q with standing := some h.entry }
      else s.takePop q index

/-- The standing pop of a queue may be taken: the claim on its entry has ended (R100). -/
def State.standingDue (s : State) (q : QueueId) : Option EntryIdx :=
  match (s.queue q).standing with
  | none => none
  | some e => if s.claimed e then none else some e

/-- The standing pop of a queue is taken, if its entry is no longer under a claim (R100). -/
def State.takeStanding (s : State) (q : QueueId) : State :=
  match s.standingDue q with
  | none => s
  | some e => (s.setQueue q { s.queue q with standing := none }).takePop q e.val

/-- A report that waits for `e` may be taken: the claim on `e` has ended (R17). -/
def State.reportDue (s : State) (e : EntryIdx) : Bool := s.notices.reports.contains e && !s.claimed e

/-- The Timer Table takes a waiting report naming `e`, if `e` is no longer under a claim (R10, R17). -/
def State.takeWaitingReport (s : State) (e : EntryIdx) : State :=
  if s.reportDue e then (s.setReports (s.notices.reports.erase e)).takeReport e else s

/-- QUEUE CONFIG (R105). -/
def ownQueueConfig (q : QueueId) (watermark : Byte) (s : State) : Owned :=
  (s.setQueue q { s.queue q with watermark := watermark }, .ok, 0)

/-- The entries that a flush of `q` leaves without notices, in ascending order of index (R103). -/
def State.emptiedByFlush (s : State) (q : QueueId) : List EntryIdx :=
  (List.finRange 48).filter fun e =>
    decide (0 < (s.queue q).countOf e) && decide (s.noticesOf e = (s.queue q).countOf e)

/-- A flush of `q` must wait: it would leave a SPENT entry under a claim without notices (R104). -/
def State.flushMustWait (s : State) (q : QueueId) : Bool :=
  (s.emptiedByFlush q).any fun e => ((s.entry e).state == .spent) && s.claimed e

/-- FLUSH QUEUE: every notice of the queue is removed, and the reports go together in index order (R103). -/
def ownFlushQueue (q : QueueId) (s : State) : Owned :=
  let removed := (s.queue q).proper.length + (s.queue q).backlog.length
  if removed = 0 then (s, .noEffect, 0)
  else
    ((s.emptiedByFlush q).foldl State.sendReport (s.setQueue q (s.queue q).flushed), .ok,
      BitVec.ofNat 8 removed)

/-- Both queues after a scheduler clear: watermarks kept (R111). -/
def NoticeUnit.cleared (n : NoticeUnit) : NoticeUnit :=
  { nq0 := .cleared n.nq0.watermark, nq1 := .cleared n.nq1.watermark, reports := [] }

end Sys2Proof.Machine
end

