-- ==== Sys2Proof/Machine/Service.lean ====
section
/-!
DEFINITION. Expiry service (R66–R89): the choice of a due head, the count, the end of the run, the successor step, the
post, and the hand-overs.
-/
namespace Sys2Proof.Machine

/-- The distance of an entry's deadline against NOW of a timebase, as it stands. -/
def State.headDistance (s : State) (t : Timebase) (e : EntryIdx) : Int :=
  distance (s.entry e).deadline (s.now t)

/-- The due head that a service takes: the more negative distance, list 0 on a tie (R50). -/
def State.chooseHead (s : State) : Option (Timebase × EntryIdx) :=
  match s.dueHead .tb0, s.dueHead .tb1 with
  | some a, some b =>
    if s.headDistance .tb1 b < s.headDistance .tb0 a then some (.tb1, b) else some (.tb0, a)
  | some a, none => some (.tb0, a)
  | none, some b => some (.tb1, b)
  | none, none => none

/-- What a service counts: the expiries, whether the run ends, and repeats left after it (R68–R71). -/
structure Expiries where
  count : Nat
  ends : Bool
  left : Byte
  deriving DecidableEq, Repr

/-- The k of R70: the whole part of the overdue amount over the period, plus 1. -/
def skipSpan (overdue period : Nat) : Nat := overdue / period + 1

/-- The count of a service (R68, R69, R70). -/
def Entry.expiries (x : Entry) (now : Tick) : Expiries :=
  let k := skipSpan (-(distance x.deadline now)).toNat x.period.toNat
  if x.period = 0 then ⟨1, true, 0⟩
  else
    match x.behavior.catchUp with
    | .keep =>
      if x.repeatsLeft = 0 then ⟨1, false, 0⟩
      else if x.repeatsLeft = 1 then ⟨1, true, 0⟩
      else ⟨1, false, x.repeatsLeft - 1⟩
    | .skip =>
      if x.repeatsLeft = 0 then ⟨k, false, 0⟩
      else if k < x.repeatsLeft.toNat then ⟨k, false, x.repeatsLeft - BitVec.ofNat 8 k⟩
      else ⟨x.repeatsLeft.toNat, true, 0⟩

/-- A deadline `n` periods on (R71, R73). -/
def Entry.deadlineAfter (x : Entry) (n : Nat) : Tick := x.deadline + BitVec.ofNat 24 (n * x.period.toNat)

/-- The net line operation of a service (R74). -/
def Behavior.lineOp (b : Behavior) (count : Nat) : Option (LineIdx × LineOp) :=
  match b.action with
  | .none => none
  | .set => some (b.line, .set)
  | .clear => some (b.line, .clear)
  | .toggle => if count % 2 = 1 then some (b.line, .toggle) else none

/-- The base of a successor start: the latest covered deadline on the same timebase, else NOW of the successor's
timebase (R77). -/
def State.successorBase (s : State) (t : Timebase) (latest : Tick) (y : EntryIdx) : Tick :=
  if (s.entry y).behavior.timebase = t then latest else s.nowOf y

/-- What the successor step decides: the entries claimed, the writes, whether it is a chain miss, and the insertion
it makes for R51. -/
structure SuccessorStep where
  claims : List EntryIdx
  acts : List Act
  miss : Bool
  bound : Nat
  deriving DecidableEq, Repr

/-- The start of another entry `y` at the end of a run of `e` (R77–R79). -/
def State.startSuccessor (s : State) (t : Timebase) (e : EntryIdx) (latest : Tick) (y : EntryIdx) :
    SuccessorStep :=
  let deadline := s.successorBase t latest y + (s.entry y).startDelay
  match s.startOutcome y with
  | .refuse _ => { claims := [e, y], acts := [.retire e], miss := true, bound := 3 }
  | .link =>
    { claims := [e, y], acts := [.retire e, .link y deadline (s.entry y).reload], miss := false,
      bound := 3 + s.insertionBound (s.entry y).behavior.timebase [e, y] deadline }
  | .hold =>
    { claims := [e, y], acts := [.retire e, .hold y (s.entry y).startDelay (s.entry y).reload],
      miss := false, bound := 3 }

/-- The writes of a service for the run of `e`: a reload (R73), or the successor step of an ended run (R76). -/
def State.runStep (s : State) (t : Timebase) (e : EntryIdx) (n : Expiries) (latest : Tick) :
    SuccessorStep :=
  let x := s.entry e
  if n.ends then
    match x.behavior.successor with
    | none => { claims := [e], acts := [.retire e], miss := false, bound := 3 }
    | some y =>
      if y = e then
        { claims := [e], acts := [.link e (latest + x.startDelay) x.reload], miss := false,
          bound := s.insertionBound t [e] (latest + x.startDelay) }
      else s.startSuccessor t e latest y
  else
    { claims := [e], acts := [.link e (x.deadlineAfter n.count) n.left], miss := false,
      bound := s.insertionBound t [e] (x.deadlineAfter n.count) }

/-- The post of a service (R82, R83). -/
def Entry.postOf (x : Entry) (t : Timebase) (e : EntryIdx) (n : Expiries) (miss : Bool) (now : Tick) :
    Option Post :=
  let latest := x.deadlineAfter (n.count - 1)
  let carrying (count : Nat) : Option Post :=
    some { queue := x.behavior.queue, entry := e, tag := x.behavior.tag, timebase := t,
           final := n.ends, chainMiss := miss, count := count, deadline := latest,
           lateness := latenessOf latest now }
  match x.behavior.postMode with
  | .off => none
  | .every => carrying n.count
  | .final => if n.ends then carrying 1 else none

/-- Everything a service decides at its grant (R66, R67). -/
def State.servicePlan (s : State) (t : Timebase) (e : EntryIdx) : Plan :=
  let x := s.entry e
  let n := x.expiries (s.now t)
  let r := s.runStep t e n (x.deadlineAfter (n.count - 1))
  { claims := r.claims, lineOp := x.behavior.lineOp n.count, post := x.postOf t e n r.miss (s.now t),
    purge := none, walk := none, acts := r.acts, status := .ok, value := 0, bound := 12 + r.bound }

/-- Grant the expiry requester (R66). -/
def State.grantService (s : State) : State :=
  match s.chooseHead with
  | none => s
  | some (t, e) => s.begin .expiry (s.servicePlan t e)

/-- The output hand-over (R66, R170). -/
def State.handLineOp (s : State) : State :=
  match s.engine.activity with
  | .busy op =>
    match op.plan.lineOp with
    | some (n, o) => (s.lineOp n o).setPlan op { op.plan with lineOp := none }
    | none => s
  | .idle | .deciding | .chosen _ => s

/-- The post hand-over, after the output hand-over (R66, R84). -/
def State.handPost (s : State) : State :=
  match s.engine.activity with
  | .busy op =>
    match op.plan.lineOp, op.plan.post with
    | none, some p => (s.takePost p).setPlan op { op.plan with post := none }
    | none, none | some _, _ => s
  | .idle | .deciding | .chosen _ => s

end Sys2Proof.Machine
end

