-- ==== Sys2Proof/Machine/Settle.lean ====
section
/-!
DEFINITION. The end of an event. Some steps belong to the event that makes them due: the owner of a command takes it
at its hand-over (R134, R138), a waiting claim, report or pop is taken at the moment the engine claim ends (R17,
R100, R104), the next grant is decided at a completion, and a request that reaches an IDLE engine is granted at once
(R49). The first four kinds may be spelled out in the queue by their own rows; before any other event of the part the
due ones are taken (notes/assumptions/3.md). `settle` takes them.
-/
namespace Sys2Proof.Machine

/-- The Timer Table command must wait for a List Engine claim on its entry; an ALLOC of any reaches the head of the
free list (R17, R138). A flush may have to wait as R104 gives. -/
def State.ownerMustWait (s : State) (c : Command) : Bool :=
  match c with
  | .alloc (some e) => s.claimed e
  | .alloc none =>
    match s.table.freeList with
    | [] => false
    | e :: _ => s.claimed e
  | .setupTiming e _ _ | .setupBehavior e _ | .retune e _ => s.claimed e
  | .flushQueue q => s.flushMustWait q
  | .nop | .arm _ | .armAt _ _ | .cancel _ _ | .free _ | .hold _ | .resume _ | .setDivider _ _ _
  | .start _ | .stop _ | .clearNow _ | .clearFault _ | .queueConfig _ _ | .bindTrigger _ _ _ => false

/-- The owner takes a command whole and returns its outcome (R138); none for NOP and the engine commands. -/
def State.owned (s : State) (c : Command) : Option Owned :=
  match c with
  | .alloc w => some (ownAlloc w s)
  | .setupTiming e sd p => some (ownSetupTiming e sd p s)
  | .setupBehavior e b => some (ownSetupBehavior e b s)
  | .retune e p => some (ownRetune e p s)
  | .setDivider t d edge => some (ownSetDivider t d edge s)
  | .start t => some (ownStart t s)
  | .stop t => some (ownStop t s)
  | .clearFault t => some (ownClearFault t s)
  | .queueConfig q w => some (ownQueueConfig q w s)
  | .flushQueue q => some (ownFlushQueue q s)
  | .bindTrigger l edge a => some (ownBindTrigger l edge a s)
  | .nop | .arm _ | .armAt _ _ | .cancel _ _ | .free _ | .hold _ | .resume _ | .clearNow _ => none

/-- The command in execution that its owner takes now: in stage OWNER and not waiting on a claim (R138). -/
def State.ownerDue (s : State) : Option Command :=
  match s.executing .owner with
  | none => none
  | some c => if c.firstStage ≠ .owner ∨ s.ownerMustWait c then none else some c

/-- The owner takes the command in execution, if it is due and `kind` accepts it, and its result is added (R138). -/
def State.ownerStep (s : State) (kind : Command → Bool) : State :=
  match s.ownerDue with
  | none => s
  | some c =>
    match s.owned c with
    | none => s
    | some (s', status, value) => if kind c then s'.answer status value else s

/-- A NOP stands in execution, to be answered (R140). -/
def State.nopDue (s : State) : Bool := s.executing .check == some .nop

/-- The Command Unit answers the NOP in execution with OK and 0 (R140). -/
def State.answerNop (s : State) : State := if s.nopDue then s.answer .ok 0 else s

/-- A due step before a grant: a waiting report, a standing pop, a NOP, the owner of a command, and the decision of
the next grant, in this order (notes/assumptions/4.md); none when there is none. -/
def State.dueStep (s : State) : Option State :=
  match s.notices.reports.find? (fun e => s.reportDue e) with
  | some e => some (s.takeWaitingReport e)
  | none =>
    if (s.standingDue .nq0).isSome then some (s.takeStanding .nq0)
    else if (s.standingDue .nq1).isSome then some (s.takeStanding .nq1)
    else if s.nopDue then some s.answerNop
    else if s.ownerDue.isSome then some (s.ownerStep fun _ => true)
    else
      match s.engine.activity with
      | .deciding => some s.decideGrant
      | .idle | .chosen _ | .busy _ => none

/-- Take due steps, at most `fuel` of them. -/
def State.takeDue (fuel : Nat) (s : State) : State :=
  match fuel with
  | 0 => s
  | n + 1 =>
    match s.dueStep with
    | none => s
    | some s' => s'.takeDue n

/-- Enough fuel: every report, two standing pops, every command queued or in execution, one decision. -/
def State.dueFuel (s : State) : Nat := s.notices.reports.length + s.cmd.queue.length + 4

/-- Every due step before a grant has been taken. -/
def State.beforeGrant (s : State) : State := s.takeDue s.dueFuel

/-- A requester that waits at an IDLE engine is granted at once (R49). Two requests that arrive together may be taken
in either order; here expiry, command, trigger (notes/assumptions/4.md). -/
def State.grantIdle (s : State) : State :=
  match s.engine.activity with
  | .idle =>
    match s.firstWaiting .expiry with
    | some .expiry => s.grantService
    | some .command => s.grantCommand fun _ => true
    | some .trigger => s.grantTrigger fun _ => true
    | none => s
  | .deciding | .chosen _ | .busy _ => s

/-- The event before is complete: every step that belongs to it has been taken. -/
def State.settle (s : State) : State := s.beforeGrant.grantIdle

/-- No step of the event before is due. -/
def State.settled (s : State) : Bool :=
  s.dueStep.isNone &&
    (match s.engine.activity with
     | .idle => (s.firstWaiting .expiry).isNone
     | .deciding | .chosen _ | .busy _ => true)

end Sys2Proof.Machine
end

