-- ==== Sys2Proof/Machine/OwnerSteps.lean ====
section
/-!
DEFINITION. The rows in which a command in execution is taken by its owner, and the two rows at the end of an engine
claim. Each takes place when its step is due (R138), and changes nothing otherwise (notes/assumptions/2.md).
-/
namespace Sys2Proof.Machine

/-- What every meaning answers: the part never stops. -/
abbrev Answer := Host.Outcome State Fault Refusal

/-- NOP (R140). -/
def execNop (s : State) : Answer := .next s.answerNop

/-- ALLOC (R11, R12). -/
def execAlloc (s : State) : Answer :=
  .next (s.ownerStep fun c => match c with | .alloc _ => true | _ => false)

/-- SETUP TIMING (R13). -/
def execSetupTiming (s : State) : Answer :=
  .next (s.ownerStep fun c => match c with | .setupTiming _ _ _ => true | _ => false)

/-- SETUP BEHAVIOR (R14). -/
def execSetupBehavior (s : State) : Answer :=
  .next (s.ownerStep fun c => match c with | .setupBehavior _ _ => true | _ => false)

/-- RETUNE (R15). -/
def execRetune (s : State) : Answer :=
  .next (s.ownerStep fun c => match c with | .retune _ _ => true | _ => false)

/-- SET DIVIDER (R35). -/
def execSetDivider (s : State) : Answer :=
  .next (s.ownerStep fun c => match c with | .setDivider _ _ _ => true | _ => false)

/-- START (R36). -/
def execStart (s : State) : Answer :=
  .next (s.ownerStep fun c => match c with | .start _ => true | _ => false)

/-- STOP (R36). -/
def execStop (s : State) : Answer :=
  .next (s.ownerStep fun c => match c with | .stop _ => true | _ => false)

/-- CLEAR FAULT (R38). -/
def execClearFault (s : State) : Answer :=
  .next (s.ownerStep fun c => match c with | .clearFault _ => true | _ => false)

/-- QUEUE CONFIG (R105). -/
def execQueueConfig (s : State) : Answer :=
  .next (s.ownerStep fun c => match c with | .queueConfig _ _ => true | _ => false)

/-- FLUSH QUEUE (R103, R104). -/
def execFlushQueue (s : State) : Answer :=
  .next (s.ownerStep fun c => match c with | .flushQueue _ => true | _ => false)

/-- BIND TRIGGER (R163). -/
def execBindTrigger (s : State) : Answer :=
  .next (s.ownerStep fun c => match c with | .bindTrigger _ _ _ => true | _ => false)

/-- A waiting release report is taken (R10, R17). -/
def execReleaseReport (e : EntryIdx) (s : State) : Answer := .next (s.takeWaitingReport e)

/-- A standing pop is taken (R100). -/
def execStandingPop (q : QueueId) (s : State) : Answer := .next (s.takeStanding q)

end Sys2Proof.Machine
end

