-- ==== Sys2Proof/Machine/EngineSteps.lean ====
section
/-!
DEFINITION. The rows of the List Engine: the grants, and the steps of an operation in flight. A grant takes place when
the engine is IDLE or has chosen its requester (R49); a step in flight, when it is the operation's next (R47, R66).
Otherwise the row changes nothing but lets the event before it complete (notes/assumptions/2.md).
-/
namespace Sys2Proof.Machine

/-- A grant of the Command Unit's command, when the engine can grant it. -/
def State.commandGrant (s : State) (kind : Command → Bool) : State :=
  if s.beforeGrant.offers .command then s.beforeGrant.grantCommand kind else s.beforeGrant

/-- A grant of the Trigger Unit's record, when the engine can grant it. -/
def State.triggerGrant (s : State) (kind : TriggerAction → Bool) : State :=
  if s.beforeGrant.offers .trigger then s.beforeGrant.grantTrigger kind else s.beforeGrant

/-- A grant of the expiry requester, when the engine can grant it. -/
def State.expiryGrant (s : State) : State :=
  if s.beforeGrant.offers .expiry then s.beforeGrant.grantService else s.beforeGrant

/-- ARM (R55). -/
def execArm (s : State) : Answer := .next (s.commandGrant fun c => match c with | .arm _ => true | _ => false)

/-- ARM AT (R56). -/
def execArmAt (s : State) : Answer :=
  .next (s.commandGrant fun c => match c with | .armAt _ _ => true | _ => false)

/-- CANCEL (R57). -/
def execCancel (s : State) : Answer :=
  .next (s.commandGrant fun c => match c with | .cancel _ _ => true | _ => false)

/-- FREE (R59). -/
def execFree (s : State) : Answer := .next (s.commandGrant fun c => match c with | .free _ => true | _ => false)

/-- HOLD (R114). -/
def execHold (s : State) : Answer := .next (s.commandGrant fun c => match c with | .hold _ => true | _ => false)

/-- RESUME (R116). -/
def execResume (s : State) : Answer :=
  .next (s.commandGrant fun c => match c with | .resume _ => true | _ => false)

/-- CLEAR NOW (R37). -/
def execClearNow (s : State) : Answer :=
  .next (s.commandGrant fun c => match c with | .clearNow _ => true | _ => false)

/-- SERVICE (R66). -/
def execService (s : State) : Answer := .next s.expiryGrant

/-- A triggered ARM (R160). -/
def execTriggerArm (s : State) : Answer :=
  .next (s.triggerGrant fun a => match a with | .arm _ => true | _ => false)

/-- A triggered CANCEL (R161). -/
def execTriggerCancel (s : State) : Answer :=
  .next (s.triggerGrant fun a => match a with | .cancel _ => true | _ => false)

/-- A triggered HOLD (R125, R161). -/
def execTriggerHold (s : State) : Answer :=
  .next (s.triggerGrant fun a => match a with | .hold _ => true | _ => false)

/-- A triggered RESUME (R125, R161). -/
def execTriggerResume (s : State) : Answer :=
  .next (s.triggerGrant fun a => match a with | .resume _ => true | _ => false)

/-- The output hand-over (R170). -/
def execLineOperation (s : State) : Answer := .next s.settle.handLineOp

/-- The post hand-over (R84, R93). -/
def execPost (s : State) : Answer := .next s.settle.handPost

/-- A walk step (R115, R117). -/
def execWalkMemberStep (s : State) : Answer := .next s.settle.walkStep

/-- The final step (R45, R46, R66). -/
def execFinalStep (s : State) : Answer := .next s.settle.finalStep

/-- Completion (R47, R49). -/
def execOperationCompletion (s : State) : Answer := .next s.settle.complete

end Sys2Proof.Machine
end

