-- ==== Sys2Proof/Machine/PinSteps.lean ====
section
/-!
DEFINITION. The rows of the input pins: RST#, CLK, TKI and TRG0–TRG3 (R25, R26, R155, R183).
-/
namespace Sys2Proof.Machine

/-- Hardware reset (R183): every block takes its reset values. The queue of steps is the model's own and stays. -/
def execHardwareReset (tki : Bool) (trg : BitVec 4) (s : State) : Answer :=
  .next { State.resetWith tki trg with pending := s.pending }

/-- One CLK period (R25). -/
def execClkPeriod (s : State) : Answer := .next s.settle.clkPeriod

/-- A change of level on TKI (R25). -/
def execTkiEdge (s : State) : Answer := .next s.settle.tkiChange

/-- A tick (R25, R26). -/
def execTick (t : Timebase) (s : State) : Answer := .next (s.settle.tick t)

/-- A change of level on a trigger line (R155). -/
def execTriggerEdge (l : TrigIdx) (s : State) : Answer := .next (s.settle.triggerChange l)

end Sys2Proof.Machine
end

