-- ==== Sys2Proof/Machine/WindowSteps.lean ====
section
/-!
DEFINITION. The rows of the register window (R184): writes and port reads, the GCTRL actions with the scheduler clear,
and the interrupt, output and trigger-flag locations.
-/
namespace Sys2Proof.Machine

/-! ## Selectors and the VIEW and NOW ports (R40, R185, R186) -/

/-- A VSEL write (R186). -/
def State.writeVsel (s : State) (b : Byte) : State :=
  match ViewItem.ofCode b with
  | none => s.misuse
  | some v => { s with bus := { s.bus with vsel := v, viewPointer := 0, viewLatch := [] } }

/-- A read of the VIEW port (R185). -/
def State.readView (s : State) : State :=
  let latch := if s.bus.viewPointer = 0 then s.viewBytes s.bus.vsel else s.bus.viewLatch
  let pointer := if s.bus.viewPointer + 1 < s.bus.vsel.length then s.bus.viewPointer + 1 else 0
  ({ s with bus := { s.bus with viewLatch := latch, viewPointer := pointer } } :
    State).answerRead (latch.getD s.bus.viewPointer 0)

/-- An NSEL write: the lowest bit selects (R40, R186). -/
def State.writeNsel (s : State) (b : Byte) : State :=
  { s with bus := { s.bus with
      nsel := if b.getLsbD 0 then .tb1 else .tb0, nowPointer := 0, nowLatch := [] } }

/-- A read of the NOW port (R40). -/
def State.readNow (s : State) : State :=
  let latch := if s.bus.nowPointer = 0 then nowBytes (s.now s.bus.nsel) else s.bus.nowLatch
  ({ s with bus := { s.bus with nowLatch := latch, nowPointer := s.bus.nowPointer + 1 } } :
    State).answerRead (latch.getD s.bus.nowPointer 0)

/-! ## Global control (R188, R189) -/

/-- The scheduler clear, at every block in one event (R189). -/
def State.clear (s : State) : State :=
  { s with
    bus := { BusInterface.reset with readData := s.bus.readData }
    cmd := .reset
    table := .reset
    time := { s.time with tb0 := s.time.tb0.cleared, tb1 := s.time.tb1.cleared }
    engine := .reset
    notices := s.notices.cleared
    trig := s.trig.cleared
    irq := { s.irq with rej := false } }

/-- The WM clear action (R187). -/
def State.clearWm (s : State) : State := { s with bus := { s.bus with wm := false } }

/-- The two enables that every GCTRL write sets (R167, R178). -/
def State.setEnables (s : State) (b : Byte) : State :=
  { s with out := { s.out with enable := b.getLsbD 0 }, irq := { s.irq with master := b.getLsbD 1 } }

/-- A GCTRL write: the enables and every action it carries, in one event (R188, R193). -/
def State.writeGctrl (s : State) (b : Byte) : State :=
  let s1 := s.setEnables b
  if b.getLsbD 3 then s1.clear
  else
    let s2 := if b.getLsbD 2 then s1.discardCommands else s1
    if b.getLsbD 4 then s2.clearWm else s2

/-! ## The rows -/

/-- CMD write (R128, R131). -/
def execCmd (code : Byte) (s : State) : Answer := .next (s.settle.writeCmd code)

/-- PARAM write (R129). -/
def execParamWrite (b : Byte) (s : State) : Answer := .next (s.settle.writeParam b)

/-- PARAM read (R129). -/
def execParamRead (s : State) : Answer := .next s.settle.readParam

/-- PPTR write (R130). -/
def execPptrWrite (b : Byte) (s : State) : Answer := .next (s.settle.writePptr b)

/-- RESULT port read (R143). -/
def execResultRead (s : State) : Answer := .next s.settle.readResult

/-- RESULT pop (R144); the byte is not examined. -/
def execResultPop (_b : Byte) (s : State) : Answer := .next s.settle.popResult

/-- Notice port read (R96). -/
def execNoticeRead (q : QueueId) (s : State) : Answer := .next (s.settle.readNotice q)

/-- Notice pop (R98, R100). -/
def execNoticePop (q : QueueId) (index : Byte) (s : State) : Answer :=
  .next (s.settle.popNotice q index.toNat)

/-- VSEL write (R186). -/
def execVselWrite (b : Byte) (s : State) : Answer := .next (s.settle.writeVsel b)

/-- VIEW port read (R185). -/
def execViewRead (s : State) : Answer := .next s.settle.readView

/-- NSEL write (R40). -/
def execNselWrite (b : Byte) (s : State) : Answer := .next (s.settle.writeNsel b)

/-- NOW port read (R40). -/
def execNowRead (s : State) : Answer := .next s.settle.readNow

/-- ICLR write: bit 3 clears REJ (R176, R193). -/
def State.writeIclr (s : State) (b : Byte) : State :=
  if b.getLsbD 3 then { s with irq := { s.irq with rej := false } } else s

def execIclrWrite (b : Byte) (s : State) : Answer := .next (s.settle.writeIclr b)

/-- IEN write: all seven enables, the eighth bit not examined (R177). -/
def State.writeIen (s : State) (b : Byte) : State := { s with irq := { s.irq with ien := b.setWidth 7 } }

def execIenWrite (b : Byte) (s : State) : Answer := .next (s.settle.writeIen b)

/-- The line field of an OUTOP byte, bits 0–3 (R193). -/
def outopLine (b : Byte) : LineIdx := ⟨b.toNat % 16, Nat.mod_lt _ (by decide)⟩

/-- OUTOP SET (R168). -/
def execOutopSet (b : Byte) (s : State) : Answer := .next (s.settle.lineOp (outopLine b) .set)

/-- OUTOP CLEAR (R168). -/
def execOutopClear (b : Byte) (s : State) : Answer := .next (s.settle.lineOp (outopLine b) .clear)

/-- OUTOP TOGGLE (R168). -/
def execOutopToggle (b : Byte) (s : State) : Answer := .next (s.settle.lineOp (outopLine b) .toggle)

/-- OUTOP with the fourth encoding: refused with WM (R168). -/
def execOutopFourthEncoding (_b : Byte) (s : State) : Answer := .next s.settle.misuse

/-- Trigger flag clear (R162). -/
def execTriggerFlagClear (b : Byte) (s : State) : Answer := .next (s.settle.clearTriggerFlags b)

/-- A write to offset 9H, AH or CH: refused with WM (R184). -/
def execRefusedWindowWrite (_offset : RefusedOffset) (_b : Byte) (s : State) : Answer :=
  .next s.settle.misuse

/-- The GCTRL write of `b` (R167, R188). -/
def execOutputEnable (b : Byte) (s : State) : Answer := .next (s.settle.writeGctrl b)

/-- The GCTRL write of `b` (R178, R188). -/
def execMasterEnable (b : Byte) (s : State) : Answer := .next (s.settle.writeGctrl b)

/-- The GCTRL write of `b` with its DISCARD bit 1 (R149, R188). -/
def execDiscard (b : Byte) (s : State) : Answer := .next (s.settle.writeGctrl (b ||| 0x04))

/-- The GCTRL write of `b` with its CLEAR bit 1 (R188, R189). -/
def execSchedulerClear (b : Byte) (s : State) : Answer := .next (s.settle.writeGctrl (b ||| 0x08))

/-- The GCTRL write of `b` with its WM clear bit 1 (R187, R188). -/
def execWmClear (b : Byte) (s : State) : Answer := .next (s.settle.writeGctrl (b ||| 0x10))

end Sys2Proof.Machine
end

