-- ==== Sys2Proof/Machine/Dispatch.lean ====
section
/-!
DEFINITION. One arm per row.
-/
namespace Sys2Proof.Machine

def exec (i : Instr) (s : State) : Host.Outcome State Fault Refusal :=
  match i with
  | .hardwareReset tki trg => Sys2Proof.Machine.execHardwareReset tki trg s
  | .tkiEdge => Sys2Proof.Machine.execTkiEdge s
  | .tick t => Sys2Proof.Machine.execTick t s
  | .triggerEdge line => Sys2Proof.Machine.execTriggerEdge line s
  | .cmd code => Sys2Proof.Machine.execCmd code s
  | .nop => Sys2Proof.Machine.execNop s
  | .alloc => Sys2Proof.Machine.execAlloc s
  | .setupTiming => Sys2Proof.Machine.execSetupTiming s
  | .setupBehavior => Sys2Proof.Machine.execSetupBehavior s
  | .retune => Sys2Proof.Machine.execRetune s
  | .arm => Sys2Proof.Machine.execArm s
  | .armAt => Sys2Proof.Machine.execArmAt s
  | .cancel => Sys2Proof.Machine.execCancel s
  | .free => Sys2Proof.Machine.execFree s
  | .hold => Sys2Proof.Machine.execHold s
  | .resume => Sys2Proof.Machine.execResume s
  | .setDivider => Sys2Proof.Machine.execSetDivider s
  | .start => Sys2Proof.Machine.execStart s
  | .stop => Sys2Proof.Machine.execStop s
  | .clearNow => Sys2Proof.Machine.execClearNow s
  | .clearFault => Sys2Proof.Machine.execClearFault s
  | .queueConfig => Sys2Proof.Machine.execQueueConfig s
  | .flushQueue => Sys2Proof.Machine.execFlushQueue s
  | .bindTrigger => Sys2Proof.Machine.execBindTrigger s
  | .service => Sys2Proof.Machine.execService s
  | .lineOperation => Sys2Proof.Machine.execLineOperation s
  | .post => Sys2Proof.Machine.execPost s
  | .triggerArm => Sys2Proof.Machine.execTriggerArm s
  | .triggerCancel => Sys2Proof.Machine.execTriggerCancel s
  | .triggerHold => Sys2Proof.Machine.execTriggerHold s
  | .triggerResume => Sys2Proof.Machine.execTriggerResume s
  | .walkMemberStep => Sys2Proof.Machine.execWalkMemberStep s
  | .finalStep => Sys2Proof.Machine.execFinalStep s
  | .operationCompletion => Sys2Proof.Machine.execOperationCompletion s
  | .releaseReport e => Sys2Proof.Machine.execReleaseReport e s
  | .paramWrite b => Sys2Proof.Machine.execParamWrite b s
  | .paramRead => Sys2Proof.Machine.execParamRead s
  | .pptrWrite b => Sys2Proof.Machine.execPptrWrite b s
  | .resultRead => Sys2Proof.Machine.execResultRead s
  | .resultPop b => Sys2Proof.Machine.execResultPop b s
  | .noticeRead q => Sys2Proof.Machine.execNoticeRead q s
  | .noticePop q index => Sys2Proof.Machine.execNoticePop q index s
  | .standingPop q => Sys2Proof.Machine.execStandingPop q s
  | .vselWrite b => Sys2Proof.Machine.execVselWrite b s
  | .viewRead => Sys2Proof.Machine.execViewRead s
  | .nselWrite b => Sys2Proof.Machine.execNselWrite b s
  | .nowRead => Sys2Proof.Machine.execNowRead s
  | .iclrWrite b => Sys2Proof.Machine.execIclrWrite b s
  | .ienWrite b => Sys2Proof.Machine.execIenWrite b s
  | .outopSet b => Sys2Proof.Machine.execOutopSet b s
  | .outopClear b => Sys2Proof.Machine.execOutopClear b s
  | .outopToggle b => Sys2Proof.Machine.execOutopToggle b s
  | .outopFourthEncoding b => Sys2Proof.Machine.execOutopFourthEncoding b s
  | .triggerFlagClear b => Sys2Proof.Machine.execTriggerFlagClear b s
  | .refusedWindowWrite offset b => Sys2Proof.Machine.execRefusedWindowWrite offset b s
  | .outputEnable b => Sys2Proof.Machine.execOutputEnable b s
  | .masterEnable b => Sys2Proof.Machine.execMasterEnable b s
  | .discard b => Sys2Proof.Machine.execDiscard b s
  | .schedulerClear b => Sys2Proof.Machine.execSchedulerClear b s
  | .wmClear b => Sys2Proof.Machine.execWmClear b s
  | .clkPeriod => Sys2Proof.Machine.execClkPeriod s

end Sys2Proof.Machine
end

