-- ==== Sys2Proof/Machine/Step.lean ====
section
/-!
DEFINITION. One step takes the command at the front of the queue; on an empty queue the block idles
(notes/assumptions/5.md).
-/
namespace Sys2Proof.Machine

def step (s : State) : Host.Outcome State Fault Refusal :=
  match s.pending with
  | [] => .next s
  | c :: rest => exec c { s with pending := rest }

/-- The command that a word spells put at the front of the queue; the table gives no word, so the state stays. -/
def State.withFetchWord (s : State) (nbits w : Nat) : State :=
  match decodeTableWord nbits w with
  | none => s
  | some c => { s with pending := c :: s.pending }

end Sys2Proof.Machine
end

