-- ==== Sys2Proof/WellFormed.lean ====
section
/-!
DEFINITION. When a row's operands spell the row: the rows that are named for a bit pattern of the byte they write
carry a byte with that pattern (R193). Every other row's operands are well formed by their types.
-/
namespace Sys2Proof

/-- The operation field of an OUTOP byte, bits 4–5 (R193). -/
def outopCode (b : Byte) : Nat := (b.toNat / 16) % 4

/-- A row is well formed when the byte it carries spells it (R168, R188, R193). -/
def Instr.wellFormed (i : Instr) : Bool :=
  match i with
  | .outopSet b => outopCode b == 0
  | .outopClear b => outopCode b == 1
  | .outopToggle b => outopCode b == 2
  | .outopFourthEncoding b => outopCode b == 3
  | .discard b => b.getLsbD 2
  | .schedulerClear b => b.getLsbD 3
  | .wmClear b => b.getLsbD 4
  | .hardwareReset _ _ | .tkiEdge | .tick _ | .triggerEdge _ | .cmd _ | .nop | .alloc | .setupTiming
  | .setupBehavior | .retune | .arm | .armAt | .cancel | .free | .hold | .resume | .setDivider | .start
  | .stop | .clearNow | .clearFault | .queueConfig | .flushQueue | .bindTrigger | .service
  | .lineOperation | .post | .triggerArm | .triggerCancel | .triggerHold | .triggerResume
  | .walkMemberStep | .finalStep | .operationCompletion | .releaseReport _ | .paramWrite _ | .paramRead
  | .pptrWrite _ | .resultRead | .resultPop _ | .noticeRead _ | .noticePop _ _ | .standingPop _
  | .vselWrite _ | .viewRead | .nselWrite _ | .nowRead | .iclrWrite _ | .ienWrite _
  | .triggerFlagClear _ | .refusedWindowWrite _ _ | .outputEnable _ | .masterEnable _ | .clkPeriod => true

end Sys2Proof
end

