-- ==== Sys2Proof/Machine/Window.lean ====
section
/-!
DEFINITION. The window map of R184: which row a write or a port read is, and what the locations without a side effect
return; and the level of INT#. Both see the part after every step that belongs to the event before (`settle`).
-/
namespace Sys2Proof.Machine

/-- The row of a GCTRL write, named for the first action it carries (R188). -/
def gctrlRow (b : Byte) : Instr :=
  if b.getLsbD 3 then .schedulerClear b
  else if b.getLsbD 2 then .discard b
  else if b.getLsbD 4 then .wmClear b
  else .outputEnable b

/-- The row of an OUTOP write, by its operation field (R168, R193). -/
def outopRow (b : Byte) : Instr :=
  match outopCode b with
  | 0 => .outopSet b
  | 1 => .outopClear b
  | 2 => .outopToggle b
  | _ => .outopFourthEncoding b

/-- The row of a write of `b` at an offset (R184). -/
def writeRow (offset : Fin 16) (b : Byte) : Instr :=
  match offset.val with
  | 0x0 => gctrlRow b
  | 0x1 => .iclrWrite b
  | 0x2 => .ienWrite b
  | 0x3 => .cmd b
  | 0x4 => .paramWrite b
  | 0x5 => .pptrWrite b
  | 0x6 => .resultPop b
  | 0x7 => .noticePop .nq0 b
  | 0x8 => .noticePop .nq1 b
  | 0x9 => .refusedWindowWrite .qlevel0 b
  | 0xA => .refusedWindowWrite .qlevel1 b
  | 0xB => .vselWrite b
  | 0xC => .refusedWindowWrite .view b
  | 0xD => .nselWrite b
  | 0xE => outopRow b
  | _ => .triggerFlagClear b

/-- A read of an offset: a row with a side effect, or a byte formed from the state (R184). -/
inductive WindowRead where
  | row (i : Instr)
  | byte (b : Byte)
  deriving DecidableEq, Repr

/-- What a read of an offset is, in a state (R184). -/
def State.windowRead (s : State) (offset : Fin 16) : WindowRead :=
  match offset.val with
  | 0x0 => .byte s.settle.gstat
  | 0x1 => .byte s.settle.ipend
  | 0x2 => .byte s.settle.ienByte
  | 0x3 => .byte s.settle.cqstat
  | 0x4 => .row .paramRead
  | 0x5 => .byte (BitVec.ofNat 8 s.settle.cmd.pptr.val)
  | 0x6 => .row .resultRead
  | 0x7 => .row (.noticeRead .nq0)
  | 0x8 => .row (.noticeRead .nq1)
  | 0x9 => .byte (s.settle.queue .nq0).level
  | 0xA => .byte (s.settle.queue .nq1).level
  | 0xB => .byte s.settle.bus.vsel.code
  | 0xC => .row .viewRead
  | 0xD => .row .nowRead
  | 0xE => .byte (s.settle.outByte false)
  | _ => .byte (s.settle.outByte true)

/-- INT# is driven low: its condition holds at the end of the event, as the same steps make it (R179). -/
def State.intLow (s : State) : Bool := s.settle.intAsserted

end Sys2Proof.Machine
end

