-- ==== Sys2Proof/Safety.lean ====
section
/-!
DEFINITION. What it means for a state to be lawful: the laws of the spec's blocks that every step keeps, and the
durations of R51. Where a law holds through an operation in flight only because of what the engine decided at its
grant, the law says that too.
-/
namespace Sys2Proof.Machine

/-! ## Time -/

/-- The operation in flight has not lasted longer than R51 allows, and a chosen grant comes within one CLK period.
A model of events does not force it (notes/assumptions/9.md). -/
def State.Timely (s : State) : Prop :=
  match s.engine.activity with
  | .busy op => s.engine.clocks ≤ op.plan.bound
  | .chosen _ => s.engine.clocks ≤ 1
  | .deciding => s.engine.clocks = 0
  | .idle => True

/-! ## Command Unit (R127, R133, R134, R142) -/

/-- The queues hold at most 4, execution and results together at most 4, and no command waits untaken. -/
structure State.CommandLaw (s : State) : Prop where
  queue : s.cmd.queue.length ≤ 4
  results : s.cmd.results.length + s.cmd.execution.toList.length ≤ 4
  taken : s.cmd.queue = [] ∨ s.cmd.execution.isSome ∨ s.cmd.results.length = 4

/-! ## Notice queues (R90, R91, R92, R105) -/

/-- The law of one notice queue. -/
structure NoticeQueue.Law (n : NoticeQueue) : Prop where
  proper : n.proper.length ≤ 16
  backlog : n.backlog ≠ [] → n.proper.length = 16
  ascending : (n.backlog.map (·.entry)).Pairwise (· < ·)
  oneOpen : ((n.openPart ++ n.backlog).map (·.entry)).Nodup
  sealed : n.headSealed → n.proper ≠ []
  counts : ∀ x ∈ n.proper ++ n.backlog, 1 ≤ x.count.toNat
  watermark : 1 ≤ n.watermark.toNat ∧ n.watermark.toNat ≤ 16

/-- The law of both queues; a post on its way carries a count of at least 1 (R82). -/
structure State.NoticeLaw (s : State) : Prop where
  nq0 : s.notices.nq0.Law
  nq1 : s.notices.nq1.Law
  post : ∀ op p, s.engine.activity = .busy op → op.plan.post = some p → 1 ≤ p.count

/-! ## Entries (R2) -/

/-- The live fields that read 0 in a state. -/
def Entry.LiveLaw (x : Entry) : Prop :=
  match x.state with
  | .free | .idle | .spent => x.deadline = 0 ∧ x.remaining = 0 ∧ x.repeatsLeft = 0
  | .armed => x.remaining = 0
  | .held => x.deadline = 0

def State.LiveLaw (s : State) : Prop := ∀ e, (s.entry e).LiveLaw

/-! ## Lists (R5, R7, R43) -/

/-- What the engine found at the grant still stands when the write comes: the entry is claimed and in a state from
which the write moves it (R17, R55, R57, R59, R78). -/
def Act.Ready (s : State) (claims : List EntryIdx) (a : Act) : Prop :=
  match a with
  | .link e _ _ => e ∈ claims ∧ ((s.entry e).state = .idle ∨ (s.entry e).state = .armed)
  | .hold e _ _ => e ∈ claims ∧ ((s.entry e).state = .idle ∨ (s.entry e).state = .held)
  | .idle e => e ∈ claims ∧ ((s.entry e).state = .armed ∨ (s.entry e).state = .held)
  | .retire e => e ∈ claims ∧ (s.entry e).state = .armed
  | .release e => e ∈ claims ∧ (s.entry e).state ≠ .free
  | .depth _ _ | .closeWalk _ _ | .clearNow _ => True

/-- The members a walk has still to move are in the state from which it moves them (R115, R117). -/
def Walk.Ready (s : State) (w : Walk) : Prop :=
  w.todo.Nodup ∧ ∀ e ∈ w.todo, (s.entry e).behavior.group = some w.group ∧
    (s.entry e).state = (match w.kind with | .hold => .armed | .resume => .held)

/-- The operation in flight can still make every write it has decided. -/
structure Plan.Ready (s : State) (p : Plan) : Prop where
  acts : ∀ a ∈ p.acts, a.Ready s p.claims
  apart : (p.acts.filterMap Act.entry).Nodup
  purge : ∀ e, p.purge = some e → e ∈ p.claims
  walk : ∀ w, p.walk = some w → w.Ready s ∧ ∀ a ∈ p.acts, a.entry = none

/-- An entry is on the free list exactly when it is FREE, and on a pending list exactly when it is ARMED with that
timebase; no list holds an entry twice. -/
structure State.ListLaw (s : State) : Prop where
  free : ∀ e, e ∈ s.table.freeList ↔ (s.entry e).state = .free
  freeOnce : s.table.freeList.Nodup
  pending : ∀ t e, e ∈ s.list t ↔ (s.entry e).state = .armed ∧ (s.entry e).behavior.timebase = t
  once : ∀ t, (s.list t).Nodup
  plan : ∀ op, s.engine.activity = .busy op → op.plan.Ready s

/-! ## Groups (R112, R113) -/

/-- The entries of a state that name a group. -/
def State.membersIn (s : State) (st : EntryState) (g : GroupIdx) : List EntryIdx :=
  (List.finRange 48).filter fun e => (s.entry e).state == st && (s.entry e).behavior.group == some g

/-- A walk of the group is in flight. -/
def State.walking (s : State) (kind : WalkKind) (g : GroupIdx) : Prop :=
  ∃ op todo, s.engine.activity = .busy op ∧ op.plan.walk = some ⟨kind, g, todo⟩

/-- Depth and members against the phase (R113). -/
def State.PhaseLaw (s : State) (g : GroupIdx) : Prop :=
  match (s.group g).phase with
  | .running => (s.group g).depth = 0 ∧ s.membersIn .held g = []
  | .holding => (s.group g).depth = 1 ∧ s.walking .hold g
  | .held => (s.group g).depth ≠ 0 ∧ s.membersIn .armed g = []
  | .resuming => (s.group g).depth = 0 ∧ s.walking .resume g

/-- A group write, a start or a held start still fits the group's phase. -/
def Act.GroupReady (s : State) (a : Act) : Prop :=
  match a with
  | .link e _ _ => ∀ g, (s.entry e).behavior.group = some g → (s.group g).phase = .running
  | .hold e _ _ => ∃ g, (s.entry e).behavior.group = some g ∧ (s.group g).phase = .held
  | .depth g n => (s.group g).phase = .held ∧ n ≠ 0
  | .idle _ | .retire _ | .release _ | .closeWalk _ _ | .clearNow _ => True

/-- A walk has its group's phase, has every member of the kind it moves still to move, and closes its own group. -/
def Walk.GroupReady (s : State) (w : Walk) (acts : List Act) : Prop :=
  match w.kind with
  | .hold => (s.group w.group).phase = .holding ∧ (∀ e ∈ s.membersIn .armed w.group, e ∈ w.todo) ∧
      acts = [.closeWalk w.group .held]
  | .resume => (s.group w.group).phase = .resuming ∧ (∀ e ∈ s.membersIn .held w.group, e ∈ w.todo) ∧
      acts = [.closeWalk w.group .running]

/-- The law of the group table. -/
structure State.GroupLaw (s : State) : Prop where
  count : ∀ g, (s.group g).heldCount = (s.membersIn .held g).length
  phase : ∀ g, s.PhaseLaw g
  grouped : ∀ e, (s.entry e).state = .held → (s.entry e).behavior.group.isSome
  acts : ∀ op, s.engine.activity = .busy op → ∀ a ∈ op.plan.acts, a.GroupReady s
  closing : ∀ op g p, s.engine.activity = .busy op → Act.closeWalk g p ∈ op.plan.acts → op.plan.walk.isSome
  walk : ∀ op w, s.engine.activity = .busy op → op.plan.walk = some w → w.GroupReady s op.plan.acts

/-! ## Notices and entries (R106) -/

/-- No notice names a FREE entry, and every SPENT entry is named by a notice. -/
structure State.SpentLaw (s : State) : Prop where
  free : ∀ e, (s.entry e).state = .free → s.noticesOf e = 0
  spent : ∀ e, (s.entry e).state = .spent → 1 ≤ s.noticesOf e
  post : ∀ op p, s.engine.activity = .busy op → op.plan.post = some p →
    p.entry ∈ op.plan.claims ∧ (s.entry p.entry).state = .armed
  release : ∀ op e, s.engine.activity = .busy op → Act.release e ∈ op.plan.acts → op.plan.purge = some e
  purge : ∀ op e, s.engine.activity = .busy op → op.plan.purge = some e →
    (s.entry e).state ≠ .free ∧ ((s.entry e).state = .spent → Act.release e ∈ op.plan.acts)

/-! ## Repeats left (R4) -/

/-- Repeats left against the period and the repeat load of a running entry. -/
def Entry.RepeatsFit (x : Entry) (repeats : Byte) : Prop :=
  if x.period = 0 then repeats = 1
  else if x.behavior.repeatLoad = 0 then repeats = 0
  else 1 ≤ repeats.toNat ∧ repeats.toNat ≤ x.behavior.repeatLoad.toNat

/-- The repeats left of every ARMED or HELD entry fit, and so do those that the operation in flight will write. -/
structure State.RepeatsLaw (s : State) : Prop where
  running : ∀ e, (s.entry e).state = .armed ∨ (s.entry e).state = .held →
    (s.entry e).RepeatsFit (s.entry e).repeatsLeft
  link : ∀ op e d r, s.engine.activity = .busy op → Act.link e d r ∈ op.plan.acts → (s.entry e).RepeatsFit r
  hold : ∀ op e m r, s.engine.activity = .busy op → Act.hold e m r ∈ op.plan.acts → (s.entry e).RepeatsFit r

/-! ## Words for statements about rows -/

/-- Nothing of the event before is due, and the engine can grant `r` (R49). -/
structure State.Grantable (s : State) (r : Requester) : Prop where
  due : s.dueStep = none
  offered : s.offers r = true

/-- `op` is in flight, and every step of the event before has been taken. -/
structure State.InFlight (s : State) (op : Operation) : Prop where
  settled : s.settled = true
  busy : s.engine.activity = .busy op

/-- The engine has completed an operation, and the pointer names `r` (R47). -/
def State.completedTo (s : State) (r : Requester) : State :=
  { s with engine := { s.engine with activity := .deciding, rotation := r, clocks := 0 } }

/-- Every waiting release report has been taken. -/
def State.noReports (s : State) : State := { s with notices := { s.notices with reports := [] } }

/-- Rows whose meaning first takes the due steps of the event before (notes/assumptions/3.md). -/
def rowSettlesFirst (i : Instr) : Bool :=
  match i with
  | .tkiEdge | .tick _ | .triggerEdge _ | .cmd _ | .lineOperation | .post | .walkMemberStep | .finalStep
  | .operationCompletion | .paramWrite _ | .paramRead | .pptrWrite _ | .resultRead | .resultPop _
  | .noticeRead _ | .noticePop _ _ | .vselWrite _ | .viewRead | .nselWrite _ | .nowRead | .iclrWrite _
  | .ienWrite _ | .outopSet _ | .outopClear _ | .outopToggle _ | .outopFourthEncoding _
  | .triggerFlagClear _ | .refusedWindowWrite _ _ | .outputEnable _ | .masterEnable _ | .discard _
  | .schedulerClear _ | .wmClear _ | .clkPeriod => true
  | .hardwareReset _ _ | .nop | .alloc | .setupTiming | .setupBehavior | .retune | .arm | .armAt
  | .cancel | .free | .hold | .resume | .setDivider | .start | .stop | .clearNow | .clearFault
  | .queueConfig | .flushQueue | .bindTrigger | .service | .triggerArm | .triggerCancel | .triggerHold
  | .triggerResume | .releaseReport _ | .standingPop _ => false

/-- `t` is `s` with `e` linked at deadline `d`: the list, and the entry with its repeats reloaded (R45, R55). -/
structure State.LinkedAt (s t : State) (e : EntryIdx) (d : Tick) : Prop where
  entry : t.entry e =
    { s.entry e with
      state := .armed, deadline := d, remaining := 0
      repeatsLeft := if (s.entry e).period = 0 then 1 else (s.entry e).behavior.repeatLoad }
  list : t.list (s.entry e).behavior.timebase =
    insertByDistance (fun a => distance (s.entry a).deadline (s.now (s.entry e).behavior.timebase)) e
      (distance d (s.now (s.entry e).behavior.timebase)) ((s.list (s.entry e).behavior.timebase).erase e)
  otherEntries : ∀ a, a ≠ e → t.entry a = s.entry a
  otherList : ∀ b, b ≠ (s.entry e).behavior.timebase → t.list b = s.list b
  freeList : t.table.freeList = s.table.freeList
  groups : t.engine.groups = s.engine.groups
  notices : t.notices = s.notices

/-- `t` is `s` with `e` HELD at a remaining: the entry with its repeats reloaded, and the held count one higher when
`e` was IDLE (R55, R119). -/
structure State.HeldAt (s t : State) (e : EntryIdx) (remaining : Tick) : Prop where
  entry : t.entry e =
    { s.entry e with
      state := .held, deadline := 0, remaining := remaining
      repeatsLeft := if (s.entry e).period = 0 then 1 else (s.entry e).behavior.repeatLoad }
  count : ∀ g, (t.group g).heldCount = (s.group g).heldCount +
    (if (s.entry e).state = .idle ∧ (s.entry e).behavior.group = some g then 1 else 0)
  phase : ∀ g, (t.group g).phase = (s.group g).phase ∧ (t.group g).depth = (s.group g).depth
  otherEntries : ∀ a, a ≠ e → t.entry a = s.entry a
  lists : ∀ b, t.list b = s.list b
  freeList : t.table.freeList = s.table.freeList
  notices : t.notices = s.notices

/-- `t` is `s` after the grant of the command in execution: the engine is BUSY for it with the NOW of this moment and
the given claims, the command stands in stage ENGINE, and all else is as before (R17, R27, R47, R139). `clocks` is the
model's own counter (notes/assumptions/9.md). -/
def State.CommandGranted (s t : State) (claims : List EntryIdx) : Prop :=
  ∃ plan : Plan, plan.claims = claims ∧ t = { s with
    engine := { s.engine with
      activity := .busy { client := .command, now0 := s.now .tb0, now1 := s.now .tb1, plan := plan }
      clocks := 0 }
    cmd := { s.cmd with execution := s.cmd.execution.map fun x => { x with stage := .engine } } }

/-- `t` is `s` after the grant of the record `c` of line `l`: as for a command, with the record IN SERVICE and the other
lines as before (R17, R27, R47, R158). -/
def State.TriggerGranted (s t : State) (l : TrigIdx) (c : Capture) (claims : List EntryIdx) : Prop :=
  ∃ plan : Plan, plan.claims = claims ∧ t = { s with
    engine := { s.engine with
      activity := .busy { client := .trigger l, now0 := s.now .tb0, now1 := s.now .tb1, plan := plan }
      clocks := 0 }
    trig := { lines := s.trig.lines.set l { s.line l with record := .inService c none } } }

/-- The queue without the notices that name `e`: the others keep their order, the backlog moves up into the free
places, a sealed head that names `e` goes with its seal, and watermark, port and standing pop are kept (R99, R101). -/
def NoticeQueue.without (n : NoticeQueue) (e : EntryIdx) : NoticeQueue :=
  let kept := n.proper.filter fun x => decide (x.entry ≠ e)
  let waiting := n.backlog.filter fun x => decide (x.entry ≠ e)
  { n with
    proper := kept ++ waiting.take (16 - kept.length)
    backlog := waiting.drop (16 - kept.length)
    headSealed := n.headSealed && decide (n.proper.head?.map (·.entry) ≠ some e) }

/-- `t` is `s` after the run of `e` has ended: `e` is off its list and IDLE, or with auto-free SPENT if a notice names
it and else FREE at the tail of the free list (R16, R46, R81). Entries other than `e` and `but` stand. -/
structure State.RetiredAt (s t : State) (e : EntryIdx) (but : Option EntryIdx) : Prop where
  entry : t.entry e =
    { s.entry e with
      state := if (s.entry e).behavior.autoFree then (if s.noticesOf e = 0 then .free else .spent) else .idle
      deadline := 0, remaining := 0, repeatsLeft := 0 }
  freeList : t.table.freeList = s.table.freeList ++
    (if (s.entry e).behavior.autoFree = true ∧ s.noticesOf e = 0 then [e] else [])
  otherEntries : ∀ a, a ≠ e → but ≠ some a → t.entry a = s.entry a
  notices : t.notices = s.notices
  cmd : t.cmd = s.cmd
  trig : t.trig = s.trig

/-- Every block but the List Engine, the Timer Table, the Notice Unit and the requester's own is unchanged. -/
structure State.OutsideKept (s t : State) : Prop where
  time : t.time = s.time
  out : t.out = s.out
  irq : t.irq = s.irq
  bus : t.bus = s.bus

end Sys2Proof.Machine
end

