-- ==== Sys2Proof/Certificates/Slice0/Obligations.lean ====
section
/-!
DEFINITION. The statements for the provers. A statement about a row assumes that the steps of the event before have
been taken (`settled`, `Grantable`, `InFlight`, a due command); EventRowsSettleFirst gives the row in any other state.
-/
section
open Sys2Proof Sys2Proof.Machine

/-! ## The queue of steps -/

/-- One step runs the row at the front of the queue; on an empty queue the block idles (notes/assumptions/5.md). -/
def Obligations.FrontCommandRuns : Prop :=
  (∀ (c : Instr) (rest : List Instr) (s : State), s.pending = c :: rest →
    step s = exec c { s with pending := rest }) ∧
  ∀ s : State, s.pending = [] → step s = .next s

/-- Every row answers a next state, also where its step is not due, and leaves the queue of steps alone: the model's
choice (notes/assumptions/1.md, 2.md and 22.md). -/
def Obligations.EveryRowCompletes : Prop :=
  ∀ (c : Instr) (s : State), ∃ t, exec c s = .next t ∧ t.pending = s.pending

/-- The model's coupling of steps to events (notes/assumptions/3.md): the due steps can all be taken, and a row of
another event takes them first. -/
def Obligations.EventRowsSettleFirst : Prop :=
  (∀ s : State, s.settle.settled = true) ∧
  (∀ s : State, s.settled = true → s.settle = s) ∧
  ∀ (c : Instr) (s : State), rowSettlesFirst c = true → exec c s = exec c s.settle

/-- A row of the part whose step is not due changes nothing (the model's choice, notes/assumptions/2.md). A grant that
the engine does not offer is such a step (R49). -/
def Obligations.NotDueChangesNothing : Prop :=
  (∀ s : State, s.ownerDue = none →
    exec .alloc s = .next s ∧ exec .setupTiming s = .next s ∧ exec .setupBehavior s = .next s ∧
    exec .retune s = .next s ∧ exec .setDivider s = .next s ∧ exec .start s = .next s ∧
    exec .stop s = .next s ∧ exec .clearFault s = .next s ∧ exec .queueConfig s = .next s ∧
    exec .flushQueue s = .next s ∧ exec .bindTrigger s = .next s) ∧
  (∀ s : State, s.nopDue = false → exec .nop s = .next s) ∧
  (∀ (s : State) (e : EntryIdx), s.reportDue e = false → exec (.releaseReport e) s = .next s) ∧
  (∀ (s : State) (q : QueueId), s.standingDue q = none → exec (.standingPop q) s = .next s) ∧
  (∀ s : State, s.dueStep = none → (∃ op, s.engine.activity = .busy op) ∨
      (∃ r, r ≠ .command ∧ s.engine.activity = .chosen r) →
    exec .arm s = .next s ∧ exec .armAt s = .next s ∧ exec .cancel s = .next s ∧ exec .free s = .next s ∧
    exec .hold s = .next s ∧ exec .resume s = .next s ∧ exec .clearNow s = .next s) ∧
  (∀ s : State, s.dueStep = none → (∃ op, s.engine.activity = .busy op) ∨
      (∃ r, r ≠ .trigger ∧ s.engine.activity = .chosen r) →
    exec .triggerArm s = .next s ∧ exec .triggerCancel s = .next s ∧ exec .triggerHold s = .next s ∧
    exec .triggerResume s = .next s) ∧
  ∀ s : State, s.dueStep = none → (∃ op, s.engine.activity = .busy op) ∨
      (∃ r, r ≠ .expiry ∧ s.engine.activity = .chosen r) → exec .service s = .next s

/-! ## Reset and clear -/

/-- A hardware reset (R21, R41, R64, R110, R126, R152, R165, R172, R181, R190), with the levels of R183, and what the
host reads after it (R132, R169, R172, R181). -/
def Obligations.HardwareReset : Prop :=
  (∀ (tki : Bool) (trg : BitVec 4) (s : State), ∃ t, exec (.hardwareReset tki trg) s = .next t ∧
    (∀ e, t.entry e = {
      state := .free, startDelay := 0, period := 0, behavior := .defaults
      repeatsLeft := 0, deadline := 0, remaining := 0 }) ∧
    t.table.freeList = List.finRange 48 ∧
    (∀ b, t.timebase b = { state := .stopped, divider := 0, partialCount := 0, now := 0 }) ∧
    t.time.tkiEdge = .rising ∧ t.time.tkiLevel = tki ∧
    (∀ b, t.list b = []) ∧ t.engine.activity = .idle ∧ t.engine.rotation = .expiry ∧
    (∀ g, t.group g = { phase := .running, depth := 0, heldCount := 0 }) ∧
    (∀ q, t.queue q = {
      proper := [], headSealed := false, backlog := [], watermark := 1, pointer := 0,
      latch := [], standing := none }) ∧
    t.notices.reports = [] ∧
    (∀ l, t.line l = {
      edge := .off, action := .arm 0, level := trg.getLsbD l.val, record := .none
      overrun := false, miss := false }) ∧
    t.cmd = {
      staging := Vector.replicate 8 0, pptr := 0, queue := [], seq := 0, execution := none
      results := [], resultPointer := 0, resultLatch := [] } ∧
    t.out = { latch := Vector.replicate 16 false, enable := false } ∧
    t.irq = { rej := false, ien := 0, master := false } ∧
    t.bus.wm = false ∧ t.bus.vsel = .entry 0 ∧ t.bus.viewPointer = 0 ∧ t.bus.viewLatch = [] ∧
    t.bus.nsel = .tb0 ∧ t.bus.nowPointer = 0 ∧ t.bus.nowLatch = []) ∧
  (∀ (tki : Bool) (trg : BitVec 4) (s : State), ∃ t, exec (.hardwareReset tki trg) s = .next t ∧
    t.windowRead 0 = .byte 0 ∧ t.windowRead 1 = .byte 0 ∧ t.windowRead 2 = .byte 0 ∧
    t.windowRead 3 = .byte 4 ∧ t.windowRead 9 = .byte 0 ∧ t.windowRead 10 = .byte 0 ∧
    t.windowRead 11 = .byte 0 ∧ t.windowRead 14 = .byte 0 ∧ t.windowRead 15 = .byte 0 ∧
    t.intLow = false ∧ ∀ n, t.pin n = none)

/-- A scheduler clear (R189): what every block takes, and what is kept. That the row carries the whole byte with its
CLEAR bit taken as 1, and that the byte last read is kept, is the model's choice (notes/assumptions/7.md, 12.md). -/
def Obligations.SchedulerClearValues : Prop :=
  ∀ (b : Byte) (s : State), s.settled = true → ∃ t, exec (.schedulerClear b) s = .next t ∧
    (∀ e, t.entry e = {
      state := .free, startDelay := 0, period := 0, behavior := .defaults
      repeatsLeft := 0, deadline := 0, remaining := 0 }) ∧
    t.table.freeList = List.finRange 48 ∧
    (∀ k, t.timebase k = { state := .stopped, divider := (s.timebase k).divider, partialCount := 0, now := 0 }) ∧
    t.time.tkiEdge = s.time.tkiEdge ∧ t.time.tkiLevel = s.time.tkiLevel ∧
    (∀ k, t.list k = []) ∧ t.engine.activity = .idle ∧ t.engine.rotation = .expiry ∧
    (∀ g, t.group g = { phase := .running, depth := 0, heldCount := 0 }) ∧
    (∀ q, t.queue q = {
      proper := [], headSealed := false, backlog := [],
      watermark := (s.queue q).watermark, pointer := 0, latch := [], standing := none }) ∧
    t.notices.reports = [] ∧
    (∀ l, t.line l = {
      edge := .off, action := .arm 0, level := (s.line l).level, record := .none
      overrun := false, miss := false }) ∧
    t.cmd = {
      staging := Vector.replicate 8 0, pptr := 0, queue := [], seq := 0, execution := none
      results := [], resultPointer := 0, resultLatch := [] } ∧
    t.out = { latch := s.out.latch, enable := b.getLsbD 0 } ∧
    t.irq = { rej := false, ien := s.irq.ien, master := b.getLsbD 1 } ∧
    t.bus = {
      wm := false, vsel := .entry 0, viewPointer := 0, viewLatch := [], nsel := .tb0
      nowPointer := 0, nowLatch := [], readData := s.bus.readData }

/-- The other GCTRL writes (R188): the two enables, DISCARD (R149) and WM clear (R187), in one event. -/
def Obligations.GctrlWrites : Prop :=
  ∀ (b : Byte) (s : State), s.settled = true → b.getLsbD 3 = false →
    let t : State :=
      { s with
        out := { s.out with enable := b.getLsbD 0 }
        irq := { s.irq with master := b.getLsbD 1 }
        cmd := { s.cmd with queue := if b.getLsbD 2 then [] else s.cmd.queue }
        bus := { s.bus with wm := if b.getLsbD 4 then false else s.bus.wm } }
    exec (.outputEnable b) s = .next t ∧ exec (.masterEnable b) s = .next t ∧
    (b.getLsbD 2 = true → exec (.discard b) s = .next t) ∧
    (b.getLsbD 4 = true → exec (.wmClear b) s = .next t)

/-! ## The window -/

/-- A CMD write while the queue holds fewer than 4 commands is accepted (R128); one while it holds 4 sets REJ and
changes nothing else (R131). -/
def Obligations.CmdWrites : Prop :=
  (∀ (code : Byte) (s : State), s.settled = true → s.cmd.queue.length < 4 →
    exec (.cmd code) s = .next (State.take { s with cmd := { s.cmd with
      queue := s.cmd.queue ++ [{ code := code, params := s.cmd.staging, seq := s.cmd.seq }]
      seq := s.cmd.seq + 1
      pptr := 0 } })) ∧
  (∀ (code : Byte) (s : State), s.settled = true → 4 ≤ s.cmd.queue.length →
    exec (.cmd code) s = .next { s with irq := { s.irq with rej := true } })

/-- The take (R134, R136): nothing while a condition fails; a command that passes its checks goes into execution; one
that fails is answered, with FFH for an ALLOC and else 0 (R148), and the next is taken. The answer (R134, R141): the
command in execution leaves it with its result at the tail of the result queue, and the next is taken in the same
event. The checks (R136, R137, R194): what `check` answers for every code and every parameter byte, the indices before
the ranges; and the stage a checked command reaches (R135, R138, R139, R140). -/
def Obligations.TakeAndAnswer : Prop :=
  ((∀ s : State, s.cmd.queue = [] ∨ s.cmd.execution.isSome ∨ 4 ≤ s.cmd.results.length → s.take = s) ∧
  (∀ (s : State) (c : QueuedCommand) (rest : List QueuedCommand) (k : Command), s.cmd.queue = c :: rest →
    s.cmd.execution = none → s.cmd.results.length < 4 → c.check = .ok k →
    s.take = { s with cmd := { s.cmd with queue := rest, execution := some ⟨c, k.firstStage⟩ } }) ∧
  ∀ (s : State) (c : QueuedCommand) (rest : List QueuedCommand) (st : Status), s.cmd.queue = c :: rest →
    s.cmd.execution = none → s.cmd.results.length < 4 → c.check = .error st →
    s.take = State.take { s with cmd := { s.cmd with
      queue := rest
      results := s.cmd.results ++ [⟨c.seq, c.code, st, if c.code = 1 then 0xFF else 0⟩] } }) ∧
  (∀ (s : State) (x : Execution) (status : Status) (value : Byte), s.cmd.execution = some x →
    s.answer status value = State.take { s with cmd := { s.cmd with
      execution := none
      results := s.cmd.results ++ [⟨x.command.seq, x.command.code, status, value⟩] } }) ∧
  (∀ k : Command, k.firstStage =
    match k with
    | .nop => .check
    | .arm _ | .armAt _ _ | .cancel _ _ | .free _ | .hold _ | .resume _ | .clearNow _ => .grantWait
    | _ => .owner) ∧
  ∀ c : QueuedCommand,
    let n (i : Fin 8) : Nat := c.params[i].toNat
    let three (i j k : Fin 8) : Nat := n i + 256 * n j + 65536 * n k
    let bad (p : Prop) (st : Status) : Prop := p → c.check = .error st
    (15 ≤ c.code.toNat → c.check = .error .badCode) ∧
    (c.code = 0 → c.check = .ok .nop) ∧
    (c.code = 1 →
      (n 0 = 255 → c.check = .ok (.alloc none)) ∧
      (∀ e : EntryIdx, n 0 = e.val → c.check = .ok (.alloc (some e))) ∧
      bad (48 ≤ n 0 ∧ n 0 ≠ 255) .badIndex) ∧
    (c.code = 2 →
      bad (48 ≤ n 0) .badIndex ∧
      bad (n 0 < 48 ∧ (8388607 < three 1 2 3 ∨ 8388607 < three 4 5 6)) .range ∧
      ∀ e : EntryIdx, n 0 = e.val → three 1 2 3 ≤ 8388607 → three 4 5 6 ≤ 8388607 →
        c.check = .ok (.setupTiming e (BitVec.ofNat 24 (three 1 2 3)) (BitVec.ofNat 24 (three 4 5 6)))) ∧
    (c.code = 3 →
      let index : Prop := 48 ≤ n 0 ∨ (8 ≤ n 5 ∧ n 5 ≠ 255) ∨ (48 ≤ n 6 ∧ n 6 ≠ 255) ∨ 16 ≤ n 2 % 32 ∨
        2 ≤ n 1 / 64 ∨ 2 ≤ n 1 % 4
      let range : Prop := n 1 / 16 % 4 = 3 ∨ 4 ≤ n 2 / 32
      bad index .badIndex ∧ bad (¬index ∧ range) .range ∧
      (¬index → ¬range → ∃ (e : EntryIdx) (b : Behavior), c.check = .ok (.setupBehavior e b) ∧ e.val = n 0 ∧
        n 1 % 4 = (match b.timebase with | .tb0 => 0 | .tb1 => 1) ∧
        n 1 / 4 % 2 = (match b.catchUp with | .skip => 0 | .keep => 1) ∧
        n 1 / 8 % 2 = (if b.autoFree then 1 else 0) ∧
        n 1 / 16 % 4 = (match b.postMode with | .off => 0 | .every => 1 | .final => 2) ∧
        n 1 / 64 = (match b.queue with | .nq0 => 0 | .nq1 => 1) ∧
        n 2 / 32 = (match b.action with | .none => 0 | .set => 1 | .clear => 2 | .toggle => 3) ∧
        n 2 % 32 = b.line.val ∧ b.repeatLoad = c.params[3] ∧ b.tag = c.params[4] ∧
        n 5 = (match b.group with | none => 255 | some g => g.val) ∧
        n 6 = (match b.successor with | none => 255 | some y => y.val))) ∧
    (c.code = 4 → bad (48 ≤ n 0) .badIndex ∧ ∀ e : EntryIdx, n 0 = e.val → c.check = .ok (.arm e)) ∧
    (c.code = 5 → bad (48 ≤ n 0) .badIndex ∧
      ∀ e : EntryIdx, n 0 = e.val → c.check = .ok (.armAt e (BitVec.ofNat 24 (three 1 2 3)))) ∧
    (c.code = 6 → bad (48 ≤ n 0) .badIndex ∧ bad (n 0 < 48 ∧ 2 ≤ n 1) .range ∧
      ∀ e : EntryIdx, n 0 = e.val → (n 1 = 0 → c.check = .ok (.cancel e false)) ∧
        (n 1 = 1 → c.check = .ok (.cancel e true))) ∧
    (c.code = 7 → bad (48 ≤ n 0) .badIndex ∧ ∀ e : EntryIdx, n 0 = e.val → c.check = .ok (.free e)) ∧
    (c.code = 8 → bad (8 ≤ n 0) .badIndex ∧ ∀ g : GroupIdx, n 0 = g.val → c.check = .ok (.hold g)) ∧
    (c.code = 9 → bad (8 ≤ n 0) .badIndex ∧ ∀ g : GroupIdx, n 0 = g.val → c.check = .ok (.resume g)) ∧
    (c.code = 10 →
      bad (2 ≤ n 0) .badIndex ∧ bad (n 0 < 2 ∧ 5 ≤ n 1) .range ∧
      bad (n 0 = 1 ∧ n 1 = 0 ∧ (255 < n 2 + 256 * n 3 ∨ 2 ≤ n 4)) .range ∧
      (n 0 = 0 → n 1 = 0 → c.check = .ok (.setDivider .tb0 (BitVec.ofNat 16 (n 2 + 256 * n 3)) none)) ∧
      (n 0 = 1 → n 1 = 0 → n 2 + 256 * n 3 ≤ 255 →
        (n 4 = 0 → c.check = .ok (.setDivider .tb1 (BitVec.ofNat 16 (n 2)) (some .rising))) ∧
        (n 4 = 1 → c.check = .ok (.setDivider .tb1 (BitVec.ofNat 16 (n 2)) (some .falling)))) ∧
      ∀ b : Timebase, n 0 = (match b with | .tb0 => 0 | .tb1 => 1) →
        (n 1 = 1 → c.check = .ok (.start b)) ∧ (n 1 = 2 → c.check = .ok (.stop b)) ∧
        (n 1 = 3 → c.check = .ok (.clearNow b)) ∧ (n 1 = 4 → c.check = .ok (.clearFault b))) ∧
    (c.code = 11 → bad (2 ≤ n 0) .badIndex ∧ bad (n 0 < 2 ∧ (n 1 = 0 ∨ 17 ≤ n 1)) .range ∧
      ∀ q : QueueId, n 0 = (match q with | .nq0 => 0 | .nq1 => 1) → 1 ≤ n 1 → n 1 ≤ 16 →
        c.check = .ok (.queueConfig q c.params[1])) ∧
    (c.code = 12 → bad (2 ≤ n 0) .badIndex ∧
      ∀ q : QueueId, n 0 = (match q with | .nq0 => 0 | .nq1 => 1) → c.check = .ok (.flushQueue q)) ∧
    (c.code = 13 →
      let target : Prop := n 2 < 2 ∧ 48 ≤ n 3 ∨ 2 ≤ n 2 ∧ n 2 < 4 ∧ 8 ≤ n 3
      bad (4 ≤ n 0 ∨ target) .badIndex ∧ bad (n 0 < 4 ∧ ¬target ∧ (4 ≤ n 2 ∨ 4 ≤ n 1)) .range ∧
      ∀ (l : TrigIdx) (edge : BindingEdge), n 0 = l.val →
        n 1 = (match edge with | .off => 0 | .rising => 1 | .falling => 2 | .both => 3) →
        (∀ e : EntryIdx, n 2 = 0 → n 3 = e.val → c.check = .ok (.bindTrigger l edge (.arm e))) ∧
        (∀ e : EntryIdx, n 2 = 1 → n 3 = e.val → c.check = .ok (.bindTrigger l edge (.cancel e))) ∧
        (∀ g : GroupIdx, n 2 = 2 → n 3 = g.val → c.check = .ok (.bindTrigger l edge (.hold g))) ∧
        (∀ g : GroupIdx, n 2 = 3 → n 3 = g.val → c.check = .ok (.bindTrigger l edge (.resume g)))) ∧
    (c.code = 14 → bad (48 ≤ n 0) .badIndex ∧ bad (n 0 < 48 ∧ 8388607 < three 1 2 3) .range ∧
      ∀ e : EntryIdx, n 0 = e.val → three 1 2 3 ≤ 8388607 →
        c.check = .ok (.retune e (BitVec.ofNat 24 (three 1 2 3))))

/-- PARAM (R129). -/
def Obligations.ParamAccess : Prop :=
  ∀ (b : Byte) (s : State), s.settled = true →
    exec (.paramWrite b) s = .next { s with cmd := { s.cmd with
      staging := s.cmd.staging.set s.cmd.pptr b, pptr := s.cmd.pptr + 1 } } ∧
    exec .paramRead s = .next { s with
      cmd := { s.cmd with pptr := s.cmd.pptr + 1 }
      bus := { s.bus with readData := some s.cmd.staging[s.cmd.pptr] } }

/-- PPTR (R130): its read, its writes and what sets it to 0. The read and the writes are on the settled state, and the
row SCHEDULER_CLEAR carries its bit for every byte: the model's choices (notes/assumptions/3.md, 14.md and 7.md). -/
def Obligations.PptrAccess : Prop :=
  (∀ (s : State), s.windowRead 5 = .byte (BitVec.ofNat 8 s.settle.cmd.pptr.val)) ∧
  (∀ (b : Byte) (s : State) (h : b.toNat < 8), s.settled = true →
    exec (.pptrWrite b) s = .next { s with cmd := { s.cmd with pptr := ⟨b.toNat, h⟩ } }) ∧
  (∀ (b : Byte) (s : State), s.settled = true → 8 ≤ b.toNat →
    exec (.pptrWrite b) s = .next { s with bus := { s.bus with wm := true } }) ∧
  (∀ (code : Byte) (s : State), s.settled = true → s.cmd.queue.length < 4 →
    ∃ t, exec (.cmd code) s = .next t ∧ t.cmd.pptr = 0 ∧ t.cmd.staging = s.cmd.staging) ∧
  (∀ (code : Byte) (s : State), s.settled = true → 4 ≤ s.cmd.queue.length →
    ∃ t, exec (.cmd code) s = .next t ∧ t.cmd.pptr = s.cmd.pptr) ∧
  (∀ (tki : Bool) (trg : BitVec 4) (s : State),
    ∃ t, exec (.hardwareReset tki trg) s = .next t ∧ t.cmd.pptr = 0) ∧
  ∀ (b : Byte) (s : State), ∃ t, exec (.schedulerClear b) s = .next t ∧ t.cmd.pptr = 0

/-- The RESULT port: a read (R143, R191), with the status codes of R147, and a pop (R144). -/
def Obligations.ResultPort : Prop :=
  (∀ (s : State), s.settled = true →
    let latch : List Byte :=
      if s.cmd.resultPointer = 0 then
        match s.cmd.results with
        | [] => [0xFF, 0, 0, 0]
        | r :: _ => [r.seq.setWidth 8, r.code,
            (match r.status with
              | .ok => 0 | .noEffect => 1 | .badCode => 2 | .badIndex => 3 | .range => 4 | .state => 5
              | .exhausted => 6 | .faulted => 7 | .limit => 8),
            r.value]
      else s.cmd.resultLatch
    exec .resultRead s = .next { s with
      cmd := { s.cmd with resultLatch := latch, resultPointer := s.cmd.resultPointer + 1 }
      bus := { s.bus with readData := some (latch.getD s.cmd.resultPointer.val 0) } }) ∧
  (∀ (b : Byte) (s : State), s.settled = true → s.cmd.results = [] →
    exec (.resultPop b) s = .next { s with bus := { s.bus with wm := true } }) ∧
  ∀ (b : Byte) (s : State) (r : ResultRecord) (rest : List ResultRecord), s.settled = true →
    s.cmd.results = r :: rest →
    exec (.resultPop b) s = .next (State.take { s with cmd := { s.cmd with
      results := rest, resultPointer := 0, resultLatch := [] } })

/-- A read of a notice port (R96): byte 0 latches and seals the head, in the layout of R191, or latches the empty
pattern. -/
def Obligations.NoticePortRead : Prop :=
  let byte (v i : Nat) : Byte := BitVec.ofNat 8 (v / 256 ^ i)
  let bytes (h : Notice) : List Byte :=
    [BitVec.ofNat 8 h.entry.val, h.tag,
      BitVec.ofNat 8 ((match h.timebase with | .tb0 => 0 | .tb1 => 1) + (if h.final then 2 else 0)
        + (if h.chainMiss then 4 else 0) + (if h.saturated then 8 else 0)),
      h.count, byte h.deadline.toNat 0, byte h.deadline.toNat 1, byte h.deadline.toNat 2,
      byte h.lateness.toNat 0, byte h.lateness.toNat 1]
  ∀ (q : QueueId) (s : State), s.settled = true → ∃ t, exec (.noticeRead q) s = .next t ∧
    t.bus = { s.bus with readData := some ((t.queue q).latch.getD (s.queue q).pointer.val 0) } ∧
    (t.queue q).pointer = (s.queue q).pointer + 1 ∧
    ((s.queue q).pointer = 0 → (s.queue q).proper = [] →
      t.queue q = { s.queue q with pointer := 1, latch := [0xFF, 0, 0, 0, 0, 0, 0, 0, 0] }) ∧
    (∀ h rest, (s.queue q).pointer = 0 → (s.queue q).proper = h :: rest →
      t.queue q = { s.queue q with pointer := 1, latch := bytes h, headSealed := true }) ∧
    ((s.queue q).pointer ≠ 0 → t.queue q = { s.queue q with pointer := (s.queue q).pointer + 1 }) ∧
    (∀ r, r ≠ q → t.queue r = s.queue r) ∧ t.notices.reports = s.notices.reports ∧
    t.cmd = s.cmd ∧ t.table = s.table ∧ t.time = s.time ∧ t.engine = s.engine ∧ t.trig = s.trig ∧
    t.out = s.out ∧ t.irq = s.irq

/-- The pops that are refused with WM (R98, R100), and the pop that stands (R100). -/
def Obligations.NoticePopNotTaken : Prop :=
  (∀ (q : QueueId) (i : Byte) (s : State), s.settled = true →
    ((s.queue q).standing.isSome ∨ (s.queue q).proper = [] ∨
      ∃ h rest, (s.queue q).proper = h :: rest ∧ h.entry.val ≠ i.toNat) →
    exec (.noticePop q i) s = .next { s with bus := { s.bus with wm := true } }) ∧
  ∀ (q : QueueId) (i : Byte) (s : State) (h : Notice) (rest : List Notice), s.settled = true →
    (s.queue q).standing = none → (s.queue q).proper = h :: rest → h.entry.val = i.toNat →
    (s.entry h.entry).state = .spent → s.claimed h.entry = true → s.noticesOf h.entry = 1 →
    exec (.noticePop q i) s = .next (s.setQueue q { s.queue q with standing := some h.entry })

/-- A pop that is taken (R98, R99, R106): the head goes, the port is reset, the backlog's lowest notice takes the
place, and a SPENT entry whose last notice it was is released (R10). The report of another entry under a claim waits
(R17). -/
def Obligations.NoticePopTaken : Prop :=
  ∀ (q : QueueId) (i : Byte) (s : State) (h : Notice) (rest : List Notice), s.settled = true →
    (s.queue q).standing = none → (s.queue q).proper = h :: rest → h.entry.val = i.toNat →
    ¬((s.entry h.entry).state = .spent ∧ s.claimed h.entry = true ∧ s.noticesOf h.entry = 1) →
    rest.length ≤ 15 → ((s.queue q).backlog ≠ [] → rest.length = 15) →
    ∃ t, exec (.noticePop q i) s = .next t ∧
      t.queue q = { s.queue q with
        proper := rest ++ (s.queue q).backlog.take 1, backlog := (s.queue q).backlog.drop 1
        headSealed := false, pointer := 0, latch := [] } ∧
      (∀ r, r ≠ q → t.queue r = s.queue r) ∧
      t.notices.reports = s.notices.reports ++
        (if s.claimed h.entry = true ∧ s.noticesOf h.entry = 1 then [h.entry] else []) ∧
      ((s.entry h.entry).state = .spent → s.noticesOf h.entry = 1 →
        t.entry h.entry = { s.entry h.entry with state := .free, deadline := 0, remaining := 0, repeatsLeft := 0 } ∧
        t.table.freeList = s.table.freeList ++ [h.entry]) ∧
      (¬((s.entry h.entry).state = .spent ∧ s.noticesOf h.entry = 1) → t.table = s.table) ∧
      (∀ a, a ≠ h.entry → t.entry a = s.entry a) ∧
      t.bus = s.bus ∧ t.cmd = s.cmd ∧ t.time = s.time ∧ t.engine = s.engine ∧ t.trig = s.trig ∧
      t.out = s.out ∧ t.irq = s.irq

/-- The standing pop at the end of the claim (R100): taken if the head still names the entry, else refused. -/
def Obligations.StandingPopTaken : Prop :=
  ∀ (q : QueueId) (e : EntryIdx) (s : State), (s.queue q).standing = some e → s.claimed e = false →
    (((s.queue q).proper = [] ∨ ∃ h rest, (s.queue q).proper = h :: rest ∧ h.entry ≠ e) →
      exec (.standingPop q) s = .next { s.setQueue q { s.queue q with standing := none } with
        bus := { s.bus with wm := true } }) ∧
    ∀ h rest, (s.queue q).proper = h :: rest → h.entry = e → rest.length ≤ 15 →
      ((s.queue q).backlog ≠ [] → rest.length = 15) → (s.entry e).state = .spent → s.noticesOf e = 1 →
      ∃ t, exec (.standingPop q) s = .next t ∧
        t.queue q = { s.queue q with
          proper := rest ++ (s.queue q).backlog.take 1, backlog := (s.queue q).backlog.drop 1
          headSealed := false, pointer := 0, latch := [], standing := none } ∧
        (∀ r, r ≠ q → t.queue r = s.queue r) ∧ t.notices.reports = s.notices.reports ∧
        t.entry e = { s.entry e with state := .free, deadline := 0, remaining := 0, repeatsLeft := 0 } ∧
        t.table.freeList = s.table.freeList ++ [e] ∧ (∀ a, a ≠ e → t.entry a = s.entry a) ∧ t.bus = s.bus ∧
        t.cmd = s.cmd ∧ t.time = s.time ∧ t.engine = s.engine ∧ t.trig = s.trig ∧ t.out = s.out ∧
        t.irq = s.irq

/-- VSEL and NSEL writes (R186, R40): a valid code selects its item, every other VSEL code is refused. -/
def Obligations.SelectorWrites : Prop :=
  (∀ (v : ViewItem) (s : State), s.settled = true →
    exec (.vselWrite v.code) s = .next { s with bus := { s.bus with
      vsel := v, viewPointer := 0, viewLatch := [] } }) ∧
  (∀ (b : Byte) (s : State), s.settled = true → (∀ v : ViewItem, v.code ≠ b) →
    exec (.vselWrite b) s = .next { s with bus := { s.bus with wm := true } }) ∧
  ∀ (b : Byte) (s : State), s.settled = true →
    exec (.nselWrite b) s = .next { s with bus := { s.bus with
      nsel := if b.getLsbD 0 then .tb1 else .tb0, nowPointer := 0, nowLatch := [] } }

/-- Reads of the VIEW and NOW ports (R185, R40), and the bytes of every view (R192, R194, R107), with the next field of
an entry (R1). -/
def Obligations.ViewAndNowReads : Prop :=
  (∀ (s : State), s.settled = true →
    let latch := if s.bus.viewPointer = 0 then s.viewBytes s.bus.vsel else s.bus.viewLatch
    exec .viewRead s = .next { s with bus := { s.bus with
      viewLatch := latch
      viewPointer := if s.bus.viewPointer + 1 < s.bus.vsel.length then s.bus.viewPointer + 1 else 0
      readData := some (latch.getD s.bus.viewPointer 0) } }) ∧
  (∀ (s : State), s.settled = true →
    let n := (s.now s.bus.nsel).toNat
    let latch : List Byte :=
      if s.bus.nowPointer = 0 then [BitVec.ofNat 8 n, BitVec.ofNat 8 (n / 256), BitVec.ofNat 8 (n / 65536)]
      else s.bus.nowLatch
    exec .nowRead s = .next { s with bus := { s.bus with
      nowLatch := latch
      nowPointer := s.bus.nowPointer + 1
      readData := some (latch.getD s.bus.nowPointer.val 0) } }) ∧
  (∀ v : ViewItem, v.length =
    match v with | .entry _ => 19 | .group _ => 3 | .trigger _ => 10 | .list _ => 2 | .freeList => 3) ∧
  let byte (v i : Nat) : Byte := BitVec.ofNat 8 (v / 256 ^ i)
  let index (i : Option Nat) : Byte := BitVec.ofNat 8 (i.getD 255)
  let actionCode (a : TriggerAction) : Nat :=
    match a with | .arm _ => 0 | .cancel _ => 1 | .hold _ => 2 | .resume _ => 3
  let target (a : TriggerAction) : Byte :=
    match a with
    | .arm e => BitVec.ofNat 8 e.val | .cancel e => BitVec.ofNat 8 e.val
    | .hold g => BitVec.ofNat 8 g.val | .resume g => BitVec.ofNat 8 g.val
  (∀ (s : State) (e : EntryIdx),
    let x := s.entry e
    let b := x.behavior
    let time : Nat := match x.state with | .armed => x.deadline.toNat | .held => x.remaining.toNat | _ => 0
    let count (q : QueueId) : Nat :=
      ((s.queue q).proper ++ (s.queue q).backlog).countP fun n => decide (n.entry = e)
    let behind (q : QueueId) : Nat := if (s.queue q).backlog.any fun n => decide (n.entry = e) then 1 else 0
    s.viewBytes (.entry e) =
      [(match x.state with | .free => 0 | .idle => 1 | .armed => 2 | .held => 3 | .spent => 4),
        BitVec.ofNat 8 ((match b.timebase with | .tb0 => 0 | .tb1 => 1)
          + (match b.catchUp with | .skip => 0 | .keep => 4) + (if b.autoFree then 8 else 0)
          + (match b.postMode with | .off => 0 | .every => 16 | .final => 32)
          + (match b.queue with | .nq0 => 0 | .nq1 => 64)),
        BitVec.ofNat 8 (b.line.val
          + (match b.action with | .none => 0 | .set => 32 | .clear => 64 | .toggle => 96)),
        b.repeatLoad, b.tag, index (b.group.map (·.val)), index (b.successor.map (·.val)),
        byte x.startDelay.toNat 0, byte x.startDelay.toNat 1, byte x.startDelay.toNat 2,
        byte x.period.toNat 0, byte x.period.toNat 1, byte x.period.toNat 2, x.repeatsLeft,
        byte time 0, byte time 1, byte time 2, index ((s.nextOf e).map (·.val)),
        BitVec.ofNat 8 (count .nq0 + 4 * behind .nq0 + 8 * count .nq1 + 32 * behind .nq1)]) ∧
  (∀ (s : State) (e : EntryIdx),
    ((s.entry e).state = .idle ∨ (s.entry e).state = .held ∨ (s.entry e).state = .spent → s.nextOf e = none) ∧
    ∀ l, (s.entry e).state = .free ∧ l = s.table.freeList ∨
        (s.entry e).state = .armed ∧ l = s.list (s.entry e).behavior.timebase →
      (∀ before, l = before ++ [e] → e ∉ before → s.nextOf e = none) ∧
      ∀ before a after, l = before ++ e :: a :: after → e ∉ before → s.nextOf e = some a) ∧
  (∀ (s : State) (g : GroupIdx), s.viewBytes (.group g) =
    [(match (s.group g).phase with | .running => 0 | .holding => 1 | .held => 2 | .resuming => 3),
      (s.group g).depth.setWidth 8, BitVec.ofNat 8 (s.group g).heldCount]) ∧
  (∀ (s : State) (l : TrigIdx),
    let x := s.line l
    let record : Option Capture := match x.record with | .none => none | .pending c => some c | .inService c _ => some c
    s.viewBytes (.trigger l) =
      [BitVec.ofNat 8 ((match x.edge with | .off => 0 | .rising => 1 | .falling => 2 | .both => 3)
          + 4 * actionCode x.action + (if x.level then 16 else 0)
          + (match x.record with
              | .none => 0 | .pending _ => 32 | .inService _ none => 64 | .inService _ (some _) => 64 + 128)),
        target x.action,
        BitVec.ofNat 8 ((match record with | none => 0 | some c => actionCode c.action)
          + (if x.overrun then 4 else 0) + (if x.miss then 8 else 0))] ++
      match record with
      | none => [0, 0, 0, 0, 0, 0, 0]
      | some c => [target c.action, byte c.now0.toNat 0, byte c.now0.toNat 1, byte c.now0.toNat 2,
          byte c.now1.toNat 0, byte c.now1.toNat 1, byte c.now1.toNat 2]) ∧
  ∀ s : State,
    (∀ b, s.viewBytes (.list b) = [index ((s.list b).head?.map (·.val)), BitVec.ofNat 8 (s.list b).length]) ∧
    s.viewBytes .freeList = [index (s.table.freeList.head?.map (·.val)),
      index (s.table.freeList.getLast?.map (·.val)), BitVec.ofNat 8 s.table.freeList.length]

/-- ICLR and IEN writes and IEN as it is read (R176, R177); the trigger flag clear (R162, R193), where bit n clears
OVERRUN of line n and bit n + 4 its MISS. -/
def Obligations.FlagWrites : Prop :=
  ((∀ (b : Byte) (s : State), s.settled = true →
    exec (.iclrWrite b) s = .next { s with irq := { s.irq with rej := s.irq.rej && !b.getLsbD 3 } }) ∧
  (∀ (b : Byte) (s : State), s.settled = true →
    exec (.ienWrite b) s = .next { s with irq := { s.irq with ien := b.setWidth 7 } }) ∧
  ∀ (s : State), s.windowRead 2 = .byte (s.settle.irq.ien.setWidth 8)) ∧
  (∀ (b : Byte) (s : State), s.settled = true → ∃ t, exec (.triggerFlagClear b) s = .next t ∧
    (∀ l, t.line l = { s.line l with
      overrun := (s.line l).overrun && !b.getLsbD l.val
      miss := (s.line l).miss && !b.getLsbD (l.val + 4) }) ∧
    t.bus = s.bus ∧ t.cmd = s.cmd ∧ t.table = s.table ∧ t.time = s.time ∧ t.engine = s.engine ∧
    t.notices = s.notices ∧ t.out = s.out ∧ t.irq = s.irq)

/-- OUTOP (R166, R168): the named line takes the operation, the other lines stay; the fourth encoding sets WM. The
writes to offsets 9H, AH and CH set WM (R184). -/
def Obligations.OutopAndRefusedWrites : Prop :=
  ((∀ (b : Byte) (s : State) (n : LineIdx), s.settled = true → b.toNat % 16 = n.val →
    exec (.outopSet b) s = .next { s with out := { s.out with latch := s.out.latch.set n true } } ∧
    exec (.outopClear b) s = .next { s with out := { s.out with latch := s.out.latch.set n false } } ∧
    exec (.outopToggle b) s =
      .next { s with out := { s.out with latch := s.out.latch.set n (!s.out.latch[n]) } }) ∧
  (∀ (b : Byte) (s : State), s.settled = true →
    exec (.outopFourthEncoding b) s = .next { s with bus := { s.bus with wm := true } }) ∧
  ∀ (b : Byte),
    writeRow 14 b = if (b.toNat / 16) % 4 = 0 then .outopSet b else if (b.toNat / 16) % 4 = 1 then .outopClear b
      else if (b.toNat / 16) % 4 = 2 then .outopToggle b else .outopFourthEncoding b) ∧
  ((∀ (o : RefusedOffset) (b : Byte) (s : State), s.settled = true →
    exec (.refusedWindowWrite o b) s = .next { s with bus := { s.bus with wm := true } }) ∧
  ∀ b : Byte, writeRow 9 b = .refusedWindowWrite .qlevel0 b ∧ writeRow 10 b = .refusedWindowWrite .qlevel1 b ∧
    writeRow 12 b = .refusedWindowWrite .view b)

/-! ## The input pins -/

/-- CLK periods and TKI edges (R25): only a RUNNING timebase counts, and an edge of the other kind is not counted. At
the last count the event is the tick of R26 (TickTestsHead), which the row TICK stands for (notes/assumptions/8.md). -/
def Obligations.EventsAreCounted : Prop :=
  (∀ (s : State), s.settled = true → ∃ t, exec .clkPeriod s = .next t ∧
    (s.time.tb0.state ≠ .running → t.time = s.time) ∧
    (s.time.tb0.state = .running → s.time.tb0.partialCount.toNat < s.time.tb0.divider.toNat →
      t.time = { s.time with tb0 := { s.time.tb0 with partialCount := s.time.tb0.partialCount + 1 } }) ∧
    (s.time.tb0.state = .running → s.time.tb0.divider.toNat ≤ s.time.tb0.partialCount.toNat →
      exec .clkPeriod s = exec (.tick .tb0) s ∧ t.time = { s.time with tb0 := t.time.tb0 } ∧
      t.time.tb0.partialCount = 0) ∧
    t.bus = s.bus ∧ t.cmd = s.cmd ∧ t.table = s.table ∧ t.notices = s.notices ∧ t.trig = s.trig ∧
    t.out = s.out ∧ t.irq = s.irq ∧ t.engine = { s.engine with clocks := t.engine.clocks }) ∧
  ∀ (s : State), s.settled = true → ∃ t, exec .tkiEdge s = .next t ∧
    (s.time.tb1.state ≠ .running ∨ s.time.tkiEdge = (if s.time.tkiLevel then .rising else .falling) →
      t.time = { s.time with tkiLevel := !s.time.tkiLevel }) ∧
    (s.time.tb1.state = .running → s.time.tkiEdge = (if s.time.tkiLevel then .falling else .rising) →
      s.time.tb1.partialCount.toNat < s.time.tb1.divider.toNat →
      t.time = { s.time with
        tkiLevel := !s.time.tkiLevel
        tb1 := { s.time.tb1 with partialCount := s.time.tb1.partialCount + 1 } }) ∧
    (s.time.tb1.state = .running → s.time.tkiEdge = (if s.time.tkiLevel then .falling else .rising) →
      s.time.tb1.divider.toNat ≤ s.time.tb1.partialCount.toNat →
      exec .tkiEdge s = exec (.tick .tb1) s ∧
      t.time = { s.time with tkiLevel := !s.time.tkiLevel, tb1 := t.time.tb1 } ∧ t.time.tb1.partialCount = 0) ∧
    t.bus = s.bus ∧ t.cmd = s.cmd ∧ t.table = s.table ∧ t.notices = s.notices ∧ t.trig = s.trig ∧
    t.out = s.out ∧ t.irq = s.irq ∧ t.engine = s.engine

/-- A tick (R26): NOW advances, and the timebase faults at the threshold, without advancing when the head stands there
already. The premise on the head is the bound of R30. Lists, groups and the operation in flight stay (R52). The row is
the counted event that ticks (notes/assumptions/8.md). -/
def Obligations.TickTestsHead : Prop :=
  ∀ (b : Timebase) (s : State), s.settled = true → (s.timebase b).state = .running →
    (s.timebase b).divider.toNat ≤ (s.timebase b).partialCount.toNat →
    (b = .tb1 → s.time.tkiEdge = (if s.time.tkiLevel then .falling else .rising)) →
    ∃ t, exec (.tick b) s = .next t ∧
      (s.list b = [] →
        t.timebase b = { s.timebase b with partialCount := 0, now := s.now b + 1 }) ∧
      (∀ e rest, s.list b = e :: rest → -4194302 ≤ distance (s.entry e).deadline (s.now b) →
        t.timebase b = { s.timebase b with partialCount := 0, now := s.now b + 1 }) ∧
      (∀ e rest, s.list b = e :: rest → distance (s.entry e).deadline (s.now b) = -4194303 →
        t.timebase b = { s.timebase b with partialCount := 0, now := s.now b + 1, state := .faulted } ∧
        distance (s.entry e).deadline (t.now b) = -4194304) ∧
      (∀ e rest, s.list b = e :: rest → distance (s.entry e).deadline (s.now b) = -4194304 →
        t.timebase b = { s.timebase b with partialCount := 0, state := .faulted }) ∧
      (∀ k, k ≠ b → t.timebase k = s.timebase k) ∧ t.time.tkiEdge = s.time.tkiEdge ∧
      t.time.tkiLevel = (match b with | .tb0 => s.time.tkiLevel | .tb1 => !s.time.tkiLevel) ∧
      t.engine = { s.engine with clocks := t.engine.clocks } ∧
      t.bus = s.bus ∧ t.cmd = s.cmd ∧ t.table = s.table ∧ t.notices = s.notices ∧ t.trig = s.trig ∧
      t.out = s.out ∧ t.irq = s.irq

/-- A change of level on a trigger line (R155, R156, R157, R158). -/
def Obligations.TriggerEdges : Prop :=
  ∀ (l : TrigIdx) (s : State), s.settled = true →
    let x := s.line l
    let counted := x.edge = .both ∨ x.edge = (if x.level then .falling else .rising)
    let copy : Capture := ⟨x.action, s.now .tb0, s.now .tb1⟩
    (¬counted → exec (.triggerEdge l) s = .next (s.setLine l { x with level := !x.level })) ∧
    (counted → x.record = .none →
      exec (.triggerEdge l) s = .next (s.setLine l { x with level := !x.level, record := .pending copy })) ∧
    (counted → (∃ c, x.record = .pending c) →
      exec (.triggerEdge l) s = .next (s.setLine l { x with level := !x.level, overrun := true })) ∧
    (∀ c, counted → x.record = .inService c none →
      exec (.triggerEdge l) s =
        .next (s.setLine l { x with level := !x.level, record := .inService c (some copy) })) ∧
    (counted → (∃ c h, x.record = .inService c (some h)) →
      exec (.triggerEdge l) s = .next (s.setLine l { x with level := !x.level, overrun := true }))

/-! ## Commands taken by their owners -/

/-- NOP (R140): answered with OK and 0. -/
def Obligations.NopAnswered : Prop :=
  ∀ (s : State) (x : Execution), s.cmd.execution = some x → x.stage = .check → x.command.check = .ok .nop →
    exec .nop s = .next (s.answer .ok 0)

/-- ALLOC (R3, R11, R12). -/
def Obligations.AllocTaken : Prop :=
  let fresh : Entry :=
    { state := .idle, startDelay := 0, period := 0
      behavior := { timebase := .tb0, catchUp := .skip, autoFree := false, postMode := .off, queue := .nq0
                    action := .none, line := 0, repeatLoad := 0, tag := 0, group := none, successor := none }
      repeatsLeft := 0, deadline := 0, remaining := 0 }
  (∀ (s : State), s.ownerDue = some (.alloc none) → s.table.freeList = [] →
    exec .alloc s = .next (s.answer .exhausted 0xFF)) ∧
  (∀ (s : State) (e : EntryIdx) (rest : List EntryIdx), s.ownerDue = some (.alloc none) →
    s.table.freeList = e :: rest →
    exec .alloc s = .next (State.answer
      { s with table := { entries := s.table.entries.set e fresh, freeList := rest } }
      .ok (BitVec.ofNat 8 e.val))) ∧
  (∀ (s : State) (e : EntryIdx), s.ownerDue = some (.alloc (some e)) → (s.entry e).state = .free →
    exec .alloc s = .next (State.answer
      { s with table := { entries := s.table.entries.set e fresh, freeList := s.table.freeList.erase e } }
      .ok (BitVec.ofNat 8 e.val))) ∧
  ∀ (s : State) (e : EntryIdx), s.ownerDue = some (.alloc (some e)) → (s.entry e).state ≠ .free →
    exec .alloc s = .next (s.answer .state 0xFF)

/-- SETUP TIMING and SETUP BEHAVIOR (R13, R14): an IDLE entry takes the fields, any other state gives STATE. RETUNE (R15),
with its table of repeats left. -/
def Obligations.EntryProgrammed : Prop :=
  ((∀ (s : State) (e : EntryIdx) (startDelay period : Tick),
    s.ownerDue = some (.setupTiming e startDelay period) →
    ((s.entry e).state = .idle →
      exec .setupTiming s = .next ((s.setEntry e { s.entry e with startDelay := startDelay, period := period }).answer
        .ok (BitVec.ofNat 8 e.val))) ∧
    ((s.entry e).state ≠ .idle → exec .setupTiming s = .next (s.answer .state (BitVec.ofNat 8 e.val)))) ∧
  ∀ (s : State) (e : EntryIdx) (b : Behavior), s.ownerDue = some (.setupBehavior e b) →
    ((s.entry e).state = .idle →
      exec .setupBehavior s = .next ((s.setEntry e { s.entry e with behavior := b }).answer
        .ok (BitVec.ofNat 8 e.val))) ∧
    ((s.entry e).state ≠ .idle → exec .setupBehavior s = .next (s.answer .state (BitVec.ofNat 8 e.val)))) ∧
  (∀ (s : State) (e : EntryIdx) (period : Tick), s.ownerDue = some (.retune e period) →
    ((s.entry e).state = .idle →
      exec .retune s = .next ((s.setEntry e { s.entry e with period := period }).answer .ok (BitVec.ofNat 8 e.val))) ∧
    ((s.entry e).state = .armed ∨ (s.entry e).state = .held →
      exec .retune s = .next ((s.setEntry e { s.entry e with
        period := period
        repeatsLeft :=
          if (s.entry e).period = 0 ∧ period ≠ 0 then (s.entry e).behavior.repeatLoad
          else if (s.entry e).period ≠ 0 ∧ period = 0 then 1
          else (s.entry e).repeatsLeft }).answer .ok (BitVec.ofNat 8 e.val))) ∧
    ((s.entry e).state = .free ∨ (s.entry e).state = .spent →
      exec .retune s = .next (s.answer .state (BitVec.ofNat 8 e.val))))

/-- SET DIVIDER (R35), QUEUE CONFIG (R105) and BIND TRIGGER (R163). -/
def Obligations.SettingsTaken : Prop :=
  (∀ (s : State) (b : Timebase) (divider : BitVec 16) (edge : Option TkiEdge),
    s.ownerDue = some (.setDivider b divider edge) →
    ∃ t : State, exec .setDivider s = .next (t.answer .ok 0) ∧
      t.timebase b = { s.timebase b with divider := divider, partialCount := 0 } ∧
      (∀ k, k ≠ b → t.timebase k = s.timebase k) ∧
      t.time.tkiEdge = edge.getD s.time.tkiEdge ∧ t.time.tkiLevel = s.time.tkiLevel ∧
      t = { s with time := t.time }) ∧
  ((∀ (s : State) (q : QueueId) (w : Byte), s.ownerDue = some (.queueConfig q w) →
    exec .queueConfig s = .next ((s.setQueue q { s.queue q with watermark := w }).answer .ok 0)) ∧
  ∀ (s : State) (l : TrigIdx) (edge : BindingEdge) (a : TriggerAction),
    s.ownerDue = some (.bindTrigger l edge a) →
    exec .bindTrigger s = .next ((s.setLine l { s.line l with edge := edge, action := a }).answer .ok 0))

/-- START, STOP and CLEAR FAULT (R36, R38). -/
def Obligations.TimebaseStates : Prop :=
  (∀ (s : State) (b : Timebase), s.ownerDue = some (.start b) →
    ((s.timebase b).state = .stopped →
      exec .start s = .next ((s.setTimebase b { s.timebase b with state := .running, partialCount := 0 }).answer
        .ok 0)) ∧
    ((s.timebase b).state = .running → exec .start s = .next (s.answer .noEffect 0)) ∧
    ((s.timebase b).state = .faulted → exec .start s = .next (s.answer .faulted 0))) ∧
  (∀ (s : State) (b : Timebase), s.ownerDue = some (.stop b) →
    ((s.timebase b).state = .stopped → exec .stop s = .next (s.answer .noEffect 0)) ∧
    ((s.timebase b).state = .running →
      exec .stop s = .next ((s.setTimebase b { s.timebase b with state := .stopped }).answer .ok 0)) ∧
    ((s.timebase b).state = .faulted → exec .stop s = .next (s.answer .faulted 0))) ∧
  ∀ (s : State) (b : Timebase), s.ownerDue = some (.clearFault b) →
    ((s.timebase b).state = .faulted →
      exec .clearFault s = .next ((s.setTimebase b { s.timebase b with state := .stopped }).answer .ok 0)) ∧
    ((s.timebase b).state ≠ .faulted → exec .clearFault s = .next (s.answer .noEffect 0))

/-- FLUSH QUEUE (R103, R9): the queue is emptied, the value is the number removed, and the SPENT entries that it leaves
without notices are released in ascending order of index. The reports of other entries under a claim wait (R17). -/
def Obligations.FlushTaken : Prop :=
  ∀ (s : State) (q : QueueId), s.ownerDue = some (.flushQueue q) →
    ((s.queue q).proper = [] ∧ (s.queue q).backlog = [] → exec .flushQueue s = .next (s.answer .noEffect 0)) ∧
    (¬((s.queue q).proper = [] ∧ (s.queue q).backlog = []) →
      let emptied (e : EntryIdx) : Bool :=
        decide (0 < (s.queue q).countOf e) && decide (s.noticesOf e = (s.queue q).countOf e)
      let gone (e : EntryIdx) : Bool := (s.entry e).state == .spent && emptied e
      ∃ t : State, exec .flushQueue s =
          .next (t.answer .ok (BitVec.ofNat 8 ((s.queue q).proper.length + (s.queue q).backlog.length))) ∧
        t.queue q = { s.queue q with proper := [], backlog := [], headSealed := false } ∧
        (∀ r, r ≠ q → t.queue r = s.queue r) ∧
        t.notices.reports = s.notices.reports ++ (List.finRange 48).filter (fun e => s.claimed e && emptied e) ∧
        t.table.freeList = s.table.freeList ++ (List.finRange 48).filter gone ∧
        (∀ e, t.entry e =
          if gone e then { s.entry e with state := .free, deadline := 0, remaining := 0, repeatsLeft := 0 }
          else s.entry e) ∧
        t.bus = s.bus ∧ t.cmd = s.cmd ∧ t.time = s.time ∧ t.engine = s.engine ∧ t.trig = s.trig ∧
        t.out = s.out ∧ t.irq = s.irq)

/-- What waits for a claim to end, and what does not (R17, R104, R138): a Timer Table command on a claimed entry, an
ALLOC of any whose free-list head is claimed (the model's choice, notes/assumptions/19.md), and a FLUSH QUEUE that would
leave a claimed SPENT entry without notices. Such a command is not due, and its row changes nothing. -/
def Obligations.ClaimsHoldUpOwners : Prop :=
  (∀ (s : State) (e : EntryIdx) (c : Command), s.executing .owner = some c →
    ((∃ sd p, c = .setupTiming e sd p) ∨ (∃ b, c = .setupBehavior e b) ∨ (∃ p, c = .retune e p) ∨
      c = .alloc (some e)) →
    (s.claimed e = true → s.ownerDue = none) ∧ (s.claimed e = false → s.ownerDue = some c)) ∧
  (∀ s : State, s.executing .owner = some (.alloc none) →
    (s.table.freeList = [] → s.ownerDue = some (.alloc none)) ∧
    ∀ e rest, s.table.freeList = e :: rest →
      (s.claimed e = true → s.ownerDue = none) ∧ (s.claimed e = false → s.ownerDue = some (.alloc none))) ∧
  (∀ (s : State) (q : QueueId), s.executing .owner = some (.flushQueue q) →
    let waits : Prop := ∃ e, (s.entry e).state = .spent ∧ s.claimed e = true ∧ 0 < (s.queue q).countOf e ∧
      s.noticesOf e = (s.queue q).countOf e
    (waits → s.ownerDue = none) ∧ (¬waits → s.ownerDue = some (.flushQueue q))) ∧
  ∀ (s : State) (c : Command), s.executing .owner = some c →
    ((∃ b d x, c = .setDivider b d x) ∨ (∃ b, c = .start b ∨ c = .stop b ∨ c = .clearFault b) ∨
      (∃ q w, c = .queueConfig q w) ∨ ∃ l x a, c = .bindTrigger l x a) →
    s.ownerDue = some c

/-- A waiting release report at the end of the claim (R10, R8). -/
def Obligations.ReportTaken : Prop :=
  ∀ (s : State) (e : EntryIdx), e ∈ s.notices.reports → s.claimed e = false →
    ((s.entry e).state = .spent → s.noticesOf e = 0 →
      exec (.releaseReport e) s = .next { s with
        notices := { s.notices with reports := s.notices.reports.erase e }
        table :=
          { entries := s.table.entries.set e
              { s.entry e with state := .free, deadline := 0, remaining := 0, repeatsLeft := 0 }
            freeList := s.table.freeList ++ [e] } }) ∧
    (¬((s.entry e).state = .spent ∧ s.noticesOf e = 0) →
      exec (.releaseReport e) s = .next { s with
        notices := { s.notices with reports := s.notices.reports.erase e } })

/-! ## Starts by the List Engine -/

/-- ARM, ARM AT and a triggered ARM of an entry that joins or rejoins its list (R45, R55, R56, R60, R160): the grant, the
final step and the completion, with the deadline that each row takes. -/
def Obligations.StartsLink : Prop :=
  let joins (s : State) (e : EntryIdx) : Prop :=
    (s.timebase (s.entry e).behavior.timebase).state ≠ .faulted ∧
      ((s.entry e).state = .armed ∨
        (s.entry e).state = .idle ∧ ∀ g, (s.entry e).behavior.group = some g → (s.group g).phase ≠ .held)
  let now (s : State) (e : EntryIdx) : Tick := s.now (s.entry e).behavior.timebase
  let clamped (d n : Tick) : Tick := if distance d n < 0 then n else d
  (∀ (s : State) (e : EntryIdx), s.Grantable .command → s.executing .grantWait = some (.arm e) → joins s e →
    ∃ s1 s2 : State, exec .arm s = .next s1 ∧ s.CommandGranted s1 [e] ∧
      exec .finalStep s1 = .next s2 ∧ s.LinkedAt s2 e (now s e + (s.entry e).startDelay) ∧
      s.OutsideKept s2 ∧ s2.cmd = s1.cmd ∧ s2.trig = s.trig ∧ s2.claims = [] ∧
      exec .operationCompletion s2 =
        .next ((s2.completedTo .trigger).answer .ok (BitVec.ofNat 8 e.val))) ∧
  (∀ (s : State) (e : EntryIdx) (d : Tick), s.Grantable .command →
    s.executing .grantWait = some (.armAt e d) → joins s e →
    ∃ s1 s2 : State, exec .armAt s = .next s1 ∧ s.CommandGranted s1 [e] ∧
      exec .finalStep s1 = .next s2 ∧ s.LinkedAt s2 e (clamped d (now s e)) ∧
      s.OutsideKept s2 ∧ s2.cmd = s1.cmd ∧ s2.trig = s.trig ∧ s2.claims = [] ∧
      exec .operationCompletion s2 =
        .next ((s2.completedTo .trigger).answer .ok (BitVec.ofNat 8 e.val))) ∧
  ∀ (s : State) (l : TrigIdx) (e : EntryIdx) (n0 n1 : Tick), s.Grantable .trigger →
    s.waitingLine = some (l, ⟨.arm e, n0, n1⟩) → joins s e →
    ∃ s1 s2 : State, exec .triggerArm s = .next s1 ∧ s.TriggerGranted s1 l ⟨.arm e, n0, n1⟩ [e] ∧
      exec .finalStep s1 = .next s2 ∧
      s.LinkedAt s2 e (clamped
        ((if (s.entry e).behavior.timebase = .tb0 then n0 else n1) + (s.entry e).startDelay) (now s e)) ∧
      s.OutsideKept s2 ∧ s2.cmd = s.cmd ∧ s2.trig = s1.trig ∧ s2.claims = [] ∧
      exec .operationCompletion s2 =
        .next ((s2.completedTo .expiry).setLine l { s.line l with record := .none })

/-- ARM, ARM AT and a triggered ARM of an entry that ends HELD (R55, R56, R119, R160). -/
def Obligations.StartsHold : Prop :=
  let holds (s : State) (e : EntryIdx) : Prop :=
    (s.entry e).state = .held ∨
      (s.entry e).state = .idle ∧ (s.timebase (s.entry e).behavior.timebase).state ≠ .faulted ∧
        ∃ g, (s.entry e).behavior.group = some g ∧ (s.group g).phase = .held
  let now (s : State) (e : EntryIdx) : Tick := s.now (s.entry e).behavior.timebase
  let ahead (d n : Tick) : Tick := if distance d n < 0 then 0 else d - n
  (∀ (s : State) (e : EntryIdx), s.Grantable .command → s.executing .grantWait = some (.arm e) → holds s e →
    ∃ s1 s2 : State, exec .arm s = .next s1 ∧ s.CommandGranted s1 [e] ∧
      exec .finalStep s1 = .next s2 ∧ s.HeldAt s2 e (s.entry e).startDelay ∧
      s.OutsideKept s2 ∧ s2.cmd = s1.cmd ∧ s2.trig = s.trig ∧ s2.claims = [] ∧
      exec .operationCompletion s2 =
        .next ((s2.completedTo .trigger).answer .ok (BitVec.ofNat 8 e.val))) ∧
  (∀ (s : State) (e : EntryIdx) (d : Tick), s.Grantable .command →
    s.executing .grantWait = some (.armAt e d) → holds s e →
    ∃ s1 s2 : State, exec .armAt s = .next s1 ∧ s.CommandGranted s1 [e] ∧
      exec .finalStep s1 = .next s2 ∧ s.HeldAt s2 e (ahead d (now s e)) ∧
      s.OutsideKept s2 ∧ s2.cmd = s1.cmd ∧ s2.trig = s.trig ∧ s2.claims = [] ∧
      exec .operationCompletion s2 =
        .next ((s2.completedTo .trigger).answer .ok (BitVec.ofNat 8 e.val))) ∧
  ∀ (s : State) (l : TrigIdx) (e : EntryIdx) (n0 n1 : Tick), s.Grantable .trigger →
    s.waitingLine = some (l, ⟨.arm e, n0, n1⟩) → holds s e →
    ∃ s1 s2 : State, exec .triggerArm s = .next s1 ∧ s.TriggerGranted s1 l ⟨.arm e, n0, n1⟩ [e] ∧
      exec .finalStep s1 = .next s2 ∧
      s.HeldAt s2 e (ahead
        ((if (s.entry e).behavior.timebase = .tb0 then n0 else n1) + (s.entry e).startDelay) (now s e)) ∧
      s.OutsideKept s2 ∧ s2.cmd = s.cmd ∧ s2.trig = s1.trig ∧ s2.claims = [] ∧
      exec .operationCompletion s2 =
        .next ((s2.completedTo .expiry).setLine l { s.line l with record := .none })

/-- ARM, ARM AT and a triggered ARM that are refused (R55, R60, R160): nothing changes, the status is STATE or FAULTED,
or MISS is set. -/
def Obligations.StartsRefused : Prop :=
  let refusal (s : State) (e : EntryIdx) (status : Status) : Prop :=
    (status = .state ∧ ((s.entry e).state = .free ∨ (s.entry e).state = .spent)) ∨
    (status = .faulted ∧ ((s.entry e).state = .idle ∨ (s.entry e).state = .armed) ∧
      (s.timebase (s.entry e).behavior.timebase).state = .faulted)
  (∀ (s : State) (e : EntryIdx) (status : Status), s.Grantable .command →
    s.executing .grantWait = some (.arm e) → refusal s e status →
    ∃ s1 : State, exec .arm s = .next s1 ∧ s.CommandGranted s1 [e] ∧
      exec .operationCompletion s1 =
        .next ((s1.completedTo .trigger).answer status (BitVec.ofNat 8 e.val))) ∧
  (∀ (s : State) (e : EntryIdx) (d : Tick) (status : Status), s.Grantable .command →
    s.executing .grantWait = some (.armAt e d) → refusal s e status →
    ∃ s1 : State, exec .armAt s = .next s1 ∧ s.CommandGranted s1 [e] ∧
      exec .operationCompletion s1 =
        .next ((s1.completedTo .trigger).answer status (BitVec.ofNat 8 e.val))) ∧
  ∀ (s : State) (l : TrigIdx) (e : EntryIdx) (n0 n1 : Tick) (status : Status), s.Grantable .trigger →
    s.waitingLine = some (l, ⟨.arm e, n0, n1⟩) → refusal s e status →
    ∃ s1 : State, exec .triggerArm s = .next s1 ∧ s.TriggerGranted s1 l ⟨.arm e, n0, n1⟩ [e] ∧
      exec .operationCompletion s1 =
        .next ((s1.completedTo .expiry).setLine l { s.line l with record := .none, miss := true })

/-! ## CANCEL and FREE -/

/-- CANCEL (R57, R58) of an ARMED or HELD entry, with and without purge (R101, R106), and a triggered CANCEL (R161). -/
def Obligations.CancelMakesIdle : Prop :=
  let done (s t : State) (e : EntryIdx) (purge : Bool) : Prop :=
    t.entry e = { s.entry e with state := .idle, deadline := 0, remaining := 0, repeatsLeft := 0 } ∧
    (∀ a, a ≠ e → t.entry a = s.entry a) ∧ t.table.freeList = s.table.freeList ∧
    (∀ b, t.list b = if (s.entry e).state = .armed ∧ (s.entry e).behavior.timebase = b
      then (s.list b).erase e else s.list b) ∧
    (∀ g, t.group g = { s.group g with heldCount := (s.group g).heldCount -
      (if (s.entry e).state = .held ∧ (s.entry e).behavior.group = some g then 1 else 0) }) ∧
    (∀ q, t.queue q = if purge then (s.queue q).without e else s.queue q) ∧
    t.notices.reports = s.notices.reports ++ (if purge = true ∧ s.noticesOf e ≠ 0 then [e] else []) ∧
    t.claims = [] ∧ s.OutsideKept t
  (∀ (s : State) (e : EntryIdx) (purge : Bool), s.Grantable .command →
    s.executing .grantWait = some (.cancel e purge) → (s.entry e).state = .armed ∨ (s.entry e).state = .held →
    ∃ s1 s2 : State, exec .cancel s = .next s1 ∧ s.CommandGranted s1 [e] ∧
      exec .finalStep s1 = .next s2 ∧ done s s2 e purge ∧ s2.cmd = s1.cmd ∧ s2.trig = s.trig ∧
      exec .operationCompletion s2 = .next ((s2.noReports.completedTo .trigger).answer .ok
        (BitVec.ofNat 8 (if purge then s.noticesOf e else 0)))) ∧
  ∀ (s : State) (l : TrigIdx) (e : EntryIdx) (n0 n1 : Tick), s.Grantable .trigger →
    s.waitingLine = some (l, ⟨.cancel e, n0, n1⟩) → (s.entry e).state = .armed ∨ (s.entry e).state = .held →
    ∃ s1 s2 : State, exec .triggerCancel s = .next s1 ∧ s.TriggerGranted s1 l ⟨.cancel e, n0, n1⟩ [e] ∧
      exec .finalStep s1 = .next s2 ∧ done s s2 e false ∧ s2.cmd = s.cmd ∧ s2.trig = s1.trig ∧
      exec .operationCompletion s2 =
        .next ((s2.completedTo .expiry).setLine l { s.line l with record := .none })

/-- CANCEL of an IDLE entry is NO_EFFECT, with its purge (R101, R106), whose claim ends at the completion (R17); of a FREE
or SPENT entry, STATE or MISS (R57, R161). -/
def Obligations.CancelElsewhere : Prop :=
  (∀ (s : State) (e : EntryIdx), s.Grantable .command → s.executing .grantWait = some (.cancel e false) →
    (s.entry e).state = .idle →
    ∃ s1 : State, exec .cancel s = .next s1 ∧ s.CommandGranted s1 [e] ∧
      exec .operationCompletion s1 = .next ((s1.completedTo .trigger).answer .noEffect 0)) ∧
  (∀ (s : State) (e : EntryIdx), s.Grantable .command → s.executing .grantWait = some (.cancel e true) →
    (s.entry e).state = .idle →
    ∃ s1 s2 : State, exec .cancel s = .next s1 ∧ s.CommandGranted s1 [e] ∧
      exec .finalStep s1 = .next s2 ∧ s2.table = s.table ∧
      (∀ b, s2.list b = s.list b) ∧ s2.engine.groups = s.engine.groups ∧
      (∀ q, s2.queue q = (s.queue q).without e) ∧
      s2.notices.reports = s.notices.reports ++ (if s.noticesOf e ≠ 0 then [e] else []) ∧
      s.OutsideKept s2 ∧ s2.cmd = s1.cmd ∧ s2.trig = s.trig ∧ s2.claims = [e] ∧
      exec .operationCompletion s2 =
        .next ((s2.completedTo .trigger).answer .noEffect (BitVec.ofNat 8 (s.noticesOf e)))) ∧
  (∀ (s : State) (e : EntryIdx) (purge : Bool), s.Grantable .command →
    s.executing .grantWait = some (.cancel e purge) → (s.entry e).state = .free ∨ (s.entry e).state = .spent →
    ∃ s1 : State, exec .cancel s = .next s1 ∧ s.CommandGranted s1 [e] ∧
      exec .operationCompletion s1 = .next ((s1.completedTo .trigger).answer .state 0)) ∧
  ∀ (s : State) (l : TrigIdx) (e : EntryIdx) (n0 n1 : Tick), s.Grantable .trigger →
    s.waitingLine = some (l, ⟨.cancel e, n0, n1⟩) →
    (s.entry e).state ≠ .armed → (s.entry e).state ≠ .held →
    ∃ s1 : State, exec .triggerCancel s = .next s1 ∧ s.TriggerGranted s1 l ⟨.cancel e, n0, n1⟩ [e] ∧
      exec .operationCompletion s1 = .next ((s1.completedTo .expiry).setLine l
        { s.line l with
          record := .none
          miss := if (s.entry e).state = .idle then (s.line l).miss else true })

/-- FREE (R58, R59): purged (R101, R106), taken off its list or out of its group's held count, and released to the tail of
the free list; STATE for a FREE entry. -/
def Obligations.FreeReleases : Prop :=
  (∀ (s : State) (e : EntryIdx), s.Grantable .command → s.executing .grantWait = some (.free e) →
    (s.entry e).state ≠ .free →
    ∃ s1 s2 : State, exec .free s = .next s1 ∧ s.CommandGranted s1 [e] ∧ exec .finalStep s1 = .next s2 ∧
      s2.entry e = { s.entry e with state := .free, deadline := 0, remaining := 0, repeatsLeft := 0 } ∧
      (∀ a, a ≠ e → s2.entry a = s.entry a) ∧ s2.table.freeList = s.table.freeList ++ [e] ∧
      (∀ b, s2.list b = if (s.entry e).state = .armed ∧ (s.entry e).behavior.timebase = b
        then (s.list b).erase e else s.list b) ∧
      (∀ g, s2.group g = { s.group g with heldCount := (s.group g).heldCount -
        (if (s.entry e).state = .held ∧ (s.entry e).behavior.group = some g then 1 else 0) }) ∧
      (∀ q, s2.queue q = (s.queue q).without e) ∧
      s2.notices.reports = s.notices.reports ++ (if s.noticesOf e ≠ 0 then [e] else []) ∧
      s.OutsideKept s2 ∧ s2.cmd = s1.cmd ∧ s2.trig = s.trig ∧ s2.claims = [] ∧
      exec .operationCompletion s2 =
        .next ((s2.noReports.completedTo .trigger).answer .ok (BitVec.ofNat 8 (s.noticesOf e)))) ∧
  ∀ (s : State) (e : EntryIdx), s.Grantable .command → s.executing .grantWait = some (.free e) →
    (s.entry e).state = .free →
    ∃ s1 : State, exec .free s = .next s1 ∧ s.CommandGranted s1 [e] ∧
      exec .operationCompletion s1 = .next ((s1.completedTo .trigger).answer .state 0)

/-! ## Groups -/

/-- HOLD and RESUME without a walk (R114, R116), commanded and triggered (R125). That the depth is written by a final step
and that a refused one has none is the model's choice (notes/assumptions/17.md). -/
def Obligations.DepthChanges : Prop :=
  let deeper (s t : State) (g : GroupIdx) (n : BitVec 4) : Prop :=
    t.group g = { s.group g with depth := n } ∧ (∀ h, h ≠ g → t.group h = s.group h) ∧
    t.table = s.table ∧ (∀ b, t.list b = s.list b) ∧ t.notices = s.notices ∧ s.OutsideKept t
  (∀ (s : State) (g : GroupIdx), s.Grantable .command → s.executing .grantWait = some (.hold g) →
    (s.group g).phase = .held →
    ∃ s1 : State, exec .hold s = .next s1 ∧ s.CommandGranted s1 [] ∧
      ((s.group g).depth = 15 →
        exec .operationCompletion s1 = .next ((s1.completedTo .trigger).answer .limit 0)) ∧
      ((s.group g).depth ≠ 15 → ∃ s2 : State, exec .finalStep s1 = .next s2 ∧
        deeper s s2 g ((s.group g).depth + 1) ∧ s2.cmd = s1.cmd ∧ s2.trig = s.trig ∧
        exec .operationCompletion s2 = .next ((s2.completedTo .trigger).answer .ok 0))) ∧
  (∀ (s : State) (g : GroupIdx), s.Grantable .command → s.executing .grantWait = some (.resume g) →
    (s.group g).phase = .running ∨ (s.group g).phase = .held ∧ 2 ≤ (s.group g).depth.toNat →
    ∃ s1 : State, exec .resume s = .next s1 ∧ s.CommandGranted s1 [] ∧
      ((s.group g).phase = .running →
        exec .operationCompletion s1 = .next ((s1.completedTo .trigger).answer .noEffect 0)) ∧
      ((s.group g).phase = .held → ∃ s2 : State, exec .finalStep s1 = .next s2 ∧
        deeper s s2 g ((s.group g).depth - 1) ∧ s2.cmd = s1.cmd ∧ s2.trig = s.trig ∧
        exec .operationCompletion s2 = .next ((s2.completedTo .trigger).answer .ok 0))) ∧
  (∀ (s : State) (l : TrigIdx) (g : GroupIdx) (n0 n1 : Tick), s.Grantable .trigger →
    s.waitingLine = some (l, ⟨.hold g, n0, n1⟩) → (s.group g).phase = .held →
    ∃ s1 : State, exec .triggerHold s = .next s1 ∧ s.TriggerGranted s1 l ⟨.hold g, n0, n1⟩ [] ∧
      ((s.group g).depth = 15 → exec .operationCompletion s1 =
        .next ((s1.completedTo .expiry).setLine l { s.line l with record := .none, miss := true })) ∧
      ((s.group g).depth ≠ 15 → ∃ s2 : State, exec .finalStep s1 = .next s2 ∧
        deeper s s2 g ((s.group g).depth + 1) ∧ s2.cmd = s.cmd ∧ s2.trig = s1.trig ∧
        exec .operationCompletion s2 =
          .next ((s2.completedTo .expiry).setLine l { s.line l with record := .none }))) ∧
  ∀ (s : State) (l : TrigIdx) (g : GroupIdx) (n0 n1 : Tick), s.Grantable .trigger →
    s.waitingLine = some (l, ⟨.resume g, n0, n1⟩) →
    (s.group g).phase = .running ∨ (s.group g).phase = .held ∧ 2 ≤ (s.group g).depth.toNat →
    ∃ s1 : State, exec .triggerResume s = .next s1 ∧ s.TriggerGranted s1 l ⟨.resume g, n0, n1⟩ [] ∧
      ((s.group g).phase = .running → exec .operationCompletion s1 =
        .next ((s1.completedTo .expiry).setLine l { s.line l with record := .none })) ∧
      ((s.group g).phase = .held → ∃ s2 : State, exec .finalStep s1 = .next s2 ∧
        deeper s s2 g ((s.group g).depth - 1) ∧ s2.cmd = s.cmd ∧ s2.trig = s1.trig ∧
        exec .operationCompletion s2 =
          .next ((s2.completedTo .expiry).setLine l { s.line l with record := .none }))

/-- The opening step of a hold walk and of a resume walk (R115, R117), commanded and triggered: phase and depth, the
members in the order of the walk, and the outcome OK that the walk will have (R114, R116). Listing the members at the
opening is the model's choice (notes/assumptions/16.md). -/
def Obligations.WalksOpen : Prop :=
  let opened (s t : State) (kind : WalkKind) (g : GroupIdx) (client : Client) : Prop :=
    t.group g = { s.group g with
      phase := (match kind with | .hold => .holding | .resume => .resuming)
      depth := (match kind with | .hold => 1 | .resume => 0) } ∧
    (∀ h, h ≠ g → t.group h = s.group h) ∧ t.table = s.table ∧ (∀ b, t.list b = s.list b) ∧
    t.engine.rotation = s.engine.rotation ∧ t.notices = s.notices ∧ s.OutsideKept t ∧
    ∃ op, t.engine.activity = .busy op ∧ op.client = client ∧ op.now0 = s.now .tb0 ∧ op.now1 = s.now .tb1 ∧
      op.plan.claims = [] ∧ op.plan.lineOp = none ∧ op.plan.post = none ∧ op.plan.purge = none ∧
      op.plan.status = .ok ∧ op.plan.value = 0 ∧
      op.plan.acts = [.closeWalk g (match kind with | .hold => .held | .resume => .running)] ∧
      op.plan.walk = some ⟨kind, g,
        match kind with
        | .hold => (s.list .tb0 ++ s.list .tb1).filter fun e => (s.entry e).behavior.group == some g
        | .resume => s.membersIn .held g⟩
  let staged (s t : State) : Prop :=
    t.cmd = { s.cmd with execution := s.cmd.execution.map fun x => { x with stage := .engine } } ∧ t.trig = s.trig
  let taken (s t : State) (l : TrigIdx) (c : Capture) : Prop :=
    t.trig = { lines := s.trig.lines.set l { s.line l with record := .inService c none } } ∧ t.cmd = s.cmd
  (∀ (s : State) (g : GroupIdx), s.Grantable .command → s.executing .grantWait = some (.hold g) →
    (s.group g).phase = .running →
    ∃ t, exec .hold s = .next t ∧ opened s t .hold g .command ∧ staged s t) ∧
  (∀ (s : State) (g : GroupIdx), s.Grantable .command → s.executing .grantWait = some (.resume g) →
    (s.group g).phase = .held → (s.group g).depth = 1 →
    ∃ t, exec .resume s = .next t ∧ opened s t .resume g .command ∧ staged s t) ∧
  (∀ (s : State) (l : TrigIdx) (g : GroupIdx) (n0 n1 : Tick), s.Grantable .trigger →
    s.waitingLine = some (l, ⟨.hold g, n0, n1⟩) → (s.group g).phase = .running →
    ∃ t, exec .triggerHold s = .next t ∧ opened s t .hold g (.trigger l) ∧ taken s t l ⟨.hold g, n0, n1⟩) ∧
  ∀ (s : State) (l : TrigIdx) (g : GroupIdx) (n0 n1 : Tick), s.Grantable .trigger →
    s.waitingLine = some (l, ⟨.resume g, n0, n1⟩) → (s.group g).phase = .held → (s.group g).depth = 1 →
    ∃ t, exec .triggerResume s = .next t ∧ opened s t .resume g (.trigger l) ∧ taken s t l ⟨.resume g, n0, n1⟩

/-- The member steps and the closing step of a walk (R115, R117, R45, R46), on the NOW of the grant. -/
def Obligations.WalkSteps : Prop :=
  let now (op : Operation) (b : Timebase) : Tick := match b with | .tb0 => op.now0 | .tb1 => op.now1
  (∀ (s : State) (op : Operation) (kind : WalkKind) (g : GroupIdx) (e : EntryIdx) (rest : List EntryIdx),
    s.InFlight op → op.plan.walk = some ⟨kind, g, e :: rest⟩ →
    ∃ t, exec .walkMemberStep s = .next t ∧
      (kind = .hold →
        t.entry e = { s.entry e with
          state := .held, deadline := 0
          remaining :=
            if 1 ≤ distance (s.entry e).deadline (now op (s.entry e).behavior.timebase)
            then (s.entry e).deadline - now op (s.entry e).behavior.timebase else 0 } ∧
        t.list (s.entry e).behavior.timebase = (s.list (s.entry e).behavior.timebase).erase e ∧
        t.group g = { s.group g with heldCount := (s.group g).heldCount + 1 }) ∧
      (kind = .resume →
        t.entry e = { s.entry e with
          state := .armed, remaining := 0
          deadline := now op (s.entry e).behavior.timebase + (s.entry e).remaining } ∧
        t.list (s.entry e).behavior.timebase =
          insertByDistance
            (fun a => distance (s.entry a).deadline (now op (s.entry e).behavior.timebase)) e
            (distance (now op (s.entry e).behavior.timebase + (s.entry e).remaining)
              (now op (s.entry e).behavior.timebase))
            ((s.list (s.entry e).behavior.timebase).erase e) ∧
        t.group g = { s.group g with heldCount := (s.group g).heldCount - 1 }) ∧
      (∀ a, a ≠ e → t.entry a = s.entry a) ∧
      (∀ b, b ≠ (s.entry e).behavior.timebase → t.list b = s.list b) ∧
      (∀ h, h ≠ g → t.group h = s.group h) ∧ t.table.freeList = s.table.freeList ∧
      t.engine.activity = .busy { op with plan := { op.plan with
        walk := some ⟨kind, g, rest⟩, value := op.plan.value + 1 } } ∧
      t.notices = s.notices ∧ t.cmd = s.cmd ∧ t.trig = s.trig ∧ s.OutsideKept t) ∧
  ∀ (s : State) (op : Operation) (kind : WalkKind) (g : GroupIdx) (phase : GroupPhase), s.InFlight op →
    op.plan.walk = some ⟨kind, g, []⟩ → op.plan.acts = [.closeWalk g phase] → op.plan.lineOp = none →
    op.plan.post = none → op.plan.purge = none →
    ∃ t, exec .finalStep s = .next t ∧ t.group g = { s.group g with phase := phase } ∧
      (∀ h, h ≠ g → t.group h = s.group h) ∧ t.table = s.table ∧ (∀ b, t.list b = s.list b) ∧
      t.notices = s.notices ∧ t.cmd = s.cmd ∧ t.trig = s.trig ∧ s.OutsideKept t ∧
      t.engine.activity = .busy { op with plan := { op.plan with walk := none, acts := [] } }

/-! ## CLEAR NOW -/

/-- CLEAR NOW (R37): decided at the grant. That NOW is written by a final step and that a refused one has none is the
model's choice (notes/assumptions/17.md). -/
def Obligations.ClearNowTaken : Prop :=
  ∀ (s : State) (b : Timebase), s.Grantable .command → s.executing .grantWait = some (.clearNow b) →
    ∃ s1 : State, exec .clearNow s = .next s1 ∧ s.CommandGranted s1 [] ∧
      ((s.timebase b).state = .stopped ∧ s.list b = [] → ∃ s2 : State, exec .finalStep s1 = .next s2 ∧
        s2.timebase b = { s.timebase b with now := 0 } ∧ (∀ k, k ≠ b → s2.timebase k = s.timebase k) ∧
        s2.time.tkiEdge = s.time.tkiEdge ∧ s2.time.tkiLevel = s.time.tkiLevel ∧
        s2.table = s.table ∧ (∀ k, s2.list k = s.list k) ∧ s2.engine.groups = s.engine.groups ∧
        s2.notices = s.notices ∧ s2.cmd = s1.cmd ∧ s2.trig = s.trig ∧ s2.out = s.out ∧ s2.irq = s.irq ∧
        s2.bus = s.bus ∧
        exec .operationCompletion s2 = .next ((s2.completedTo .trigger).answer .ok 0)) ∧
      (¬((s.timebase b).state = .stopped ∧ s.list b = []) →
        exec .operationCompletion s1 = .next ((s1.completedTo .trigger).answer .state 0))

/-! ## Expiry service -/

/-- The grant of the expiry requester and the head it takes (R50, R66). -/
def Obligations.ServiceChoosesHead : Prop :=
  let due (s : State) (b : Timebase) (e : EntryIdx) : Prop :=
    (s.list b).head? = some e ∧ distance (s.entry e).deadline (s.now b) ≤ 0
  let quiet (s : State) (b : Timebase) : Prop := ∀ e, ¬due s b e
  (∀ (s : State) (b : Timebase) (e : EntryIdx), s.Grantable .expiry → s.chooseHead = some (b, e) →
    exec .service s = .next { s with engine := { s.engine with
      activity := .busy { client := .expiry, now0 := s.now .tb0, now1 := s.now .tb1, plan := s.servicePlan b e }
      clocks := 0 } }) ∧
  (∀ (s : State) (e : EntryIdx), due s .tb0 e → quiet s .tb1 → s.chooseHead = some (.tb0, e)) ∧
  (∀ (s : State) (e : EntryIdx), due s .tb1 e → quiet s .tb0 → s.chooseHead = some (.tb1, e)) ∧
  (∀ (s : State) (a b : EntryIdx), due s .tb0 a → due s .tb1 b →
    s.chooseHead =
      if distance (s.entry b).deadline (s.now .tb1) < distance (s.entry a).deadline (s.now .tb0)
      then some (.tb1, b) else some (.tb0, a)) ∧
  ∀ s : State, quiet s .tb0 → quiet s .tb1 → s.chooseHead = none

/-- The count of a service (R68, R69, R70). -/
def Obligations.ExpiriesCounted : Prop :=
  (∀ (x : Entry) (now : Tick), x.period = 0 → x.expiries now = ⟨1, true, 0⟩ ∧ x.deadlineAfter 0 = x.deadline) ∧
  (∀ (x : Entry) (now : Tick), x.period ≠ 0 → x.behavior.catchUp = .keep →
    x.expiries now =
      if x.repeatsLeft = 0 then ⟨1, false, 0⟩
      else if x.repeatsLeft = 1 then ⟨1, true, 0⟩
      else ⟨1, false, x.repeatsLeft - 1⟩) ∧
  ∀ (x : Entry) (now : Tick), x.period ≠ 0 → x.behavior.catchUp = .skip → distance x.deadline now ≤ 0 →
    ∃ k : Nat, 1 ≤ k ∧
      distance x.deadline now + ((k - 1 : Nat) : Int) * (x.period.toNat : Int) ≤ 0 ∧
      1 ≤ distance x.deadline now + (k : Int) * (x.period.toNat : Int) ∧
      x.expiries now =
        if x.repeatsLeft = 0 then ⟨k, false, 0⟩
        else if k < x.repeatsLeft.toNat then ⟨k, false, x.repeatsLeft - BitVec.ofNat 8 k⟩
        else ⟨x.repeatsLeft.toNat, true, 0⟩

/-- What a service decides (R66, R71, R73, R74, R76, R77, R78, R79, R82, R83). -/
def Obligations.ServiceDecides : Prop :=
  ∀ (s : State) (b : Timebase) (e : EntryIdx),
    let x := s.entry e
    let n := x.expiries (s.now b)
    let latest : Tick := x.deadline + BitVec.ofNat 24 ((n.count - 1) * x.period.toNat)
    let p := s.servicePlan b e
    let faulted (y : EntryIdx) : Prop := (s.timebase (s.entry y).behavior.timebase).state = .faulted
    let heldGroup (y : EntryIdx) : Prop := ∃ g, (s.entry y).behavior.group = some g ∧ (s.group g).phase = .held
    let reload (y : EntryIdx) : Byte := if (s.entry y).period = 0 then 1 else (s.entry y).behavior.repeatLoad
    let start (y : EntryIdx) : Tick :=
      (if (s.entry y).behavior.timebase = b then latest else s.now (s.entry y).behavior.timebase)
        + (s.entry y).startDelay
    let misses (y : EntryIdx) : Prop :=
      (s.entry y).state = .free ∨ (s.entry y).state = .spent ∨
        ((s.entry y).state = .idle ∨ (s.entry y).state = .armed) ∧ faulted y
    (n.ends = false →
      p.acts = [.link e (x.deadline + BitVec.ofNat 24 (n.count * x.period.toNat)) n.left] ∧ p.claims = [e]) ∧
    (n.ends = true → x.behavior.successor = none → p.acts = [.retire e] ∧ p.claims = [e]) ∧
    (n.ends = true → x.behavior.successor = some e →
      p.acts = [.link e (latest + x.startDelay) (reload e)] ∧ p.claims = [e]) ∧
    (∀ y, n.ends = true → x.behavior.successor = some y → y ≠ e → p.claims = [e, y] ∧
      (misses y → p.acts = [.retire e]) ∧
      (¬misses y → ((s.entry y).state = .armed ∨ (s.entry y).state = .idle ∧ ¬heldGroup y) →
        p.acts = [.retire e, .link y (start y) (reload y)]) ∧
      (¬misses y → ((s.entry y).state = .held ∨ (s.entry y).state = .idle ∧ heldGroup y) →
        p.acts = [.retire e, .hold y (s.entry y).startDelay (reload y)])) ∧
    (x.behavior.action = .none → p.lineOp = none) ∧
    (x.behavior.action = .set → p.lineOp = some (x.behavior.line, .set)) ∧
    (x.behavior.action = .clear → p.lineOp = some (x.behavior.line, .clear)) ∧
    (x.behavior.action = .toggle →
      p.lineOp = if n.count % 2 = 1 then some (x.behavior.line, .toggle) else none) ∧
    (x.behavior.postMode = .off → p.post = none) ∧
    (x.behavior.postMode = .final → n.ends = false → p.post = none) ∧
    (x.behavior.postMode = .every ∨ x.behavior.postMode = .final ∧ n.ends = true →
      ∃ miss : Bool,
        (miss = true ↔ n.ends = true ∧ ∃ y, x.behavior.successor = some y ∧ y ≠ e ∧ misses y) ∧
        p.post = some {
          queue := x.behavior.queue, entry := e, tag := x.behavior.tag, timebase := b
          final := n.ends, chainMiss := miss
          count := if x.behavior.postMode = .final then 1 else n.count
          deadline := latest
          lateness := BitVec.ofNat 16 (min (-(distance latest (s.now b))).toNat 65535) })

/-- A service of a continuing run from grant to completion, for an entry with action SET and post mode EVERY: the row
SERVICE, then LINE_OPERATION, POST, FINAL_STEP and OPERATION_COMPLETION (R66, R73). -/
def Obligations.ServiceReloads : Prop :=
  ∀ (s : State) (b : Timebase) (e : EntryIdx), s.Grantable .expiry → s.chooseHead = some (b, e) →
    (s.entry e).behavior.timebase = b → (s.entry e).state = .armed →
    ((s.entry e).expiries (s.now b)).ends = false →
    (s.entry e).behavior.action = .set → (s.entry e).behavior.postMode = .every →
    let n := (s.entry e).expiries (s.now b)
    let d : Tick := (s.entry e).deadline + BitVec.ofNat 24 (n.count * (s.entry e).period.toNat)
    ∃ s1 s2 s3 s4 : State, exec .service s = .next s1 ∧ s1.table = s.table ∧ s1.out = s.out ∧
      exec .lineOperation s1 = .next s2 ∧ s2.table = s.table ∧ s2.notices = s.notices ∧
      s2.out = { s.out with latch := s.out.latch.set (s.entry e).behavior.line true } ∧
      exec .post s2 = .next s3 ∧ s3.table = s.table ∧ s3.out = s2.out ∧
      (∃ p, (s.servicePlan b e).post = some p ∧ s3.notices =
        (s.setQueue (s.entry e).behavior.queue ((s.queue (s.entry e).behavior.queue).posted p)).notices) ∧
      exec .finalStep s3 = .next s4 ∧
      s4.entry e = { s.entry e with state := .armed, deadline := d, remaining := 0, repeatsLeft := n.left } ∧
      s4.list b = insertByDistance (fun a => distance (s.entry a).deadline (s.now b)) e (distance d (s.now b))
        ((s.list b).erase e) ∧
      (∀ k, k ≠ b → s4.list k = s.list k) ∧ (∀ a, a ≠ e → s4.entry a = s.entry a) ∧
      s4.table.freeList = s.table.freeList ∧ s4.engine.groups = s.engine.groups ∧
      s4.notices = s3.notices ∧ s4.out = s2.out ∧ s4.cmd = s.cmd ∧ s4.time = s.time ∧ s4.trig = s.trig ∧
      s4.irq = s.irq ∧ s4.bus = s.bus ∧
      exec .operationCompletion s4 = .next (s4.completedTo .command)

/-- The end of a run, and the final step of each service that links or retires (R16, R45, R46, R66, R73, R76, R78, R81):
a whole service without successor, action or post; one with auto-free whose own post leaves the entry SPENT; and, with an
operation in flight, the final steps that relink, that retire, and that retire and start another entry on its list or
HELD. The premises on the lists of the last two are clauses of ListLaw. -/
def Obligations.ServiceRetires : Prop :=
  let now (op : Operation) (b : Timebase) : Tick := match b with | .tb0 => op.now0 | .tb1 => op.now1
  let off (s t : State) (e : EntryIdx) : Prop :=
    ∀ b, t.list b = if (s.entry e).behavior.timebase = b then (s.list b).erase e else s.list b
  let written (s t : State) (op : Operation) (l : List EntryIdx) : Prop :=
    t.engine.activity = .busy { op with plan := { op.plan with
      claims := op.plan.claims.filter (fun a => decide (a ∉ l)), acts := [] } } ∧ s.OutsideKept t
  let final (s : State) (op : Operation) (acts : List Act) : Prop :=
    s.InFlight op ∧ op.plan.lineOp = none ∧ op.plan.post = none ∧ op.plan.purge = none ∧ op.plan.walk = none ∧
      op.plan.acts = acts
  let ending (s : State) (b : Timebase) (e : EntryIdx) : Prop :=
    s.Grantable .expiry ∧ s.chooseHead = some (b, e) ∧ (s.entry e).behavior.timebase = b ∧
      (s.entry e).state = .armed ∧ ((s.entry e).expiries (s.now b)).ends = true ∧
      (s.entry e).behavior.successor = none ∧ (s.entry e).behavior.action = .none
  (∀ (s : State) (b : Timebase) (e : EntryIdx), ending s b e → (s.entry e).behavior.postMode = .off →
    ∃ s1 s2 : State, exec .service s = .next s1 ∧ s1.table = s.table ∧ exec .finalStep s1 = .next s2 ∧
      s.RetiredAt s2 e none ∧ off s s2 e ∧ s2.engine.groups = s.engine.groups ∧ s2.claims = [] ∧ s.OutsideKept s2 ∧
      exec .operationCompletion s2 = .next (s2.completedTo .command)) ∧
  (∀ (s : State) (b : Timebase) (e : EntryIdx), ending s b e → (s.entry e).behavior.postMode ≠ .off →
    (s.entry e).behavior.autoFree = true →
    ∃ (s1 s2 s3 : State) (p : Post), exec .service s = .next s1 ∧ s1.table = s.table ∧
      (s.servicePlan b e).post = some p ∧ exec .post s1 = .next s2 ∧ s2.table = s.table ∧
      s2.notices = (s.setQueue (s.entry e).behavior.queue
        ((s.queue (s.entry e).behavior.queue).posted p)).notices ∧
      exec .finalStep s2 = .next s3 ∧
      s3.entry e = { s.entry e with state := .spent, deadline := 0, remaining := 0, repeatsLeft := 0 } ∧
      (∀ a, a ≠ e → s3.entry a = s.entry a) ∧ s3.table.freeList = s.table.freeList ∧ off s s3 e ∧
      s3.engine.groups = s.engine.groups ∧ s3.notices = s2.notices ∧ s3.cmd = s.cmd ∧ s3.trig = s.trig ∧
      s3.claims = [] ∧ s.OutsideKept s3 ∧ exec .operationCompletion s3 = .next (s3.completedTo .command)) ∧
  (∀ (s : State) (op : Operation) (e : EntryIdx) (d : Tick) (r : Byte), final s op [.link e d r] →
    ∃ t, exec .finalStep s = .next t ∧
      t.entry e = { s.entry e with state := .armed, deadline := d, remaining := 0, repeatsLeft := r } ∧
      t.list (s.entry e).behavior.timebase =
        insertByDistance (fun a => distance (s.entry a).deadline (now op (s.entry e).behavior.timebase)) e
          (distance d (now op (s.entry e).behavior.timebase)) ((s.list (s.entry e).behavior.timebase).erase e) ∧
      (∀ b, b ≠ (s.entry e).behavior.timebase → t.list b = s.list b) ∧ (∀ a, a ≠ e → t.entry a = s.entry a) ∧
      t.table.freeList = s.table.freeList ∧ t.engine.groups = s.engine.groups ∧ t.notices = s.notices ∧
      t.cmd = s.cmd ∧ t.trig = s.trig ∧ written s t op [e]) ∧
  (∀ (s : State) (op : Operation) (e : EntryIdx), final s op [.retire e] →
    ∃ t, exec .finalStep s = .next t ∧ s.RetiredAt t e none ∧ off s t e ∧ t.engine.groups = s.engine.groups ∧
      written s t op [e]) ∧
  (∀ (s : State) (op : Operation) (e y : EntryIdx) (d : Tick) (r : Byte), final s op [.retire e, .link y d r] →
    y ≠ e → (∀ b, (s.list b).Nodup) → (∀ b, e ∈ s.list b → (s.entry e).behavior.timebase = b) →
    ∃ t, exec .finalStep s = .next t ∧ s.RetiredAt t e (some y) ∧
      t.entry y = { s.entry y with state := .armed, deadline := d, remaining := 0, repeatsLeft := r } ∧
      t.list (s.entry y).behavior.timebase =
        insertByDistance (fun a => distance (s.entry a).deadline (now op (s.entry y).behavior.timebase)) y
          (distance d (now op (s.entry y).behavior.timebase))
          (((s.list (s.entry y).behavior.timebase).erase e).erase y) ∧
      (∀ b, b ≠ (s.entry y).behavior.timebase → t.list b = (s.list b).erase e) ∧
      t.engine.groups = s.engine.groups ∧ written s t op [e, y]) ∧
  ∀ (s : State) (op : Operation) (e y : EntryIdx) (m : Tick) (r : Byte), final s op [.retire e, .hold y m r] →
    y ≠ e →
    ∃ t, exec .finalStep s = .next t ∧ s.RetiredAt t e (some y) ∧ off s t e ∧
      t.entry y = { s.entry y with state := .held, deadline := 0, remaining := m, repeatsLeft := r } ∧
      (∀ g, t.group g = { s.group g with heldCount := (s.group g).heldCount +
        (if (s.entry y).state ≠ .held ∧ (s.entry y).behavior.group = some g then 1 else 0) }) ∧
      written s t op [e, y]

/-- The output hand-over (R170): applied once, and only when there is one. The completion (R47, R49, R158, R161): the
pointer moves to the requester after the one served, and the outcome goes to the client; a held edge becomes the
pending record. -/
def Obligations.HandOvers : Prop :=
  (∀ (s : State) (op : Operation), s.InFlight op →
    (op.plan.lineOp = none → exec .lineOperation s = .next s) ∧
    ∀ n o, op.plan.lineOp = some (n, o) →
      exec .lineOperation s = .next { s with
        out := { s.out with
          latch := s.out.latch.set n
            (match o with | .set => true | .clear => false | .toggle => !s.out.latch[n]) }
        engine := { s.engine with
          activity := .busy { op with plan := { op.plan with lineOp := none } } } }) ∧
  (∀ (s : State) (op : Operation), s.InFlight op → op.plan.lineOp = none → op.plan.post = none →
    op.plan.acts = [] → op.plan.purge = none → op.plan.walk = none →
    (op.client = .expiry → exec .operationCompletion s = .next (s.completedTo .command)) ∧
    (op.client = .command → exec .operationCompletion s =
      .next ((s.completedTo .trigger).answer op.plan.status (BitVec.ofNat 8 op.plan.value))) ∧
    ∀ l c h, op.client = .trigger l → (s.line l).record = .inService c h →
      exec .operationCompletion s = .next ((s.completedTo .expiry).setLine l { s.line l with
        record := (match h with | none => .none | some k => .pending k)
        miss := (s.line l).miss ||
          (op.plan.status == .state || op.plan.status == .faulted || op.plan.status == .limit) }))

/-- The post hand-over (R84) and where the Notice Unit places the post, by the first case that applies (R93). -/
def Obligations.PostPlaced : Prop :=
  ∀ (s : State) (op : Operation) (p : Post), s.InFlight op → op.plan.lineOp = none → op.plan.post = some p →
    let n := s.queue p.queue
    let fresh : Notice :=
      { entry := p.entry, tag := p.tag, timebase := p.timebase, final := p.final, chainMiss := p.chainMiss
        saturated := decide (255 < p.count), count := BitVec.ofNat 8 (min p.count 255)
        deadline := p.deadline, lateness := p.lateness }
    ∃ t, exec .post s = .next t ∧
      (∀ before m after, n.openPart = before ++ m :: after → m.entry = p.entry →
        (∀ x ∈ before, x.entry ≠ p.entry) →
        t.queue p.queue = { n with proper := n.sealedPart ++ before ++ m.merged p :: after }) ∧
      ((∀ x ∈ n.openPart, x.entry ≠ p.entry) →
        (∀ before m after, n.backlog = before ++ m :: after → m.entry = p.entry →
          (∀ x ∈ before, x.entry ≠ p.entry) →
          t.queue p.queue = { n with backlog := before ++ m.merged p :: after }) ∧
        ((∀ x ∈ n.backlog, x.entry ≠ p.entry) →
          (n.proper.length < 16 → t.queue p.queue = { n with proper := n.proper ++ [fresh] }) ∧
          (16 ≤ n.proper.length → (n.backlog.map (·.entry)).Pairwise (· < ·) →
            t.queue p.queue = { n with
              backlog := n.backlog.filter (fun x => decide (x.entry < p.entry)) ++
                fresh :: n.backlog.filter (fun x => decide (p.entry < x.entry)) }))) ∧
      (∀ r, r ≠ p.queue → t.queue r = s.queue r) ∧ t.notices.reports = s.notices.reports ∧
      t.engine = { s.engine with activity := .busy { op with plan := { op.plan with post := none } } } ∧
      t.table = s.table ∧ t.cmd = s.cmd ∧ t.trig = s.trig ∧ s.OutsideKept t

/-- The merge of a post into a notice (R94). -/
def Obligations.MergeRule : Prop :=
  ∀ (n : Notice) (p : Post),
    (n.merged p).count.toNat = (if 255 < n.count.toNat + p.count then 255 else n.count.toNat + p.count) ∧
    ((n.merged p).saturated = true ↔ n.saturated = true ∨ 255 < n.count.toNat + p.count) ∧
    ((n.merged p).final = true ↔ n.final = true ∨ p.final = true) ∧
    ((n.merged p).chainMiss = true ↔ n.chainMiss = true ∨ p.chainMiss = true) ∧
    (n.merged p).deadline = p.deadline ∧ (n.merged p).lateness = p.lateness ∧ (n.merged p).tag = p.tag ∧
    (n.merged p).timebase = p.timebase ∧ (n.merged p).entry = n.entry

/-! ## Grants in rotation -/

/-- The decision at a completion follows the rotation from the pointer, and it is taken when nothing else of the event is
due; a request that reaches an IDLE engine is granted at once (R49). Which of two simultaneous requests is first is the
model's choice (notes/assumptions/4.md). -/
def Obligations.RotationDecides : Prop :=
  (∀ (s : State) (r1 r2 r3 : Requester), s.engine.rotation = r1 →
    (r1, r2, r3) ∈ [(.expiry, .command, .trigger), (.command, .trigger, .expiry), (.trigger, .expiry, .command)] →
    s.decideGrant = { s with engine := { s.engine with
      activity :=
        if s.waits r1 then .chosen r1 else if s.waits r2 then .chosen r2
        else if s.waits r3 then .chosen r3 else .idle } }) ∧
  (∀ s : State, s.engine.activity = .deciding → (∀ e, s.reportDue e = false) → (∀ q, s.standingDue q = none) →
    s.nopDue = false → s.ownerDue = none → s.beforeGrant = s.decideGrant ∧ s.settle = s.decideGrant) ∧
  (∀ s : State, s.dueStep = none → s.engine.activity = .idle → s.waits .expiry = true →
    s.settle = s.grantService) ∧
  (∀ s : State, s.dueStep = none → s.engine.activity = .idle → s.waits .expiry = false →
    s.waits .command = true → s.settle = s.grantCommand fun _ => true) ∧
  ∀ s : State, s.dueStep = none → s.engine.activity = .idle → s.waits .expiry = false →
    s.waits .command = false → s.waits .trigger = true → s.settle = s.grantTrigger fun _ => true

/-! ## Arithmetic, order and levels -/

/-- The distance of a deadline (R28). -/
def Obligations.DistanceRule : Prop :=
  ∀ d now : Tick,
    ((d - now).toNat < 8388608 → distance d now = ((d - now).toNat : Int)) ∧
    (8388608 ≤ (d - now).toNat → distance d now = ((d - now).toNat : Int) - 16777216) ∧
    -8388608 ≤ distance d now ∧ distance d now ≤ 8388607 ∧
    distance d (now + 1) =
      if distance d now = -8388608 then 8388607 else distance d now - 1

/-- The place of an insertion (R45): behind every leading entry whose distance is equal or smaller; a list in order
stays in order (R43). -/
def Obligations.InsertionKeepsOrder : Prop :=
  ∀ (dist : EntryIdx → Int) (e : EntryIdx) (l : List EntryIdx),
    insertByDistance dist e (dist e) l =
      l.takeWhile (fun a => decide (dist a ≤ dist e)) ++ e :: l.dropWhile (fun a => decide (dist a ≤ dist e)) ∧
    (l.Pairwise (fun a b => dist a ≤ dist b) →
      (insertByDistance dist e (dist e) l).Pairwise (fun a b => dist a ≤ dist b) ∧
      ∀ a ∈ l.dropWhile (fun a => decide (dist a ≤ dist e)), dist e < dist a)

/-- The seven sources and INT# (R174, R177, R179), and every byte that the host reads without a side effect (R108, R132,
R169, R180, R186, R193), with the pins (R167). IPEND shows each source, whatever the enables. A read and INT# see the
part after the steps of the event before (notes/assumptions/14.md). -/
def Obligations.InterruptLevel : Prop :=
  (∀ s : State,
    (s.ipend.getLsbD 0 = true ↔ (s.queue .nq0).watermark.toNat ≤ (s.queue .nq0).proper.length ∨
      (s.queue .nq0).backlog ≠ []) ∧
    (s.ipend.getLsbD 1 = true ↔ (s.queue .nq1).watermark.toNat ≤ (s.queue .nq1).proper.length ∨
      (s.queue .nq1).backlog ≠ []) ∧
    (s.ipend.getLsbD 2 = true ↔ s.cmd.results ≠ []) ∧
    (s.ipend.getLsbD 3 = true ↔ s.irq.rej = true) ∧
    (s.ipend.getLsbD 4 = true ↔ s.time.tb0.state = .faulted) ∧
    (s.ipend.getLsbD 5 = true ↔ s.time.tb1.state = .faulted) ∧
    (s.ipend.getLsbD 6 = true ↔ ∃ l, (s.line l).overrun = true ∨ (s.line l).miss = true) ∧
    s.ipend.getLsbD 7 = false) ∧
  (∀ s : State, s.intLow = true ↔ s.irq.master = true ∧
    ∃ i : Fin 7, s.settle.ipend.getLsbD i.val = true ∧ s.irq.ien.getLsbD i.val = true) ∧
  (∀ (s : State) (n : LineIdx), s.pin n = if s.out.enable then some s.out.latch[n] else none) ∧
  ∀ s : State,
    let t := s.settle
    let bit (b : Bool) (v : Nat) : Nat := if b then v else 0
    let state (r : TimebaseRecord) : Nat := match r.state with | .stopped => 0 | .running => 1 | .faulted => 2
    let level (n : NoticeQueue) : Byte := BitVec.ofNat 8 (n.proper.length + (if n.backlog = [] then 0 else 32)
      + bit n.headSealed 64 + bit n.standing.isSome 128)
    s.windowRead 0 = .byte (BitVec.ofNat 8 (state t.time.tb0 + 4 * state t.time.tb1 + bit t.out.enable 16
      + bit t.irq.master 32 + bit t.bus.wm 64 + bit t.cmd.execution.isSome 128)) ∧
    s.windowRead 1 = .byte t.ipend ∧
    s.windowRead 3 = .byte (BitVec.ofNat 8 ((4 - t.cmd.queue.length) + 16 * t.cmd.seq.toNat)) ∧
    s.windowRead 9 = .byte (level (t.queue .nq0)) ∧ s.windowRead 10 = .byte (level (t.queue .nq1)) ∧
    s.windowRead 11 = .byte (match t.bus.vsel with
      | .entry e => BitVec.ofNat 8 e.val | .group g => BitVec.ofNat 8 (64 + g.val)
      | .trigger l => BitVec.ofNat 8 (80 + l.val) | .list .tb0 => 96 | .list .tb1 => 97 | .freeList => 98) ∧
    (∃ low high : Byte, s.windowRead 14 = .byte low ∧ s.windowRead 15 = .byte high ∧
      ∀ n : Fin 8, low.getLsbD n.val = t.out.latch[n.val] ∧ high.getLsbD n.val = t.out.latch[n.val + 8])

/-! ## The laws -/

/-- Every law holds after a hardware reset, whatever the levels of the lines. -/
def Obligations.LawsAtReset : Prop :=
  ∀ (tki : Bool) (trg : BitVec 4),
    (State.resetWith tki trg).CommandLaw ∧ (State.resetWith tki trg).NoticeLaw ∧
    (State.resetWith tki trg).ListLaw ∧ (State.resetWith tki trg).GroupLaw ∧
    (State.resetWith tki trg).SpentLaw ∧ (State.resetWith tki trg).RepeatsLaw ∧
    (State.resetWith tki trg).LiveLaw

/-- The law of the Command Unit (R127, R133, R134, R142) is kept by every step. -/
def Obligations.CommandLawKept : Prop :=
  ∀ s t : State, s.CommandLaw → step s = .next t → t.CommandLaw

/-- The law of the notice queues (R90, R91, R92) is kept by every step. -/
def Obligations.NoticeLawKept : Prop :=
  ∀ s t : State, s.NoticeLaw → step s = .next t → t.NoticeLaw

/-- The law of the lists (R5, R7, R43) is kept by every step. -/
def Obligations.ListLawKept : Prop :=
  ∀ s t : State, s.ListLaw → step s = .next t → t.ListLaw

/-- The law of the groups (R113) is kept by every step, together with the law of the lists. -/
def Obligations.GroupLawKept : Prop :=
  ∀ s t : State, s.ListLaw → s.GroupLaw → step s = .next t → t.GroupLaw

/-- No notice names a FREE entry, and a notice names every SPENT entry (R106): kept by every step. -/
def Obligations.SpentLawKept : Prop :=
  ∀ s t : State, s.ListLaw → s.SpentLaw → step s = .next t → t.SpentLaw

/-- Repeats left fits the period and the repeat load (R4), and the live fields read as R2 gives: kept by every step. -/
def Obligations.LiveFieldsKept : Prop :=
  (∀ s t : State, s.ListLaw → s.RepeatsLaw → step s = .next t → t.RepeatsLaw) ∧
  ∀ s t : State, s.LiveLaw → step s = .next t → t.LiveLaw

end
end

