-- ==== Sys2Proof/Laws/Checks.lean ====
section
/-!
SUPPORT. What each check of R136 and R137 answers, for every parameter byte.
-/
namespace Sys2Proof.Machine

/-! ## Parameters -/

theorem entryOfByte_of {b : Byte} {e : EntryIdx} (h : b.toNat = e.val) : entryOfByte b = some e := by
  simp [entryOfByte, h]

theorem entryOfByte_none {b : Byte} (h : 48 ≤ b.toNat) : entryOfByte b = none := by
  simp [entryOfByte]; omega

theorem entryOfByte_some {b : Byte} (h : b.toNat < 48) : entryOfByte b = some ⟨b.toNat, h⟩ := by
  simp [entryOfByte, h]

theorem groupOfByte_of {b : Byte} {g : GroupIdx} (h : b.toNat = g.val) : groupOfByte b = some g := by
  simp [groupOfByte, h]

theorem groupOfByte_none {b : Byte} (h : 8 ≤ b.toNat) : groupOfByte b = none := by
  simp [groupOfByte]; omega

theorem groupOfByte_some {b : Byte} (h : b.toNat < 8) : groupOfByte b = some ⟨b.toNat, h⟩ := by
  simp [groupOfByte, h]

theorem trigOfByte_of {b : Byte} {l : TrigIdx} (h : b.toNat = l.val) : trigOfByte b = some l := by
  simp [trigOfByte, h]

theorem trigOfByte_none {b : Byte} (h : 4 ≤ b.toNat) : trigOfByte b = none := by
  simp [trigOfByte]; omega

theorem timebaseOfNat_none {n : Nat} (h : 2 ≤ n) : timebaseOfNat n = none := by
  unfold timebaseOfNat; split <;> first | omega | rfl

theorem lineOfNat_none {n : Nat} (h : 16 ≤ n) : lineOfNat n = none := by
  simp [lineOfNat]; omega

theorem queueOfNat_none {n : Nat} (h : 2 ≤ n) : queueOfNat n = none := by
  unfold queueOfNat; split <;> first | omega | rfl

/-- FFH is the byte whose value is 255. -/
theorem eq_ff {b : Byte} : b = 0xFF ↔ b.toNat = 255 := by
  rw [BitVec.toNat_eq]; rfl

/-- A duration is in range up to 8,388,607, which is its bit 7 of the third byte clear (R194). -/
theorem durationOfBytes_eq (b0 b1 b2 : Byte) :
    durationOfBytes b0 b1 b2 =
      if b0.toNat + 256 * b1.toNat + 65536 * b2.toNat ≤ 8388607
      then some (BitVec.ofNat 24 (b0.toNat + 256 * b1.toNat + 65536 * b2.toNat)) else none := by
  unfold durationOfBytes tickOfBytes
  have h0 := b0.isLt
  have h1 := b1.isLt
  have h7 : b2.getLsbD 7 = true ↔ 128 ≤ b2.toNat := by
    rw [BitVec.getLsbD, Nat.testBit_eq_decide_div_mod_eq]; have := b2.isLt; simp; omega
  by_cases h : b2.getLsbD 7 = true
  · rw [if_pos h, if_neg]; have := h7.mp h; omega
  · rw [if_neg h, if_pos]; have := mt h7.mpr h; omega

theorem bit_of (b : Byte) (i : Nat) : b.getLsbD i = decide (b.toNat / 2 ^ i % 2 = 1) := by
  rw [BitVec.getLsbD, Nat.testBit_eq_decide_div_mod_eq]

/-! ## The checks, command by command -/

/-- SETUP BEHAVIOR fails with BAD_INDEX on any index out of its limit (R136, R137, R194). -/
theorem checkSetupBehavior_index {p : Vector Byte 8}
    (h : 48 ≤ p[0].toNat ∨ (8 ≤ p[5].toNat ∧ p[5].toNat ≠ 255) ∨ (48 ≤ p[6].toNat ∧ p[6].toNat ≠ 255) ∨
      16 ≤ p[2].toNat % 32 ∨ 2 ≤ p[1].toNat / 64 ∨ 2 ≤ p[1].toNat % 4) :
    checkSetupBehavior p = .error .badIndex := by
  have h1 := p[1].isLt
  unfold checkSetupBehavior
  cases he : entryOfByte p[0] with
  | none => rfl
  | some e =>
  cases hg : orNone groupOfByte p[5] with
  | none => rfl
  | some g =>
  cases hs : orNone entryOfByte p[6] with
  | none => rfl
  | some y =>
  cases hl : lineOfNat (field p[2] 0 5) with
  | none => rfl
  | some l =>
  cases hq : queueOfNat (field p[1] 6 2) with
  | none => rfl
  | some q =>
  cases ht : timebaseOfNat (field p[1] 0 2) with
  | none => rfl
  | some t =>
    exfalso
    rcases h with h | h | h | h | h | h
    · rw [entryOfByte_none h] at he; cases he
    · rw [orNone, if_neg (by rw [eq_ff]; exact h.2), groupOfByte_none h.1] at hg; cases hg
    · rw [orNone, if_neg (by rw [eq_ff]; exact h.2), entryOfByte_none h.1] at hs; cases hs
    · rw [lineOfNat_none (by simp only [field]; omega)] at hl; cases hl
    · rw [queueOfNat_none (by simp only [field]; omega)] at hq; cases hq
    · rw [timebaseOfNat_none (by simp only [field]; omega)] at ht; cases ht

/-- With every index in its limit, SETUP BEHAVIOR reads the ranges, then the fields (R136, R137, R194). -/
theorem checkSetupBehavior_rest {p : Vector Byte 8}
    (h : ¬(48 ≤ p[0].toNat ∨ (8 ≤ p[5].toNat ∧ p[5].toNat ≠ 255) ∨ (48 ≤ p[6].toNat ∧ p[6].toNat ≠ 255) ∨
      16 ≤ p[2].toNat % 32 ∨ 2 ≤ p[1].toNat / 64 ∨ 2 ≤ p[1].toNat % 4)) :
    (p[1].toNat / 16 % 4 = 3 ∨ 4 ≤ p[2].toNat / 32 → checkSetupBehavior p = .error .range) ∧
    (¬(p[1].toNat / 16 % 4 = 3 ∨ 4 ≤ p[2].toNat / 32) →
      ∃ (e : EntryIdx) (b : Behavior), checkSetupBehavior p = .ok (.setupBehavior e b) ∧ e.val = p[0].toNat ∧
        p[1].toNat % 4 = (match b.timebase with | .tb0 => 0 | .tb1 => 1) ∧
        p[1].toNat / 4 % 2 = (match b.catchUp with | .skip => 0 | .keep => 1) ∧
        p[1].toNat / 8 % 2 = (if b.autoFree then 1 else 0) ∧
        p[1].toNat / 16 % 4 = (match b.postMode with | .off => 0 | .every => 1 | .final => 2) ∧
        p[1].toNat / 64 = (match b.queue with | .nq0 => 0 | .nq1 => 1) ∧
        p[2].toNat / 32 = (match b.action with | .none => 0 | .set => 1 | .clear => 2 | .toggle => 3) ∧
        p[2].toNat % 32 = b.line.val ∧ b.repeatLoad = p[3] ∧ b.tag = p[4] ∧
        p[5].toNat = (match b.group with | none => 255 | some g => g.val) ∧
        p[6].toNat = (match b.successor with | none => 255 | some y => y.val)) := by
  have h1 := p[1].isLt
  have h2 := p[2].isLt
  simp only [not_or, not_and, Nat.not_le] at h
  obtain ⟨he, hg, hs, hl, hq, ht⟩ := h
  have he' := entryOfByte_some he
  obtain ⟨g, hg', hgv⟩ : ∃ g, orNone groupOfByte p[5] = some g ∧
      p[5].toNat = (match g with | none => 255 | some g => g.val) := by
    by_cases h : p[5].toNat = 255
    · exact ⟨none, by rw [orNone, if_pos (eq_ff.mpr h)], h⟩
    · have h' : p[5].toNat < 8 := by
        by_cases hh : 8 ≤ p[5].toNat
        · exact absurd h (hg hh)
        · omega
      exact ⟨some ⟨_, h'⟩, by rw [orNone, if_neg (mt eq_ff.mp h), groupOfByte_some h']; rfl, rfl⟩
  obtain ⟨y, hs', hsv⟩ : ∃ y, orNone entryOfByte p[6] = some y ∧
      p[6].toNat = (match y with | none => 255 | some y => y.val) := by
    by_cases h : p[6].toNat = 255
    · exact ⟨none, by rw [orNone, if_pos (eq_ff.mpr h)], h⟩
    · have h' : p[6].toNat < 48 := by
        by_cases hh : 48 ≤ p[6].toNat
        · exact absurd h (hs hh)
        · omega
      exact ⟨some ⟨_, h'⟩, by rw [orNone, if_neg (mt eq_ff.mp h), entryOfByte_some h']; rfl, rfl⟩
  have hl' : lineOfNat (field p[2] 0 5) = some ⟨p[2].toNat % 32, hl⟩ := by
    simp [lineOfNat, field, hl]
  obtain ⟨q, hq', hqv⟩ : ∃ q, queueOfNat (field p[1] 6 2) = some q ∧
      p[1].toNat / 64 = (match q with | .nq0 => 0 | .nq1 => 1) := by
    have : field p[1] 6 2 = p[1].toNat / 64 := by simp only [field]; omega
    rw [this]
    have : p[1].toNat / 64 = 0 ∨ p[1].toNat / 64 = 1 := by omega
    rcases this with h | h <;> rw [h]
    · exact ⟨.nq0, rfl, rfl⟩
    · exact ⟨.nq1, rfl, rfl⟩
  obtain ⟨t, ht', htv⟩ : ∃ t, timebaseOfNat (field p[1] 0 2) = some t ∧
      p[1].toNat % 4 = (match t with | .tb0 => 0 | .tb1 => 1) := by
    have : field p[1] 0 2 = p[1].toNat % 4 := by simp only [field]; omega
    rw [this]
    have : p[1].toNat % 4 = 0 ∨ p[1].toNat % 4 = 1 := by omega
    rcases this with h | h <;> rw [h]
    · exact ⟨.tb0, rfl, rfl⟩
    · exact ⟨.tb1, rfl, rfl⟩
  have hm : field p[1] 4 2 = p[1].toNat / 16 % 4 := rfl
  have ha : field p[2] 5 3 = p[2].toNat / 32 := by simp only [field]; omega
  unfold checkSetupBehavior
  simp only [he', hg', hs', hl', hq', ht', withIndex, hm, ha]
  constructor
  · intro hr
    rcases hr with hr | hr
    · rw [hr]; rfl
    · have : actionOfNat (p[2].toNat / 32) = none := by
        unfold actionOfNat; split <;> first | omega | rfl
      rw [this]
      cases postModeOfNat (p[1].toNat / 16 % 4) <;> rfl
  · intro hr
    obtain ⟨m, hm', hmv⟩ : ∃ m, postModeOfNat (p[1].toNat / 16 % 4) = some m ∧
        p[1].toNat / 16 % 4 = (match m with | .off => 0 | .every => 1 | .final => 2) := by
      have : p[1].toNat / 16 % 4 = 0 ∨ p[1].toNat / 16 % 4 = 1 ∨ p[1].toNat / 16 % 4 = 2 := by omega
      rcases this with h | h | h <;> rw [h]
      · exact ⟨.off, rfl, rfl⟩
      · exact ⟨.every, rfl, rfl⟩
      · exact ⟨.final, rfl, rfl⟩
    obtain ⟨a, ha', hav⟩ : ∃ a, actionOfNat (p[2].toNat / 32) = some a ∧
        p[2].toNat / 32 = (match a with | .none => 0 | .set => 1 | .clear => 2 | .toggle => 3) := by
      have : p[2].toNat / 32 = 0 ∨ p[2].toNat / 32 = 1 ∨ p[2].toNat / 32 = 2 ∨ p[2].toNat / 32 = 3 := by omega
      rcases this with h | h | h | h <;> rw [h]
      · exact ⟨.none, rfl, rfl⟩
      · exact ⟨.set, rfl, rfl⟩
      · exact ⟨.clear, rfl, rfl⟩
      · exact ⟨.toggle, rfl, rfl⟩
    simp only [hm', ha', withRange]
    refine ⟨_, _, rfl, rfl, htv, ?_, ?_, hmv, hqv, hav, rfl, rfl, rfl, hgv, hsv⟩
    · simp only [bit_of]
      split <;> rename_i h <;> split at h <;> simp_all
    · simp only [bit_of, decide_eq_true_eq]
      split <;> omega

/-- ALLOC (R12, R137). -/
theorem checkAlloc_spec (p : Vector Byte 8) :
    (p[0].toNat = 255 → checkAlloc p = .ok (.alloc none)) ∧
    (∀ e : EntryIdx, p[0].toNat = e.val → checkAlloc p = .ok (.alloc (some e))) ∧
    (48 ≤ p[0].toNat ∧ p[0].toNat ≠ 255 → checkAlloc p = .error .badIndex) := by
  unfold checkAlloc orNone
  refine ⟨fun h => ?_, fun e h => ?_, fun h => ?_⟩
  · rw [if_pos (eq_ff.mpr h)]; rfl
  · rw [if_neg (mt eq_ff.mp (by omega)), entryOfByte_of h]; rfl
  · rw [if_neg (mt eq_ff.mp h.2), entryOfByte_none h.1]; rfl

/-- SETUP TIMING (R13, R137, R194). -/
theorem checkSetupTiming_spec (p : Vector Byte 8) :
    let a := p[1].toNat + 256 * p[2].toNat + 65536 * p[3].toNat
    let b := p[4].toNat + 256 * p[5].toNat + 65536 * p[6].toNat
    (48 ≤ p[0].toNat → checkSetupTiming p = .error .badIndex) ∧
    (p[0].toNat < 48 ∧ (8388607 < a ∨ 8388607 < b) → checkSetupTiming p = .error .range) ∧
    ∀ e : EntryIdx, p[0].toNat = e.val → a ≤ 8388607 → b ≤ 8388607 →
      checkSetupTiming p = .ok (.setupTiming e (BitVec.ofNat 24 a) (BitVec.ofNat 24 b)) := by
  unfold checkSetupTiming
  simp only [durationOfBytes_eq]
  refine ⟨fun h => ?_, fun ⟨h0, h1⟩ => ?_, fun e h0 h1 h2 => ?_⟩
  · rw [entryOfByte_none h]; rfl
  · rw [entryOfByte_some h0]
    rcases h1 with h1 | h1
    · rw [if_neg (Nat.not_le.mpr h1)]; rfl
    · rw [if_neg (c := p[4].toNat + _ + _ ≤ _) (Nat.not_le.mpr h1)]; split <;> rfl
  · rw [entryOfByte_of h0, if_pos h1, if_pos h2]; rfl

/-- ARM AT (R56, R137). -/
theorem checkArmAt_spec (p : Vector Byte 8) :
    (48 ≤ p[0].toNat → checkArmAt p = .error .badIndex) ∧
    ∀ e : EntryIdx, p[0].toNat = e.val →
      checkArmAt p = .ok (.armAt e (BitVec.ofNat 24 (p[1].toNat + 256 * p[2].toNat + 65536 * p[3].toNat))) := by
  unfold checkArmAt
  exact ⟨fun h => by rw [entryOfByte_none h]; rfl, fun e h => by rw [entryOfByte_of h]; rfl⟩

/-- CANCEL (R54, R137). -/
theorem checkCancel_spec (p : Vector Byte 8) :
    (48 ≤ p[0].toNat → checkCancel p = .error .badIndex) ∧
    (p[0].toNat < 48 ∧ 2 ≤ p[1].toNat → checkCancel p = .error .range) ∧
    ∀ e : EntryIdx, p[0].toNat = e.val → (p[1].toNat = 0 → checkCancel p = .ok (.cancel e false)) ∧
      (p[1].toNat = 1 → checkCancel p = .ok (.cancel e true)) := by
  unfold checkCancel
  refine ⟨fun h => ?_, fun ⟨h0, h1⟩ => ?_, fun e h => ⟨fun h1 => ?_, fun h1 => ?_⟩⟩
  · rw [entryOfByte_none h]; rfl
  · have h2 : p[1] ≠ 0 := fun hh => by rw [hh] at h1; exact absurd h1 (by decide)
    have h3 : p[1] ≠ 1 := fun hh => by rw [hh] at h1; exact absurd h1 (by decide)
    rw [entryOfByte_some h0]; simp only [withIndex, if_neg h2, if_neg h3]
  · have h1 : p[1] = 0 := BitVec.eq_of_toNat_eq h1
    rw [entryOfByte_of h, h1]; rfl
  · have h1 : p[1] = 1 := BitVec.eq_of_toNat_eq h1
    rw [entryOfByte_of h, h1]; rfl

theorem timebaseOfNat_some {n : Nat} (h : n < 2) : ∃ t, timebaseOfNat n = some t := by
  have : n = 0 ∨ n = 1 := by omega
  rcases this with h | h <;> rw [h] <;> exact ⟨_, rfl⟩

theorem queueOfNat_some {n : Nat} (h : n < 2) : ∃ q, queueOfNat n = some q := by
  have : n = 0 ∨ n = 1 := by omega
  rcases this with h | h <;> rw [h] <;> exact ⟨_, rfl⟩

theorem timebaseOfNat_of {n : Nat} {t : Timebase} (h : n = match t with | .tb0 => 0 | .tb1 => 1) :
    timebaseOfNat n = some t := by
  rw [h]; cases t <;> rfl

theorem queueOfNat_of {n : Nat} {q : QueueId} (h : n = match q with | .nq0 => 0 | .nq1 => 1) :
    queueOfNat n = some q := by
  rw [h]; cases q <;> rfl

/-- TIMEBASE (R34, R137, R194). -/
theorem checkTimebase_spec (p : Vector Byte 8) :
    (2 ≤ p[0].toNat → checkTimebase p = .error .badIndex) ∧
    (p[0].toNat < 2 ∧ 5 ≤ p[1].toNat → checkTimebase p = .error .range) ∧
    (p[0].toNat = 1 ∧ p[1].toNat = 0 ∧ (255 < p[2].toNat + 256 * p[3].toNat ∨ 2 ≤ p[4].toNat) →
      checkTimebase p = .error .range) ∧
    (p[0].toNat = 0 → p[1].toNat = 0 →
      checkTimebase p = .ok (.setDivider .tb0 (BitVec.ofNat 16 (p[2].toNat + 256 * p[3].toNat)) none)) ∧
    (p[0].toNat = 1 → p[1].toNat = 0 → p[2].toNat + 256 * p[3].toNat ≤ 255 →
      (p[4].toNat = 0 →
        checkTimebase p = .ok (.setDivider .tb1 (BitVec.ofNat 16 p[2].toNat) (some .rising))) ∧
      (p[4].toNat = 1 →
        checkTimebase p = .ok (.setDivider .tb1 (BitVec.ofNat 16 p[2].toNat) (some .falling)))) ∧
    ∀ t : Timebase, p[0].toNat = (match t with | .tb0 => 0 | .tb1 => 1) →
      (p[1].toNat = 1 → checkTimebase p = .ok (.start t)) ∧ (p[1].toNat = 2 → checkTimebase p = .ok (.stop t)) ∧
      (p[1].toNat = 3 → checkTimebase p = .ok (.clearNow t)) ∧
      (p[1].toNat = 4 → checkTimebase p = .ok (.clearFault t)) := by
  unfold checkTimebase
  refine ⟨fun h => ?_, fun ⟨h0, h1⟩ => ?_, fun ⟨h0, h1, h2⟩ => ?_, fun h0 h1 => ?_, fun h0 h1 h2 => ?_, fun t h => ?_⟩
  · rw [timebaseOfNat_none h]; rfl
  · obtain ⟨t, ht⟩ := timebaseOfNat_some h0
    rw [ht]; simp only [withIndex]
    split <;> first | omega | rfl
  · rw [h0, h1]
    simp only [timebaseOfNat, withIndex, checkSetDivider]
    split
    · rename_i h3
      have h3 : p[3].toNat = 0 := congrArg BitVec.toNat h3
      have := p[2].isLt
      have h4 : 2 ≤ p[4].toNat := by omega
      have h5 : p[4] ≠ 0 := fun hh => by rw [hh] at h4; exact absurd h4 (by decide)
      have h6 : p[4] ≠ 1 := fun hh => by rw [hh] at h4; exact absurd h4 (by decide)
      rw [tkiEdgeOfByte, if_neg h5, if_neg h6]; rfl
    · rfl
  · rw [h0, h1]; rfl
  · have h3 : p[3] = 0 := BitVec.eq_of_toNat_eq (show p[3].toNat = 0 by omega)
    rw [h0, h1]
    refine ⟨fun h4 => ?_, fun h4 => ?_⟩
    · have h4 : p[4] = 0 := BitVec.eq_of_toNat_eq h4
      simp only [timebaseOfNat, withIndex, checkSetDivider, h3, h4, wordOfBytes, if_true]; rfl
    · have h4 : p[4] = 1 := BitVec.eq_of_toNat_eq h4
      simp only [timebaseOfNat, withIndex, checkSetDivider, h3, h4, wordOfBytes, if_true]; rfl
  · rw [timebaseOfNat_of h]
    exact ⟨fun h => by rw [h]; rfl, fun h => by rw [h]; rfl, fun h => by rw [h]; rfl, fun h => by rw [h]; rfl⟩

/-- QUEUE CONFIG (R105, R137). -/
theorem checkQueueConfig_spec (p : Vector Byte 8) :
    (2 ≤ p[0].toNat → checkQueueConfig p = .error .badIndex) ∧
    (p[0].toNat < 2 ∧ (p[1].toNat = 0 ∨ 17 ≤ p[1].toNat) → checkQueueConfig p = .error .range) ∧
    ∀ q : QueueId, p[0].toNat = (match q with | .nq0 => 0 | .nq1 => 1) → 1 ≤ p[1].toNat → p[1].toNat ≤ 16 →
      checkQueueConfig p = .ok (.queueConfig q p[1]) := by
  unfold checkQueueConfig
  refine ⟨fun h => ?_, fun ⟨h0, h1⟩ => ?_, fun q h0 h1 h2 => ?_⟩
  · rw [queueOfNat_none h]; rfl
  · obtain ⟨q, hq⟩ := queueOfNat_some h0
    rw [hq]; simp only [withIndex]; exact if_neg (by omega)
  · rw [queueOfNat_of h0]; exact if_pos ⟨h1, h2⟩

theorem triggerTarget_none {a t : Byte} (h : 4 ≤ a.toNat) : triggerTarget a t = none := by
  unfold triggerTarget; split <;> first | omega | rfl

theorem triggerTarget_bad {a t : Byte}
    (h : a.toNat < 2 ∧ 48 ≤ t.toNat ∨ 2 ≤ a.toNat ∧ a.toNat < 4 ∧ 8 ≤ t.toNat) :
    triggerTarget a t = some none := by
  unfold triggerTarget
  rcases h with ⟨h0, h1⟩ | ⟨h0, h1, h2⟩
  · have : a.toNat = 0 ∨ a.toNat = 1 := by omega
    rcases this with h | h <;> rw [h, entryOfByte_none h1] <;> rfl
  · have : a.toNat = 2 ∨ a.toNat = 3 := by omega
    rcases this with h | h <;> rw [h, groupOfByte_none h2] <;> rfl

theorem triggerTarget_some {a t : Byte} (ha : a.toNat < 4)
    (h : ¬(a.toNat < 2 ∧ 48 ≤ t.toNat ∨ 2 ≤ a.toNat ∧ a.toNat < 4 ∧ 8 ≤ t.toNat)) :
    ∃ x, triggerTarget a t = some (some x) := by
  unfold triggerTarget
  have : a.toNat = 0 ∨ a.toNat = 1 ∨ a.toNat = 2 ∨ a.toNat = 3 := by omega
  rcases this with h' | h' | h' | h' <;> rw [h']
  · exact ⟨_, by rw [entryOfByte_some (by omega)]; rfl⟩
  · exact ⟨_, by rw [entryOfByte_some (by omega)]; rfl⟩
  · exact ⟨_, by rw [groupOfByte_some (by omega)]; rfl⟩
  · exact ⟨_, by rw [groupOfByte_some (by omega)]; rfl⟩

theorem bindingEdgeOfByte_none {b : Byte} (h : 4 ≤ b.toNat) : bindingEdgeOfByte b = none := by
  have : ∀ k : Byte, k.toNat < 4 → b ≠ k := fun k hk he => by rw [he] at h; omega
  rw [bindingEdgeOfByte, if_neg (this 0 (by decide)), if_neg (this 1 (by decide)), if_neg (this 2 (by decide)),
    if_neg (this 3 (by decide))]

theorem bindingEdgeOfByte_of {b : Byte} {x : BindingEdge}
    (h : b.toNat = match x with | .off => 0 | .rising => 1 | .falling => 2 | .both => 3) :
    bindingEdgeOfByte b = some x := by
  rw [show b = BitVec.ofNat 8 b.toNat by simp, h]; cases x <;> rfl

/-- BIND TRIGGER (R137, R163, R194). -/
theorem checkBindTrigger_spec (p : Vector Byte 8) :
    let target : Prop := p[2].toNat < 2 ∧ 48 ≤ p[3].toNat ∨ 2 ≤ p[2].toNat ∧ p[2].toNat < 4 ∧ 8 ≤ p[3].toNat
    (4 ≤ p[0].toNat ∨ target → checkBindTrigger p = .error .badIndex) ∧
    (p[0].toNat < 4 ∧ ¬target ∧ (4 ≤ p[2].toNat ∨ 4 ≤ p[1].toNat) → checkBindTrigger p = .error .range) ∧
    ∀ (l : TrigIdx) (x : BindingEdge), p[0].toNat = l.val →
      p[1].toNat = (match x with | .off => 0 | .rising => 1 | .falling => 2 | .both => 3) →
      (∀ e : EntryIdx, p[2].toNat = 0 → p[3].toNat = e.val → checkBindTrigger p = .ok (.bindTrigger l x (.arm e))) ∧
      (∀ e : EntryIdx, p[2].toNat = 1 → p[3].toNat = e.val →
        checkBindTrigger p = .ok (.bindTrigger l x (.cancel e))) ∧
      (∀ g : GroupIdx, p[2].toNat = 2 → p[3].toNat = g.val →
        checkBindTrigger p = .ok (.bindTrigger l x (.hold g))) ∧
      (∀ g : GroupIdx, p[2].toNat = 3 → p[3].toNat = g.val →
        checkBindTrigger p = .ok (.bindTrigger l x (.resume g))) := by
  intro target
  unfold checkBindTrigger
  refine ⟨fun h => ?_, fun ⟨h0, h1, h2⟩ => ?_, fun l x h0 h1 => ?_⟩
  · rcases h with h | h
    · rw [trigOfByte_none h]; rfl
    · rw [triggerTarget_bad h]; cases trigOfByte p[0] <;> rfl
  · rw [show trigOfByte p[0] = some ⟨_, h0⟩ from trigOfByte_of rfl]
    by_cases h3 : 4 ≤ p[2].toNat
    · rw [triggerTarget_none h3]; rfl
    · obtain ⟨t, ht⟩ := triggerTarget_some (Nat.not_le.mp h3) h1
      rw [ht, bindingEdgeOfByte_none (h2.resolve_left h3)]; rfl
  · rw [trigOfByte_of h0, bindingEdgeOfByte_of h1]
    refine ⟨fun e h2 h3 => ?_, fun e h2 h3 => ?_, fun g h2 h3 => ?_, fun g h2 h3 => ?_⟩
    · rw [triggerTarget, h2, entryOfByte_of h3]; rfl
    · rw [triggerTarget, h2, entryOfByte_of h3]; rfl
    · rw [triggerTarget, h2, groupOfByte_of h3]; rfl
    · rw [triggerTarget, h2, groupOfByte_of h3]; rfl

/-- RETUNE (R15, R137, R194). -/
theorem checkRetune_spec (p : Vector Byte 8) :
    let a := p[1].toNat + 256 * p[2].toNat + 65536 * p[3].toNat
    (48 ≤ p[0].toNat → checkRetune p = .error .badIndex) ∧
    (p[0].toNat < 48 ∧ 8388607 < a → checkRetune p = .error .range) ∧
    ∀ e : EntryIdx, p[0].toNat = e.val → a ≤ 8388607 → checkRetune p = .ok (.retune e (BitVec.ofNat 24 a)) := by
  unfold checkRetune
  simp only [durationOfBytes_eq]
  refine ⟨fun h => ?_, fun ⟨h0, h1⟩ => ?_, fun e h0 h1 => ?_⟩
  · rw [entryOfByte_none h]; rfl
  · rw [entryOfByte_some h0, if_neg (Nat.not_le.mpr h1)]; rfl
  · rw [entryOfByte_of h0, if_pos h1]; rfl

/-! ## The code (R136) -/

theorem check_badCode {c : QueuedCommand} (h : 15 ≤ c.code.toNat) : c.check = .error .badCode := by
  unfold QueuedCommand.check; split <;> first | omega | rfl

/-- The check that a known code selects. -/
theorem check_of_code (c : QueuedCommand) :
    (c.code = 0 → c.check = .ok .nop) ∧ (c.code = 1 → c.check = checkAlloc c.params) ∧
    (c.code = 2 → c.check = checkSetupTiming c.params) ∧ (c.code = 3 → c.check = checkSetupBehavior c.params) ∧
    (c.code = 4 → c.check = withIndex (entryOfByte c.params[0]) fun e => .ok (.arm e)) ∧
    (c.code = 5 → c.check = checkArmAt c.params) ∧ (c.code = 6 → c.check = checkCancel c.params) ∧
    (c.code = 7 → c.check = withIndex (entryOfByte c.params[0]) fun e => .ok (.free e)) ∧
    (c.code = 8 → c.check = withIndex (groupOfByte c.params[0]) fun g => .ok (.hold g)) ∧
    (c.code = 9 → c.check = withIndex (groupOfByte c.params[0]) fun g => .ok (.resume g)) ∧
    (c.code = 10 → c.check = checkTimebase c.params) ∧ (c.code = 11 → c.check = checkQueueConfig c.params) ∧
    (c.code = 12 → c.check = withIndex (queueOfNat c.params[0].toNat) fun q => .ok (.flushQueue q)) ∧
    (c.code = 13 → c.check = checkBindTrigger c.params) ∧ (c.code = 14 → c.check = checkRetune c.params) := by
  unfold QueuedCommand.check
  refine ⟨?_, ?_, ?_, ?_, ?_, ?_, ?_, ?_, ?_, ?_, ?_, ?_, ?_, ?_, ?_⟩ <;> (intro h; rw [h]; rfl)

end Sys2Proof.Machine
end

