-- ==== Sys2Proof/Laws/State.lean ====
section
/-!
SUPPORT. What each update of the state leaves and writes, field by field, so that no proof unfolds a record update.
-/
namespace Sys2Proof.Machine

/-! ## setEntry -/

@[simp] theorem setEntry_pending (s : State) (e : EntryIdx) (x : Entry) : (s.setEntry e x).pending = s.pending := rfl
@[simp] theorem setEntry_bus (s : State) (e : EntryIdx) (x : Entry) : (s.setEntry e x).bus = s.bus := rfl
@[simp] theorem setEntry_cmd (s : State) (e : EntryIdx) (x : Entry) : (s.setEntry e x).cmd = s.cmd := rfl
@[simp] theorem setEntry_time (s : State) (e : EntryIdx) (x : Entry) : (s.setEntry e x).time = s.time := rfl
@[simp] theorem setEntry_engine (s : State) (e : EntryIdx) (x : Entry) : (s.setEntry e x).engine = s.engine := rfl
@[simp] theorem setEntry_notices (s : State) (e : EntryIdx) (x : Entry) : (s.setEntry e x).notices = s.notices := rfl
@[simp] theorem setEntry_trig (s : State) (e : EntryIdx) (x : Entry) : (s.setEntry e x).trig = s.trig := rfl
@[simp] theorem setEntry_out (s : State) (e : EntryIdx) (x : Entry) : (s.setEntry e x).out = s.out := rfl
@[simp] theorem setEntry_irq (s : State) (e : EntryIdx) (x : Entry) : (s.setEntry e x).irq = s.irq := rfl

/-! ## setTimebase -/

@[simp] theorem setTimebase_pending (s : State) (t : Timebase) (r : TimebaseRecord) : (s.setTimebase t r).pending = s.pending := by cases t <;> rfl
@[simp] theorem setTimebase_bus (s : State) (t : Timebase) (r : TimebaseRecord) : (s.setTimebase t r).bus = s.bus := by cases t <;> rfl
@[simp] theorem setTimebase_cmd (s : State) (t : Timebase) (r : TimebaseRecord) : (s.setTimebase t r).cmd = s.cmd := by cases t <;> rfl
@[simp] theorem setTimebase_table (s : State) (t : Timebase) (r : TimebaseRecord) : (s.setTimebase t r).table = s.table := by cases t <;> rfl
@[simp] theorem setTimebase_engine (s : State) (t : Timebase) (r : TimebaseRecord) : (s.setTimebase t r).engine = s.engine := by cases t <;> rfl
@[simp] theorem setTimebase_notices (s : State) (t : Timebase) (r : TimebaseRecord) : (s.setTimebase t r).notices = s.notices := by cases t <;> rfl
@[simp] theorem setTimebase_trig (s : State) (t : Timebase) (r : TimebaseRecord) : (s.setTimebase t r).trig = s.trig := by cases t <;> rfl
@[simp] theorem setTimebase_out (s : State) (t : Timebase) (r : TimebaseRecord) : (s.setTimebase t r).out = s.out := by cases t <;> rfl
@[simp] theorem setTimebase_irq (s : State) (t : Timebase) (r : TimebaseRecord) : (s.setTimebase t r).irq = s.irq := by cases t <;> rfl

/-! ## setList -/

@[simp] theorem setList_pending (s : State) (t : Timebase) (l : List EntryIdx) : (s.setList t l).pending = s.pending := by cases t <;> rfl
@[simp] theorem setList_bus (s : State) (t : Timebase) (l : List EntryIdx) : (s.setList t l).bus = s.bus := by cases t <;> rfl
@[simp] theorem setList_cmd (s : State) (t : Timebase) (l : List EntryIdx) : (s.setList t l).cmd = s.cmd := by cases t <;> rfl
@[simp] theorem setList_table (s : State) (t : Timebase) (l : List EntryIdx) : (s.setList t l).table = s.table := by cases t <;> rfl
@[simp] theorem setList_time (s : State) (t : Timebase) (l : List EntryIdx) : (s.setList t l).time = s.time := by cases t <;> rfl
@[simp] theorem setList_notices (s : State) (t : Timebase) (l : List EntryIdx) : (s.setList t l).notices = s.notices := by cases t <;> rfl
@[simp] theorem setList_trig (s : State) (t : Timebase) (l : List EntryIdx) : (s.setList t l).trig = s.trig := by cases t <;> rfl
@[simp] theorem setList_out (s : State) (t : Timebase) (l : List EntryIdx) : (s.setList t l).out = s.out := by cases t <;> rfl
@[simp] theorem setList_irq (s : State) (t : Timebase) (l : List EntryIdx) : (s.setList t l).irq = s.irq := by cases t <;> rfl

/-! ## setGroup -/

@[simp] theorem setGroup_pending (s : State) (g : GroupIdx) (r : Group) : (s.setGroup g r).pending = s.pending := rfl
@[simp] theorem setGroup_bus (s : State) (g : GroupIdx) (r : Group) : (s.setGroup g r).bus = s.bus := rfl
@[simp] theorem setGroup_cmd (s : State) (g : GroupIdx) (r : Group) : (s.setGroup g r).cmd = s.cmd := rfl
@[simp] theorem setGroup_table (s : State) (g : GroupIdx) (r : Group) : (s.setGroup g r).table = s.table := rfl
@[simp] theorem setGroup_time (s : State) (g : GroupIdx) (r : Group) : (s.setGroup g r).time = s.time := rfl
@[simp] theorem setGroup_notices (s : State) (g : GroupIdx) (r : Group) : (s.setGroup g r).notices = s.notices := rfl
@[simp] theorem setGroup_trig (s : State) (g : GroupIdx) (r : Group) : (s.setGroup g r).trig = s.trig := rfl
@[simp] theorem setGroup_out (s : State) (g : GroupIdx) (r : Group) : (s.setGroup g r).out = s.out := rfl
@[simp] theorem setGroup_irq (s : State) (g : GroupIdx) (r : Group) : (s.setGroup g r).irq = s.irq := rfl

/-! ## setActivity -/

@[simp] theorem setActivity_pending (s : State) (a : Activity) : (s.setActivity a).pending = s.pending := rfl
@[simp] theorem setActivity_bus (s : State) (a : Activity) : (s.setActivity a).bus = s.bus := rfl
@[simp] theorem setActivity_cmd (s : State) (a : Activity) : (s.setActivity a).cmd = s.cmd := rfl
@[simp] theorem setActivity_table (s : State) (a : Activity) : (s.setActivity a).table = s.table := rfl
@[simp] theorem setActivity_time (s : State) (a : Activity) : (s.setActivity a).time = s.time := rfl
@[simp] theorem setActivity_notices (s : State) (a : Activity) : (s.setActivity a).notices = s.notices := rfl
@[simp] theorem setActivity_trig (s : State) (a : Activity) : (s.setActivity a).trig = s.trig := rfl
@[simp] theorem setActivity_out (s : State) (a : Activity) : (s.setActivity a).out = s.out := rfl
@[simp] theorem setActivity_irq (s : State) (a : Activity) : (s.setActivity a).irq = s.irq := rfl

/-! ## setQueue -/

@[simp] theorem setQueue_pending (s : State) (q : QueueId) (n : NoticeQueue) : (s.setQueue q n).pending = s.pending := by cases q <;> rfl
@[simp] theorem setQueue_bus (s : State) (q : QueueId) (n : NoticeQueue) : (s.setQueue q n).bus = s.bus := by cases q <;> rfl
@[simp] theorem setQueue_cmd (s : State) (q : QueueId) (n : NoticeQueue) : (s.setQueue q n).cmd = s.cmd := by cases q <;> rfl
@[simp] theorem setQueue_table (s : State) (q : QueueId) (n : NoticeQueue) : (s.setQueue q n).table = s.table := by cases q <;> rfl
@[simp] theorem setQueue_time (s : State) (q : QueueId) (n : NoticeQueue) : (s.setQueue q n).time = s.time := by cases q <;> rfl
@[simp] theorem setQueue_engine (s : State) (q : QueueId) (n : NoticeQueue) : (s.setQueue q n).engine = s.engine := by cases q <;> rfl
@[simp] theorem setQueue_trig (s : State) (q : QueueId) (n : NoticeQueue) : (s.setQueue q n).trig = s.trig := by cases q <;> rfl
@[simp] theorem setQueue_out (s : State) (q : QueueId) (n : NoticeQueue) : (s.setQueue q n).out = s.out := by cases q <;> rfl
@[simp] theorem setQueue_irq (s : State) (q : QueueId) (n : NoticeQueue) : (s.setQueue q n).irq = s.irq := by cases q <;> rfl

/-! ## setReports -/

@[simp] theorem setReports_pending (s : State) (l : List EntryIdx) : (s.setReports l).pending = s.pending := rfl
@[simp] theorem setReports_bus (s : State) (l : List EntryIdx) : (s.setReports l).bus = s.bus := rfl
@[simp] theorem setReports_cmd (s : State) (l : List EntryIdx) : (s.setReports l).cmd = s.cmd := rfl
@[simp] theorem setReports_table (s : State) (l : List EntryIdx) : (s.setReports l).table = s.table := rfl
@[simp] theorem setReports_time (s : State) (l : List EntryIdx) : (s.setReports l).time = s.time := rfl
@[simp] theorem setReports_engine (s : State) (l : List EntryIdx) : (s.setReports l).engine = s.engine := rfl
@[simp] theorem setReports_trig (s : State) (l : List EntryIdx) : (s.setReports l).trig = s.trig := rfl
@[simp] theorem setReports_out (s : State) (l : List EntryIdx) : (s.setReports l).out = s.out := rfl
@[simp] theorem setReports_irq (s : State) (l : List EntryIdx) : (s.setReports l).irq = s.irq := rfl

/-! ## setLine -/

@[simp] theorem setLine_pending (s : State) (l : TrigIdx) (r : TriggerLine) : (s.setLine l r).pending = s.pending := rfl
@[simp] theorem setLine_bus (s : State) (l : TrigIdx) (r : TriggerLine) : (s.setLine l r).bus = s.bus := rfl
@[simp] theorem setLine_cmd (s : State) (l : TrigIdx) (r : TriggerLine) : (s.setLine l r).cmd = s.cmd := rfl
@[simp] theorem setLine_table (s : State) (l : TrigIdx) (r : TriggerLine) : (s.setLine l r).table = s.table := rfl
@[simp] theorem setLine_time (s : State) (l : TrigIdx) (r : TriggerLine) : (s.setLine l r).time = s.time := rfl
@[simp] theorem setLine_engine (s : State) (l : TrigIdx) (r : TriggerLine) : (s.setLine l r).engine = s.engine := rfl
@[simp] theorem setLine_notices (s : State) (l : TrigIdx) (r : TriggerLine) : (s.setLine l r).notices = s.notices := rfl
@[simp] theorem setLine_out (s : State) (l : TrigIdx) (r : TriggerLine) : (s.setLine l r).out = s.out := rfl
@[simp] theorem setLine_irq (s : State) (l : TrigIdx) (r : TriggerLine) : (s.setLine l r).irq = s.irq := rfl

/-! ## setStage -/

@[simp] theorem setStage_pending (s : State) (st : Stage) : (s.setStage st).pending = s.pending := rfl
@[simp] theorem setStage_bus (s : State) (st : Stage) : (s.setStage st).bus = s.bus := rfl
@[simp] theorem setStage_table (s : State) (st : Stage) : (s.setStage st).table = s.table := rfl
@[simp] theorem setStage_time (s : State) (st : Stage) : (s.setStage st).time = s.time := rfl
@[simp] theorem setStage_engine (s : State) (st : Stage) : (s.setStage st).engine = s.engine := rfl
@[simp] theorem setStage_notices (s : State) (st : Stage) : (s.setStage st).notices = s.notices := rfl
@[simp] theorem setStage_trig (s : State) (st : Stage) : (s.setStage st).trig = s.trig := rfl
@[simp] theorem setStage_out (s : State) (st : Stage) : (s.setStage st).out = s.out := rfl
@[simp] theorem setStage_irq (s : State) (st : Stage) : (s.setStage st).irq = s.irq := rfl

/-! ## misuse -/

@[simp] theorem misuse_pending (s : State) : (s.misuse).pending = s.pending := rfl
@[simp] theorem misuse_cmd (s : State) : (s.misuse).cmd = s.cmd := rfl
@[simp] theorem misuse_table (s : State) : (s.misuse).table = s.table := rfl
@[simp] theorem misuse_time (s : State) : (s.misuse).time = s.time := rfl
@[simp] theorem misuse_engine (s : State) : (s.misuse).engine = s.engine := rfl
@[simp] theorem misuse_notices (s : State) : (s.misuse).notices = s.notices := rfl
@[simp] theorem misuse_trig (s : State) : (s.misuse).trig = s.trig := rfl
@[simp] theorem misuse_out (s : State) : (s.misuse).out = s.out := rfl
@[simp] theorem misuse_irq (s : State) : (s.misuse).irq = s.irq := rfl

/-! ## answerRead -/

@[simp] theorem answerRead_pending (s : State) (b : Byte) : (s.answerRead b).pending = s.pending := rfl
@[simp] theorem answerRead_cmd (s : State) (b : Byte) : (s.answerRead b).cmd = s.cmd := rfl
@[simp] theorem answerRead_table (s : State) (b : Byte) : (s.answerRead b).table = s.table := rfl
@[simp] theorem answerRead_time (s : State) (b : Byte) : (s.answerRead b).time = s.time := rfl
@[simp] theorem answerRead_engine (s : State) (b : Byte) : (s.answerRead b).engine = s.engine := rfl
@[simp] theorem answerRead_notices (s : State) (b : Byte) : (s.answerRead b).notices = s.notices := rfl
@[simp] theorem answerRead_trig (s : State) (b : Byte) : (s.answerRead b).trig = s.trig := rfl
@[simp] theorem answerRead_out (s : State) (b : Byte) : (s.answerRead b).out = s.out := rfl
@[simp] theorem answerRead_irq (s : State) (b : Byte) : (s.answerRead b).irq = s.irq := rfl

/-! ## Reading back what was written -/

@[simp] theorem setEntry_freeList (s : State) (e : EntryIdx) (x : Entry) :
    (s.setEntry e x).table.freeList = s.table.freeList := rfl

@[simp] theorem entry_setEntry_same (s : State) (e : EntryIdx) (x : Entry) : (s.setEntry e x).entry e = x := by
  simp [State.entry, State.setEntry]

theorem entry_setEntry (s : State) (e e' : EntryIdx) (x : Entry) :
    (s.setEntry e x).entry e' = if e = e' then x else s.entry e' := by
  simp only [State.entry, State.setEntry, Fin.getElem_fin, Vector.getElem_set, Fin.ext_iff]

theorem entry_setEntry_other (s : State) {e e' : EntryIdx} (x : Entry) (h : e ≠ e') :
    (s.setEntry e x).entry e' = s.entry e' := by
  rw [entry_setEntry, if_neg h]

theorem entry_of_table {s t : State} (h : t.table = s.table) (e : EntryIdx) : t.entry e = s.entry e := by
  simp only [State.entry, h]

@[simp] theorem group_setGroup_same (s : State) (g : GroupIdx) (r : Group) : (s.setGroup g r).group g = r := by
  simp [State.group, State.setGroup]

theorem group_setGroup (s : State) (g g' : GroupIdx) (r : Group) :
    (s.setGroup g r).group g' = if g = g' then r else s.group g' := by
  simp only [State.group, State.setGroup, Fin.getElem_fin, Vector.getElem_set, Fin.ext_iff]

@[simp] theorem line_setLine_same (s : State) (l : TrigIdx) (r : TriggerLine) : (s.setLine l r).line l = r := by
  simp [State.line, State.setLine]

theorem line_setLine (s : State) (l l' : TrigIdx) (r : TriggerLine) :
    (s.setLine l r).line l' = if l = l' then r else s.line l' := by
  simp only [State.line, State.setLine, Fin.getElem_fin, Vector.getElem_set, Fin.ext_iff]

@[simp] theorem timebase_setTimebase_same (s : State) (t : Timebase) (r : TimebaseRecord) :
    (s.setTimebase t r).timebase t = r := by cases t <;> rfl

theorem timebase_setTimebase (s : State) (t t' : Timebase) (r : TimebaseRecord) :
    (s.setTimebase t r).timebase t' = if t = t' then r else s.timebase t' := by cases t <;> cases t' <;> rfl

@[simp] theorem list_setList_same (s : State) (t : Timebase) (l : List EntryIdx) : (s.setList t l).list t = l := by
  cases t <;> rfl

theorem list_setList (s : State) (t t' : Timebase) (l : List EntryIdx) :
    (s.setList t l).list t' = if t = t' then l else s.list t' := by cases t <;> cases t' <;> rfl

@[simp] theorem queue_setQueue_same (s : State) (q : QueueId) (n : NoticeQueue) : (s.setQueue q n).queue q = n := by
  cases q <;> rfl

theorem queue_setQueue (s : State) (q q' : QueueId) (n : NoticeQueue) :
    (s.setQueue q n).queue q' = if q = q' then n else s.queue q' := by cases q <;> cases q' <;> rfl

@[simp] theorem setList_groups (s : State) (t : Timebase) (l : List EntryIdx) :
    (s.setList t l).engine.groups = s.engine.groups := by cases t <;> rfl

@[simp] theorem setList_activity (s : State) (t : Timebase) (l : List EntryIdx) :
    (s.setList t l).engine.activity = s.engine.activity := by cases t <;> rfl

@[simp] theorem setList_rotation (s : State) (t : Timebase) (l : List EntryIdx) :
    (s.setList t l).engine.rotation = s.engine.rotation := by cases t <;> rfl

@[simp] theorem setGroup_activity (s : State) (g : GroupIdx) (r : Group) :
    (s.setGroup g r).engine.activity = s.engine.activity := rfl

@[simp] theorem setGroup_list (s : State) (g : GroupIdx) (r : Group) (t : Timebase) :
    (s.setGroup g r).list t = s.list t := by cases t <;> rfl

@[simp] theorem setActivity_activity (s : State) (a : Activity) : (s.setActivity a).engine.activity = a := rfl

@[simp] theorem setActivity_list (s : State) (a : Activity) (t : Timebase) :
    (s.setActivity a).list t = s.list t := by cases t <;> rfl

@[simp] theorem setActivity_group (s : State) (a : Activity) (g : GroupIdx) :
    (s.setActivity a).group g = s.group g := rfl

@[simp] theorem setActivity_groups (s : State) (a : Activity) :
    (s.setActivity a).engine.groups = s.engine.groups := rfl

@[simp] theorem setReports_reports (s : State) (l : List EntryIdx) : (s.setReports l).notices.reports = l := rfl

@[simp] theorem setReports_queue (s : State) (l : List EntryIdx) (q : QueueId) :
    (s.setReports l).queue q = s.queue q := by cases q <;> rfl

@[simp] theorem setQueue_reports (s : State) (q : QueueId) (n : NoticeQueue) :
    (s.setQueue q n).notices.reports = s.notices.reports := by cases q <;> rfl

/-! ## Accessors of states that agree on a block -/

theorem list_of_engine {s t : State} (h : t.engine = s.engine) (b : Timebase) : t.list b = s.list b := by
  cases b <;> simp only [State.list, h]

theorem group_of_engine {s t : State} (h : t.engine = s.engine) (g : GroupIdx) : t.group g = s.group g := by
  simp only [State.group, h]

theorem queue_of_notices {s t : State} (h : t.notices = s.notices) (q : QueueId) : t.queue q = s.queue q := by
  cases q <;> simp only [State.queue, h]

theorem timebase_of_time {s t : State} (h : t.time = s.time) (b : Timebase) : t.timebase b = s.timebase b := by
  cases b <;> simp only [State.timebase, h]

theorem claims_of_activity {s t : State} (h : t.engine.activity = s.engine.activity) : t.claims = s.claims := by
  simp only [State.claims, h]

theorem noticesOf_of_queues {s t : State} (h : ∀ q, t.queue q = s.queue q) (e : EntryIdx) :
    t.noticesOf e = s.noticesOf e := by
  simp only [State.noticesOf, h]

end Sys2Proof.Machine
end

