-- ==== Sys2Proof/Laws/Frame.lean ====
section
/-!
SUPPORT. Which blocks of the state each shared operation leaves alone: one lemma per operation and block.
-/
namespace Sys2Proof.Machine

@[simp] theorem addResult_pending (s : State) (c : QueuedCommand) (st : Status) (v : Byte) : (s.addResult c st v).pending = s.pending := rfl
@[simp] theorem addResult_bus (s : State) (c : QueuedCommand) (st : Status) (v : Byte) : (s.addResult c st v).bus = s.bus := rfl
@[simp] theorem addResult_table (s : State) (c : QueuedCommand) (st : Status) (v : Byte) : (s.addResult c st v).table = s.table := rfl
@[simp] theorem addResult_time (s : State) (c : QueuedCommand) (st : Status) (v : Byte) : (s.addResult c st v).time = s.time := rfl
@[simp] theorem addResult_engine (s : State) (c : QueuedCommand) (st : Status) (v : Byte) : (s.addResult c st v).engine = s.engine := rfl
@[simp] theorem addResult_notices (s : State) (c : QueuedCommand) (st : Status) (v : Byte) : (s.addResult c st v).notices = s.notices := rfl
@[simp] theorem addResult_trig (s : State) (c : QueuedCommand) (st : Status) (v : Byte) : (s.addResult c st v).trig = s.trig := rfl
@[simp] theorem addResult_out (s : State) (c : QueuedCommand) (st : Status) (v : Byte) : (s.addResult c st v).out = s.out := rfl
@[simp] theorem addResult_irq (s : State) (c : QueuedCommand) (st : Status) (v : Byte) : (s.addResult c st v).irq = s.irq := rfl

@[simp] theorem takeFrom_pending (q : List QueuedCommand) (s : State) : (takeFrom q s).pending = s.pending := by
  induction q generalizing s with
  | nil => rfl
  | cons c rest ih =>
    unfold takeFrom
    repeat' split
    all_goals simp [ih]
@[simp] theorem takeFrom_bus (q : List QueuedCommand) (s : State) : (takeFrom q s).bus = s.bus := by
  induction q generalizing s with
  | nil => rfl
  | cons c rest ih =>
    unfold takeFrom
    repeat' split
    all_goals simp [ih]
@[simp] theorem takeFrom_table (q : List QueuedCommand) (s : State) : (takeFrom q s).table = s.table := by
  induction q generalizing s with
  | nil => rfl
  | cons c rest ih =>
    unfold takeFrom
    repeat' split
    all_goals simp [ih]
@[simp] theorem takeFrom_time (q : List QueuedCommand) (s : State) : (takeFrom q s).time = s.time := by
  induction q generalizing s with
  | nil => rfl
  | cons c rest ih =>
    unfold takeFrom
    repeat' split
    all_goals simp [ih]
@[simp] theorem takeFrom_engine (q : List QueuedCommand) (s : State) : (takeFrom q s).engine = s.engine := by
  induction q generalizing s with
  | nil => rfl
  | cons c rest ih =>
    unfold takeFrom
    repeat' split
    all_goals simp [ih]
@[simp] theorem takeFrom_notices (q : List QueuedCommand) (s : State) : (takeFrom q s).notices = s.notices := by
  induction q generalizing s with
  | nil => rfl
  | cons c rest ih =>
    unfold takeFrom
    repeat' split
    all_goals simp [ih]
@[simp] theorem takeFrom_trig (q : List QueuedCommand) (s : State) : (takeFrom q s).trig = s.trig := by
  induction q generalizing s with
  | nil => rfl
  | cons c rest ih =>
    unfold takeFrom
    repeat' split
    all_goals simp [ih]
@[simp] theorem takeFrom_out (q : List QueuedCommand) (s : State) : (takeFrom q s).out = s.out := by
  induction q generalizing s with
  | nil => rfl
  | cons c rest ih =>
    unfold takeFrom
    repeat' split
    all_goals simp [ih]
@[simp] theorem takeFrom_irq (q : List QueuedCommand) (s : State) : (takeFrom q s).irq = s.irq := by
  induction q generalizing s with
  | nil => rfl
  | cons c rest ih =>
    unfold takeFrom
    repeat' split
    all_goals simp [ih]

@[simp] theorem take_pending (s : State) : (s.take).pending = s.pending := takeFrom_pending _ _
@[simp] theorem take_bus (s : State) : (s.take).bus = s.bus := takeFrom_bus _ _
@[simp] theorem take_table (s : State) : (s.take).table = s.table := takeFrom_table _ _
@[simp] theorem take_time (s : State) : (s.take).time = s.time := takeFrom_time _ _
@[simp] theorem take_engine (s : State) : (s.take).engine = s.engine := takeFrom_engine _ _
@[simp] theorem take_notices (s : State) : (s.take).notices = s.notices := takeFrom_notices _ _
@[simp] theorem take_trig (s : State) : (s.take).trig = s.trig := takeFrom_trig _ _
@[simp] theorem take_out (s : State) : (s.take).out = s.out := takeFrom_out _ _
@[simp] theorem take_irq (s : State) : (s.take).irq = s.irq := takeFrom_irq _ _

@[simp] theorem answer_pending (s : State) (st : Status) (v : Byte) : (s.answer st v).pending = s.pending := by unfold State.answer; split <;> simp
@[simp] theorem answer_bus (s : State) (st : Status) (v : Byte) : (s.answer st v).bus = s.bus := by unfold State.answer; split <;> simp
@[simp] theorem answer_table (s : State) (st : Status) (v : Byte) : (s.answer st v).table = s.table := by unfold State.answer; split <;> simp
@[simp] theorem answer_time (s : State) (st : Status) (v : Byte) : (s.answer st v).time = s.time := by unfold State.answer; split <;> simp
@[simp] theorem answer_engine (s : State) (st : Status) (v : Byte) : (s.answer st v).engine = s.engine := by unfold State.answer; split <;> simp
@[simp] theorem answer_notices (s : State) (st : Status) (v : Byte) : (s.answer st v).notices = s.notices := by unfold State.answer; split <;> simp
@[simp] theorem answer_trig (s : State) (st : Status) (v : Byte) : (s.answer st v).trig = s.trig := by unfold State.answer; split <;> simp
@[simp] theorem answer_out (s : State) (st : Status) (v : Byte) : (s.answer st v).out = s.out := by unfold State.answer; split <;> simp
@[simp] theorem answer_irq (s : State) (st : Status) (v : Byte) : (s.answer st v).irq = s.irq := by unfold State.answer; split <;> simp

@[simp] theorem answerNop_pending (s : State) : (s.answerNop).pending = s.pending := by unfold State.answerNop; split <;> simp
@[simp] theorem answerNop_bus (s : State) : (s.answerNop).bus = s.bus := by unfold State.answerNop; split <;> simp
@[simp] theorem answerNop_table (s : State) : (s.answerNop).table = s.table := by unfold State.answerNop; split <;> simp
@[simp] theorem answerNop_time (s : State) : (s.answerNop).time = s.time := by unfold State.answerNop; split <;> simp
@[simp] theorem answerNop_engine (s : State) : (s.answerNop).engine = s.engine := by unfold State.answerNop; split <;> simp
@[simp] theorem answerNop_notices (s : State) : (s.answerNop).notices = s.notices := by unfold State.answerNop; split <;> simp
@[simp] theorem answerNop_trig (s : State) : (s.answerNop).trig = s.trig := by unfold State.answerNop; split <;> simp
@[simp] theorem answerNop_out (s : State) : (s.answerNop).out = s.out := by unfold State.answerNop; split <;> simp
@[simp] theorem answerNop_irq (s : State) : (s.answerNop).irq = s.irq := by unfold State.answerNop; split <;> simp

@[simp] theorem unlink_pending (s : State) (e : EntryIdx) : (s.unlink e).pending = s.pending := by simp [State.unlink]
@[simp] theorem unlink_bus (s : State) (e : EntryIdx) : (s.unlink e).bus = s.bus := by simp [State.unlink]
@[simp] theorem unlink_cmd (s : State) (e : EntryIdx) : (s.unlink e).cmd = s.cmd := by simp [State.unlink]
@[simp] theorem unlink_table (s : State) (e : EntryIdx) : (s.unlink e).table = s.table := by simp [State.unlink]
@[simp] theorem unlink_time (s : State) (e : EntryIdx) : (s.unlink e).time = s.time := by simp [State.unlink]
@[simp] theorem unlink_notices (s : State) (e : EntryIdx) : (s.unlink e).notices = s.notices := by simp [State.unlink]
@[simp] theorem unlink_trig (s : State) (e : EntryIdx) : (s.unlink e).trig = s.trig := by simp [State.unlink]
@[simp] theorem unlink_out (s : State) (e : EntryIdx) : (s.unlink e).out = s.out := by simp [State.unlink]
@[simp] theorem unlink_irq (s : State) (e : EntryIdx) : (s.unlink e).irq = s.irq := by simp [State.unlink]

@[simp] theorem insertAt_pending (s : State) (n : Tick) (e : EntryIdx) (d : Tick) : (s.insertAt n e d).pending = s.pending := by simp [State.insertAt]
@[simp] theorem insertAt_bus (s : State) (n : Tick) (e : EntryIdx) (d : Tick) : (s.insertAt n e d).bus = s.bus := by simp [State.insertAt]
@[simp] theorem insertAt_cmd (s : State) (n : Tick) (e : EntryIdx) (d : Tick) : (s.insertAt n e d).cmd = s.cmd := by simp [State.insertAt]
@[simp] theorem insertAt_table (s : State) (n : Tick) (e : EntryIdx) (d : Tick) : (s.insertAt n e d).table = s.table := by simp [State.insertAt]
@[simp] theorem insertAt_time (s : State) (n : Tick) (e : EntryIdx) (d : Tick) : (s.insertAt n e d).time = s.time := by simp [State.insertAt]
@[simp] theorem insertAt_notices (s : State) (n : Tick) (e : EntryIdx) (d : Tick) : (s.insertAt n e d).notices = s.notices := by simp [State.insertAt]
@[simp] theorem insertAt_trig (s : State) (n : Tick) (e : EntryIdx) (d : Tick) : (s.insertAt n e d).trig = s.trig := by simp [State.insertAt]
@[simp] theorem insertAt_out (s : State) (n : Tick) (e : EntryIdx) (d : Tick) : (s.insertAt n e d).out = s.out := by simp [State.insertAt]
@[simp] theorem insertAt_irq (s : State) (n : Tick) (e : EntryIdx) (d : Tick) : (s.insertAt n e d).irq = s.irq := by simp [State.insertAt]

@[simp] theorem link_pending (s : State) (n : Tick) (e : EntryIdx) (d : Tick) (r : Byte) : (s.link n e d r).pending = s.pending := by simp [State.link]
@[simp] theorem link_bus (s : State) (n : Tick) (e : EntryIdx) (d : Tick) (r : Byte) : (s.link n e d r).bus = s.bus := by simp [State.link]
@[simp] theorem link_cmd (s : State) (n : Tick) (e : EntryIdx) (d : Tick) (r : Byte) : (s.link n e d r).cmd = s.cmd := by simp [State.link]
@[simp] theorem link_time (s : State) (n : Tick) (e : EntryIdx) (d : Tick) (r : Byte) : (s.link n e d r).time = s.time := by simp [State.link]
@[simp] theorem link_notices (s : State) (n : Tick) (e : EntryIdx) (d : Tick) (r : Byte) : (s.link n e d r).notices = s.notices := by simp [State.link]
@[simp] theorem link_trig (s : State) (n : Tick) (e : EntryIdx) (d : Tick) (r : Byte) : (s.link n e d r).trig = s.trig := by simp [State.link]
@[simp] theorem link_out (s : State) (n : Tick) (e : EntryIdx) (d : Tick) (r : Byte) : (s.link n e d r).out = s.out := by simp [State.link]
@[simp] theorem link_irq (s : State) (n : Tick) (e : EntryIdx) (d : Tick) (r : Byte) : (s.link n e d r).irq = s.irq := by simp [State.link]

@[simp] theorem raiseHeld_pending (s : State) (g : Option GroupIdx) : (s.raiseHeld g).pending = s.pending := by cases g <;> simp [State.raiseHeld]
@[simp] theorem raiseHeld_bus (s : State) (g : Option GroupIdx) : (s.raiseHeld g).bus = s.bus := by cases g <;> simp [State.raiseHeld]
@[simp] theorem raiseHeld_cmd (s : State) (g : Option GroupIdx) : (s.raiseHeld g).cmd = s.cmd := by cases g <;> simp [State.raiseHeld]
@[simp] theorem raiseHeld_table (s : State) (g : Option GroupIdx) : (s.raiseHeld g).table = s.table := by cases g <;> simp [State.raiseHeld]
@[simp] theorem raiseHeld_time (s : State) (g : Option GroupIdx) : (s.raiseHeld g).time = s.time := by cases g <;> simp [State.raiseHeld]
@[simp] theorem raiseHeld_notices (s : State) (g : Option GroupIdx) : (s.raiseHeld g).notices = s.notices := by cases g <;> simp [State.raiseHeld]
@[simp] theorem raiseHeld_trig (s : State) (g : Option GroupIdx) : (s.raiseHeld g).trig = s.trig := by cases g <;> simp [State.raiseHeld]
@[simp] theorem raiseHeld_out (s : State) (g : Option GroupIdx) : (s.raiseHeld g).out = s.out := by cases g <;> simp [State.raiseHeld]
@[simp] theorem raiseHeld_irq (s : State) (g : Option GroupIdx) : (s.raiseHeld g).irq = s.irq := by cases g <;> simp [State.raiseHeld]

@[simp] theorem lowerHeld_pending (s : State) (g : Option GroupIdx) : (s.lowerHeld g).pending = s.pending := by cases g <;> simp [State.lowerHeld]
@[simp] theorem lowerHeld_bus (s : State) (g : Option GroupIdx) : (s.lowerHeld g).bus = s.bus := by cases g <;> simp [State.lowerHeld]
@[simp] theorem lowerHeld_cmd (s : State) (g : Option GroupIdx) : (s.lowerHeld g).cmd = s.cmd := by cases g <;> simp [State.lowerHeld]
@[simp] theorem lowerHeld_table (s : State) (g : Option GroupIdx) : (s.lowerHeld g).table = s.table := by cases g <;> simp [State.lowerHeld]
@[simp] theorem lowerHeld_time (s : State) (g : Option GroupIdx) : (s.lowerHeld g).time = s.time := by cases g <;> simp [State.lowerHeld]
@[simp] theorem lowerHeld_notices (s : State) (g : Option GroupIdx) : (s.lowerHeld g).notices = s.notices := by cases g <;> simp [State.lowerHeld]
@[simp] theorem lowerHeld_trig (s : State) (g : Option GroupIdx) : (s.lowerHeld g).trig = s.trig := by cases g <;> simp [State.lowerHeld]
@[simp] theorem lowerHeld_out (s : State) (g : Option GroupIdx) : (s.lowerHeld g).out = s.out := by cases g <;> simp [State.lowerHeld]
@[simp] theorem lowerHeld_irq (s : State) (g : Option GroupIdx) : (s.lowerHeld g).irq = s.irq := by cases g <;> simp [State.lowerHeld]

@[simp] theorem detach_pending (s : State) (e : EntryIdx) : (s.detach e).pending = s.pending := by unfold State.detach; split <;> simp
@[simp] theorem detach_bus (s : State) (e : EntryIdx) : (s.detach e).bus = s.bus := by unfold State.detach; split <;> simp
@[simp] theorem detach_cmd (s : State) (e : EntryIdx) : (s.detach e).cmd = s.cmd := by unfold State.detach; split <;> simp
@[simp] theorem detach_table (s : State) (e : EntryIdx) : (s.detach e).table = s.table := by unfold State.detach; split <;> simp
@[simp] theorem detach_time (s : State) (e : EntryIdx) : (s.detach e).time = s.time := by unfold State.detach; split <;> simp
@[simp] theorem detach_notices (s : State) (e : EntryIdx) : (s.detach e).notices = s.notices := by unfold State.detach; split <;> simp
@[simp] theorem detach_trig (s : State) (e : EntryIdx) : (s.detach e).trig = s.trig := by unfold State.detach; split <;> simp
@[simp] theorem detach_out (s : State) (e : EntryIdx) : (s.detach e).out = s.out := by unfold State.detach; split <;> simp
@[simp] theorem detach_irq (s : State) (e : EntryIdx) : (s.detach e).irq = s.irq := by unfold State.detach; split <;> simp

@[simp] theorem release_pending (s : State) (e : EntryIdx) : (s.release e).pending = s.pending := by simp [State.release]
@[simp] theorem release_bus (s : State) (e : EntryIdx) : (s.release e).bus = s.bus := by simp [State.release]
@[simp] theorem release_cmd (s : State) (e : EntryIdx) : (s.release e).cmd = s.cmd := by simp [State.release]
@[simp] theorem release_time (s : State) (e : EntryIdx) : (s.release e).time = s.time := by simp [State.release]
@[simp] theorem release_engine (s : State) (e : EntryIdx) : (s.release e).engine = s.engine := by simp [State.release]
@[simp] theorem release_notices (s : State) (e : EntryIdx) : (s.release e).notices = s.notices := by simp [State.release]
@[simp] theorem release_trig (s : State) (e : EntryIdx) : (s.release e).trig = s.trig := by simp [State.release]
@[simp] theorem release_out (s : State) (e : EntryIdx) : (s.release e).out = s.out := by simp [State.release]
@[simp] theorem release_irq (s : State) (e : EntryIdx) : (s.release e).irq = s.irq := by simp [State.release]

@[simp] theorem takeReport_pending (s : State) (e : EntryIdx) : (s.takeReport e).pending = s.pending := by unfold State.takeReport; split <;> simp
@[simp] theorem takeReport_bus (s : State) (e : EntryIdx) : (s.takeReport e).bus = s.bus := by unfold State.takeReport; split <;> simp
@[simp] theorem takeReport_cmd (s : State) (e : EntryIdx) : (s.takeReport e).cmd = s.cmd := by unfold State.takeReport; split <;> simp
@[simp] theorem takeReport_time (s : State) (e : EntryIdx) : (s.takeReport e).time = s.time := by unfold State.takeReport; split <;> simp
@[simp] theorem takeReport_engine (s : State) (e : EntryIdx) : (s.takeReport e).engine = s.engine := by unfold State.takeReport; split <;> simp
@[simp] theorem takeReport_notices (s : State) (e : EntryIdx) : (s.takeReport e).notices = s.notices := by unfold State.takeReport; split <;> simp
@[simp] theorem takeReport_trig (s : State) (e : EntryIdx) : (s.takeReport e).trig = s.trig := by unfold State.takeReport; split <;> simp
@[simp] theorem takeReport_out (s : State) (e : EntryIdx) : (s.takeReport e).out = s.out := by unfold State.takeReport; split <;> simp
@[simp] theorem takeReport_irq (s : State) (e : EntryIdx) : (s.takeReport e).irq = s.irq := by unfold State.takeReport; split <;> simp

@[simp] theorem sendReport_pending (s : State) (e : EntryIdx) : (s.sendReport e).pending = s.pending := by unfold State.sendReport; split <;> simp
@[simp] theorem sendReport_bus (s : State) (e : EntryIdx) : (s.sendReport e).bus = s.bus := by unfold State.sendReport; split <;> simp
@[simp] theorem sendReport_cmd (s : State) (e : EntryIdx) : (s.sendReport e).cmd = s.cmd := by unfold State.sendReport; split <;> simp
@[simp] theorem sendReport_time (s : State) (e : EntryIdx) : (s.sendReport e).time = s.time := by unfold State.sendReport; split <;> simp
@[simp] theorem sendReport_engine (s : State) (e : EntryIdx) : (s.sendReport e).engine = s.engine := by unfold State.sendReport; split <;> simp
@[simp] theorem sendReport_trig (s : State) (e : EntryIdx) : (s.sendReport e).trig = s.trig := by unfold State.sendReport; split <;> simp
@[simp] theorem sendReport_out (s : State) (e : EntryIdx) : (s.sendReport e).out = s.out := by unfold State.sendReport; split <;> simp
@[simp] theorem sendReport_irq (s : State) (e : EntryIdx) : (s.sendReport e).irq = s.irq := by unfold State.sendReport; split <;> simp

@[simp] theorem reportIfNone_pending (s : State) (e : EntryIdx) : (s.reportIfNone e).pending = s.pending := by unfold State.reportIfNone; split <;> simp
@[simp] theorem reportIfNone_bus (s : State) (e : EntryIdx) : (s.reportIfNone e).bus = s.bus := by unfold State.reportIfNone; split <;> simp
@[simp] theorem reportIfNone_cmd (s : State) (e : EntryIdx) : (s.reportIfNone e).cmd = s.cmd := by unfold State.reportIfNone; split <;> simp
@[simp] theorem reportIfNone_time (s : State) (e : EntryIdx) : (s.reportIfNone e).time = s.time := by unfold State.reportIfNone; split <;> simp
@[simp] theorem reportIfNone_engine (s : State) (e : EntryIdx) : (s.reportIfNone e).engine = s.engine := by unfold State.reportIfNone; split <;> simp
@[simp] theorem reportIfNone_trig (s : State) (e : EntryIdx) : (s.reportIfNone e).trig = s.trig := by unfold State.reportIfNone; split <;> simp
@[simp] theorem reportIfNone_out (s : State) (e : EntryIdx) : (s.reportIfNone e).out = s.out := by unfold State.reportIfNone; split <;> simp
@[simp] theorem reportIfNone_irq (s : State) (e : EntryIdx) : (s.reportIfNone e).irq = s.irq := by unfold State.reportIfNone; split <;> simp

@[simp] theorem sendReports_pending (s : State) (l : List EntryIdx) : (l.foldl State.sendReport s).pending = s.pending := by
  induction l generalizing s with
  | nil => rfl
  | cons a l ih => simp [ih]
@[simp] theorem sendReports_bus (s : State) (l : List EntryIdx) : (l.foldl State.sendReport s).bus = s.bus := by
  induction l generalizing s with
  | nil => rfl
  | cons a l ih => simp [ih]
@[simp] theorem sendReports_cmd (s : State) (l : List EntryIdx) : (l.foldl State.sendReport s).cmd = s.cmd := by
  induction l generalizing s with
  | nil => rfl
  | cons a l ih => simp [ih]
@[simp] theorem sendReports_time (s : State) (l : List EntryIdx) : (l.foldl State.sendReport s).time = s.time := by
  induction l generalizing s with
  | nil => rfl
  | cons a l ih => simp [ih]
@[simp] theorem sendReports_engine (s : State) (l : List EntryIdx) : (l.foldl State.sendReport s).engine = s.engine := by
  induction l generalizing s with
  | nil => rfl
  | cons a l ih => simp [ih]
@[simp] theorem sendReports_trig (s : State) (l : List EntryIdx) : (l.foldl State.sendReport s).trig = s.trig := by
  induction l generalizing s with
  | nil => rfl
  | cons a l ih => simp [ih]
@[simp] theorem sendReports_out (s : State) (l : List EntryIdx) : (l.foldl State.sendReport s).out = s.out := by
  induction l generalizing s with
  | nil => rfl
  | cons a l ih => simp [ih]
@[simp] theorem sendReports_irq (s : State) (l : List EntryIdx) : (l.foldl State.sendReport s).irq = s.irq := by
  induction l generalizing s with
  | nil => rfl
  | cons a l ih => simp [ih]

@[simp] theorem purge_pending (s : State) (e : EntryIdx) : (s.purge e).pending = s.pending := by unfold State.purge; dsimp only; split <;> simp
@[simp] theorem purge_bus (s : State) (e : EntryIdx) : (s.purge e).bus = s.bus := by unfold State.purge; dsimp only; split <;> simp
@[simp] theorem purge_cmd (s : State) (e : EntryIdx) : (s.purge e).cmd = s.cmd := by unfold State.purge; dsimp only; split <;> simp
@[simp] theorem purge_time (s : State) (e : EntryIdx) : (s.purge e).time = s.time := by unfold State.purge; dsimp only; split <;> simp
@[simp] theorem purge_engine (s : State) (e : EntryIdx) : (s.purge e).engine = s.engine := by unfold State.purge; dsimp only; split <;> simp
@[simp] theorem purge_trig (s : State) (e : EntryIdx) : (s.purge e).trig = s.trig := by unfold State.purge; dsimp only; split <;> simp
@[simp] theorem purge_out (s : State) (e : EntryIdx) : (s.purge e).out = s.out := by unfold State.purge; dsimp only; split <;> simp
@[simp] theorem purge_irq (s : State) (e : EntryIdx) : (s.purge e).irq = s.irq := by unfold State.purge; dsimp only; split <;> simp

@[simp] theorem takePop_pending (s : State) (q : QueueId) (i : Nat) : (s.takePop q i).pending = s.pending := by unfold State.takePop; (repeat' split) <;> simp
@[simp] theorem takePop_cmd (s : State) (q : QueueId) (i : Nat) : (s.takePop q i).cmd = s.cmd := by unfold State.takePop; (repeat' split) <;> simp
@[simp] theorem takePop_time (s : State) (q : QueueId) (i : Nat) : (s.takePop q i).time = s.time := by unfold State.takePop; (repeat' split) <;> simp
@[simp] theorem takePop_engine (s : State) (q : QueueId) (i : Nat) : (s.takePop q i).engine = s.engine := by unfold State.takePop; (repeat' split) <;> simp
@[simp] theorem takePop_trig (s : State) (q : QueueId) (i : Nat) : (s.takePop q i).trig = s.trig := by unfold State.takePop; (repeat' split) <;> simp
@[simp] theorem takePop_out (s : State) (q : QueueId) (i : Nat) : (s.takePop q i).out = s.out := by unfold State.takePop; (repeat' split) <;> simp
@[simp] theorem takePop_irq (s : State) (q : QueueId) (i : Nat) : (s.takePop q i).irq = s.irq := by unfold State.takePop; (repeat' split) <;> simp

@[simp] theorem popNotice_pending (s : State) (q : QueueId) (i : Nat) : (s.popNotice q i).pending = s.pending := by unfold State.popNotice; (repeat' split) <;> simp
@[simp] theorem popNotice_cmd (s : State) (q : QueueId) (i : Nat) : (s.popNotice q i).cmd = s.cmd := by unfold State.popNotice; (repeat' split) <;> simp
@[simp] theorem popNotice_time (s : State) (q : QueueId) (i : Nat) : (s.popNotice q i).time = s.time := by unfold State.popNotice; (repeat' split) <;> simp
@[simp] theorem popNotice_engine (s : State) (q : QueueId) (i : Nat) : (s.popNotice q i).engine = s.engine := by unfold State.popNotice; (repeat' split) <;> simp
@[simp] theorem popNotice_trig (s : State) (q : QueueId) (i : Nat) : (s.popNotice q i).trig = s.trig := by unfold State.popNotice; (repeat' split) <;> simp
@[simp] theorem popNotice_out (s : State) (q : QueueId) (i : Nat) : (s.popNotice q i).out = s.out := by unfold State.popNotice; (repeat' split) <;> simp
@[simp] theorem popNotice_irq (s : State) (q : QueueId) (i : Nat) : (s.popNotice q i).irq = s.irq := by unfold State.popNotice; (repeat' split) <;> simp

@[simp] theorem takeStanding_pending (s : State) (q : QueueId) : (s.takeStanding q).pending = s.pending := by unfold State.takeStanding; split <;> simp
@[simp] theorem takeStanding_cmd (s : State) (q : QueueId) : (s.takeStanding q).cmd = s.cmd := by unfold State.takeStanding; split <;> simp
@[simp] theorem takeStanding_time (s : State) (q : QueueId) : (s.takeStanding q).time = s.time := by unfold State.takeStanding; split <;> simp
@[simp] theorem takeStanding_engine (s : State) (q : QueueId) : (s.takeStanding q).engine = s.engine := by unfold State.takeStanding; split <;> simp
@[simp] theorem takeStanding_trig (s : State) (q : QueueId) : (s.takeStanding q).trig = s.trig := by unfold State.takeStanding; split <;> simp
@[simp] theorem takeStanding_out (s : State) (q : QueueId) : (s.takeStanding q).out = s.out := by unfold State.takeStanding; split <;> simp
@[simp] theorem takeStanding_irq (s : State) (q : QueueId) : (s.takeStanding q).irq = s.irq := by unfold State.takeStanding; split <;> simp

@[simp] theorem takeWaitingReport_pending (s : State) (e : EntryIdx) : (s.takeWaitingReport e).pending = s.pending := by unfold State.takeWaitingReport; split <;> simp
@[simp] theorem takeWaitingReport_bus (s : State) (e : EntryIdx) : (s.takeWaitingReport e).bus = s.bus := by unfold State.takeWaitingReport; split <;> simp
@[simp] theorem takeWaitingReport_cmd (s : State) (e : EntryIdx) : (s.takeWaitingReport e).cmd = s.cmd := by unfold State.takeWaitingReport; split <;> simp
@[simp] theorem takeWaitingReport_time (s : State) (e : EntryIdx) : (s.takeWaitingReport e).time = s.time := by unfold State.takeWaitingReport; split <;> simp
@[simp] theorem takeWaitingReport_engine (s : State) (e : EntryIdx) : (s.takeWaitingReport e).engine = s.engine := by unfold State.takeWaitingReport; split <;> simp
@[simp] theorem takeWaitingReport_trig (s : State) (e : EntryIdx) : (s.takeWaitingReport e).trig = s.trig := by unfold State.takeWaitingReport; split <;> simp
@[simp] theorem takeWaitingReport_out (s : State) (e : EntryIdx) : (s.takeWaitingReport e).out = s.out := by unfold State.takeWaitingReport; split <;> simp
@[simp] theorem takeWaitingReport_irq (s : State) (e : EntryIdx) : (s.takeWaitingReport e).irq = s.irq := by unfold State.takeWaitingReport; split <;> simp

@[simp] theorem decideGrant_pending (s : State) : (s.decideGrant).pending = s.pending := by simp [State.decideGrant]
@[simp] theorem decideGrant_bus (s : State) : (s.decideGrant).bus = s.bus := by simp [State.decideGrant]
@[simp] theorem decideGrant_cmd (s : State) : (s.decideGrant).cmd = s.cmd := by simp [State.decideGrant]
@[simp] theorem decideGrant_table (s : State) : (s.decideGrant).table = s.table := by simp [State.decideGrant]
@[simp] theorem decideGrant_time (s : State) : (s.decideGrant).time = s.time := by simp [State.decideGrant]
@[simp] theorem decideGrant_notices (s : State) : (s.decideGrant).notices = s.notices := by simp [State.decideGrant]
@[simp] theorem decideGrant_trig (s : State) : (s.decideGrant).trig = s.trig := by simp [State.decideGrant]
@[simp] theorem decideGrant_out (s : State) : (s.decideGrant).out = s.out := by simp [State.decideGrant]
@[simp] theorem decideGrant_irq (s : State) : (s.decideGrant).irq = s.irq := by simp [State.decideGrant]

@[simp] theorem begin_pending (s : State) (c : Client) (p : Plan) : (s.begin c p).pending = s.pending := rfl
@[simp] theorem begin_bus (s : State) (c : Client) (p : Plan) : (s.begin c p).bus = s.bus := rfl
@[simp] theorem begin_cmd (s : State) (c : Client) (p : Plan) : (s.begin c p).cmd = s.cmd := rfl
@[simp] theorem begin_table (s : State) (c : Client) (p : Plan) : (s.begin c p).table = s.table := rfl
@[simp] theorem begin_time (s : State) (c : Client) (p : Plan) : (s.begin c p).time = s.time := rfl
@[simp] theorem begin_notices (s : State) (c : Client) (p : Plan) : (s.begin c p).notices = s.notices := rfl
@[simp] theorem begin_trig (s : State) (c : Client) (p : Plan) : (s.begin c p).trig = s.trig := rfl
@[simp] theorem begin_out (s : State) (c : Client) (p : Plan) : (s.begin c p).out = s.out := rfl
@[simp] theorem begin_irq (s : State) (c : Client) (p : Plan) : (s.begin c p).irq = s.irq := rfl

@[simp] theorem openWalk_pending (s : State) (w : Option Walk) : (s.openWalk w).pending = s.pending := by unfold State.openWalk; split <;> simp
@[simp] theorem openWalk_bus (s : State) (w : Option Walk) : (s.openWalk w).bus = s.bus := by unfold State.openWalk; split <;> simp
@[simp] theorem openWalk_cmd (s : State) (w : Option Walk) : (s.openWalk w).cmd = s.cmd := by unfold State.openWalk; split <;> simp
@[simp] theorem openWalk_table (s : State) (w : Option Walk) : (s.openWalk w).table = s.table := by unfold State.openWalk; split <;> simp
@[simp] theorem openWalk_time (s : State) (w : Option Walk) : (s.openWalk w).time = s.time := by unfold State.openWalk; split <;> simp
@[simp] theorem openWalk_notices (s : State) (w : Option Walk) : (s.openWalk w).notices = s.notices := by unfold State.openWalk; split <;> simp
@[simp] theorem openWalk_trig (s : State) (w : Option Walk) : (s.openWalk w).trig = s.trig := by unfold State.openWalk; split <;> simp
@[simp] theorem openWalk_out (s : State) (w : Option Walk) : (s.openWalk w).out = s.out := by unfold State.openWalk; split <;> simp
@[simp] theorem openWalk_irq (s : State) (w : Option Walk) : (s.openWalk w).irq = s.irq := by unfold State.openWalk; split <;> simp

@[simp] theorem grantService_pending (s : State) : (s.grantService).pending = s.pending := by unfold State.grantService; split <;> simp
@[simp] theorem grantService_bus (s : State) : (s.grantService).bus = s.bus := by unfold State.grantService; split <;> simp
@[simp] theorem grantService_cmd (s : State) : (s.grantService).cmd = s.cmd := by unfold State.grantService; split <;> simp
@[simp] theorem grantService_table (s : State) : (s.grantService).table = s.table := by unfold State.grantService; split <;> simp
@[simp] theorem grantService_time (s : State) : (s.grantService).time = s.time := by unfold State.grantService; split <;> simp
@[simp] theorem grantService_notices (s : State) : (s.grantService).notices = s.notices := by unfold State.grantService; split <;> simp
@[simp] theorem grantService_trig (s : State) : (s.grantService).trig = s.trig := by unfold State.grantService; split <;> simp
@[simp] theorem grantService_out (s : State) : (s.grantService).out = s.out := by unfold State.grantService; split <;> simp
@[simp] theorem grantService_irq (s : State) : (s.grantService).irq = s.irq := by unfold State.grantService; split <;> simp

@[simp] theorem grantCommand_pending (s : State) (k : Command → Bool) : (s.grantCommand k).pending = s.pending := by unfold State.grantCommand; (repeat' split) <;> simp
@[simp] theorem grantCommand_bus (s : State) (k : Command → Bool) : (s.grantCommand k).bus = s.bus := by unfold State.grantCommand; (repeat' split) <;> simp
@[simp] theorem grantCommand_table (s : State) (k : Command → Bool) : (s.grantCommand k).table = s.table := by unfold State.grantCommand; (repeat' split) <;> simp
@[simp] theorem grantCommand_time (s : State) (k : Command → Bool) : (s.grantCommand k).time = s.time := by unfold State.grantCommand; (repeat' split) <;> simp
@[simp] theorem grantCommand_notices (s : State) (k : Command → Bool) : (s.grantCommand k).notices = s.notices := by unfold State.grantCommand; (repeat' split) <;> simp
@[simp] theorem grantCommand_trig (s : State) (k : Command → Bool) : (s.grantCommand k).trig = s.trig := by unfold State.grantCommand; (repeat' split) <;> simp
@[simp] theorem grantCommand_out (s : State) (k : Command → Bool) : (s.grantCommand k).out = s.out := by unfold State.grantCommand; (repeat' split) <;> simp
@[simp] theorem grantCommand_irq (s : State) (k : Command → Bool) : (s.grantCommand k).irq = s.irq := by unfold State.grantCommand; (repeat' split) <;> simp

@[simp] theorem grantTrigger_pending (s : State) (k : TriggerAction → Bool) : (s.grantTrigger k).pending = s.pending := by unfold State.grantTrigger; (repeat' split) <;> simp
@[simp] theorem grantTrigger_bus (s : State) (k : TriggerAction → Bool) : (s.grantTrigger k).bus = s.bus := by unfold State.grantTrigger; (repeat' split) <;> simp
@[simp] theorem grantTrigger_cmd (s : State) (k : TriggerAction → Bool) : (s.grantTrigger k).cmd = s.cmd := by unfold State.grantTrigger; (repeat' split) <;> simp
@[simp] theorem grantTrigger_table (s : State) (k : TriggerAction → Bool) : (s.grantTrigger k).table = s.table := by unfold State.grantTrigger; (repeat' split) <;> simp
@[simp] theorem grantTrigger_time (s : State) (k : TriggerAction → Bool) : (s.grantTrigger k).time = s.time := by unfold State.grantTrigger; (repeat' split) <;> simp
@[simp] theorem grantTrigger_notices (s : State) (k : TriggerAction → Bool) : (s.grantTrigger k).notices = s.notices := by unfold State.grantTrigger; (repeat' split) <;> simp
@[simp] theorem grantTrigger_out (s : State) (k : TriggerAction → Bool) : (s.grantTrigger k).out = s.out := by unfold State.grantTrigger; (repeat' split) <;> simp
@[simp] theorem grantTrigger_irq (s : State) (k : TriggerAction → Bool) : (s.grantTrigger k).irq = s.irq := by unfold State.grantTrigger; (repeat' split) <;> simp

@[simp] theorem setPlan_pending (s : State) (op : Operation) (p : Plan) : (s.setPlan op p).pending = s.pending := by simp [State.setPlan]
@[simp] theorem setPlan_bus (s : State) (op : Operation) (p : Plan) : (s.setPlan op p).bus = s.bus := by simp [State.setPlan]
@[simp] theorem setPlan_cmd (s : State) (op : Operation) (p : Plan) : (s.setPlan op p).cmd = s.cmd := by simp [State.setPlan]
@[simp] theorem setPlan_table (s : State) (op : Operation) (p : Plan) : (s.setPlan op p).table = s.table := by simp [State.setPlan]
@[simp] theorem setPlan_time (s : State) (op : Operation) (p : Plan) : (s.setPlan op p).time = s.time := by simp [State.setPlan]
@[simp] theorem setPlan_notices (s : State) (op : Operation) (p : Plan) : (s.setPlan op p).notices = s.notices := by simp [State.setPlan]
@[simp] theorem setPlan_trig (s : State) (op : Operation) (p : Plan) : (s.setPlan op p).trig = s.trig := by simp [State.setPlan]
@[simp] theorem setPlan_out (s : State) (op : Operation) (p : Plan) : (s.setPlan op p).out = s.out := by simp [State.setPlan]
@[simp] theorem setPlan_irq (s : State) (op : Operation) (p : Plan) : (s.setPlan op p).irq = s.irq := by simp [State.setPlan]

@[simp] theorem holdMember_pending (s : State) (n : Tick) (g : GroupIdx) (e : EntryIdx) : (s.holdMember n g e).pending = s.pending := by simp [State.holdMember]
@[simp] theorem holdMember_bus (s : State) (n : Tick) (g : GroupIdx) (e : EntryIdx) : (s.holdMember n g e).bus = s.bus := by simp [State.holdMember]
@[simp] theorem holdMember_cmd (s : State) (n : Tick) (g : GroupIdx) (e : EntryIdx) : (s.holdMember n g e).cmd = s.cmd := by simp [State.holdMember]
@[simp] theorem holdMember_time (s : State) (n : Tick) (g : GroupIdx) (e : EntryIdx) : (s.holdMember n g e).time = s.time := by simp [State.holdMember]
@[simp] theorem holdMember_notices (s : State) (n : Tick) (g : GroupIdx) (e : EntryIdx) : (s.holdMember n g e).notices = s.notices := by simp [State.holdMember]
@[simp] theorem holdMember_trig (s : State) (n : Tick) (g : GroupIdx) (e : EntryIdx) : (s.holdMember n g e).trig = s.trig := by simp [State.holdMember]
@[simp] theorem holdMember_out (s : State) (n : Tick) (g : GroupIdx) (e : EntryIdx) : (s.holdMember n g e).out = s.out := by simp [State.holdMember]
@[simp] theorem holdMember_irq (s : State) (n : Tick) (g : GroupIdx) (e : EntryIdx) : (s.holdMember n g e).irq = s.irq := by simp [State.holdMember]

@[simp] theorem resumeMember_pending (s : State) (n : Tick) (g : GroupIdx) (e : EntryIdx) : (s.resumeMember n g e).pending = s.pending := by simp [State.resumeMember]
@[simp] theorem resumeMember_bus (s : State) (n : Tick) (g : GroupIdx) (e : EntryIdx) : (s.resumeMember n g e).bus = s.bus := by simp [State.resumeMember]
@[simp] theorem resumeMember_cmd (s : State) (n : Tick) (g : GroupIdx) (e : EntryIdx) : (s.resumeMember n g e).cmd = s.cmd := by simp [State.resumeMember]
@[simp] theorem resumeMember_time (s : State) (n : Tick) (g : GroupIdx) (e : EntryIdx) : (s.resumeMember n g e).time = s.time := by simp [State.resumeMember]
@[simp] theorem resumeMember_notices (s : State) (n : Tick) (g : GroupIdx) (e : EntryIdx) : (s.resumeMember n g e).notices = s.notices := by simp [State.resumeMember]
@[simp] theorem resumeMember_trig (s : State) (n : Tick) (g : GroupIdx) (e : EntryIdx) : (s.resumeMember n g e).trig = s.trig := by simp [State.resumeMember]
@[simp] theorem resumeMember_out (s : State) (n : Tick) (g : GroupIdx) (e : EntryIdx) : (s.resumeMember n g e).out = s.out := by simp [State.resumeMember]
@[simp] theorem resumeMember_irq (s : State) (n : Tick) (g : GroupIdx) (e : EntryIdx) : (s.resumeMember n g e).irq = s.irq := by simp [State.resumeMember]

@[simp] theorem walkStep_pending (s : State) : (s.walkStep).pending = s.pending := by unfold State.walkStep; (repeat' split) <;> simp
@[simp] theorem walkStep_bus (s : State) : (s.walkStep).bus = s.bus := by unfold State.walkStep; (repeat' split) <;> simp
@[simp] theorem walkStep_cmd (s : State) : (s.walkStep).cmd = s.cmd := by unfold State.walkStep; (repeat' split) <;> simp
@[simp] theorem walkStep_time (s : State) : (s.walkStep).time = s.time := by unfold State.walkStep; (repeat' split) <;> simp
@[simp] theorem walkStep_notices (s : State) : (s.walkStep).notices = s.notices := by unfold State.walkStep; (repeat' split) <;> simp
@[simp] theorem walkStep_trig (s : State) : (s.walkStep).trig = s.trig := by unfold State.walkStep; (repeat' split) <;> simp
@[simp] theorem walkStep_out (s : State) : (s.walkStep).out = s.out := by unfold State.walkStep; (repeat' split) <;> simp
@[simp] theorem walkStep_irq (s : State) : (s.walkStep).irq = s.irq := by unfold State.walkStep; (repeat' split) <;> simp

@[simp] theorem settleEntry_pending (s : State) (e : EntryIdx) : (s.settleEntry e).pending = s.pending := by unfold State.settleEntry; (repeat' split) <;> simp
@[simp] theorem settleEntry_bus (s : State) (e : EntryIdx) : (s.settleEntry e).bus = s.bus := by unfold State.settleEntry; (repeat' split) <;> simp
@[simp] theorem settleEntry_cmd (s : State) (e : EntryIdx) : (s.settleEntry e).cmd = s.cmd := by unfold State.settleEntry; (repeat' split) <;> simp
@[simp] theorem settleEntry_time (s : State) (e : EntryIdx) : (s.settleEntry e).time = s.time := by unfold State.settleEntry; (repeat' split) <;> simp
@[simp] theorem settleEntry_engine (s : State) (e : EntryIdx) : (s.settleEntry e).engine = s.engine := by unfold State.settleEntry; (repeat' split) <;> simp
@[simp] theorem settleEntry_notices (s : State) (e : EntryIdx) : (s.settleEntry e).notices = s.notices := by unfold State.settleEntry; (repeat' split) <;> simp
@[simp] theorem settleEntry_trig (s : State) (e : EntryIdx) : (s.settleEntry e).trig = s.trig := by unfold State.settleEntry; (repeat' split) <;> simp
@[simp] theorem settleEntry_out (s : State) (e : EntryIdx) : (s.settleEntry e).out = s.out := by unfold State.settleEntry; (repeat' split) <;> simp
@[simp] theorem settleEntry_irq (s : State) (e : EntryIdx) : (s.settleEntry e).irq = s.irq := by unfold State.settleEntry; (repeat' split) <;> simp

@[simp] theorem holdStart_pending (s : State) (e : EntryIdx) (m : Tick) (r : Byte) : (s.holdStart e m r).pending = s.pending := by unfold State.holdStart; dsimp only; split <;> simp
@[simp] theorem holdStart_bus (s : State) (e : EntryIdx) (m : Tick) (r : Byte) : (s.holdStart e m r).bus = s.bus := by unfold State.holdStart; dsimp only; split <;> simp
@[simp] theorem holdStart_cmd (s : State) (e : EntryIdx) (m : Tick) (r : Byte) : (s.holdStart e m r).cmd = s.cmd := by unfold State.holdStart; dsimp only; split <;> simp
@[simp] theorem holdStart_time (s : State) (e : EntryIdx) (m : Tick) (r : Byte) : (s.holdStart e m r).time = s.time := by unfold State.holdStart; dsimp only; split <;> simp
@[simp] theorem holdStart_notices (s : State) (e : EntryIdx) (m : Tick) (r : Byte) : (s.holdStart e m r).notices = s.notices := by unfold State.holdStart; dsimp only; split <;> simp
@[simp] theorem holdStart_trig (s : State) (e : EntryIdx) (m : Tick) (r : Byte) : (s.holdStart e m r).trig = s.trig := by unfold State.holdStart; dsimp only; split <;> simp
@[simp] theorem holdStart_out (s : State) (e : EntryIdx) (m : Tick) (r : Byte) : (s.holdStart e m r).out = s.out := by unfold State.holdStart; dsimp only; split <;> simp
@[simp] theorem holdStart_irq (s : State) (e : EntryIdx) (m : Tick) (r : Byte) : (s.holdStart e m r).irq = s.irq := by unfold State.holdStart; dsimp only; split <;> simp

@[simp] theorem zeroNow_pending (s : State) (t : Timebase) : (s.zeroNow t).pending = s.pending := by simp [State.zeroNow]
@[simp] theorem zeroNow_bus (s : State) (t : Timebase) : (s.zeroNow t).bus = s.bus := by simp [State.zeroNow]
@[simp] theorem zeroNow_cmd (s : State) (t : Timebase) : (s.zeroNow t).cmd = s.cmd := by simp [State.zeroNow]
@[simp] theorem zeroNow_table (s : State) (t : Timebase) : (s.zeroNow t).table = s.table := by simp [State.zeroNow]
@[simp] theorem zeroNow_engine (s : State) (t : Timebase) : (s.zeroNow t).engine = s.engine := by simp [State.zeroNow]
@[simp] theorem zeroNow_notices (s : State) (t : Timebase) : (s.zeroNow t).notices = s.notices := by simp [State.zeroNow]
@[simp] theorem zeroNow_trig (s : State) (t : Timebase) : (s.zeroNow t).trig = s.trig := by simp [State.zeroNow]
@[simp] theorem zeroNow_out (s : State) (t : Timebase) : (s.zeroNow t).out = s.out := by simp [State.zeroNow]
@[simp] theorem zeroNow_irq (s : State) (t : Timebase) : (s.zeroNow t).irq = s.irq := by simp [State.zeroNow]

@[simp] theorem act_pending (s : State) (op : Operation) (a : Act) : (s.act op a).pending = s.pending := by cases a <;> simp [State.act]
@[simp] theorem act_bus (s : State) (op : Operation) (a : Act) : (s.act op a).bus = s.bus := by cases a <;> simp [State.act]
@[simp] theorem act_cmd (s : State) (op : Operation) (a : Act) : (s.act op a).cmd = s.cmd := by cases a <;> simp [State.act]
@[simp] theorem act_notices (s : State) (op : Operation) (a : Act) : (s.act op a).notices = s.notices := by cases a <;> simp [State.act]
@[simp] theorem act_trig (s : State) (op : Operation) (a : Act) : (s.act op a).trig = s.trig := by cases a <;> simp [State.act]
@[simp] theorem act_out (s : State) (op : Operation) (a : Act) : (s.act op a).out = s.out := by cases a <;> simp [State.act]
@[simp] theorem act_irq (s : State) (op : Operation) (a : Act) : (s.act op a).irq = s.irq := by cases a <;> simp [State.act]

@[simp] theorem acts_pending (s : State) (op : Operation) (l : List Act) : (l.foldl (fun s a => s.act op a) s).pending = s.pending := by
  induction l generalizing s with
  | nil => rfl
  | cons a l ih => simp [ih]
@[simp] theorem acts_bus (s : State) (op : Operation) (l : List Act) : (l.foldl (fun s a => s.act op a) s).bus = s.bus := by
  induction l generalizing s with
  | nil => rfl
  | cons a l ih => simp [ih]
@[simp] theorem acts_cmd (s : State) (op : Operation) (l : List Act) : (l.foldl (fun s a => s.act op a) s).cmd = s.cmd := by
  induction l generalizing s with
  | nil => rfl
  | cons a l ih => simp [ih]
@[simp] theorem acts_notices (s : State) (op : Operation) (l : List Act) : (l.foldl (fun s a => s.act op a) s).notices = s.notices := by
  induction l generalizing s with
  | nil => rfl
  | cons a l ih => simp [ih]
@[simp] theorem acts_trig (s : State) (op : Operation) (l : List Act) : (l.foldl (fun s a => s.act op a) s).trig = s.trig := by
  induction l generalizing s with
  | nil => rfl
  | cons a l ih => simp [ih]
@[simp] theorem acts_out (s : State) (op : Operation) (l : List Act) : (l.foldl (fun s a => s.act op a) s).out = s.out := by
  induction l generalizing s with
  | nil => rfl
  | cons a l ih => simp [ih]
@[simp] theorem acts_irq (s : State) (op : Operation) (l : List Act) : (l.foldl (fun s a => s.act op a) s).irq = s.irq := by
  induction l generalizing s with
  | nil => rfl
  | cons a l ih => simp [ih]

@[simp] theorem purgeRequested_pending (s : State) (e : Option EntryIdx) : (s.purgeRequested e).pending = s.pending := by cases e <;> simp [State.purgeRequested]
@[simp] theorem purgeRequested_bus (s : State) (e : Option EntryIdx) : (s.purgeRequested e).bus = s.bus := by cases e <;> simp [State.purgeRequested]
@[simp] theorem purgeRequested_cmd (s : State) (e : Option EntryIdx) : (s.purgeRequested e).cmd = s.cmd := by cases e <;> simp [State.purgeRequested]
@[simp] theorem purgeRequested_time (s : State) (e : Option EntryIdx) : (s.purgeRequested e).time = s.time := by cases e <;> simp [State.purgeRequested]
@[simp] theorem purgeRequested_engine (s : State) (e : Option EntryIdx) : (s.purgeRequested e).engine = s.engine := by cases e <;> simp [State.purgeRequested]
@[simp] theorem purgeRequested_trig (s : State) (e : Option EntryIdx) : (s.purgeRequested e).trig = s.trig := by cases e <;> simp [State.purgeRequested]
@[simp] theorem purgeRequested_out (s : State) (e : Option EntryIdx) : (s.purgeRequested e).out = s.out := by cases e <;> simp [State.purgeRequested]
@[simp] theorem purgeRequested_irq (s : State) (e : Option EntryIdx) : (s.purgeRequested e).irq = s.irq := by cases e <;> simp [State.purgeRequested]

@[simp] theorem finalStep_pending (s : State) : (s.finalStep).pending = s.pending := by unfold State.finalStep; (repeat' split) <;> simp
@[simp] theorem finalStep_bus (s : State) : (s.finalStep).bus = s.bus := by unfold State.finalStep; (repeat' split) <;> simp
@[simp] theorem finalStep_cmd (s : State) : (s.finalStep).cmd = s.cmd := by unfold State.finalStep; (repeat' split) <;> simp
@[simp] theorem finalStep_trig (s : State) : (s.finalStep).trig = s.trig := by unfold State.finalStep; (repeat' split) <;> simp
@[simp] theorem finalStep_out (s : State) : (s.finalStep).out = s.out := by unfold State.finalStep; (repeat' split) <;> simp
@[simp] theorem finalStep_irq (s : State) : (s.finalStep).irq = s.irq := by unfold State.finalStep; (repeat' split) <;> simp

@[simp] theorem handBack_pending (s : State) (c : Client) (st : Status) (v : Nat) : (s.handBack c st v).pending = s.pending := by cases c <;> simp [State.handBack]
@[simp] theorem handBack_bus (s : State) (c : Client) (st : Status) (v : Nat) : (s.handBack c st v).bus = s.bus := by cases c <;> simp [State.handBack]
@[simp] theorem handBack_table (s : State) (c : Client) (st : Status) (v : Nat) : (s.handBack c st v).table = s.table := by cases c <;> simp [State.handBack]
@[simp] theorem handBack_time (s : State) (c : Client) (st : Status) (v : Nat) : (s.handBack c st v).time = s.time := by cases c <;> simp [State.handBack]
@[simp] theorem handBack_engine (s : State) (c : Client) (st : Status) (v : Nat) : (s.handBack c st v).engine = s.engine := by cases c <;> simp [State.handBack]
@[simp] theorem handBack_notices (s : State) (c : Client) (st : Status) (v : Nat) : (s.handBack c st v).notices = s.notices := by cases c <;> simp [State.handBack]
@[simp] theorem handBack_out (s : State) (c : Client) (st : Status) (v : Nat) : (s.handBack c st v).out = s.out := by cases c <;> simp [State.handBack]
@[simp] theorem handBack_irq (s : State) (c : Client) (st : Status) (v : Nat) : (s.handBack c st v).irq = s.irq := by cases c <;> simp [State.handBack]

@[simp] theorem complete_pending (s : State) : (s.complete).pending = s.pending := by unfold State.complete; (repeat' split) <;> simp
@[simp] theorem complete_bus (s : State) : (s.complete).bus = s.bus := by unfold State.complete; (repeat' split) <;> simp
@[simp] theorem complete_table (s : State) : (s.complete).table = s.table := by unfold State.complete; (repeat' split) <;> simp
@[simp] theorem complete_time (s : State) : (s.complete).time = s.time := by unfold State.complete; (repeat' split) <;> simp
@[simp] theorem complete_notices (s : State) : (s.complete).notices = s.notices := by unfold State.complete; (repeat' split) <;> simp
@[simp] theorem complete_out (s : State) : (s.complete).out = s.out := by unfold State.complete; (repeat' split) <;> simp
@[simp] theorem complete_irq (s : State) : (s.complete).irq = s.irq := by unfold State.complete; (repeat' split) <;> simp

@[simp] theorem takePost_pending (s : State) (p : Post) : (s.takePost p).pending = s.pending := by simp [State.takePost]
@[simp] theorem takePost_bus (s : State) (p : Post) : (s.takePost p).bus = s.bus := by simp [State.takePost]
@[simp] theorem takePost_cmd (s : State) (p : Post) : (s.takePost p).cmd = s.cmd := by simp [State.takePost]
@[simp] theorem takePost_table (s : State) (p : Post) : (s.takePost p).table = s.table := by simp [State.takePost]
@[simp] theorem takePost_time (s : State) (p : Post) : (s.takePost p).time = s.time := by simp [State.takePost]
@[simp] theorem takePost_engine (s : State) (p : Post) : (s.takePost p).engine = s.engine := by simp [State.takePost]
@[simp] theorem takePost_trig (s : State) (p : Post) : (s.takePost p).trig = s.trig := by simp [State.takePost]
@[simp] theorem takePost_out (s : State) (p : Post) : (s.takePost p).out = s.out := by simp [State.takePost]
@[simp] theorem takePost_irq (s : State) (p : Post) : (s.takePost p).irq = s.irq := by simp [State.takePost]

@[simp] theorem lineOp_pending (s : State) (n : LineIdx) (o : LineOp) : (s.lineOp n o).pending = s.pending := rfl
@[simp] theorem lineOp_bus (s : State) (n : LineIdx) (o : LineOp) : (s.lineOp n o).bus = s.bus := rfl
@[simp] theorem lineOp_cmd (s : State) (n : LineIdx) (o : LineOp) : (s.lineOp n o).cmd = s.cmd := rfl
@[simp] theorem lineOp_table (s : State) (n : LineIdx) (o : LineOp) : (s.lineOp n o).table = s.table := rfl
@[simp] theorem lineOp_time (s : State) (n : LineIdx) (o : LineOp) : (s.lineOp n o).time = s.time := rfl
@[simp] theorem lineOp_engine (s : State) (n : LineIdx) (o : LineOp) : (s.lineOp n o).engine = s.engine := rfl
@[simp] theorem lineOp_notices (s : State) (n : LineIdx) (o : LineOp) : (s.lineOp n o).notices = s.notices := rfl
@[simp] theorem lineOp_trig (s : State) (n : LineIdx) (o : LineOp) : (s.lineOp n o).trig = s.trig := rfl
@[simp] theorem lineOp_irq (s : State) (n : LineIdx) (o : LineOp) : (s.lineOp n o).irq = s.irq := rfl

@[simp] theorem handLineOp_pending (s : State) : (s.handLineOp).pending = s.pending := by unfold State.handLineOp; (repeat' split) <;> simp
@[simp] theorem handLineOp_bus (s : State) : (s.handLineOp).bus = s.bus := by unfold State.handLineOp; (repeat' split) <;> simp
@[simp] theorem handLineOp_cmd (s : State) : (s.handLineOp).cmd = s.cmd := by unfold State.handLineOp; (repeat' split) <;> simp
@[simp] theorem handLineOp_table (s : State) : (s.handLineOp).table = s.table := by unfold State.handLineOp; (repeat' split) <;> simp
@[simp] theorem handLineOp_time (s : State) : (s.handLineOp).time = s.time := by unfold State.handLineOp; (repeat' split) <;> simp
@[simp] theorem handLineOp_notices (s : State) : (s.handLineOp).notices = s.notices := by unfold State.handLineOp; (repeat' split) <;> simp
@[simp] theorem handLineOp_trig (s : State) : (s.handLineOp).trig = s.trig := by unfold State.handLineOp; (repeat' split) <;> simp
@[simp] theorem handLineOp_irq (s : State) : (s.handLineOp).irq = s.irq := by unfold State.handLineOp; (repeat' split) <;> simp

@[simp] theorem handPost_pending (s : State) : (s.handPost).pending = s.pending := by unfold State.handPost; (repeat' split) <;> simp
@[simp] theorem handPost_bus (s : State) : (s.handPost).bus = s.bus := by unfold State.handPost; (repeat' split) <;> simp
@[simp] theorem handPost_cmd (s : State) : (s.handPost).cmd = s.cmd := by unfold State.handPost; (repeat' split) <;> simp
@[simp] theorem handPost_table (s : State) : (s.handPost).table = s.table := by unfold State.handPost; (repeat' split) <;> simp
@[simp] theorem handPost_time (s : State) : (s.handPost).time = s.time := by unfold State.handPost; (repeat' split) <;> simp
@[simp] theorem handPost_trig (s : State) : (s.handPost).trig = s.trig := by unfold State.handPost; (repeat' split) <;> simp
@[simp] theorem handPost_out (s : State) : (s.handPost).out = s.out := by unfold State.handPost; (repeat' split) <;> simp
@[simp] theorem handPost_irq (s : State) : (s.handPost).irq = s.irq := by unfold State.handPost; (repeat' split) <;> simp

@[simp] theorem allocate_pending (s : State) (e : EntryIdx) : (s.allocate e).pending = s.pending := by simp [State.allocate]
@[simp] theorem allocate_bus (s : State) (e : EntryIdx) : (s.allocate e).bus = s.bus := by simp [State.allocate]
@[simp] theorem allocate_cmd (s : State) (e : EntryIdx) : (s.allocate e).cmd = s.cmd := by simp [State.allocate]
@[simp] theorem allocate_time (s : State) (e : EntryIdx) : (s.allocate e).time = s.time := by simp [State.allocate]
@[simp] theorem allocate_engine (s : State) (e : EntryIdx) : (s.allocate e).engine = s.engine := by simp [State.allocate]
@[simp] theorem allocate_notices (s : State) (e : EntryIdx) : (s.allocate e).notices = s.notices := by simp [State.allocate]
@[simp] theorem allocate_trig (s : State) (e : EntryIdx) : (s.allocate e).trig = s.trig := by simp [State.allocate]
@[simp] theorem allocate_out (s : State) (e : EntryIdx) : (s.allocate e).out = s.out := by simp [State.allocate]
@[simp] theorem allocate_irq (s : State) (e : EntryIdx) : (s.allocate e).irq = s.irq := by simp [State.allocate]

@[simp] theorem grantIdle_pending (s : State) : (s.grantIdle).pending = s.pending := by unfold State.grantIdle; (repeat' split) <;> simp
@[simp] theorem grantIdle_bus (s : State) : (s.grantIdle).bus = s.bus := by unfold State.grantIdle; (repeat' split) <;> simp
@[simp] theorem grantIdle_table (s : State) : (s.grantIdle).table = s.table := by unfold State.grantIdle; (repeat' split) <;> simp
@[simp] theorem grantIdle_time (s : State) : (s.grantIdle).time = s.time := by unfold State.grantIdle; (repeat' split) <;> simp
@[simp] theorem grantIdle_notices (s : State) : (s.grantIdle).notices = s.notices := by unfold State.grantIdle; (repeat' split) <;> simp
@[simp] theorem grantIdle_out (s : State) : (s.grantIdle).out = s.out := by unfold State.grantIdle; (repeat' split) <;> simp
@[simp] theorem grantIdle_irq (s : State) : (s.grantIdle).irq = s.irq := by unfold State.grantIdle; (repeat' split) <;> simp

@[simp] theorem countEvent_pending (s : State) (t : Timebase) : (s.countEvent t).pending = s.pending := by unfold State.countEvent; (repeat' split) <;> simp
@[simp] theorem countEvent_bus (s : State) (t : Timebase) : (s.countEvent t).bus = s.bus := by unfold State.countEvent; (repeat' split) <;> simp
@[simp] theorem countEvent_cmd (s : State) (t : Timebase) : (s.countEvent t).cmd = s.cmd := by unfold State.countEvent; (repeat' split) <;> simp
@[simp] theorem countEvent_table (s : State) (t : Timebase) : (s.countEvent t).table = s.table := by unfold State.countEvent; (repeat' split) <;> simp
@[simp] theorem countEvent_engine (s : State) (t : Timebase) : (s.countEvent t).engine = s.engine := by unfold State.countEvent; (repeat' split) <;> simp
@[simp] theorem countEvent_notices (s : State) (t : Timebase) : (s.countEvent t).notices = s.notices := by unfold State.countEvent; (repeat' split) <;> simp
@[simp] theorem countEvent_trig (s : State) (t : Timebase) : (s.countEvent t).trig = s.trig := by unfold State.countEvent; (repeat' split) <;> simp
@[simp] theorem countEvent_out (s : State) (t : Timebase) : (s.countEvent t).out = s.out := by unfold State.countEvent; (repeat' split) <;> simp
@[simp] theorem countEvent_irq (s : State) (t : Timebase) : (s.countEvent t).irq = s.irq := by unfold State.countEvent; (repeat' split) <;> simp

@[simp] theorem clkPeriod_pending (s : State) : (s.clkPeriod).pending = s.pending := by unfold State.clkPeriod; dsimp only; split <;> simp
@[simp] theorem clkPeriod_bus (s : State) : (s.clkPeriod).bus = s.bus := by unfold State.clkPeriod; dsimp only; split <;> simp
@[simp] theorem clkPeriod_cmd (s : State) : (s.clkPeriod).cmd = s.cmd := by unfold State.clkPeriod; dsimp only; split <;> simp
@[simp] theorem clkPeriod_table (s : State) : (s.clkPeriod).table = s.table := by unfold State.clkPeriod; dsimp only; split <;> simp
@[simp] theorem clkPeriod_notices (s : State) : (s.clkPeriod).notices = s.notices := by unfold State.clkPeriod; dsimp only; split <;> simp
@[simp] theorem clkPeriod_trig (s : State) : (s.clkPeriod).trig = s.trig := by unfold State.clkPeriod; dsimp only; split <;> simp
@[simp] theorem clkPeriod_out (s : State) : (s.clkPeriod).out = s.out := by unfold State.clkPeriod; dsimp only; split <;> simp
@[simp] theorem clkPeriod_irq (s : State) : (s.clkPeriod).irq = s.irq := by unfold State.clkPeriod; dsimp only; split <;> simp

@[simp] theorem tkiChange_pending (s : State) : (s.tkiChange).pending = s.pending := by unfold State.tkiChange; dsimp only; split <;> simp
@[simp] theorem tkiChange_bus (s : State) : (s.tkiChange).bus = s.bus := by unfold State.tkiChange; dsimp only; split <;> simp
@[simp] theorem tkiChange_cmd (s : State) : (s.tkiChange).cmd = s.cmd := by unfold State.tkiChange; dsimp only; split <;> simp
@[simp] theorem tkiChange_table (s : State) : (s.tkiChange).table = s.table := by unfold State.tkiChange; dsimp only; split <;> simp
@[simp] theorem tkiChange_engine (s : State) : (s.tkiChange).engine = s.engine := by unfold State.tkiChange; dsimp only; split <;> simp
@[simp] theorem tkiChange_notices (s : State) : (s.tkiChange).notices = s.notices := by unfold State.tkiChange; dsimp only; split <;> simp
@[simp] theorem tkiChange_trig (s : State) : (s.tkiChange).trig = s.trig := by unfold State.tkiChange; dsimp only; split <;> simp
@[simp] theorem tkiChange_out (s : State) : (s.tkiChange).out = s.out := by unfold State.tkiChange; dsimp only; split <;> simp
@[simp] theorem tkiChange_irq (s : State) : (s.tkiChange).irq = s.irq := by unfold State.tkiChange; dsimp only; split <;> simp

@[simp] theorem triggerChange_pending (s : State) (l : TrigIdx) : (s.triggerChange l).pending = s.pending := by simp [State.triggerChange]
@[simp] theorem triggerChange_bus (s : State) (l : TrigIdx) : (s.triggerChange l).bus = s.bus := by simp [State.triggerChange]
@[simp] theorem triggerChange_cmd (s : State) (l : TrigIdx) : (s.triggerChange l).cmd = s.cmd := by simp [State.triggerChange]
@[simp] theorem triggerChange_table (s : State) (l : TrigIdx) : (s.triggerChange l).table = s.table := by simp [State.triggerChange]
@[simp] theorem triggerChange_time (s : State) (l : TrigIdx) : (s.triggerChange l).time = s.time := by simp [State.triggerChange]
@[simp] theorem triggerChange_engine (s : State) (l : TrigIdx) : (s.triggerChange l).engine = s.engine := by simp [State.triggerChange]
@[simp] theorem triggerChange_notices (s : State) (l : TrigIdx) : (s.triggerChange l).notices = s.notices := by simp [State.triggerChange]
@[simp] theorem triggerChange_out (s : State) (l : TrigIdx) : (s.triggerChange l).out = s.out := by simp [State.triggerChange]
@[simp] theorem triggerChange_irq (s : State) (l : TrigIdx) : (s.triggerChange l).irq = s.irq := by simp [State.triggerChange]

@[simp] theorem writeCmd_pending (s : State) (b : Byte) : (s.writeCmd b).pending = s.pending := by unfold State.writeCmd; split <;> simp
@[simp] theorem writeCmd_bus (s : State) (b : Byte) : (s.writeCmd b).bus = s.bus := by unfold State.writeCmd; split <;> simp
@[simp] theorem writeCmd_table (s : State) (b : Byte) : (s.writeCmd b).table = s.table := by unfold State.writeCmd; split <;> simp
@[simp] theorem writeCmd_time (s : State) (b : Byte) : (s.writeCmd b).time = s.time := by unfold State.writeCmd; split <;> simp
@[simp] theorem writeCmd_engine (s : State) (b : Byte) : (s.writeCmd b).engine = s.engine := by unfold State.writeCmd; split <;> simp
@[simp] theorem writeCmd_notices (s : State) (b : Byte) : (s.writeCmd b).notices = s.notices := by unfold State.writeCmd; split <;> simp
@[simp] theorem writeCmd_trig (s : State) (b : Byte) : (s.writeCmd b).trig = s.trig := by unfold State.writeCmd; split <;> simp
@[simp] theorem writeCmd_out (s : State) (b : Byte) : (s.writeCmd b).out = s.out := by unfold State.writeCmd; split <;> simp

@[simp] theorem writeParam_pending (s : State) (b : Byte) : (s.writeParam b).pending = s.pending := rfl
@[simp] theorem writeParam_bus (s : State) (b : Byte) : (s.writeParam b).bus = s.bus := rfl
@[simp] theorem writeParam_table (s : State) (b : Byte) : (s.writeParam b).table = s.table := rfl
@[simp] theorem writeParam_time (s : State) (b : Byte) : (s.writeParam b).time = s.time := rfl
@[simp] theorem writeParam_engine (s : State) (b : Byte) : (s.writeParam b).engine = s.engine := rfl
@[simp] theorem writeParam_notices (s : State) (b : Byte) : (s.writeParam b).notices = s.notices := rfl
@[simp] theorem writeParam_trig (s : State) (b : Byte) : (s.writeParam b).trig = s.trig := rfl
@[simp] theorem writeParam_out (s : State) (b : Byte) : (s.writeParam b).out = s.out := rfl
@[simp] theorem writeParam_irq (s : State) (b : Byte) : (s.writeParam b).irq = s.irq := rfl

@[simp] theorem readParam_pending (s : State) : (s.readParam).pending = s.pending := rfl
@[simp] theorem readParam_table (s : State) : (s.readParam).table = s.table := rfl
@[simp] theorem readParam_time (s : State) : (s.readParam).time = s.time := rfl
@[simp] theorem readParam_engine (s : State) : (s.readParam).engine = s.engine := rfl
@[simp] theorem readParam_notices (s : State) : (s.readParam).notices = s.notices := rfl
@[simp] theorem readParam_trig (s : State) : (s.readParam).trig = s.trig := rfl
@[simp] theorem readParam_out (s : State) : (s.readParam).out = s.out := rfl
@[simp] theorem readParam_irq (s : State) : (s.readParam).irq = s.irq := rfl

@[simp] theorem writePptr_pending (s : State) (b : Byte) : (s.writePptr b).pending = s.pending := by unfold State.writePptr; split <;> simp
@[simp] theorem writePptr_table (s : State) (b : Byte) : (s.writePptr b).table = s.table := by unfold State.writePptr; split <;> simp
@[simp] theorem writePptr_time (s : State) (b : Byte) : (s.writePptr b).time = s.time := by unfold State.writePptr; split <;> simp
@[simp] theorem writePptr_engine (s : State) (b : Byte) : (s.writePptr b).engine = s.engine := by unfold State.writePptr; split <;> simp
@[simp] theorem writePptr_notices (s : State) (b : Byte) : (s.writePptr b).notices = s.notices := by unfold State.writePptr; split <;> simp
@[simp] theorem writePptr_trig (s : State) (b : Byte) : (s.writePptr b).trig = s.trig := by unfold State.writePptr; split <;> simp
@[simp] theorem writePptr_out (s : State) (b : Byte) : (s.writePptr b).out = s.out := by unfold State.writePptr; split <;> simp
@[simp] theorem writePptr_irq (s : State) (b : Byte) : (s.writePptr b).irq = s.irq := by unfold State.writePptr; split <;> simp

@[simp] theorem readResult_pending (s : State) : (s.readResult).pending = s.pending := rfl
@[simp] theorem readResult_table (s : State) : (s.readResult).table = s.table := rfl
@[simp] theorem readResult_time (s : State) : (s.readResult).time = s.time := rfl
@[simp] theorem readResult_engine (s : State) : (s.readResult).engine = s.engine := rfl
@[simp] theorem readResult_notices (s : State) : (s.readResult).notices = s.notices := rfl
@[simp] theorem readResult_trig (s : State) : (s.readResult).trig = s.trig := rfl
@[simp] theorem readResult_out (s : State) : (s.readResult).out = s.out := rfl
@[simp] theorem readResult_irq (s : State) : (s.readResult).irq = s.irq := rfl

@[simp] theorem popResult_pending (s : State) : (s.popResult).pending = s.pending := by unfold State.popResult; split <;> simp
@[simp] theorem popResult_table (s : State) : (s.popResult).table = s.table := by unfold State.popResult; split <;> simp
@[simp] theorem popResult_time (s : State) : (s.popResult).time = s.time := by unfold State.popResult; split <;> simp
@[simp] theorem popResult_engine (s : State) : (s.popResult).engine = s.engine := by unfold State.popResult; split <;> simp
@[simp] theorem popResult_notices (s : State) : (s.popResult).notices = s.notices := by unfold State.popResult; split <;> simp
@[simp] theorem popResult_trig (s : State) : (s.popResult).trig = s.trig := by unfold State.popResult; split <;> simp
@[simp] theorem popResult_out (s : State) : (s.popResult).out = s.out := by unfold State.popResult; split <;> simp
@[simp] theorem popResult_irq (s : State) : (s.popResult).irq = s.irq := by unfold State.popResult; split <;> simp

@[simp] theorem readNotice_pending (s : State) (q : QueueId) : (s.readNotice q).pending = s.pending := by simp [State.readNotice]
@[simp] theorem readNotice_cmd (s : State) (q : QueueId) : (s.readNotice q).cmd = s.cmd := by simp [State.readNotice]
@[simp] theorem readNotice_table (s : State) (q : QueueId) : (s.readNotice q).table = s.table := by simp [State.readNotice]
@[simp] theorem readNotice_time (s : State) (q : QueueId) : (s.readNotice q).time = s.time := by simp [State.readNotice]
@[simp] theorem readNotice_engine (s : State) (q : QueueId) : (s.readNotice q).engine = s.engine := by simp [State.readNotice]
@[simp] theorem readNotice_trig (s : State) (q : QueueId) : (s.readNotice q).trig = s.trig := by simp [State.readNotice]
@[simp] theorem readNotice_out (s : State) (q : QueueId) : (s.readNotice q).out = s.out := by simp [State.readNotice]
@[simp] theorem readNotice_irq (s : State) (q : QueueId) : (s.readNotice q).irq = s.irq := by simp [State.readNotice]

@[simp] theorem writeVsel_pending (s : State) (b : Byte) : (s.writeVsel b).pending = s.pending := by unfold State.writeVsel; split <;> simp
@[simp] theorem writeVsel_cmd (s : State) (b : Byte) : (s.writeVsel b).cmd = s.cmd := by unfold State.writeVsel; split <;> simp
@[simp] theorem writeVsel_table (s : State) (b : Byte) : (s.writeVsel b).table = s.table := by unfold State.writeVsel; split <;> simp
@[simp] theorem writeVsel_time (s : State) (b : Byte) : (s.writeVsel b).time = s.time := by unfold State.writeVsel; split <;> simp
@[simp] theorem writeVsel_engine (s : State) (b : Byte) : (s.writeVsel b).engine = s.engine := by unfold State.writeVsel; split <;> simp
@[simp] theorem writeVsel_notices (s : State) (b : Byte) : (s.writeVsel b).notices = s.notices := by unfold State.writeVsel; split <;> simp
@[simp] theorem writeVsel_trig (s : State) (b : Byte) : (s.writeVsel b).trig = s.trig := by unfold State.writeVsel; split <;> simp
@[simp] theorem writeVsel_out (s : State) (b : Byte) : (s.writeVsel b).out = s.out := by unfold State.writeVsel; split <;> simp
@[simp] theorem writeVsel_irq (s : State) (b : Byte) : (s.writeVsel b).irq = s.irq := by unfold State.writeVsel; split <;> simp

@[simp] theorem readView_pending (s : State) : (s.readView).pending = s.pending := rfl
@[simp] theorem readView_cmd (s : State) : (s.readView).cmd = s.cmd := rfl
@[simp] theorem readView_table (s : State) : (s.readView).table = s.table := rfl
@[simp] theorem readView_time (s : State) : (s.readView).time = s.time := rfl
@[simp] theorem readView_engine (s : State) : (s.readView).engine = s.engine := rfl
@[simp] theorem readView_notices (s : State) : (s.readView).notices = s.notices := rfl
@[simp] theorem readView_trig (s : State) : (s.readView).trig = s.trig := rfl
@[simp] theorem readView_out (s : State) : (s.readView).out = s.out := rfl
@[simp] theorem readView_irq (s : State) : (s.readView).irq = s.irq := rfl

@[simp] theorem writeNsel_pending (s : State) (b : Byte) : (s.writeNsel b).pending = s.pending := rfl
@[simp] theorem writeNsel_cmd (s : State) (b : Byte) : (s.writeNsel b).cmd = s.cmd := rfl
@[simp] theorem writeNsel_table (s : State) (b : Byte) : (s.writeNsel b).table = s.table := rfl
@[simp] theorem writeNsel_time (s : State) (b : Byte) : (s.writeNsel b).time = s.time := rfl
@[simp] theorem writeNsel_engine (s : State) (b : Byte) : (s.writeNsel b).engine = s.engine := rfl
@[simp] theorem writeNsel_notices (s : State) (b : Byte) : (s.writeNsel b).notices = s.notices := rfl
@[simp] theorem writeNsel_trig (s : State) (b : Byte) : (s.writeNsel b).trig = s.trig := rfl
@[simp] theorem writeNsel_out (s : State) (b : Byte) : (s.writeNsel b).out = s.out := rfl
@[simp] theorem writeNsel_irq (s : State) (b : Byte) : (s.writeNsel b).irq = s.irq := rfl

@[simp] theorem readNow_pending (s : State) : (s.readNow).pending = s.pending := rfl
@[simp] theorem readNow_cmd (s : State) : (s.readNow).cmd = s.cmd := rfl
@[simp] theorem readNow_table (s : State) : (s.readNow).table = s.table := rfl
@[simp] theorem readNow_time (s : State) : (s.readNow).time = s.time := rfl
@[simp] theorem readNow_engine (s : State) : (s.readNow).engine = s.engine := rfl
@[simp] theorem readNow_notices (s : State) : (s.readNow).notices = s.notices := rfl
@[simp] theorem readNow_trig (s : State) : (s.readNow).trig = s.trig := rfl
@[simp] theorem readNow_out (s : State) : (s.readNow).out = s.out := rfl
@[simp] theorem readNow_irq (s : State) : (s.readNow).irq = s.irq := rfl

@[simp] theorem writeIclr_pending (s : State) (b : Byte) : (s.writeIclr b).pending = s.pending := by unfold State.writeIclr; split <;> simp
@[simp] theorem writeIclr_bus (s : State) (b : Byte) : (s.writeIclr b).bus = s.bus := by unfold State.writeIclr; split <;> simp
@[simp] theorem writeIclr_cmd (s : State) (b : Byte) : (s.writeIclr b).cmd = s.cmd := by unfold State.writeIclr; split <;> simp
@[simp] theorem writeIclr_table (s : State) (b : Byte) : (s.writeIclr b).table = s.table := by unfold State.writeIclr; split <;> simp
@[simp] theorem writeIclr_time (s : State) (b : Byte) : (s.writeIclr b).time = s.time := by unfold State.writeIclr; split <;> simp
@[simp] theorem writeIclr_engine (s : State) (b : Byte) : (s.writeIclr b).engine = s.engine := by unfold State.writeIclr; split <;> simp
@[simp] theorem writeIclr_notices (s : State) (b : Byte) : (s.writeIclr b).notices = s.notices := by unfold State.writeIclr; split <;> simp
@[simp] theorem writeIclr_trig (s : State) (b : Byte) : (s.writeIclr b).trig = s.trig := by unfold State.writeIclr; split <;> simp
@[simp] theorem writeIclr_out (s : State) (b : Byte) : (s.writeIclr b).out = s.out := by unfold State.writeIclr; split <;> simp

@[simp] theorem writeIen_pending (s : State) (b : Byte) : (s.writeIen b).pending = s.pending := rfl
@[simp] theorem writeIen_bus (s : State) (b : Byte) : (s.writeIen b).bus = s.bus := rfl
@[simp] theorem writeIen_cmd (s : State) (b : Byte) : (s.writeIen b).cmd = s.cmd := rfl
@[simp] theorem writeIen_table (s : State) (b : Byte) : (s.writeIen b).table = s.table := rfl
@[simp] theorem writeIen_time (s : State) (b : Byte) : (s.writeIen b).time = s.time := rfl
@[simp] theorem writeIen_engine (s : State) (b : Byte) : (s.writeIen b).engine = s.engine := rfl
@[simp] theorem writeIen_notices (s : State) (b : Byte) : (s.writeIen b).notices = s.notices := rfl
@[simp] theorem writeIen_trig (s : State) (b : Byte) : (s.writeIen b).trig = s.trig := rfl
@[simp] theorem writeIen_out (s : State) (b : Byte) : (s.writeIen b).out = s.out := rfl

@[simp] theorem clearTriggerFlags_pending (s : State) (b : Byte) : (s.clearTriggerFlags b).pending = s.pending := rfl
@[simp] theorem clearTriggerFlags_bus (s : State) (b : Byte) : (s.clearTriggerFlags b).bus = s.bus := rfl
@[simp] theorem clearTriggerFlags_cmd (s : State) (b : Byte) : (s.clearTriggerFlags b).cmd = s.cmd := rfl
@[simp] theorem clearTriggerFlags_table (s : State) (b : Byte) : (s.clearTriggerFlags b).table = s.table := rfl
@[simp] theorem clearTriggerFlags_time (s : State) (b : Byte) : (s.clearTriggerFlags b).time = s.time := rfl
@[simp] theorem clearTriggerFlags_engine (s : State) (b : Byte) : (s.clearTriggerFlags b).engine = s.engine := rfl
@[simp] theorem clearTriggerFlags_notices (s : State) (b : Byte) : (s.clearTriggerFlags b).notices = s.notices := rfl
@[simp] theorem clearTriggerFlags_out (s : State) (b : Byte) : (s.clearTriggerFlags b).out = s.out := rfl
@[simp] theorem clearTriggerFlags_irq (s : State) (b : Byte) : (s.clearTriggerFlags b).irq = s.irq := rfl

@[simp] theorem setEnables_pending (s : State) (b : Byte) : (s.setEnables b).pending = s.pending := rfl
@[simp] theorem setEnables_bus (s : State) (b : Byte) : (s.setEnables b).bus = s.bus := rfl
@[simp] theorem setEnables_cmd (s : State) (b : Byte) : (s.setEnables b).cmd = s.cmd := rfl
@[simp] theorem setEnables_table (s : State) (b : Byte) : (s.setEnables b).table = s.table := rfl
@[simp] theorem setEnables_time (s : State) (b : Byte) : (s.setEnables b).time = s.time := rfl
@[simp] theorem setEnables_engine (s : State) (b : Byte) : (s.setEnables b).engine = s.engine := rfl
@[simp] theorem setEnables_notices (s : State) (b : Byte) : (s.setEnables b).notices = s.notices := rfl
@[simp] theorem setEnables_trig (s : State) (b : Byte) : (s.setEnables b).trig = s.trig := rfl

@[simp] theorem discardCommands_pending (s : State) : (s.discardCommands).pending = s.pending := rfl
@[simp] theorem discardCommands_bus (s : State) : (s.discardCommands).bus = s.bus := rfl
@[simp] theorem discardCommands_table (s : State) : (s.discardCommands).table = s.table := rfl
@[simp] theorem discardCommands_time (s : State) : (s.discardCommands).time = s.time := rfl
@[simp] theorem discardCommands_engine (s : State) : (s.discardCommands).engine = s.engine := rfl
@[simp] theorem discardCommands_notices (s : State) : (s.discardCommands).notices = s.notices := rfl
@[simp] theorem discardCommands_trig (s : State) : (s.discardCommands).trig = s.trig := rfl
@[simp] theorem discardCommands_out (s : State) : (s.discardCommands).out = s.out := rfl
@[simp] theorem discardCommands_irq (s : State) : (s.discardCommands).irq = s.irq := rfl

@[simp] theorem clearWm_pending (s : State) : (s.clearWm).pending = s.pending := rfl
@[simp] theorem clearWm_cmd (s : State) : (s.clearWm).cmd = s.cmd := rfl
@[simp] theorem clearWm_table (s : State) : (s.clearWm).table = s.table := rfl
@[simp] theorem clearWm_time (s : State) : (s.clearWm).time = s.time := rfl
@[simp] theorem clearWm_engine (s : State) : (s.clearWm).engine = s.engine := rfl
@[simp] theorem clearWm_notices (s : State) : (s.clearWm).notices = s.notices := rfl
@[simp] theorem clearWm_trig (s : State) : (s.clearWm).trig = s.trig := rfl
@[simp] theorem clearWm_out (s : State) : (s.clearWm).out = s.out := rfl
@[simp] theorem clearWm_irq (s : State) : (s.clearWm).irq = s.irq := rfl

end Sys2Proof.Machine
end

