-- ==== Sys2Proof/Laws/Step.lean ====
section
/-!
SUPPORT. Everything a step can do, said once: a property that every shared operation keeps is kept by `settle`, by
every row and by `step`.
-/
namespace Sys2Proof.Machine

/-- No operation is in flight, so a grant may come. -/
def State.Open (s : State) : Prop := ∀ op, s.engine.activity ≠ .busy op

/-- Every due step before a grant keeps `P`. -/
structure DueKeeps (P : State → Prop) : Prop where
  report : ∀ s e, P s → P (s.takeWaitingReport e)
  standing : ∀ s q, P s → P (s.takeStanding q)
  nop : ∀ s, P s → P s.answerNop
  owner : ∀ s k, P s → P (s.ownerStep k)
  decide : ∀ s, s.engine.activity = .deciding → P s → P s.decideGrant

/-- Every grant keeps `P`. -/
structure GrantKeeps (P : State → Prop) : Prop where
  service : ∀ s, s.Open → P s → P s.grantService
  command : ∀ s k, s.Open → P s → P (s.grantCommand k)
  trigger : ∀ s k, s.Open → P s → P (s.grantTrigger k)

/-- Every step of an operation in flight keeps `P`. -/
structure EngineKeeps (P : State → Prop) : Prop where
  lineOp : ∀ s, P s → P s.handLineOp
  post : ∀ s, P s → P s.handPost
  walk : ∀ s, P s → P s.walkStep
  final : ∀ s, P s → P s.finalStep
  complete : ∀ s, P s → P s.complete

/-- Every window access keeps `P`. -/
structure WindowKeeps (P : State → Prop) : Prop where
  cmd : ∀ s b, P s → P (s.writeCmd b)
  writeParam : ∀ s b, P s → P (s.writeParam b)
  readParam : ∀ s, P s → P s.readParam
  pptr : ∀ s b, P s → P (s.writePptr b)
  readResult : ∀ s, P s → P s.readResult
  popResult : ∀ s, P s → P s.popResult
  readNotice : ∀ s q, P s → P (s.readNotice q)
  popNotice : ∀ s q i, P s → P (s.popNotice q i)
  vsel : ∀ s b, P s → P (s.writeVsel b)
  view : ∀ s, P s → P s.readView
  nsel : ∀ s b, P s → P (s.writeNsel b)
  now : ∀ s, P s → P s.readNow
  iclr : ∀ s b, P s → P (s.writeIclr b)
  ien : ∀ s b, P s → P (s.writeIen b)
  outop : ∀ s n o, P s → P (s.lineOp n o)
  misuse : ∀ s, P s → P s.misuse
  flags : ∀ s b, P s → P (s.clearTriggerFlags b)
  enables : ∀ s b, P s → P (s.setEnables b)
  clear : ∀ s, P s → P s.clear
  discard : ∀ s, P s → P s.discardCommands
  clearWm : ∀ s, P s → P s.clearWm

/-- Every event of the input pins keeps `P`. -/
structure PinKeeps (P : State → Prop) : Prop where
  clk : ∀ s, P s → P s.clkPeriod
  tki : ∀ s, P s → P s.tkiChange
  trigger : ∀ s l, P s → P (s.triggerChange l)
  reset : ∀ tki trg q, P { State.resetWith tki trg with pending := q }

/-- Every step of the part keeps `P`, and `P` does not look at the queue of steps. -/
structure Keeps (P : State → Prop) : Prop where
  due : DueKeeps P
  grant : GrantKeeps P
  engine : EngineKeeps P
  window : WindowKeeps P
  pin : PinKeeps P
  pending : ∀ s q, P s → P { s with pending := q }

/-! ## Due steps -/

theorem dueStep_keeps {P : State → Prop} (h : DueKeeps P) {s t : State} (hs : P s) (e : s.dueStep = some t) :
    P t := by
  unfold State.dueStep at e
  split at e
  · rw [← Option.some.inj e]; exact h.report _ _ hs
  · split at e
    · rw [← Option.some.inj e]; exact h.standing _ _ hs
    · split at e
      · rw [← Option.some.inj e]; exact h.standing _ _ hs
      · split at e
        · rw [← Option.some.inj e]; exact h.nop _ hs
        · split at e
          · rw [← Option.some.inj e]; exact h.owner _ _ hs
          · split at e
            · rename_i ha; rw [← Option.some.inj e]; exact h.decide _ ha hs
            all_goals cases e

theorem takeDue_keeps {P : State → Prop} (h : DueKeeps P) (n : Nat) {s : State} (hs : P s) : P (s.takeDue n) := by
  induction n generalizing s with
  | zero => exact hs
  | succ n ih =>
    unfold State.takeDue
    split
    · exact hs
    · rename_i t e; exact ih (dueStep_keeps h hs e)

theorem beforeGrant_keeps {P : State → Prop} (h : DueKeeps P) {s : State} (hs : P s) : P s.beforeGrant :=
  takeDue_keeps h _ hs

theorem open_of_idle {s : State} (h : s.engine.activity = .idle) : s.Open := by
  intro op e; rw [h] at e; cases e

theorem open_of_offers {s : State} {r : Requester} (h : s.offers r = true) : s.Open := by
  intro op e; simp [State.offers, e] at h

theorem grantIdle_keeps {P : State → Prop} (h : GrantKeeps P) {s : State} (hs : P s) : P s.grantIdle := by
  unfold State.grantIdle
  split
  · rename_i ha
    have ho := open_of_idle ha
    split
    · exact h.service _ ho hs
    · exact h.command _ _ ho hs
    · exact h.trigger _ _ ho hs
    · exact hs
  all_goals exact hs

theorem settle_keeps {P : State → Prop} (hd : DueKeeps P) (hg : GrantKeeps P) {s : State} (hs : P s) :
    P s.settle := grantIdle_keeps hg (beforeGrant_keeps hd hs)

/-! ## Rows -/

theorem commandGrant_keeps {P : State → Prop} (hd : DueKeeps P) (hg : GrantKeeps P) {s : State} (hs : P s)
    (k : Command → Bool) : P (s.commandGrant k) := by
  have h1 := beforeGrant_keeps hd hs
  unfold State.commandGrant
  split
  · rename_i h; exact hg.command _ _ (open_of_offers h) h1
  · exact h1

theorem triggerGrant_keeps {P : State → Prop} (hd : DueKeeps P) (hg : GrantKeeps P) {s : State} (hs : P s)
    (k : TriggerAction → Bool) : P (s.triggerGrant k) := by
  have h1 := beforeGrant_keeps hd hs
  unfold State.triggerGrant
  split
  · rename_i h; exact hg.trigger _ _ (open_of_offers h) h1
  · exact h1

theorem expiryGrant_keeps {P : State → Prop} (hd : DueKeeps P) (hg : GrantKeeps P) {s : State} (hs : P s) :
    P s.expiryGrant := by
  have h1 := beforeGrant_keeps hd hs
  unfold State.expiryGrant
  split
  · rename_i h; exact hg.service _ (open_of_offers h) h1
  · exact h1

theorem writeGctrl_keeps {P : State → Prop} (h : WindowKeeps P) {s : State} (hs : P s) (b : Byte) :
    P (s.writeGctrl b) := by
  have h1 := h.enables s b hs
  unfold State.writeGctrl
  dsimp only
  (repeat' split)
  · exact h.clear _ h1
  · exact h.clearWm _ (h.discard _ h1)
  · exact h.clearWm _ h1
  · exact h.discard _ h1
  · exact h1

theorem tick_keeps {P : State → Prop} (h : PinKeeps P) {s : State} (hs : P s) (t : Timebase) : P (s.tick t) := by
  cases t
  · simp only [State.tick]; split
    · exact h.clk _ hs
    · exact hs
  · simp only [State.tick]; split
    · exact h.tki _ hs
    · exact hs

/-- A row answers a next state that keeps what every step of the part keeps. -/
theorem exec_keeps {P : State → Prop} (h : Keeps P) (i : Instr) {s t : State} (hs : P s)
    (e : exec i s = .next t) : P t := by
  have hS : P s.settle := settle_keeps h.due h.grant hs
  cases i <;> (rw [exec] at e; cases e)
  case hardwareReset => exact h.pin.reset _ _ _
  case tkiEdge => exact h.pin.tki _ hS
  case tick => exact tick_keeps h.pin hS _
  case triggerEdge => exact h.pin.trigger _ _ hS
  case cmd => exact h.window.cmd _ _ hS
  case nop => exact h.due.nop _ hs
  case alloc | setupTiming | setupBehavior | retune | setDivider | start | stop | clearFault | queueConfig
    | flushQueue | bindTrigger => exact h.due.owner _ _ hs
  case arm | armAt | cancel | free | hold | resume | clearNow => exact commandGrant_keeps h.due h.grant hs _
  case service => exact expiryGrant_keeps h.due h.grant hs
  case triggerArm | triggerCancel | triggerHold | triggerResume => exact triggerGrant_keeps h.due h.grant hs _
  case lineOperation => exact h.engine.lineOp _ hS
  case post => exact h.engine.post _ hS
  case walkMemberStep => exact h.engine.walk _ hS
  case finalStep => exact h.engine.final _ hS
  case operationCompletion => exact h.engine.complete _ hS
  case releaseReport => exact h.due.report _ _ hs
  case paramWrite => exact h.window.writeParam _ _ hS
  case paramRead => exact h.window.readParam _ hS
  case pptrWrite => exact h.window.pptr _ _ hS
  case resultRead => exact h.window.readResult _ hS
  case resultPop => exact h.window.popResult _ hS
  case noticeRead => exact h.window.readNotice _ _ hS
  case noticePop => exact h.window.popNotice _ _ _ hS
  case standingPop => exact h.due.standing _ _ hs
  case vselWrite => exact h.window.vsel _ _ hS
  case viewRead => exact h.window.view _ hS
  case nselWrite => exact h.window.nsel _ _ hS
  case nowRead => exact h.window.now _ hS
  case iclrWrite => exact h.window.iclr _ _ hS
  case ienWrite => exact h.window.ien _ _ hS
  case outopSet | outopClear | outopToggle => exact h.window.outop _ _ _ hS
  case outopFourthEncoding | refusedWindowWrite => exact h.window.misuse _ hS
  case triggerFlagClear => exact h.window.flags _ _ hS
  case outputEnable | masterEnable | discard | schedulerClear | wmClear => exact writeGctrl_keeps h.window hS _
  case clkPeriod => exact h.pin.clk _ hS

/-- A step keeps what every step of the part keeps. -/
theorem step_keeps {P : State → Prop} (h : Keeps P) {s t : State} (hs : P s) (e : step s = .next t) : P t := by
  unfold step at e
  split at e
  · cases e; exact hs
  · exact exec_keeps h _ (h.pending _ _ hs) e

end Sys2Proof.Machine
end

