-- ==== Sys2Proof/Laws/Settle.lean ====
section
/-!
SUPPORT. `settle` takes every step that belongs to the event before: after it none is due, and on a state where none is
due it changes nothing.
-/
namespace Sys2Proof.Machine

/-! ## Settled states -/

theorem takeDue_of_none {s : State} (h : s.dueStep = none) (n : Nat) : s.takeDue n = s := by
  cases n <;> simp [State.takeDue, h]

theorem beforeGrant_of_none {s : State} (h : s.dueStep = none) : s.beforeGrant = s := takeDue_of_none h _

theorem dueStep_of_settled {s : State} (h : s.settled = true) : s.dueStep = none := by
  simp only [State.settled, Bool.and_eq_true, Option.isNone_iff_eq_none] at h
  exact h.1

/-- On a settled state nothing is left to take. -/
theorem settle_of_settled {s : State} (h : s.settled = true) : s.settle = s := by
  have hd := dueStep_of_settled h
  simp only [State.settled, Bool.and_eq_true] at h
  unfold State.settle
  rw [beforeGrant_of_none hd]
  unfold State.grantIdle
  split
  · rename_i ha
    have h2 := h.2
    simp only [ha, Option.isNone_iff_eq_none] at h2
    simp [h2]
  all_goals rfl

/-! ## Taking the queue of commands -/

/-- Commands that stand between acceptance and their result. -/
def State.waitingCommands (s : State) : Nat := s.cmd.queue.length + s.cmd.execution.toList.length

theorem takeFrom_waiting (q : List QueuedCommand) (s : State) :
    (takeFrom q s).waitingCommands ≤ q.length + s.cmd.execution.toList.length := by
  induction q generalizing s with
  | nil => simp [takeFrom, State.waitingCommands]
  | cons c rest ih =>
    unfold takeFrom
    split
    · rename_i hc
      split
      · rename_i st _
        have h := ih (s.addResult c st c.failValue)
        simp only [List.length_cons]
        exact Nat.le_trans h (by simp [State.addResult])
      · rename_i hq
        simp only [State.canTake, Bool.and_eq_true, Option.isNone_iff_eq_none] at hc
        simp [State.waitingCommands, hc.1]
    · simp [State.waitingCommands]

theorem answer_waiting {s : State} (h : s.cmd.execution.isSome) (st : Status) (v : Byte) :
    (s.answer st v).waitingCommands < s.waitingCommands := by
  unfold State.answer
  split
  · rename_i e; simp [e] at h
  · rename_i x e
    refine Nat.lt_of_le_of_lt (takeFrom_waiting _ _) ?_
    simp [State.addResult, State.waitingCommands, e]

/-! ## Owners leave the Command Unit and the engine alone -/

theorem ownAlloc_frame (w : Option EntryIdx) (s : State) :
    (ownAlloc w s).1 = { s with table := (ownAlloc w s).1.table } := by
  unfold ownAlloc
  split
  · split <;> rfl
  · split <;> rfl

theorem ownSetupTiming_frame (e : EntryIdx) (a b : Tick) (s : State) :
    (ownSetupTiming e a b s).1 = { s with table := (ownSetupTiming e a b s).1.table } := by
  unfold ownSetupTiming; split <;> rfl

theorem ownSetupBehavior_frame (e : EntryIdx) (b : Behavior) (s : State) :
    (ownSetupBehavior e b s).1 = { s with table := (ownSetupBehavior e b s).1.table } := by
  unfold ownSetupBehavior; split <;> rfl

theorem ownRetune_frame (e : EntryIdx) (p : Tick) (s : State) :
    (ownRetune e p s).1 = { s with table := (ownRetune e p s).1.table } := by
  unfold ownRetune; split <;> rfl

theorem ownSetDivider_frame (t : Timebase) (d : BitVec 16) (x : Option TkiEdge) (s : State) :
    (ownSetDivider t d x s).1 = { s with time := (ownSetDivider t d x s).1.time } := by
  cases t <;> cases x <;> rfl

theorem ownStart_frame (t : Timebase) (s : State) : (ownStart t s).1 = { s with time := (ownStart t s).1.time } := by
  unfold ownStart; split <;> cases t <;> rfl

theorem ownStop_frame (t : Timebase) (s : State) : (ownStop t s).1 = { s with time := (ownStop t s).1.time } := by
  unfold ownStop; split <;> cases t <;> rfl

theorem ownClearFault_frame (t : Timebase) (s : State) :
    (ownClearFault t s).1 = { s with time := (ownClearFault t s).1.time } := by
  unfold ownClearFault; split <;> cases t <;> rfl

theorem ownQueueConfig_frame (q : QueueId) (w : Byte) (s : State) :
    (ownQueueConfig q w s).1 = { s with notices := (ownQueueConfig q w s).1.notices } := by
  cases q <;> rfl

theorem ownFlushQueue_frame (q : QueueId) (s : State) :
    (ownFlushQueue q s).1 =
      { s with table := (ownFlushQueue q s).1.table, notices := (ownFlushQueue q s).1.notices } := by
  unfold ownFlushQueue
  dsimp only
  split
  · rfl
  · cases h : (s.emptiedByFlush q).foldl State.sendReport (s.setQueue q (s.queue q).flushed) with
    | mk pending bus cmd table time engine notices trig out irq =>
      have h1 := congrArg State.pending h
      have h2 := congrArg State.bus h
      have h3 := congrArg State.cmd h
      have h4 := congrArg State.time h
      have h5 := congrArg State.engine h
      have h6 := congrArg State.trig h
      have h7 := congrArg State.out h
      have h8 := congrArg State.irq h
      simp only [sendReports_pending, sendReports_bus, sendReports_cmd, sendReports_time, sendReports_engine,
        sendReports_trig, sendReports_out, sendReports_irq, setQueue_pending, setQueue_bus, setQueue_cmd,
        setQueue_time, setQueue_engine, setQueue_trig, setQueue_out, setQueue_irq] at h1 h2 h3 h4 h5 h6 h7 h8
      simp [h1, h2, h3, h4, h5, h6, h7, h8]

theorem ownBindTrigger_frame (l : TrigIdx) (x : BindingEdge) (a : TriggerAction) (s : State) :
    (ownBindTrigger l x a s).1 = { s with trig := (ownBindTrigger l x a s).1.trig } := rfl

/-- An owner writes the table, the timebases, the queues or the triggers, and nothing else (R138). -/
theorem owned_frame {s : State} {c : Command} {r : Owned} (h : s.owned c = some r) :
    r.1 = { s with table := r.1.table, time := r.1.time, notices := r.1.notices, trig := r.1.trig } := by
  cases c <;> simp only [State.owned, Option.some.injEq, reduceCtorEq] at h <;> subst h
  case alloc => rw [ownAlloc_frame]
  case setupTiming => rw [ownSetupTiming_frame]
  case setupBehavior => rw [ownSetupBehavior_frame]
  case setDivider => rw [ownSetDivider_frame]
  case start => rw [ownStart_frame]
  case stop => rw [ownStop_frame]
  case clearFault => rw [ownClearFault_frame]
  case queueConfig => rw [ownQueueConfig_frame]
  case flushQueue => rw [ownFlushQueue_frame]
  case bindTrigger => rw [ownBindTrigger_frame]
  case retune => rw [ownRetune_frame]

theorem owned_of_owner {c : Command} (h : c.firstStage = .owner) (s : State) : ∃ r, s.owned c = some r := by
  cases c <;> simp [Command.firstStage] at h <;> simp [State.owned]

theorem ownerDue_some {s : State} {c : Command} (h : s.ownerDue = some c) :
    s.executing .owner = some c ∧ c.firstStage = .owner ∧ s.ownerMustWait c = false := by
  unfold State.ownerDue at h
  split at h
  · cases h
  · split at h
    · cases h
    · rename_i hn
      cases h
      rw [not_or, ne_eq, Decidable.not_not, Bool.not_eq_true] at hn
      exact ⟨by assumption, hn⟩

theorem execution_of_executing {s : State} {st : Stage} {c : Command} (h : s.executing st = some c) :
    ∃ x, s.cmd.execution = some x ∧ x.stage = st ∧ x.command.check = .ok c := by
  unfold State.executing at h
  split at h
  · cases h
  · rename_i x hx
    split at h
    · rename_i hst
      split at h
      · rename_i hc; cases h; exact ⟨x, hx, hst, hc⟩
      · cases h
    · cases h

/-! ## The measure that every due step lowers -/

def State.freeReports (s : State) : Nat := (s.notices.reports.filter fun e => !s.claimed e).length

def State.standingCount (s : State) : Nat :=
  s.notices.nq0.standing.toList.length + s.notices.nq1.standing.toList.length

def State.decidingCount (s : State) : Nat :=
  match s.engine.activity with
  | .deciding => 1
  | .idle | .chosen _ | .busy _ => 0

/-- What the part has still to take before a grant. -/
def State.dueMeasure (s : State) : Nat :=
  s.freeReports + s.standingCount + s.waitingCommands + s.decidingCount

theorem takeReport_notices' (s : State) (e : EntryIdx) : (s.takeReport e).notices = s.notices := by simp

theorem claimed_of_engine {s t : State} (h : t.engine = s.engine) (e : EntryIdx) : t.claimed e = s.claimed e := by
  simp only [State.claimed, State.claims, h]

/-- A report that is sent waits exactly when its entry is claimed. -/
theorem sendReport_reports (s : State) (e : EntryIdx) :
    (s.sendReport e).notices.reports = if s.claimed e then s.notices.reports ++ [e] else s.notices.reports := by
  unfold State.sendReport; split <;> simp

theorem sendReport_queue (s : State) (e : EntryIdx) (q : QueueId) : (s.sendReport e).queue q = s.queue q := by
  unfold State.sendReport
  split
  · simp
  · exact queue_of_notices (by simp) q

theorem sendReport_freeReports (s : State) (e : EntryIdx) : (s.sendReport e).freeReports = s.freeReports := by
  have hc : ∀ x, (s.sendReport e).claimed x = s.claimed x := claimed_of_engine (by simp)
  unfold State.freeReports
  rw [sendReport_reports]
  simp only [hc]
  split
  · rename_i h; simp [List.filter_append, h]
  · rfl

theorem sendReports_freeReports (l : List EntryIdx) (s : State) :
    (l.foldl State.sendReport s).freeReports = s.freeReports := by
  induction l generalizing s with
  | nil => rfl
  | cons a l ih => rw [List.foldl_cons, ih, sendReport_freeReports]

theorem sendReports_queue (l : List EntryIdx) (s : State) (q : QueueId) :
    (l.foldl State.sendReport s).queue q = s.queue q := by
  induction l generalizing s with
  | nil => rfl
  | cons a l ih => rw [List.foldl_cons, ih, sendReport_queue]

theorem standingCount_of_queue {s t : State} (h : ∀ q, (t.queue q).standing = (s.queue q).standing) :
    t.standingCount = s.standingCount := by
  have h0 := h .nq0
  have h1 := h .nq1
  simp only [State.queue] at h0 h1
  simp only [State.standingCount, h0, h1]

theorem owned_reports {s : State} {c : Command} {r : Owned} (h : s.owned c = some r) :
    r.1.freeReports = s.freeReports ∧ r.1.standingCount = s.standingCount := by
  cases c <;> simp only [State.owned, Option.some.injEq, reduceCtorEq] at h <;> subst h
  case alloc => rw [ownAlloc_frame]; exact ⟨rfl, rfl⟩
  case setupTiming => rw [ownSetupTiming_frame]; exact ⟨rfl, rfl⟩
  case setupBehavior => rw [ownSetupBehavior_frame]; exact ⟨rfl, rfl⟩
  case setDivider => rw [ownSetDivider_frame]; exact ⟨rfl, rfl⟩
  case start => rw [ownStart_frame]; exact ⟨rfl, rfl⟩
  case stop => rw [ownStop_frame]; exact ⟨rfl, rfl⟩
  case clearFault => rw [ownClearFault_frame]; exact ⟨rfl, rfl⟩
  case queueConfig q _ => cases q <;> exact ⟨rfl, rfl⟩
  case bindTrigger => exact ⟨rfl, rfl⟩
  case retune => rw [ownRetune_frame]; exact ⟨rfl, rfl⟩
  case flushQueue q =>
    unfold ownFlushQueue
    dsimp only
    split
    · exact ⟨rfl, rfl⟩
    · refine ⟨?_, ?_⟩
      · rw [sendReports_freeReports]; cases q <;> rfl
      · refine standingCount_of_queue fun q' => ?_
        rw [sendReports_queue, queue_setQueue]
        split
        · rename_i hq; rw [← hq]; rfl
        · rfl

theorem drained_standing (n : NoticeQueue) : n.drained.standing = n.standing := rfl

theorem popped_standing (n : NoticeQueue) : n.popped.standing = n.standing := rfl

/-- A due report lowers the measure. -/
theorem takeWaitingReport_measure {s : State} {e : EntryIdx} (h : s.reportDue e = true) :
    (s.takeWaitingReport e).dueMeasure < s.dueMeasure := by
  have hd := h
  simp only [State.reportDue, Bool.and_eq_true, List.contains_iff_mem, Bool.not_eq_true'] at h
  have e1 : s.takeWaitingReport e = (s.setReports (s.notices.reports.erase e)).takeReport e := by
    simp [State.takeWaitingReport, hd]
  have hf : (s.takeWaitingReport e).freeReports + 1 = s.freeReports := by
    have hc : ∀ x, (s.takeWaitingReport e).claimed x = s.claimed x := claimed_of_engine (by simp)
    have hr : (s.takeWaitingReport e).notices.reports = s.notices.reports.erase e := by rw [e1]; simp
    unfold State.freeReports
    simp only [hc, hr]
    rw [← List.erase_filter]
    have hm : e ∈ s.notices.reports.filter fun x => !s.claimed x := by
      rw [List.mem_filter]; exact ⟨h.1, by simp [h.2]⟩
    rw [List.length_erase_of_mem hm]
    have : 0 < (s.notices.reports.filter fun x => !s.claimed x).length := List.length_pos_of_mem hm
    omega
  have hs : (s.takeWaitingReport e).standingCount = s.standingCount := by
    refine standingCount_of_queue fun q => ?_
    rw [e1, queue_of_notices (takeReport_notices' _ _), setReports_queue]
  have hw : (s.takeWaitingReport e).waitingCommands = s.waitingCommands := by simp [State.waitingCommands]
  have hdc : (s.takeWaitingReport e).decidingCount = s.decidingCount := by simp [State.decidingCount]
  unfold State.dueMeasure
  omega

theorem standingDue_some {s : State} {q : QueueId} {e : EntryIdx} (h : s.standingDue q = some e) :
    (s.queue q).standing = some e ∧ s.claimed e = false := by
  unfold State.standingDue at h
  split at h
  · cases h
  · rename_i x hx
    split at h
    · cases h
    · rename_i hc; cases h; exact ⟨hx, by simpa using hc⟩

/-- A pop leaves the standing pops, and sends no report that waits when its index is not claimed. -/
theorem takePop_reports (s : State) (q : QueueId) (e : EntryIdx) (hc : s.claimed e = false) :
    (s.takePop q e.val).notices.reports = s.notices.reports := by
  unfold State.takePop
  split
  · simp
  · rename_i h rest hp
    split
    · rename_i he
      have : h.entry = e := Fin.ext he
      unfold State.reportIfNone
      split
      · have hc' : (s.setQueue q (s.queue q).popped).claimed e = false := by
          rw [claimed_of_engine (s := s) (by simp)]; exact hc
        rw [sendReport_reports, this, hc']; simp
      · simp
    · simp

theorem takePop_standing (s : State) (q q' : QueueId) (i : Nat) :
    ((s.takePop q i).queue q').standing = (s.queue q').standing := by
  unfold State.takePop
  split
  · rw [queue_of_notices (s := s) (by simp)]
  · split
    · have h1 : ∀ t : State, ∀ x, (t.reportIfNone x).queue q' = t.queue q' := by
        intro t x; unfold State.reportIfNone; split
        · exact sendReport_queue _ _ _
        · rfl
      rw [h1, queue_setQueue]
      split
      · rename_i h; subst h; exact popped_standing _
      · rfl
    · rw [queue_of_notices (s := s) (by simp)]

theorem takeStanding_measure {s : State} {q : QueueId} (h : (s.standingDue q).isSome) :
    (s.takeStanding q).dueMeasure < s.dueMeasure := by
  obtain ⟨e, he⟩ := Option.isSome_iff_exists.mp h
  obtain ⟨hs, hc⟩ := standingDue_some he
  have e1 : s.takeStanding q = (s.setQueue q { s.queue q with standing := none }).takePop q e.val := by
    simp [State.takeStanding, he]
  have hc' : (s.setQueue q { s.queue q with standing := none }).claimed e = false := by
    rw [claimed_of_engine (s := s) (by simp)]; exact hc
  have hf : (s.takeStanding q).freeReports = s.freeReports := by
    have hcl : ∀ x, (s.takeStanding q).claimed x = s.claimed x := claimed_of_engine (by simp)
    unfold State.freeReports
    simp only [hcl]
    rw [e1, takePop_reports _ _ _ hc']
    simp
  have hst : (s.takeStanding q).standingCount + 1 = s.standingCount := by
    have h0 := fun q' => takePop_standing (s.setQueue q { s.queue q with standing := none }) q q' e.val
    rw [← e1] at h0
    have ha := h0 .nq0
    have hb := h0 .nq1
    unfold State.standingCount
    cases q <;> simp only [State.queue, State.setQueue] at ha hb hs ⊢ <;> rw [ha, hb, hs] <;> simp
    omega
  have hw : (s.takeStanding q).waitingCommands = s.waitingCommands := by simp [State.waitingCommands]
  have hdc : (s.takeStanding q).decidingCount = s.decidingCount := by simp [State.decidingCount]
  unfold State.dueMeasure
  omega

theorem answer_measure {s : State} (h : s.cmd.execution.isSome) (st : Status) (v : Byte) :
    (s.answer st v).dueMeasure < s.dueMeasure := by
  have h1 := answer_waiting h st v
  have h2 : (s.answer st v).freeReports = s.freeReports := by
    simp [State.freeReports, State.claimed, State.claims]
  have h3 : (s.answer st v).standingCount = s.standingCount := by simp [State.standingCount]
  have h4 : (s.answer st v).decidingCount = s.decidingCount := by simp [State.decidingCount]
  unfold State.dueMeasure
  omega

theorem ownerStep_of_due {s : State} {c : Command} (h : s.ownerDue = some c) :
    ∃ r, s.owned c = some r ∧ s.ownerStep (fun _ => true) = r.1.answer r.2.1 r.2.2 := by
  obtain ⟨r, hr⟩ := owned_of_owner (ownerDue_some h).2.1 s
  exact ⟨r, hr, by simp [State.ownerStep, h, hr]⟩

theorem dueStep_measure {s t : State} (h : s.dueStep = some t) : t.dueMeasure < s.dueMeasure := by
  unfold State.dueStep at h
  split at h
  · rename_i e he
    rw [← Option.some.inj h]
    exact takeWaitingReport_measure (by have := List.find?_some he; simpa using this)
  · split at h
    · rename_i hq; rw [← Option.some.inj h]; exact takeStanding_measure hq
    · split at h
      · rename_i hq; rw [← Option.some.inj h]; exact takeStanding_measure hq
      · split at h
        · rename_i hn
          rw [← Option.some.inj h, State.answerNop, if_pos hn]
          refine answer_measure ?_ _ _
          simp only [State.nopDue, beq_iff_eq] at hn
          obtain ⟨x, hx, _⟩ := execution_of_executing hn
          simp [hx]
        · split at h
          · rename_i ho
            obtain ⟨c, hc⟩ := Option.isSome_iff_exists.mp ho
            obtain ⟨r, hr, e⟩ := ownerStep_of_due hc
            obtain ⟨x, hx, _⟩ := execution_of_executing (ownerDue_some hc).1
            rw [← Option.some.inj h, e]
            have hf := owned_frame hr
            have hcmd : r.1.cmd = s.cmd := by rw [hf]
            have heng : r.1.engine = s.engine := by rw [hf]
            have h1 := answer_measure (s := r.1) (by rw [hcmd, hx]; rfl) r.2.1 r.2.2
            have h2 := owned_reports hr
            have h3 : r.1.waitingCommands = s.waitingCommands := by simp [State.waitingCommands, hcmd]
            have h4 : r.1.decidingCount = s.decidingCount := by simp [State.decidingCount, heng]
            have h5 : r.1.dueMeasure = s.dueMeasure := by
              unfold State.dueMeasure; rw [h2.1, h2.2, h3, h4]
            omega
          · split at h
            · rename_i ha
              rw [← Option.some.inj h]
              have h1 : s.decideGrant.decidingCount = 0 := by
                unfold State.decideGrant State.decidingCount
                simp only [setActivity_activity]
                split
                · rename_i hh; split at hh <;> cases hh
                all_goals rfl
              have h2 : s.decidingCount = 1 := by simp [State.decidingCount, ha]
              have h3 : s.decideGrant.freeReports = s.freeReports := by
                have hc : ∀ x, s.decideGrant.claimed x = s.claimed x := by
                  intro x
                  unfold State.claimed State.claims State.decideGrant
                  simp only [setActivity_activity, ha]
                  split
                  · rename_i hh; split at hh <;> cases hh
                  all_goals rfl
                unfold State.freeReports
                simp [hc]
              have h4 : s.decideGrant.standingCount = s.standingCount := by simp [State.standingCount]
              have h5 : s.decideGrant.waitingCommands = s.waitingCommands := by simp [State.waitingCommands]
              unfold State.dueMeasure
              omega
            all_goals cases h

theorem takeDue_none (n : Nat) {s : State} (h : s.dueMeasure ≤ n) : (s.takeDue n).dueStep = none := by
  induction n generalizing s with
  | zero =>
    unfold State.takeDue
    cases hd : s.dueStep with
    | none => rfl
    | some t => have := dueStep_measure hd; omega
  | succ n ih =>
    unfold State.takeDue
    split
    · assumption
    · rename_i t ht
      have := dueStep_measure ht
      exact ih (by omega)

theorem dueMeasure_le_fuel (s : State) : s.dueMeasure ≤ s.dueFuel := by
  have h1 : s.freeReports ≤ s.notices.reports.length := List.length_filter_le _ _
  have h2 : ∀ {α : Type} (o : Option α), o.toList.length ≤ 1 := by intro α o; cases o <;> simp
  have h3 := h2 s.notices.nq0.standing
  have h4 := h2 s.notices.nq1.standing
  have h5 := h2 s.cmd.execution
  have h6 : s.decidingCount ≤ 1 := by unfold State.decidingCount; split <;> omega
  unfold State.dueMeasure State.dueFuel State.standingCount State.waitingCommands
  omega

/-- Before a grant, every due step has been taken. -/
theorem beforeGrant_none (s : State) : s.beforeGrant.dueStep = none :=
  takeDue_none _ (dueMeasure_le_fuel s)

/-! ## The grant at an IDLE engine -/

theorem dueStep_none {s : State} (h : s.dueStep = none) :
    (s.notices.reports.find? fun e => s.reportDue e) = none ∧ s.standingDue .nq0 = none ∧
      s.standingDue .nq1 = none ∧ s.nopDue = false ∧ s.ownerDue = none ∧ s.engine.activity ≠ .deciding := by
  unfold State.dueStep at h
  split at h
  · cases h
  · rename_i h1
    split at h
    · cases h
    · rename_i h2
      split at h
      · cases h
      · rename_i h3
        split at h
        · cases h
        · rename_i h4
          split at h
          · cases h
          · rename_i h5
            refine ⟨h1, by simpa using h2, by simpa using h3, by simpa using h4, by simpa using h5, ?_⟩
            intro ha; simp [ha] at h

theorem dueStep_none_of {s : State}
    (h1 : (s.notices.reports.find? fun e => s.reportDue e) = none) (h2 : s.standingDue .nq0 = none)
    (h3 : s.standingDue .nq1 = none) (h4 : s.nopDue = false) (h5 : s.ownerDue = none)
    (h6 : s.engine.activity ≠ .deciding) : s.dueStep = none := by
  unfold State.dueStep
  simp only [h1, h2, h3, h4, h5]
  cases h : s.engine.activity <;> simp_all

theorem busy_of_service {s : State} (h : s.waits .expiry = true) :
    ∃ op, s.grantService.engine.activity = .busy op := by
  simp only [State.waits, State.expiryRequest, Bool.or_eq_true] at h
  have hc : ∃ p, s.chooseHead = some p := by
    unfold State.chooseHead
    cases h0 : s.dueHead .tb0 <;> cases h1 : s.dueHead .tb1 <;> simp_all
    split <;> exact ⟨_, _, rfl⟩
  obtain ⟨p, hp⟩ := hc
  exact ⟨_, by simp only [State.grantService, hp]; rfl⟩

theorem commandPlan_of_engine {c : Command} (h : c.firstStage = .grantWait) (s : State) :
    ∃ p, s.commandPlan c = some p := by
  cases c <;> simp [Command.firstStage] at h <;> simp [State.commandPlan]

theorem openWalk_notices' (s : State) (w : Option Walk) : (s.openWalk w).notices = s.notices := by simp

theorem grantCommand_of_plan {s : State} {c : Command} {p : Plan} (hc : s.executing .grantWait = some c)
    (hp : s.commandPlan c = some p) (k : Command → Bool) (hk : k c = true) :
    s.grantCommand k = ((s.openWalk p.walk).begin .command p).setStage .engine := by
  simp [State.grantCommand, hc, hp, hk]

theorem grantTrigger_of_waiting {s : State} {l : TrigIdx} {c : Capture} (h : s.waitingLine = some (l, c))
    (k : TriggerAction → Bool) (hk : k c.action = true) :
    s.grantTrigger k =
      (let s' := (s.openWalk (s.triggerPlan c).walk).begin (.trigger l) (s.triggerPlan c)
       s'.setLine l { s'.line l with record := .inService c none }) := by
  simp [State.grantTrigger, h, hk]

theorem reports_empty_of_idle {s : State} (hd : s.dueStep = none) (hi : s.claims = []) :
    s.notices.reports = [] := by
  have h := (dueStep_none hd).1
  rw [List.find?_eq_none] at h
  cases hr : s.notices.reports with
  | nil => rfl
  | cons a l =>
    have := h a (by simp [hr])
    simp [State.reportDue, State.claimed, hi, hr] at this

theorem standing_none_of_idle {s : State} {q : QueueId} (h : s.standingDue q = none) (hi : s.claims = []) :
    (s.queue q).standing = none := by
  unfold State.standingDue at h
  split at h
  · assumption
  · simp [State.claimed, hi] at h

theorem mustWait_of_unclaimed {s : State} (hi : s.claims = []) (c : Command) : s.ownerMustWait c = false := by
  have hc : ∀ e, s.claimed e = false := by intro e; simp [State.claimed, hi]
  cases c <;> simp only [State.ownerMustWait, hc]
  case alloc w =>
    cases w
    · cases s.table.freeList <;> simp
    · simp
  case flushQueue => simp [State.flushMustWait, hc]

/-- A grant out of a state with nothing due leaves nothing due: the reports and pops have gone, and an owner's command
does not become due by a claim. -/
theorem dueStep_of_grant {s t : State} (hd : s.dueStep = none) (hi : s.engine.activity = .idle)
    (hb : ∃ op, t.engine.activity = .busy op) (hn : t.notices = s.notices)
    (hx : t.cmd.execution = s.cmd.execution ∨ ∀ x, t.cmd.execution = some x → x.stage = .engine) :
    t.dueStep = none := by
  have hcl : s.claims = [] := by simp [State.claims, hi]
  obtain ⟨_, h2, h3, h4, h5, _⟩ := dueStep_none hd
  have hr : t.notices.reports = [] := by rw [hn]; exact reports_empty_of_idle hd hcl
  have hst : ∀ q, (t.queue q).standing = none := by
    intro q
    rw [queue_of_notices hn]
    cases q
    · exact standing_none_of_idle h2 hcl
    · exact standing_none_of_idle h3 hcl
  have hexec : ∀ st, st ≠ .engine → t.executing st = s.executing st ∨ t.executing st = none := by
    intro st hne
    rcases hx with hx | hx
    · left; simp [State.executing, hx]
    · right
      cases hc : t.executing st with
      | none => rfl
      | some c =>
        obtain ⟨x, hx1, hx2, _⟩ := execution_of_executing hc
        exact absurd (hx2.symm.trans (hx x hx1)) hne
  have hown : s.executing .owner = none ∨ ∃ c, s.executing .owner = some c ∧ c.firstStage ≠ .owner := by
    cases hc : s.executing .owner with
    | none => exact .inl rfl
    | some c =>
      right
      refine ⟨c, rfl, ?_⟩
      intro hf
      have : s.ownerDue = some c := by
        simp [State.ownerDue, hc, hf, mustWait_of_unclaimed hcl]
      rw [h5] at this; cases this
  refine dueStep_none_of ?_ ?_ ?_ ?_ ?_ ?_
  · simp [hr]
  · simp [State.standingDue, hst]
  · simp [State.standingDue, hst]
  · unfold State.nopDue at h4 ⊢
    rcases hexec .check (by decide) with h | h
    · rw [h]; exact h4
    · rw [h]; rfl
  · unfold State.ownerDue
    rcases hexec .owner (by decide) with h | h
    · rw [h]
      rcases hown with h' | ⟨c, h', hf⟩
      · rw [h']
      · rw [h']; simp [hf]
    · rw [h]
  · obtain ⟨op, hop⟩ := hb; rw [hop]; simp

theorem firstWaiting_waits {s : State} {r r' : Requester} (h : s.firstWaiting r = some r') :
    s.waits r' = true := by
  unfold State.firstWaiting at h
  split at h
  · cases h; assumption
  · split at h
    · cases h; assumption
    · split at h
      · cases h; assumption
      · cases h

/-- After `settle` no step of the event before is due. -/
theorem settle_settled (s : State) : s.settle.settled = true := by
  have hd := beforeGrant_none s
  unfold State.settle
  generalize s.beforeGrant = b at hd
  unfold State.grantIdle
  split
  · rename_i hi
    have fin : ∀ t : State, t.dueStep = none → (∃ op, t.engine.activity = .busy op) → t.settled = true := by
      intro t h ⟨op, hop⟩; simp [State.settled, h, hop]
    split
    · rename_i hw
      have hb := busy_of_service (firstWaiting_waits hw)
      exact fin _ (dueStep_of_grant hd hi hb (by simp) (.inl (by simp))) hb
    · rename_i hw
      have h := firstWaiting_waits hw
      simp only [State.waits] at h
      cases hc : b.executing .grantWait with
      | none => simp [hc] at h
      | some c =>
        simp only [hc, Option.any_some, beq_iff_eq] at h
        obtain ⟨p, hp⟩ := commandPlan_of_engine h b
        rw [grantCommand_of_plan hc hp _ rfl]
        have hb : ∃ op, (((b.openWalk p.walk).begin .command p).setStage .engine).engine.activity = .busy op :=
          ⟨_, rfl⟩
        refine fin _ (dueStep_of_grant hd hi hb (by simp) (.inr ?_)) hb
        intro x hx
        simp only [State.setStage, Option.map_eq_some_iff] at hx
        obtain ⟨y, _, rfl⟩ := hx
        rfl
    · rename_i hw
      have h := firstWaiting_waits hw
      simp only [State.waits] at h
      obtain ⟨⟨l, c⟩, hl⟩ := Option.isSome_iff_exists.mp h
      rw [grantTrigger_of_waiting hl _ rfl]
      exact fin _ (dueStep_of_grant hd hi ⟨_, rfl⟩ (by simp) (.inl (by simp))) ⟨_, rfl⟩
    · rename_i hw; simp [State.settled, hd, hi, hw]
  all_goals (rename_i hi; simp [State.settled, hd, hi])

/-- Taking what is due twice is taking it once. -/
theorem settle_idem (s : State) : s.settle.settle = s.settle := settle_of_settled (settle_settled s)

/-! ## Rows on settled states -/

theorem offers_of_settled {s : State} (h : s.dueStep = none) : s.beforeGrant = s := beforeGrant_of_none h

end Sys2Proof.Machine
end

