-- ==== Sys2Proof/Laws/Command.lean ====
section
/-!
SUPPORT. The take and the answer of the Command Unit (R134, R136, R141): what they leave, and the capacity law.
-/
namespace Sys2Proof.Machine

/-- The conditions of R134 other than a waiting command. -/
theorem canTake_iff {s : State} :
    s.canTake = true ↔ s.cmd.execution = none ∧ s.cmd.results.length < 4 := by
  rw [State.canTake, Bool.and_eq_true, Option.isNone_iff_eq_none, decide_eq_true_iff]
  exact Iff.rfl

/-- The part of the law that a take establishes (R134), and the two bounds it keeps. -/
theorem takeFrom_law {q : List QueuedCommand} {s : State} (hq : q.length ≤ 4)
    (hr : s.cmd.results.length + s.cmd.execution.toList.length ≤ 4) : (takeFrom q s).CommandLaw := by
  induction q generalizing s with
  | nil => exact ⟨by simp [takeFrom], by simpa [takeFrom] using hr, .inl (by simp [takeFrom])⟩
  | cons c rest ih =>
    rw [List.length_cons] at hq
    unfold takeFrom
    split
    · rename_i hc
      rw [canTake_iff] at hc
      split
      · exact ih (by omega) (by simp [State.addResult, hc.1]; omega)
      · exact ⟨by simp; omega, by simp; omega, .inr (.inl rfl)⟩
    · rename_i hc
      rw [canTake_iff, not_and, Nat.not_lt] at hc
      refine ⟨by simp; omega, hr, .inr ?_⟩
      cases he : s.cmd.execution with
      | none => exact .inr (by have := hc he; dsimp only; omega)
      | some x => exact .inl (by simp)

/-- The law looks at the Command Unit only. -/
theorem CommandLaw.of_cmd {s t : State} (hs : s.CommandLaw) (h : t.cmd = s.cmd) : t.CommandLaw :=
  ⟨by rw [h]; exact hs.queue, by rw [h]; exact hs.results, by rw [h]; exact hs.taken⟩

theorem answer_law {s : State} (h : s.CommandLaw) (st : Status) (v : Byte) : (s.answer st v).CommandLaw := by
  unfold State.answer
  split
  · exact h
  · rename_i x hx
    refine takeFrom_law (by simpa [State.addResult] using h.queue) ?_
    have := h.results
    simp only [hx, Option.toList_some, List.length_singleton] at this
    simp [State.addResult]
    omega

theorem setStage_law {s : State} (h : s.CommandLaw) (st : Stage) : (s.setStage st).CommandLaw := by
  refine ⟨h.queue, ?_, ?_⟩
  · have := h.results
    cases hx : s.cmd.execution <;> simp_all [State.setStage]
  · rcases h.taken with h' | h' | h'
    · exact .inl h'
    · exact .inr (.inl (by simpa [State.setStage] using h'))
    · exact .inr (.inr h')

/-- A failed check is answered in the take, and the take goes on (R136). -/
theorem takeFrom_error {c : QueuedCommand} {s : State} {st : Status} (hc : s.canTake = true)
    (he : c.check = .error st) (rest : List QueuedCommand) :
    takeFrom (c :: rest) s = takeFrom rest (s.addResult c st c.failValue) := by
  simp [takeFrom, hc, he]

/-- A command that passes its checks goes into execution (R134, R138, R139). -/
theorem takeFrom_ok {c : QueuedCommand} {s : State} {x : Command} (hc : s.canTake = true)
    (ho : c.check = .ok x) (rest : List QueuedCommand) :
    takeFrom (c :: rest) s =
      { s with cmd := { s.cmd with queue := rest, execution := some ⟨c, x.firstStage⟩ } } := by
  simp [takeFrom, hc, ho]

/-- Without a free place, or with a command in execution, nothing is taken (R134). -/
theorem takeFrom_stays {s : State} (h : s.canTake = false) (q : List QueuedCommand) :
    takeFrom q s = { s with cmd := { s.cmd with queue := q } } := by
  cases q <;> simp [takeFrom, h]

end Sys2Proof.Machine
end

