-- ==== Sys2Proof/Laws/Engine.lean ====
section
/-!
SUPPORT. The steps of one engine operation, each said once: the grant, the final step and the completion, from a state
in which nothing of the event before is due.
-/
namespace Sys2Proof.Machine

/-! ## States without anything due but a grant -/

/-- No report or pop waits, and no command in execution waits for its owner or its answer. -/
structure State.Quiet (s : State) : Prop where
  reports : s.notices.reports = []
  standing : ∀ q, (s.queue q).standing = none
  nop : s.nopDue = false
  owner : ∀ c, s.executing .owner = some c → c.firstStage ≠ .owner

theorem State.Quiet.dueStep {s : State} (h : s.Quiet) (ha : s.engine.activity ≠ .deciding) : s.dueStep = none := by
  refine dueStep_none_of (by simp [h.reports]) (by simp [State.standingDue, h.standing])
    (by simp [State.standingDue, h.standing]) h.nop ?_ ha
  unfold State.ownerDue
  split
  · rfl
  · rename_i c hc; simp [h.owner c hc]

theorem State.Quiet.settled {s : State} (h : s.Quiet) {op : Operation} (hb : s.engine.activity = .busy op) :
    s.settled = true := by
  simp [State.settled, h.dueStep (by simp [hb]), hb]

theorem State.Quiet.inFlight {s : State} (h : s.Quiet) {op : Operation} (hb : s.engine.activity = .busy op) :
    s.InFlight op := ⟨h.settled hb, hb⟩

theorem State.Quiet.of {s t : State} (h : s.Quiet) (hn : t.notices = s.notices) (hc : t.cmd = s.cmd) : t.Quiet where
  reports := by rw [hn]; exact h.reports
  standing q := by rw [queue_of_notices hn]; exact h.standing q
  nop := by have := h.nop; simpa [State.nopDue, State.executing, hc] using this
  owner c hx := h.owner c (by simpa [State.executing, hc] using hx)

theorem State.Quiet.engine {s t : State} (h : s.Quiet) (hn : t.notices = s.notices)
    (hx : ∀ x, t.cmd.execution = some x → x.stage = .engine) : t.Quiet := by
  have hst : ∀ st, st ≠ .engine → t.executing st = none := by
    intro st hne
    cases hc : t.executing st with
    | none => rfl
    | some c =>
      obtain ⟨x, hx1, hx2, _⟩ := execution_of_executing hc
      exact absurd (hx2.symm.trans (hx x hx1)) hne
  exact
    { reports := by rw [hn]; exact h.reports
      standing := fun q => by rw [queue_of_notices hn]; exact h.standing q
      nop := by simp [State.nopDue, hst]
      owner := fun c hc => by rw [hst _ (by decide)] at hc; cases hc }

theorem claims_of_offers {s : State} {r : Requester} (h : s.offers r = true) : s.claims = [] := by
  unfold State.offers at h
  unfold State.claims
  split <;> simp_all

theorem State.Grantable.quiet {s : State} {r : Requester} (h : s.Grantable r) : s.Quiet := by
  have hcl := claims_of_offers h.offered
  obtain ⟨_, h2, h3, h4, h5, _⟩ := dueStep_none h.due
  refine ⟨reports_empty_of_idle h.due hcl, ?_, h4, ?_⟩
  · intro q
    cases q
    · exact standing_none_of_idle h2 hcl
    · exact standing_none_of_idle h3 hcl
  · intro c hc hf
    have : s.ownerDue = some c := by simp [State.ownerDue, hc, hf, mustWait_of_unclaimed hcl]
    rw [h5] at this; cases this

/-! ## The grants (R47) -/

theorem commandGrant_of {s : State} {c : Command} {p : Plan} (hg : s.Grantable .command)
    (hc : s.executing .grantWait = some c) (hp : s.commandPlan c = some p) {k : Command → Bool} (hk : k c = true) :
    s.commandGrant k = ((s.openWalk p.walk).begin .command p).setStage .engine := by
  simp only [State.commandGrant, beforeGrant_of_none hg.due, hg.offered, if_true]
  exact grantCommand_of_plan hc hp k hk

theorem triggerGrant_of {s : State} {l : TrigIdx} {c : Capture} (hg : s.Grantable .trigger)
    (hw : s.waitingLine = some (l, c)) {k : TriggerAction → Bool} (hk : k c.action = true) :
    s.triggerGrant k =
      (let s' := (s.openWalk (s.triggerPlan c).walk).begin (.trigger l) (s.triggerPlan c)
       s'.setLine l { s'.line l with record := .inService c none }) := by
  simp only [State.triggerGrant, beforeGrant_of_none hg.due, hg.offered, if_true]
  exact grantTrigger_of_waiting hw k hk

theorem expiryGrant_of {s : State} {b : Timebase} {e : EntryIdx} (hg : s.Grantable .expiry)
    (hc : s.chooseHead = some (b, e)) : s.expiryGrant = s.begin .expiry (s.servicePlan b e) := by
  simp only [State.expiryGrant, beforeGrant_of_none hg.due, hg.offered, if_true, State.grantService, hc]

theorem stage_of_setStage {s : State} {x : Execution} (h : (s.setStage .engine).cmd.execution = some x) :
    x.stage = .engine := by
  simp only [State.setStage, Option.map_eq_some_iff] at h
  obtain ⟨y, _, rfl⟩ := h
  rfl

/-! ## Final step and completion (R45, R47) -/

theorem finalStep_of {s : State} {op : Operation} (h : s.InFlight op) (hf : op.plan.atFinalStep = true)
    (hw : op.plan.hasFinalStep = true) :
    s.settle.finalStep =
      (op.plan.acts.foldl (fun s a => s.act op a) (s.purgeRequested op.plan.purge)).setPlan op
        { op.plan with
          claims := op.plan.claimsAfter, purge := none, walk := none, acts := []
          value := op.plan.value + s.purgeCount op.plan.purge } := by
  rw [settle_of_settled h.settled]
  simp [State.finalStep, h.busy, hf, hw]

theorem complete_of {s : State} {op : Operation} (h : s.InFlight op) (hf : op.plan.atFinalStep = true)
    (hw : op.plan.hasFinalStep = false) :
    s.settle.complete =
      (s.completedTo op.client.requester.next).handBack op.client op.plan.status op.plan.value := by
  rw [settle_of_settled h.settled]
  simp [State.complete, h.busy, hf, hw, State.completedTo]

/-- The final step of a plan with one write and neither hand-over, purge nor walk. -/
theorem finalStep_one {s : State} {op : Operation} {a : Act} (h : s.InFlight op) (h1 : op.plan.lineOp = none)
    (h2 : op.plan.post = none) (h3 : op.plan.walk = none) (h4 : op.plan.purge = none) (h5 : op.plan.acts = [a]) :
    s.settle.finalStep = (s.act op a).setPlan op
      { op.plan with claims := op.plan.claimsAfter, acts := [] } := by
  rw [finalStep_of h (by simp [Plan.atFinalStep, Plan.walking, h1, h2, h3]) (by simp [Plan.hasFinalStep, h5])]
  simp [h3, h4, h5, State.purgeRequested, State.purgeCount]

/-- The completion of a plan that has nothing more to do. -/
theorem complete_done {s : State} {op : Operation} (h : s.InFlight op) (h1 : op.plan.lineOp = none)
    (h2 : op.plan.post = none) (h3 : op.plan.walk = none) (h4 : op.plan.purge = none) (h5 : op.plan.acts = []) :
    s.settle.complete =
      (s.completedTo op.client.requester.next).handBack op.client op.plan.status op.plan.value :=
  complete_of h (by simp [Plan.atFinalStep, Plan.walking, h1, h2, h3]) (by simp [Plan.hasFinalStep, h4, h5])

end Sys2Proof.Machine
end

