-- ==== Sys2Proof/Laws/Notices.lean ====
section
/-!
SUPPORT. What the operations on one notice queue do to its law (R91–R94, R97–R99, R101, R103).
-/
namespace Sys2Proof.Machine

/-! ## The drain (R99) -/

/-- The drain in closed form: as many of the lowest backlog notices as there are free places. -/
theorem drainInto_eq (proper backlog : List Notice) :
    drainInto proper backlog =
      (proper ++ backlog.take (16 - proper.length), backlog.drop (16 - proper.length)) := by
  induction backlog generalizing proper with
  | nil => simp [drainInto]
  | cons b rest ih =>
    unfold drainInto
    split
    · rename_i h
      have h : proper.length < 16 := h
      obtain ⟨k, hk⟩ : ∃ k, 16 - proper.length = k + 1 := ⟨15 - proper.length, by omega⟩
      rw [ih, hk]
      simp only [List.length_append, List.length_singleton]
      have : 16 - (proper.length + 1) = k := by omega
      simp [this]
    · rename_i h
      have h : ¬ proper.length < 16 := h
      have : 16 - proper.length = 0 := by omega
      simp [this]

/-- The law without the fullness of the queue proper, which the drain restores. -/
theorem drained_law {n : NoticeQueue} (h1 : n.proper.length ≤ 16)
    (h2 : (n.backlog.map (·.entry)).Pairwise (· < ·))
    (h3 : ((n.openPart ++ n.backlog).map (·.entry)).Nodup) (h4 : n.headSealed → n.proper ≠ [])
    (h5 : ∀ x ∈ n.proper ++ n.backlog, 1 ≤ x.count.toNat)
    (h6 : 1 ≤ n.watermark.toNat ∧ n.watermark.toNat ≤ 16) : n.drained.Law := by
  have hp : n.drained.proper = n.proper ++ n.backlog.take (16 - n.proper.length) := by
    simp [NoticeQueue.drained, drainInto_eq]
  have hb : n.drained.backlog = n.backlog.drop (16 - n.proper.length) := by
    simp [NoticeQueue.drained, drainInto_eq]
  have ho : n.drained.openPart ++ n.drained.backlog = n.openPart ++ n.backlog := by
    have hs : n.drained.headSealed = n.headSealed := rfl
    unfold NoticeQueue.openPart
    rw [hs, hp, hb]
    split
    · rename_i h
      obtain ⟨a, l, hl⟩ := List.exists_cons_of_ne_nil (h4 h)
      simp [hl, List.append_assoc]
    · simp [List.append_assoc]
  refine ⟨?_, ?_, ?_, ?_, ?_, ?_, h6⟩
  · rw [hp, List.length_append, List.length_take]; omega
  · intro hne
    rw [hb] at hne
    have : 16 - n.proper.length < n.backlog.length := by
      rcases Nat.lt_or_ge (16 - n.proper.length) n.backlog.length with h | h
      · exact h
      · exact absurd (List.drop_eq_nil_of_le h) hne
    rw [hp, List.length_append, List.length_take]; omega
  · rw [hb, List.map_drop]; exact h2.sublist (List.drop_sublist _ _)
  · rw [ho]; exact h3
  · intro h
    have := h4 h
    rw [hp]
    simp [this]
  · intro x hx
    refine h5 x ?_
    rw [hp, hb] at hx
    rw [List.append_assoc, List.take_append_drop] at hx
    exact hx

/-! ## Removals -/

theorem openPart_sublist (n : NoticeQueue) : n.openPart.Sublist n.proper := by
  unfold NoticeQueue.openPart
  split
  · exact List.drop_sublist _ _
  · exact List.Sublist.refl _

theorem drop_one_sublist_openPart (n : NoticeQueue) : (n.proper.drop 1).Sublist n.openPart := by
  unfold NoticeQueue.openPart
  split
  · exact List.Sublist.refl _
  · exact List.drop_sublist _ _

theorem popped_law {n : NoticeQueue} (h : n.Law) : n.popped.Law := by
  refine drained_law ?_ h.ascending ?_ (by intro h; cases h) ?_ h.watermark
  · have := h.proper; simp; omega
  · refine h.oneOpen.sublist (List.Sublist.map _ (List.Sublist.append ?_ (List.Sublist.refl _)))
    simp only [NoticeQueue.openPart]
    exact drop_one_sublist_openPart n
  · intro x hx
    refine h.counts x ?_
    simp only [List.mem_append] at hx ⊢
    exact hx.imp (fun h => List.mem_of_mem_drop h) id

theorem purged_openPart (n : NoticeQueue) (e : EntryIdx) (hs : n.headSealed → n.proper ≠ []) :
    NoticeQueue.openPart { n with
      proper := n.proper.filter (·.entry != e), backlog := n.backlog.filter (·.entry != e),
      headSealed := n.headSealed && !n.headNames e } = n.openPart.filter (·.entry != e) := by
  simp only [NoticeQueue.openPart]
  cases hh : n.headSealed with
  | false => simp
  | true =>
    obtain ⟨a, l, hl⟩ := List.exists_cons_of_ne_nil (hs hh)
    by_cases ha : a.entry = e <;> simp [hl, NoticeQueue.headNames, ha]

theorem purged_law {n : NoticeQueue} (h : n.Law) (e : EntryIdx) : (n.purged e).Law := by
  refine drained_law ?_ ?_ ?_ ?_ ?_ h.watermark
  · exact Nat.le_trans (List.length_filter_le _ _) h.proper
  · exact h.ascending.sublist (List.Sublist.map _ List.filter_sublist)
  · rw [purged_openPart n e h.sealed]
    exact h.oneOpen.sublist (List.Sublist.map _ (List.Sublist.append List.filter_sublist List.filter_sublist))
  · intro hs
    simp only [Bool.and_eq_true, Bool.not_eq_true'] at hs
    obtain ⟨a, l, hl⟩ := List.exists_cons_of_ne_nil (h.sealed hs.1)
    have ha : a.entry ≠ e := by
      have h2 := hs.2
      simp only [NoticeQueue.headNames, hl, beq_eq_false_iff_ne] at h2
      exact h2
    simp [hl, ha]
  · intro x hx
    refine h.counts x ?_
    simp only [List.mem_append, List.mem_filter] at hx ⊢
    exact hx.imp And.left And.left

theorem flushed_law {n : NoticeQueue} (h : n.Law) : n.flushed.Law :=
  ⟨by simp [NoticeQueue.flushed], (by intro h; exact absurd rfl h), by simp [NoticeQueue.flushed],
    by simp [NoticeQueue.flushed, NoticeQueue.openPart], (by intro h; cases h),
    by simp [NoticeQueue.flushed], h.watermark⟩

theorem cleared_law {w : Byte} (h : 1 ≤ w.toNat ∧ w.toNat ≤ 16) : (NoticeQueue.cleared w).Law :=
  ⟨by simp [NoticeQueue.cleared], (by intro h; exact absurd rfl h), by simp [NoticeQueue.cleared],
    by simp [NoticeQueue.cleared, NoticeQueue.openPart], (by intro h; cases h),
    by simp [NoticeQueue.cleared], h⟩

/-! ## Posts (R93, R94) -/

/-- A merge keeps the place, the length and the entries of the notices. -/
theorem mergeWhere_entries (p : Post) (l : List Notice) :
    (mergeWhere p l).map (·.entry) = l.map (·.entry) := by
  induction l with
  | nil => rfl
  | cons a l ih =>
    unfold mergeWhere
    split
    · simp [Notice.merged]
    · simp [ih]

theorem mergeWhere_length (p : Post) (l : List Notice) : (mergeWhere p l).length = l.length := by
  rw [← List.length_map (f := (·.entry)), mergeWhere_entries, List.length_map]

theorem cappedCount_pos {n : Nat} (h : 1 ≤ n) : 1 ≤ (cappedCount n).toNat := by
  simp only [cappedCount, Config.countCap, BitVec.toNat_ofNat]
  omega

theorem mergeWhere_counts {p : Post} {l : List Notice} (hp : 1 ≤ p.count)
    (h : ∀ x ∈ l, 1 ≤ x.count.toNat) : ∀ x ∈ mergeWhere p l, 1 ≤ x.count.toNat := by
  induction l with
  | nil => intro x hx; cases hx
  | cons a l ih =>
    intro x hx
    unfold mergeWhere at hx
    split at hx
    · rcases List.mem_cons.mp hx with rfl | hx
      · exact cappedCount_pos (by omega)
      · exact h x (List.mem_cons_of_mem _ hx)
    · rcases List.mem_cons.mp hx with rfl | hx
      · exact h _ List.mem_cons_self
      · exact ih (fun y hy => h y (List.mem_cons_of_mem _ hy)) x hx

/-- A new notice is added and none is lost. -/
theorem insertByEntry_perm (x : Notice) (l : List Notice) : (insertByEntry x l).Perm (x :: l) := by
  induction l with
  | nil => exact .refl _
  | cons a l ih =>
    unfold insertByEntry
    split
    · exact ((List.Perm.cons a ih).trans (List.Perm.swap x a l))
    · exact .refl _

theorem insertByEntry_ascending {x : Notice} {l : List Notice}
    (h : (l.map (·.entry)).Pairwise (· < ·)) (hx : ∀ y ∈ l, y.entry ≠ x.entry) :
    ((insertByEntry x l).map (·.entry)).Pairwise (· < ·) := by
  induction l with
  | nil => simp [insertByEntry]
  | cons a l ih =>
    rw [List.map_cons, List.pairwise_cons] at h
    unfold insertByEntry
    split
    · rename_i ha
      rw [List.map_cons, List.pairwise_cons]
      refine ⟨?_, ih h.2 fun y hy => hx y (List.mem_cons_of_mem _ hy)⟩
      intro b hb
      rw [List.mem_map] at hb
      obtain ⟨y, hy, rfl⟩ := hb
      rcases List.mem_cons.mp ((insertByEntry_perm x l).mem_iff.mp hy) with rfl | hy
      · exact ha
      · exact h.1 _ (List.mem_map_of_mem hy)
    · rename_i ha
      have hxa : x.entry < a.entry := by
        have h1 : a.entry.val ≠ x.entry.val := fun h => hx a List.mem_cons_self (Fin.ext h)
        have h2 : ¬ a.entry.val < x.entry.val := ha
        exact Fin.lt_def.mpr (by omega)
      rw [List.map_cons, List.pairwise_cons]
      refine ⟨?_, by rw [List.map_cons, List.pairwise_cons]; exact h⟩
      intro b hb
      rcases List.mem_cons.mp hb with rfl | hb
      · exact hxa
      · exact Nat.lt_trans hxa (h.1 b hb)

theorem sealedPart_append_openPart (n : NoticeQueue) : n.sealedPart ++ n.openPart = n.proper := by
  unfold NoticeQueue.sealedPart NoticeQueue.openPart
  split
  · exact List.take_append_drop 1 n.proper
  · rfl

theorem not_any_entry {l : List Notice} {e : EntryIdx} (h : ¬ l.any (·.entry == e) = true) :
    ∀ y ∈ l, y.entry ≠ e := by
  intro y hy hye
  exact h (List.any_eq_true.mpr ⟨y, hy, by simp [hye]⟩)

theorem openPart_with_proper (n : NoticeQueue) (m : List Notice) (hs : n.headSealed → n.proper ≠ []) :
    NoticeQueue.openPart { n with proper := n.sealedPart ++ m } = m := by
  simp only [NoticeQueue.openPart, NoticeQueue.sealedPart]
  cases hh : n.headSealed with
  | false => simp
  | true =>
    obtain ⟨a, l, hl⟩ := List.exists_cons_of_ne_nil (hs hh)
    simp [hl]

theorem posted_law {n : NoticeQueue} {p : Post} (h : n.Law) (hp : 1 ≤ p.count) : (n.posted p).Law := by
  have hprop := sealedPart_append_openPart n
  unfold NoticeQueue.posted
  split
  · -- merged into an open notice of the queue proper
    have hlen : (n.sealedPart ++ mergeWhere p n.openPart).length = n.proper.length := by
      rw [← hprop, List.length_append, List.length_append, mergeWhere_length]
    refine ⟨by simp only [hlen]; exact h.proper, fun hb => by simp only [hlen]; exact h.backlog hb, h.ascending,
      ?_, ?_, ?_, h.watermark⟩
    · rw [openPart_with_proper n _ h.sealed, List.map_append, mergeWhere_entries, ← List.map_append]
      exact h.oneOpen
    · intro hs
      have := List.length_pos_iff.mpr (h.sealed hs)
      exact List.ne_nil_of_length_pos (by simp only [hlen]; exact this)
    · intro x hx
      simp only [List.mem_append] at hx
      have hc := h.counts
      rw [← hprop] at hc
      rcases hx with (hx | hx) | hx
      · exact hc x (by simp [hx])
      · exact mergeWhere_counts hp (fun y hy => hc y (by simp [hy])) x hx
      · exact hc x (by simp [hx])
  · rename_i hopen
    split
    · -- merged in the backlog
      refine ⟨h.proper, ?_, ?_, ?_, h.sealed, ?_, h.watermark⟩
      · intro hb
        refine h.backlog fun hn => hb ?_
        simp [hn, mergeWhere]
      · simp only [mergeWhere_entries]; exact h.ascending
      · have : NoticeQueue.openPart { n with backlog := mergeWhere p n.backlog } = n.openPart := rfl
        rw [this, List.map_append]
        simp only [mergeWhere_entries]
        rw [← List.map_append]
        exact h.oneOpen
      · intro x hx
        rcases List.mem_append.mp hx with hx | hx
        · exact h.counts x (by simp [hx])
        · exact mergeWhere_counts hp (fun y hy => h.counts y (by simp [hy])) x hx
    · rename_i hback
      have hno := not_any_entry hopen
      have hnb := not_any_entry hback
      have hnew : 1 ≤ p.opened.count.toNat := cappedCount_pos hp
      split
      · -- a new notice at the tail
        rename_i hroom
        have hroom : n.proper.length < 16 := hroom
        have hbe : n.backlog = [] := by
          rcases hb : n.backlog with _ | ⟨a, l⟩
          · rfl
          · have := h.backlog (by simp [hb]); omega
        have hop : NoticeQueue.openPart { n with proper := n.proper ++ [p.opened] }
            = n.openPart ++ [p.opened] := by
          rw [← openPart_with_proper n (n.openPart ++ [p.opened]) h.sealed, ← List.append_assoc, hprop]
        refine ⟨by simp; omega, fun hb => absurd hbe hb, h.ascending, ?_, by intro _; simp, ?_, h.watermark⟩
        · rw [hop]
          simp only [hbe, List.append_nil, List.map_append, List.map_cons, List.map_nil]
          have h3 := h.oneOpen
          simp only [hbe, List.append_nil] at h3
          rw [List.nodup_append]
          refine ⟨h3, by simp, ?_⟩
          intro a ha b hb
          rw [List.mem_map] at ha
          obtain ⟨y, hy, rfl⟩ := ha
          rw [List.mem_singleton] at hb
          rw [hb]
          exact hno y hy
        · intro x hx
          simp only [List.mem_append, List.mem_singleton] at hx
          rcases hx with (hx | rfl) | hx
          · exact h.counts x (by simp [hx])
          · exact hnew
          · exact h.counts x (by simp [hx])
      · -- a new notice in the backlog
        rename_i hroom
        have hfull : n.proper.length = 16 := Nat.le_antisymm h.proper (Nat.not_lt.mp hroom)
        have hperm := insertByEntry_perm p.opened n.backlog
        refine ⟨h.proper, fun _ => hfull, insertByEntry_ascending h.ascending hnb, ?_, h.sealed, ?_, h.watermark⟩
        · have hop : NoticeQueue.openPart { n with backlog := insertByEntry p.opened n.backlog } = n.openPart := rfl
          rw [hop]
          have h3 := h.oneOpen
          rw [List.map_append, List.nodup_append] at h3 ⊢
          refine ⟨h3.1, ((hperm.map _).nodup_iff).mpr ?_, ?_⟩
          · rw [List.map_cons, List.nodup_cons]
            refine ⟨?_, h3.2.1⟩
            intro hm
            rw [List.mem_map] at hm
            obtain ⟨y, hy, hye⟩ := hm
            exact hnb y hy hye
          · intro a ha b hb
            rw [List.mem_map] at hb
            obtain ⟨y, hy, rfl⟩ := hb
            rcases List.mem_cons.mp (hperm.mem_iff.mp hy) with rfl | hy
            · rw [List.mem_map] at ha
              obtain ⟨z, hz, rfl⟩ := ha
              exact hno z hz
            · exact h3.2.2 a ha _ (List.mem_map_of_mem hy)
        · intro x hx
          rcases List.mem_append.mp hx with hx | hx
          · exact h.counts x (by simp [hx])
          · rcases List.mem_cons.mp (hperm.mem_iff.mp hx) with rfl | hx
            · exact hnew
            · exact h.counts x (by simp [hx])

/-! ## Sealing (R92, R96) -/

theorem sealed_law {n : NoticeQueue} (h : n.Law) (hp : n.proper ≠ []) (l : List Byte) (k : Fin 9) :
    NoticeQueue.Law { n with latch := l, headSealed := true, pointer := k } := by
  refine ⟨h.proper, h.backlog, h.ascending, ?_, fun _ => hp, h.counts, h.watermark⟩
  refine h.oneOpen.sublist (List.Sublist.map _ (List.Sublist.append ?_ (List.Sublist.refl _)))
  simp only [NoticeQueue.openPart]
  exact drop_one_sublist_openPart n

/-- The port and the standing pop are not part of the law. -/
theorem NoticeQueue.Law.of_port {n m : NoticeQueue} (h : n.Law) (h1 : m.proper = n.proper)
    (h2 : m.headSealed = n.headSealed) (h3 : m.backlog = n.backlog) (h4 : m.watermark = n.watermark) : m.Law := by
  obtain ⟨a, b, c, d, e, f, g⟩ := h
  have ho : m.openPart = n.openPart := by simp only [NoticeQueue.openPart, h1, h2]
  exact ⟨by rw [h1]; exact a, by rw [h1, h3]; exact b, by rw [h3]; exact c, by rw [ho, h3]; exact d,
    by rw [h1, h2]; exact e, by rw [h1, h3]; exact f, by rw [h4]; exact g⟩

end Sys2Proof.Machine
end

