-- ==== Sys2Proof/Laws/Lists.lean ====
section
/-!
SUPPORT. The pending lists and the free list: what an insertion, a removal, an allocation and a release do to the law
of R5 and R7.
-/
namespace Sys2Proof.Machine

/-! ## Insertion by distance (R45) -/

/-- An insertion adds the entry and loses none. -/
theorem insertByDistance_perm (dist : EntryIdx → Int) (e : EntryIdx) (d : Int) (l : List EntryIdx) :
    (insertByDistance dist e d l).Perm (e :: l) := by
  induction l with
  | nil => exact .refl _
  | cons a l ih =>
    unfold insertByDistance
    split
    · exact (List.Perm.cons a ih).trans (List.Perm.swap e a l)
    · exact .refl _

theorem mem_insertByDistance {dist : EntryIdx → Int} {e a : EntryIdx} {d : Int} {l : List EntryIdx} :
    a ∈ insertByDistance dist e d l ↔ a = e ∨ a ∈ l := by
  rw [(insertByDistance_perm dist e d l).mem_iff, List.mem_cons]

theorem insertByDistance_nodup {dist : EntryIdx → Int} {e : EntryIdx} {d : Int} {l : List EntryIdx}
    (h : l.Nodup) (he : e ∉ l) : (insertByDistance dist e d l).Nodup :=
  (insertByDistance_perm dist e d l).nodup_iff.mpr (List.nodup_cons.mpr ⟨he, h⟩)

/-- The entry goes behind the leading entries at its distance or less, ahead of the others (R45). -/
theorem insertByDistance_eq (dist : EntryIdx → Int) (e : EntryIdx) (d : Int) (l : List EntryIdx) :
    insertByDistance dist e d l =
      l.take (passedByDistance dist d l) ++ e :: l.drop (passedByDistance dist d l) := by
  induction l with
  | nil => rfl
  | cons a l ih =>
    unfold insertByDistance passedByDistance
    split
    · simp [ih]
    · simp

/-! ## The two lists against the entry states -/

/-- The four list clauses of `ListLaw`. -/
structure State.Linked (s : State) : Prop where
  free : ∀ e, e ∈ s.table.freeList ↔ (s.entry e).state = .free
  freeOnce : s.table.freeList.Nodup
  pending : ∀ t e, e ∈ s.list t ↔ (s.entry e).state = .armed ∧ (s.entry e).behavior.timebase = t
  once : ∀ t, (s.list t).Nodup

/-- The clauses for every entry but one, which stands on no list. -/
structure State.LinkedBut (s : State) (x : EntryIdx) : Prop where
  free : ∀ e, e ≠ x → (e ∈ s.table.freeList ↔ (s.entry e).state = .free)
  freeOff : x ∉ s.table.freeList
  freeOnce : s.table.freeList.Nodup
  pending : ∀ t e, e ≠ x → (e ∈ s.list t ↔ (s.entry e).state = .armed ∧ (s.entry e).behavior.timebase = t)
  off : ∀ t, x ∉ s.list t
  once : ∀ t, (s.list t).Nodup

theorem State.ListLaw.linked {s : State} (h : s.ListLaw) : s.Linked := ⟨h.free, h.freeOnce, h.pending, h.once⟩

theorem State.Linked.of {s t : State} (h : s.Linked) (ht : t.table = s.table) (hl : ∀ b, t.list b = s.list b) :
    t.Linked := by
  have he : ∀ e, t.entry e = s.entry e := entry_of_table ht
  exact ⟨fun e => by rw [he, ht]; exact h.free e, by rw [ht]; exact h.freeOnce,
    fun b e => by rw [he, hl]; exact h.pending b e, fun b => by rw [hl]; exact h.once b⟩

/-- An entry on no list may be taken out of account. -/
theorem State.Linked.but {s : State} (h : s.Linked) {e : EntryIdx}
    (he : (s.entry e).state ≠ .free) (ha : (s.entry e).state ≠ .armed) : s.LinkedBut e :=
  ⟨fun a _ => h.free a, fun hm => he ((h.free e).mp hm), h.freeOnce, fun t a _ => h.pending t a,
    fun t hm => ha ((h.pending t e).mp hm).1, h.once⟩

/-- A removal takes the entry off its list (R46). -/
theorem unlink_but {s : State} (h : s.Linked) {e : EntryIdx} (ha : (s.entry e).state = .armed) :
    (s.unlink e).LinkedBut e := by
  have hent : ∀ a, (s.unlink e).entry a = s.entry a := entry_of_table (by simp)
  have hl : ∀ t, (s.unlink e).list t =
      if (s.entry e).behavior.timebase = t then (s.list t).erase e else s.list t := by
    intro t
    unfold State.unlink
    rw [list_setList]
    split
    · rename_i hh; rw [hh]
    · rfl
  refine ⟨fun a _ => by rw [hent]; simpa using h.free a, ?_, by simpa using h.freeOnce, ?_, ?_, ?_⟩
  · intro hm
    have := (h.free e).mp (by simpa using hm)
    rw [ha] at this; cases this
  · intro t a hne
    rw [hent, hl]
    split
    · rw [(h.once t).mem_erase_iff]
      exact ⟨fun hm => (h.pending t a).mp hm.2, fun hm => ⟨hne, (h.pending t a).mpr hm⟩⟩
    · exact h.pending t a
  · intro t
    rw [hl]
    split
    · exact fun hm => ((h.once t).mem_erase_iff.mp hm).1 rfl
    · rename_i hne
      exact fun hm => hne ((h.pending t e).mp hm).2
  · intro t
    rw [hl]
    split
    · exact (h.once t).erase e
    · exact h.once t

/-- An entry on no list may be written with a state that stands on no list (R5). -/
theorem setEntry_linked {s : State} {e : EntryIdx} (h : s.LinkedBut e) {x : Entry}
    (hf : x.state ≠ .free) (ha : x.state ≠ .armed) : (s.setEntry e x).Linked := by
  have hent : ∀ a, (s.setEntry e x).entry a = if e = a then x else s.entry a := fun a => entry_setEntry s e a x
  have hl : ∀ t, (s.setEntry e x).list t = s.list t := list_of_engine (by simp)
  refine ⟨fun a => ?_, h.freeOnce, fun t a => ?_, fun t => by rw [hl]; exact h.once t⟩
  · rw [hent, setEntry_freeList]
    split
    · rename_i hh; subst hh
      exact ⟨fun hm => absurd hm h.freeOff, fun hm => absurd hm hf⟩
    · rename_i hh; exact h.free a (Ne.symm hh)
  · rw [hent, hl]
    split
    · rename_i hh; subst hh
      exact ⟨fun hm => absurd hm (h.off t), fun hm => absurd hm.1 ha⟩
    · rename_i hh; exact h.pending t a (Ne.symm hh)

/-- An insertion links an entry that stands on no list (R45). -/
theorem link_linked {s : State} {e : EntryIdx} (h : s.LinkedBut e) (n d : Tick) (r : Byte) :
    (s.link n e d r).Linked := by
  have hent : ∀ a, (s.link n e d r).entry a = if e = a then (s.entry e).armed d r else s.entry a := by
    intro a
    unfold State.link
    rw [entry_setEntry]
    split
    · rfl
    · exact entry_of_table (by simp) a
  have hl : ∀ t, (s.link n e d r).list t = if (s.entry e).behavior.timebase = t then
      insertByDistance (fun a => distance (s.entry a).deadline n) e (distance d n) ((s.list t).erase e)
      else s.list t := by
    intro t
    unfold State.link State.insertAt
    rw [list_of_engine (setEntry_engine _ _ _), list_setList]
    split
    · rename_i hh; rw [hh]
    · rfl
  have her : ∀ t, (s.list t).erase e = s.list t := fun t => List.erase_of_not_mem (h.off t)
  refine ⟨fun a => ?_, by simpa [State.link, State.insertAt] using h.freeOnce, fun t a => ?_, fun t => ?_⟩
  · have hfl : (s.link n e d r).table.freeList = s.table.freeList := by simp [State.link]
    rw [hent, hfl]
    split
    · rename_i hh; subst hh
      exact ⟨fun hm => absurd hm h.freeOff, fun hm => by cases hm⟩
    · rename_i hh; exact h.free a (Ne.symm hh)
  · rw [hent, hl]
    by_cases hh : e = a
    · subst hh
      rw [if_pos rfl]
      split
      · rename_i ht
        exact ⟨fun _ => ⟨rfl, ht⟩, fun _ => mem_insertByDistance.mpr (.inl rfl)⟩
      · rename_i ht
        exact ⟨fun hm => absurd hm (h.off t), fun hm => absurd hm.2 ht⟩
    · rw [if_neg hh]
      split
      · rw [mem_insertByDistance, her]
        rw [← h.pending t a (Ne.symm hh)]
        exact ⟨fun hm => hm.resolve_left (Ne.symm hh), .inr⟩
      · exact h.pending t a (Ne.symm hh)
  · rw [hl]
    split
    · exact insertByDistance_nodup ((h.once t).erase e) (by rw [her]; exact h.off t)
    · exact h.once t

/-- A restart takes an ARMED entry out of its old place and into the new one (R45). -/
theorem link_of_armed {s : State} {e : EntryIdx} (ha : (s.entry e).state = .armed) (h : s.Linked) (n d : Tick)
    (r : Byte) : (s.link n e d r).Linked := by
  have hb := unlink_but h ha
  have hent : ∀ a, (s.unlink e).entry a = s.entry a := entry_of_table (by simp)
  refine (link_linked hb n d r).of ?_ ?_
  · simp [State.link, State.insertAt, State.unlink, State.setEntry, State.entry]
  · intro t
    have hl : (s.unlink e).list (s.entry e).behavior.timebase =
        (s.list (s.entry e).behavior.timebase).erase e := by
      unfold State.unlink; rw [list_setList_same]
    have hoff : e ∉ (s.list (s.entry e).behavior.timebase).erase e := hl ▸ hb.off _
    unfold State.link State.insertAt
    rw [list_of_engine (setEntry_engine _ _ _), list_of_engine (setEntry_engine _ _ _), list_setList, list_setList]
    simp only [hent]
    rw [hl, List.erase_of_not_mem hoff]
    split
    · rfl
    · rename_i hne
      unfold State.unlink
      rw [list_setList, if_neg hne]

/-- A release appends an entry that stands on no list (R8). -/
theorem release_linked {s : State} {e : EntryIdx} (h : s.LinkedBut e) : (s.release e).Linked := by
  have hent : ∀ a, (s.release e).entry a = if e = a then (s.entry e).settled .free else s.entry a :=
    fun a => entry_setEntry s e a _
  have hfl : (s.release e).table.freeList = s.table.freeList ++ [e] := rfl
  have hl : ∀ t, (s.release e).list t = s.list t := list_of_engine (by simp)
  refine ⟨fun a => ?_, ?_, fun t a => ?_, fun t => by rw [hl]; exact h.once t⟩
  · rw [hent, hfl, List.mem_append, List.mem_singleton]
    split
    · rename_i hh; exact ⟨fun _ => rfl, fun _ => .inr hh.symm⟩
    · rename_i hh
      rw [← h.free a (Ne.symm hh)]
      exact ⟨fun hm => hm.resolve_right (Ne.symm hh), .inl⟩
  · rw [hfl, List.nodup_append]
    refine ⟨h.freeOnce, by simp, ?_⟩
    intro a ha b hb hab
    rw [List.mem_singleton] at hb
    exact h.freeOff (hb ▸ hab ▸ ha)
  · rw [hent, hl]
    split
    · rename_i hh; subst hh
      exact ⟨fun hm => absurd hm (h.off t), fun hm => by cases hm.1⟩
    · rename_i hh; exact h.pending t a (Ne.symm hh)

/-- An allocation takes a FREE entry off the free list and makes it IDLE (R11, R12). -/
theorem allocate_linked {s : State} (h : s.Linked) {e : EntryIdx} (he : (s.entry e).state = .free) :
    (s.allocate e).Linked := by
  have hent : ∀ a, (s.allocate e).entry a = if e = a then .allocated else s.entry a :=
    fun a => entry_setEntry s e a _
  have hfl : (s.allocate e).table.freeList = s.table.freeList.erase e := rfl
  have hl : ∀ t, (s.allocate e).list t = s.list t := list_of_engine (by simp)
  refine ⟨fun a => ?_, by rw [hfl]; exact h.freeOnce.erase e, fun t a => ?_, fun t => by rw [hl]; exact h.once t⟩
  · rw [hent, hfl, h.freeOnce.mem_erase_iff]
    split
    · rename_i hh; subst hh
      exact ⟨fun hm => absurd rfl hm.1, fun hm => by cases hm⟩
    · rename_i hh
      rw [← h.free a]
      exact ⟨And.right, fun hm => ⟨Ne.symm hh, hm⟩⟩
  · rw [hent, hl]
    split
    · rename_i hh; subst hh
      refine ⟨fun hm => ?_, fun hm => by cases hm.1⟩
      have := ((h.pending t e).mp hm).1
      rw [he] at this; cases this
    · exact h.pending t a

/-- A write that keeps the state, and the timebase of an ARMED entry, keeps the lists. -/
theorem setEntry_kept {s : State} (h : s.Linked) {e : EntryIdx} {x : Entry} (hs : x.state = (s.entry e).state)
    (ht : x.state = .armed → x.behavior.timebase = (s.entry e).behavior.timebase) : (s.setEntry e x).Linked := by
  have hent : ∀ a, (s.setEntry e x).entry a = if e = a then x else s.entry a := fun a => entry_setEntry s e a x
  have hl : ∀ t, (s.setEntry e x).list t = s.list t := list_of_engine (by simp)
  refine ⟨fun a => ?_, h.freeOnce, fun t a => ?_, fun t => by rw [hl]; exact h.once t⟩
  · rw [hent, setEntry_freeList, h.free a]
    split
    · rename_i hh; subst hh; rw [hs]
    · rfl
  · rw [hent, hl, h.pending t a]
    split
    · rename_i hh; subst hh
      rw [hs]
      refine and_congr_right fun ha => ?_
      rw [ht (hs.trans ha)]
    · rfl

end Sys2Proof.Machine
end

