-- ==== Sys2Proof/Laws/Owners.lean ====
section
/-!
SUPPORT. What the owners' steps do: takes, pops, purges, reports and flushes, each said once.
-/
namespace Sys2Proof.Machine

/-! ## Groups and lists -/

theorem raiseHeld_group (s : State) (og : Option GroupIdx) (g : GroupIdx) :
    (s.raiseHeld og).group g = { s.group g with heldCount := (s.group g).heldCount + (if og = some g then 1 else 0) } := by
  cases og with
  | none => simp [State.raiseHeld]
  | some h =>
    simp only [State.raiseHeld, group_setGroup]
    by_cases hh : h = g
    · subst hh; simp
    · simp [hh]

theorem lowerHeld_group (s : State) (og : Option GroupIdx) (g : GroupIdx) :
    (s.lowerHeld og).group g = { s.group g with heldCount := (s.group g).heldCount - (if og = some g then 1 else 0) } := by
  cases og with
  | none => simp [State.lowerHeld]
  | some h =>
    simp only [State.lowerHeld, group_setGroup]
    by_cases hh : h = g
    · subst hh; simp
    · simp [hh]

theorem raiseHeld_list (s : State) (og : Option GroupIdx) (b) : (s.raiseHeld og).list b = s.list b := by
  cases og <;> simp [State.raiseHeld]

theorem lowerHeld_list (s : State) (og : Option GroupIdx) (b) : (s.lowerHeld og).list b = s.list b := by
  cases og <;> simp [State.lowerHeld]

theorem list_detach (s : State) (e : EntryIdx) (b : Timebase) : (s.detach e).list b =
    if (s.entry e).state = .armed ∧ (s.entry e).behavior.timebase = b then (s.list b).erase e else s.list b := by
  unfold State.detach
  split <;> rename_i h
  · simp only [State.unlink, list_setList, h, true_and]
    split
    · rename_i hh; subst hh; rfl
    · rfl
  · rw [lowerHeld_list]; simp [h]
  all_goals simp [h]

theorem group_detach (s : State) (e : EntryIdx) (g) : (s.detach e).group g =
    { s.group g with heldCount := (s.group g).heldCount -
      (if (s.entry e).state = .held ∧ (s.entry e).behavior.group = some g then 1 else 0) } := by
  unfold State.detach
  split <;> rename_i h
  · simp [h, State.unlink]; show (State.setList _ _ _).engine.groups[g] = _; simp [State.group]
  · rw [lowerHeld_group]; simp [h]
  all_goals simp [h]

/-! ## Owners, notices and reports -/

/-- The take reads the queue it is given, not the one that stands in the state. -/
theorem takeFrom_queue (q r : List QueuedCommand) (s : State) :
    takeFrom q { s with cmd := { s.cmd with queue := r } } = takeFrom q s := by
  induction q generalizing s with
  | nil => rfl
  | cons c q ih =>
    have hcan : ({ s with cmd := { s.cmd with queue := r } } : State).canTake = s.canTake := rfl
    rw [takeFrom, takeFrom, hcan]
    cases s.canTake with
    | false => rfl
    | true =>
      cases c.check with
      | ok k => rfl
      | error st => exact ih (s.addResult c st c.failValue)

theorem takeFrom_pptr (q : List QueuedCommand) (s : State) :
    (takeFrom q s).cmd.pptr = s.cmd.pptr ∧ (takeFrom q s).cmd.staging = s.cmd.staging := by
  induction q generalizing s with
  | nil => exact ⟨rfl, rfl⟩
  | cons c q ih =>
    simp only [takeFrom]
    split
    · cases c.check with
      | ok k => exact ⟨rfl, rfl⟩
      | error st => exact ih (s.addResult c st c.failValue)
    · exact ⟨rfl, rfl⟩

/-- An owner that takes a due command returns its outcome to the Command Unit. -/
theorem ownerStep_eq {s : State} {c : Command} {r : Owned} {k : Command → Bool} (h : s.ownerDue = some c)
    (ho : s.owned c = some r) (hk : k c = true) : s.ownerStep k = r.1.answer r.2.1 r.2.2 := by
  obtain ⟨s', st, v⟩ := r
  simp [State.ownerStep, h, ho, hk]

theorem ownerStep_pending (s : State) (k) : (s.ownerStep k).pending = s.pending := by
  unfold State.ownerStep
  split
  · rfl
  · split
    · rfl
    · rename_i h
      have := owned_frame h
      split
      · simp at this ⊢
        have h2 := congrArg (·.pending) this
        simpa using h2
      · rfl

theorem dueStep_pending {s t : State} (h : s.dueStep = some t) : t.pending = s.pending := by
  have K : DueKeeps (fun u => u.pending = s.pending) := by
    constructor
    · intro u e hu; simp [hu]
    · intro u e hu; simp [hu]
    · intro u hu; simp [hu]
    · intro u k hu; rw [ownerStep_pending]; exact hu
    · intro u _ hu; simp [hu]
  exact dueStep_keeps K rfl h

theorem takeDue_pending (n : Nat) (s : State) : (s.takeDue n).pending = s.pending := by
  induction n generalizing s with
  | zero => rfl
  | succ n ih =>
    simp only [State.takeDue]
    split
    · rfl
    · rename_i h; rw [ih, dueStep_pending h]

@[simp] theorem beforeGrant_pending (s : State) : s.beforeGrant.pending = s.pending := takeDue_pending _ _

@[simp] theorem settle_pending (s : State) : s.settle.pending = s.pending := by simp [State.settle]

theorem queue_setQueue_other {s : State} {q r : QueueId} (h : r ≠ q) (n) : (s.setQueue q n).queue r = s.queue r := by
  rw [queue_setQueue]; simp [Ne.symm h]

@[simp] theorem answerRead_queue (s : State) (b) (q) : (s.answerRead b).queue q = s.queue q := by cases q <;> rfl

theorem countP_drop (f : Notice → Bool) (l : List Notice) : (l.take 1).countP f + (l.drop 1).countP f = l.countP f := by
  rw [← List.countP_append, List.take_append_drop]

/-- A pop that leaves one free place takes one notice out of the backlog (R99). -/
theorem popped_eq {n : NoticeQueue} {h : Notice} {rest : List Notice} (hp : n.proper = h :: rest)
    (_hl : rest.length ≤ 15) (hb : n.backlog ≠ [] → rest.length = 15) :
    n.popped = { n with proper := rest ++ n.backlog.take 1, backlog := n.backlog.drop 1
                        headSealed := false, pointer := 0, latch := [] } := by
  have h1 : (drainInto rest n.backlog) = (rest ++ n.backlog.take 1, n.backlog.drop 1) := by
    rw [drainInto_eq]
    by_cases hbe : n.backlog = []
    · simp [hbe]
    · have := hb hbe; simp [this]
  simp only [NoticeQueue.popped, NoticeQueue.drained, hp, List.drop_succ_cons, List.drop_zero, h1]

theorem countOf_popped {n : NoticeQueue} {h : Notice} {rest : List Notice} (hp : n.proper = h :: rest)
    (hl : rest.length ≤ 15) (hb : n.backlog ≠ [] → rest.length = 15) (e : EntryIdx) :
    n.popped.countOf e + (if h.entry = e then 1 else 0) = n.countOf e := by
  rw [popped_eq hp hl hb]
  simp only [NoticeQueue.countOf, hp, List.countP_append, List.countP_cons]
  have := countP_drop (·.entry == e) n.backlog
  by_cases he : h.entry = e <;> simp only [he, beq_self_eq_true, if_true, if_false, beq_iff_eq] <;> omega

theorem noticesOf_setQueue (s : State) (q : QueueId) (n : NoticeQueue) (e : EntryIdx) :
    (s.setQueue q n).noticesOf e + (s.queue q).countOf e = s.noticesOf e + n.countOf e := by
  cases q <;> simp [State.noticesOf, State.queue, State.setQueue] <;> omega

theorem entry_release_same (s : State) (e : EntryIdx) : (s.release e).entry e = (s.entry e).settled .free := by
  unfold State.release; exact entry_setEntry_same s e _

theorem entry_release_other (s : State) {e a : EntryIdx} (h : a ≠ e) : (s.release e).entry a = s.entry a := by
  unfold State.release; exact entry_setEntry_other s _ (Ne.symm h)

theorem freeList_release (s : State) (e : EntryIdx) : (s.release e).table.freeList = s.table.freeList ++ [e] := rfl

theorem countOf_drained (n : NoticeQueue) (e : EntryIdx) : n.drained.countOf e = n.countOf e := by
  simp only [NoticeQueue.countOf, NoticeQueue.drained, drainInto_eq, List.countP_append]
  have : ((n.backlog.take (16 - n.proper.length)).countP (·.entry == e)) + ((n.backlog.drop (16 - n.proper.length)).countP (·.entry == e)) = n.backlog.countP (·.entry == e) := by
    rw [← List.countP_append, List.take_append_drop]
  omega

theorem countOf_purged (n : NoticeQueue) (e a : EntryIdx) : (n.purged e).countOf a = if a = e then 0 else n.countOf a := by
  unfold NoticeQueue.purged
  rw [countOf_drained]
  have key : ∀ l : List Notice, (l.filter (·.entry != e)).countP (·.entry == a) = if a = e then 0 else l.countP (·.entry == a) := by
    intro l
    rw [List.countP_filter]
    split
    · rename_i h; subst h
      rw [List.countP_eq_zero]; intro x _; simp
    · rename_i h
      apply List.countP_congr
      intro x _; simp; intro hx; rw [hx]; exact h
  simp only [NoticeQueue.countOf, key]
  split <;> rfl

theorem standing_purged (n : NoticeQueue) (e) : (n.purged e).standing = n.standing := rfl

theorem queue_purge (s : State) (e : EntryIdx) (q) : (s.purge e).queue q = (s.queue q).purged e := by
  unfold State.purge
  dsimp only
  split
  · cases q <;> rfl
  · rw [sendReport_queue]; cases q <;> rfl

theorem purge_queue_count (s : State) (e : EntryIdx) (q a) : ((s.purge e).queue q).countOf a = if a = e then 0 else (s.queue q).countOf a := by
  rw [queue_purge, countOf_purged]

/-- A purge of an entry under a claim leaves its report waiting (R17, R101). -/
theorem purge_claimed {s : State} {e : EntryIdx} (hc : s.claimed e = true) :
    (s.purge e).table = s.table ∧
    (s.purge e).notices.reports = if s.noticesOf e = 0 then s.notices.reports else s.notices.reports ++ [e] := by
  unfold State.purge
  dsimp only
  split
  · exact ⟨by simp, by simp⟩
  · have : ((s.setQueue .nq0 ((s.queue .nq0).purged e)).setQueue .nq1 ((s.queue .nq1).purged e)).claimed e = true := by
      rw [claimed_of_engine (s := s) (by simp)]; exact hc
    unfold State.sendReport
    rw [if_pos this]
    exact ⟨by simp, by simp⟩

theorem posted_standing (n : NoticeQueue) (p : Post) : (n.posted p).standing = n.standing := by
  unfold NoticeQueue.posted; (repeat' split) <;> rfl

theorem takePost_keeps (s : State) (p : Post) : (s.takePost p).table = s.table ∧ (s.takePost p).cmd = s.cmd ∧ (s.takePost p).notices.reports = s.notices.reports := by
  simp [State.takePost]

/-- Everything a taken pop does, when it may be taken (R98, R100, R106). -/
theorem takePop_eq {s : State} {q : QueueId} {h : Notice} {rest : List Notice}
    (hp : (s.queue q).proper = h :: rest) (hl : rest.length ≤ 15) (hb : (s.queue q).backlog ≠ [] → rest.length = 15)
    (hn : ¬((s.entry h.entry).state = .spent ∧ s.claimed h.entry = true ∧ s.noticesOf h.entry = 1)) :
    let t := s.takePop q h.entry.val
    t.queue q = (s.queue q).popped ∧ (∀ r, r ≠ q → t.queue r = s.queue r) ∧
      ((s.entry h.entry).state = .spent → s.noticesOf h.entry = 1 →
        t.entry h.entry = (s.entry h.entry).settled .free ∧
        t.table.freeList = s.table.freeList ++ [h.entry]) ∧
      (¬((s.entry h.entry).state = .spent ∧ s.noticesOf h.entry = 1) → t.table = s.table) ∧
      (∀ a, a ≠ h.entry → t.entry a = s.entry a) ∧
      t.bus = s.bus ∧ t.cmd = s.cmd ∧ t.time = s.time ∧ t.engine = s.engine ∧ t.trig = s.trig ∧
      t.out = s.out ∧ t.irq = s.irq := by
  intro t
  have ht : t = (s.setQueue q (s.queue q).popped).reportIfNone h.entry := by
    show s.takePop q h.entry.val = _
    simp [State.takePop, hp]
  have hc := noticesOf_setQueue s q (s.queue q).popped h.entry
  have hc2 := countOf_popped hp hl hb h.entry
  simp only [if_true] at hc2
  have hcl : ∀ a, (s.setQueue q (s.queue q).popped).claimed a = s.claimed a := claimed_of_engine (by simp)
  have hen : ∀ a, (s.setQueue q (s.queue q).popped).entry a = s.entry a := entry_of_table (by simp)
  have hq : ∀ r, t.queue r = (s.setQueue q (s.queue q).popped).queue r := by
    intro r; rw [ht]; unfold State.reportIfNone; split
    · exact sendReport_queue _ _ _
    · rfl
  refine ⟨by rw [hq]; simp, fun r hr => by rw [hq, queue_setQueue_other hr], ?_, ?_, ?_, ?_, ?_, ?_, ?_, ?_, ?_, ?_⟩
  · intro hsp h1
    have hz : (s.setQueue q (s.queue q).popped).noticesOf h.entry = 0 := by omega
    have hnc : s.claimed h.entry = false := by
      cases hcc : s.claimed h.entry with
      | false => rfl
      | true => exact absurd ⟨hsp, hcc, h1⟩ hn
    rw [ht]
    simp only [State.reportIfNone, hz, if_true, State.sendReport, hcl, hnc, State.takeReport, hen, hsp, and_self]
    exact ⟨by rw [if_neg (by simp), entry_release_same, hen], by rw [if_neg (by simp), freeList_release]; simp⟩
  · intro hne
    rw [ht]; unfold State.reportIfNone
    split
    · rename_i hz
      have h1 : s.noticesOf h.entry = 1 := by omega
      have hsp : (s.entry h.entry).state ≠ .spent := fun hh => hne ⟨hh, h1⟩
      unfold State.sendReport; rw [hcl]
      split
      · simp
      · unfold State.takeReport; rw [hen]; rw [if_neg (fun hh => hsp hh.1)]; simp
    · simp
  · intro a ha
    rw [ht]; unfold State.reportIfNone
    split
    · unfold State.sendReport
      split
      · exact hen a
      · unfold State.takeReport
        split
        · rw [entry_release_other _ ha, hen]
        · exact hen a
    · exact hen a
  all_goals rw [ht]; simp

/-- Reports that may all be taken release the SPENT entries without notices, in their order (R9, R103). -/
theorem sendReports_table (l : List EntryIdx) (s : State) (hn : l.Nodup)
    (hc : ∀ e ∈ l, (s.entry e).state = .spent → s.noticesOf e = 0 → s.claimed e = false) :
    let g (e : EntryIdx) : Bool := (s.entry e).state == .spent && decide (s.noticesOf e = 0)
    (l.foldl State.sendReport s).table.freeList = s.table.freeList ++ l.filter g ∧
    ∀ a, (l.foldl State.sendReport s).entry a = if a ∈ l ∧ g a = true then (s.entry a).settled .free else s.entry a := by
  induction l generalizing s with
  | nil => simp
  | cons e l ih =>
    intro g
    simp only [List.foldl_cons]
    have hne : e ∉ l := (List.nodup_cons.mp hn).1
    have hno : ∀ a, (s.sendReport e).noticesOf a = s.noticesOf a := fun a => by
      simp [State.noticesOf, sendReport_queue]
    have hcl : ∀ a, (s.sendReport e).claimed a = s.claimed a := claimed_of_engine (by simp)
    have hse : ∀ a, a ≠ e → (s.sendReport e).entry a = s.entry a := by
      intro a ha
      unfold State.sendReport State.takeReport
      split
      · rfl
      · split
        · unfold State.release; exact entry_setEntry_other s _ (Ne.symm ha)
        · rfl
    have hself : (s.sendReport e).entry e = (if g e = true then (s.entry e).settled .free else s.entry e) ∧
        (s.sendReport e).table.freeList = s.table.freeList ++ (if g e = true then [e] else []) := by
      by_cases hg : (s.entry e).state = .spent ∧ s.noticesOf e = 0
      · have hgt : g e = true := by simp [g, hg.1, hg.2]
        have hcc := hc e (by simp) hg.1 hg.2
        simp only [hgt, if_true, State.sendReport, hcc, State.takeReport, hg, and_self]
        constructor
        · simp [State.release]
          exact entry_setEntry_same s e _
        · rfl
      · have hgf : g e = false := by
          by_cases h1 : (s.entry e).state = .spent <;> by_cases h2 : s.noticesOf e = 0 <;> simp_all [g]
        simp only [hgf, Bool.false_eq_true, if_false, List.append_nil]
        unfold State.sendReport State.takeReport
        split
        · exact ⟨rfl, rfl⟩
        · exact ⟨rfl, rfl⟩
    obtain ⟨h1, h2⟩ := ih (s.sendReport e) (List.nodup_cons.mp hn).2 (by
      intro a ha hsp hz
      have hae : a ≠ e := fun hh => hne (hh ▸ ha)
      rw [hcl]; rw [hse a hae] at hsp; rw [hno] at hz; exact hc a (by simp [ha]) hsp hz)
    have hgg : ∀ a, a ∈ l → ((((s.sendReport e).entry a).state == .spent && decide ((s.sendReport e).noticesOf a = 0)) = g a) := by
      intro a ha
      have hae : a ≠ e := fun hh => hne (hh ▸ ha)
      rw [hse a hae, hno]
    constructor
    · rw [h1, hself.2, List.filter_cons, List.append_assoc]
      congr 1
      rw [List.filter_congr hgg]
      split <;> simp
    · intro a
      rw [h2 a]
      by_cases hae : a = e
      · subst hae
        rw [if_neg (fun hh => hne hh.1), hself.1]; simp
      · by_cases hal : a ∈ l
        · have := hgg a hal
          simp only [hal, true_and, List.mem_cons, hae, or_true, hse a hae]
          rw [hno]
        · simp [hal, hae, hse a hae]

theorem ownFlushQueue_spec (q : QueueId) (s : State) (hne : ¬((s.queue q).proper = [] ∧ (s.queue q).backlog = [])) :
    ownFlushQueue q s = ((s.emptiedByFlush q).foldl State.sendReport (s.setQueue q (s.queue q).flushed), .ok,
      BitVec.ofNat 8 ((s.queue q).proper.length + (s.queue q).backlog.length)) := by
  unfold ownFlushQueue
  dsimp only
  rw [if_neg]
  intro h; apply hne
  exact ⟨List.eq_nil_of_length_eq_zero (by omega), List.eq_nil_of_length_eq_zero (by omega)⟩

/-! ## Reports, and what settling leaves alone -/

/-- The report that a taken pop leaves waiting (R17, R106). -/
theorem takePop_report {s : State} {q : QueueId} {h : Notice} {rest : List Notice}
    (hp : (s.queue q).proper = h :: rest) (hl : rest.length ≤ 15) (hb : (s.queue q).backlog ≠ [] → rest.length = 15) :
    (s.takePop q h.entry.val).notices.reports =
      s.notices.reports ++ (if s.claimed h.entry = true ∧ s.noticesOf h.entry = 1 then [h.entry] else []) := by
  have hc := noticesOf_setQueue s q (s.queue q).popped h.entry
  have hc2 := countOf_popped hp hl hb h.entry
  simp only [if_true] at hc2
  have hcl : (s.setQueue q (s.queue q).popped).claimed h.entry = s.claimed h.entry := claimed_of_engine (by simp) _
  simp only [State.takePop, hp, if_true, State.reportIfNone]
  by_cases h1 : s.noticesOf h.entry = 1
  · rw [if_pos (by omega), sendReport_reports, hcl]
    by_cases h2 : s.claimed h.entry = true <;> simp [h1, h2]
  · rw [if_neg (by omega)]
    simp [h1]

/-- Of several reports, those of claimed entries wait, in their order (R17, R103). -/
theorem sendReports_reports (l : List EntryIdx) (s : State) :
    (l.foldl State.sendReport s).notices.reports = s.notices.reports ++ l.filter s.claimed := by
  induction l generalizing s with
  | nil => simp
  | cons e l ih =>
    have hcl : (s.sendReport e).claimed = s.claimed := funext (claimed_of_engine (by simp))
    rw [List.foldl_cons, ih, sendReport_reports, hcl, List.filter_cons]
    split <;> simp

/-- An owner that takes the command in execution leaves the Output Unit alone. -/
theorem ownerStep_out (s : State) (k) : (s.ownerStep k).out = s.out := by
  unfold State.ownerStep
  split
  · rfl
  · split
    · rfl
    · rename_i h; have hf := owned_frame h; split
      · rw [answer_out]; exact congrArg (·.out) hf
      · rfl

/-- An owner that takes the command in execution leaves the Interrupt Unit alone. -/
theorem ownerStep_irq (s : State) (k) : (s.ownerStep k).irq = s.irq := by
  unfold State.ownerStep
  split
  · rfl
  · split
    · rfl
    · rename_i h; have hf := owned_frame h; split
      · rw [answer_irq]; exact congrArg (·.irq) hf
      · rfl

/-- Taking due steps and granting leave the Output Unit and the Interrupt Unit alone. -/
theorem settle_out_irq (s : State) : s.settle.out = s.out ∧ s.settle.irq = s.irq := by
  refine settle_keeps (P := fun t => t.out = s.out ∧ t.irq = s.irq) ⟨?_, ?_, ?_, ?_, ?_⟩ ⟨?_, ?_, ?_⟩ ⟨rfl, rfl⟩
  · intro t e h; simp [h]
  · intro t q h; simp [h]
  · intro t h; simp [h]
  · intro t k h; rwa [ownerStep_out, ownerStep_irq]
  · intro t _ h; simp [h]
  · intro t _ h; simp [h]
  · intro t k _ h; simp [h]
  · intro t k _ h; simp [h]

end Sys2Proof.Machine
end

