-- ==== Sys2Proof/Laws/Values.lean ====
section
/-!
SUPPORT. Closed forms of the computations that the statements about rows speak of.
-/
namespace Sys2Proof.Machine

/-! ## Closed forms -/

/-- One tick takes one off a distance that is not the smallest (R28). -/
theorem distance_succ (d now : Tick) (h : -8388608 < distance d now) : distance d (now + 1) = distance d now - 1 := by
  unfold distance Config.halfRange Config.tickRange at *
  have h1 : (d - (now + 1)) = (d - now) - 1 := by bv_omega
  rw [h1]
  generalize d - now = x at *
  have hx := x.isLt
  split at h <;> split <;> rename_i h2 h3 <;> bv_omega

theorem ofCode_code (v : ViewItem) : ViewItem.ofCode v.code = some v := by
  cases v with
  | entry e => revert e; decide
  | group e => revert e; decide
  | trigger e => revert e; decide
  | list t => cases t <;> rfl
  | freeList => rfl

theorem code_of_ofCode : ∀ (b : Byte) (v : ViewItem), ViewItem.ofCode b = some v → v.code = b := by
  intro b v
  have h : ∀ b : Byte, (match ViewItem.ofCode b with | none => true | some v => v.code == b) = true := by decide
  intro hv; have := h b; rw [hv] at this; simpa using this

theorem byteOfBits_get (b0 b1 b2 b3 b4 b5 b6 : Bool) :
    let x := byteOfBits [b0, b1, b2, b3, b4, b5, b6]
    x.getLsbD 0 = b0 ∧ x.getLsbD 1 = b1 ∧ x.getLsbD 2 = b2 ∧ x.getLsbD 3 = b3 ∧ x.getLsbD 4 = b4 ∧ x.getLsbD 5 = b5 ∧
    x.getLsbD 6 = b6 ∧ x.getLsbD 7 = false := by
  revert b0 b1 b2 b3 b4 b5 b6; decide

theorem and_ne_zero (x y : Byte) : ((x &&& y) != 0) = true ↔ ∃ i, i < 8 ∧ x.getLsbD i = true ∧ y.getLsbD i = true := by
  constructor
  · intro h
    apply Classical.byContradiction
    intro hn
    have : x &&& y = 0#8 := by
      apply BitVec.eq_of_getLsbD_eq
      intro i hi
      simp only [BitVec.getLsbD_and, BitVec.getLsbD_zero]
      cases h1 : x.getLsbD i
      · rfl
      · cases h2 : y.getLsbD i
        · rfl
        · exact absurd ⟨i, hi, h1, h2⟩ hn
    rw [this] at h; exact absurd h (by decide)
  · rintro ⟨i, hi, h1, h2⟩
    rw [bne_iff_ne]
    intro h
    have : (x &&& y).getLsbD i = true := by rw [BitVec.getLsbD_and, h1, h2]; rfl
    rw [h] at this; simp at this

theorem trg_iff (s : State) : s.trgPending = true ↔ ∃ l, (s.line l).overrun = true ∨ (s.line l).miss = true := by
  simp only [State.trgPending, List.any_eq_true, Bool.or_eq_true, State.line]
  constructor
  · rintro ⟨x, hx, h⟩
    rw [Vector.mem_toList_iff, Vector.mem_iff_getElem] at hx
    obtain ⟨i, hi, rfl⟩ := hx
    exact ⟨⟨i, hi⟩, h⟩
  · rintro ⟨l, h⟩
    exact ⟨_, by rw [Vector.mem_toList_iff]; exact Vector.getElem_mem l.isLt, h⟩

theorem qpend_iff (n : NoticeQueue) : n.pending = true ↔ n.watermark.toNat ≤ n.proper.length ∨ n.backlog ≠ [] := by
  simp [NoticeQueue.pending]

theorem ticked_partial (r : TimebaseRecord) (h) : (r.ticked h).partialCount = r.partialCount := by
  unfold TimebaseRecord.ticked; (repeat' split) <;> rfl

/-- An insertion at the entry's own distance goes behind the leading entries at that distance or less (R45). -/
theorem insertByDistance_takeWhile (dist : EntryIdx → Int) (e : EntryIdx) (l : List EntryIdx) :
    insertByDistance dist e (dist e) l =
      l.takeWhile (fun a => decide (dist a ≤ dist e)) ++ e :: l.dropWhile (fun a => decide (dist a ≤ dist e)) := by
  induction l with
  | nil => rfl
  | cons a l ih =>
    unfold insertByDistance
    by_cases h : dist a ≤ dist e
    · rw [if_pos h, ih]; simp [h]
    · rw [if_neg h]; simp [h]

theorem mergeWhere_split {p : Post} {before after : List Notice} {m : Notice} (hm : m.entry = p.entry)
    (hb : ∀ x ∈ before, x.entry ≠ p.entry) :
    mergeWhere p (before ++ m :: after) = before ++ m.merged p :: after := by
  induction before with
  | nil => simp [mergeWhere, hm]
  | cons a l ih =>
    simp only [List.cons_append, mergeWhere]
    rw [if_neg (hb a (by simp)), ih (fun x hx => hb x (by simp [hx]))]

theorem any_entry_iff {l : List Notice} {e : EntryIdx} : l.any (·.entry == e) = true ↔ ∃ x ∈ l, x.entry = e := by
  simp

/-- A new backlog notice stands between the lower and the higher entries (R91). -/
theorem insertByEntry_filter (x : Notice) (l : List Notice) (h : (l.map (·.entry)).Pairwise (· < ·)) (hn : ∀ y ∈ l, y.entry ≠ x.entry) :
    insertByEntry x l = l.filter (fun y => decide (y.entry < x.entry)) ++ x :: l.filter (fun y => decide (x.entry < y.entry)) := by
  induction l with
  | nil => rfl
  | cons a l ih =>
    simp only [List.map_cons, List.pairwise_cons] at h
    unfold insertByEntry
    by_cases ha : a.entry < x.entry
    · rw [if_pos ha, ih h.2 (fun y hy => hn y (by simp [hy]))]
      rw [List.filter_cons_of_pos (by simpa using ha), List.filter_cons_of_neg (by simp; exact Fin.le_of_lt ha)]
      rfl
    · rw [if_neg ha]
      have hgt : x.entry < a.entry := by
        have := hn a (by simp)
        rcases Nat.lt_trichotomy a.entry.val x.entry.val with h1 | h1 | h1
        · exact absurd h1 ha
        · exact absurd (Fin.ext h1) this
        · exact h1
      have hall : ∀ y ∈ l, x.entry < y.entry := by
        intro y hy
        exact Nat.lt_trans hgt (h.1 y.entry (List.mem_map_of_mem hy))
      rw [List.filter_cons_of_neg (by simpa using ha), List.filter_cons_of_pos (by simpa using hgt)]
      rw [List.filter_eq_nil_iff.mpr (by intro y hy; simp; exact Fin.le_of_lt (hall y hy))]
      rw [List.filter_eq_self.mpr (by intro y hy; simpa using hall y hy)]
      rfl

theorem dueHead_iff (s : State) (b : Timebase) (e : EntryIdx) :
    s.dueHead b = some e ↔ ((s.list b).head? = some e ∧ distance (s.entry e).deadline (s.now b) ≤ 0) := by
  unfold State.dueHead
  split
  · rename_i h; simp [h]
  · rename_i a l h
    simp only [h, List.head?_cons, Option.some.injEq]
    by_cases hd : distance (s.entry a).deadline (s.now b) ≤ 0
    · have : isDue (s.entry a).deadline (s.now b) = true := by simp [isDue, hd]
      rw [if_pos this]
      constructor
      · intro hh; cases hh; exact ⟨rfl, hd⟩
      · rintro ⟨rfl, _⟩; rfl
    · have : ¬ isDue (s.entry a).deadline (s.now b) = true := by simp [isDue]; omega
      rw [if_neg this]
      constructor
      · intro hh; cases hh
      · rintro ⟨rfl, h2⟩; exact absurd h2 hd

theorem dueHead_none (s : State) (b : Timebase) :
    s.dueHead b = none ↔ ∀ e, ¬((s.list b).head? = some e ∧ distance (s.entry e).deadline (s.now b) ≤ 0) := by
  constructor
  · intro h e hh; rw [← dueHead_iff, h] at hh; cases hh
  · intro h
    cases hh : s.dueHead b with
    | none => rfl
    | some e => exact absurd ((dueHead_iff s b e).mp hh) (h e)

/-- The rows of R55 in which a start joins or rejoins a list. -/
theorem startOutcome_joins {s : State} {e : EntryIdx} (h : (s.timebase (s.entry e).behavior.timebase).state ≠ .faulted ∧
      ((s.entry e).state = .armed ∨
        (s.entry e).state = .idle ∧ ∀ g, (s.entry e).behavior.group = some g → (s.group g).phase ≠ .held)) :
    s.startOutcome e = .link := by
  obtain ⟨h1, h2⟩ := h
  have hf : s.onFaulted e = false := by simp [State.onFaulted, h1]
  rcases h2 with h2 | ⟨h2, h3⟩
  · simp [State.startOutcome, h2, hf]
  · have : s.groupHeld e = false := by
      unfold State.groupHeld; split
      · rfl
      · rename_i g hg; simp [h3 g hg]
    simp [State.startOutcome, h2, hf, this]

/-- The rows of R55 and R119 in which a start ends HELD. -/
theorem startOutcome_holds {s : State} {e : EntryIdx} (h : (s.entry e).state = .held ∨
      (s.entry e).state = .idle ∧ (s.timebase (s.entry e).behavior.timebase).state ≠ .faulted ∧
        ∃ g, (s.entry e).behavior.group = some g ∧ (s.group g).phase = .held) : s.startOutcome e = .hold := by
  rcases h with h | ⟨h1, h2, g, h3, h4⟩
  · simp [State.startOutcome, h]
  · have : s.groupHeld e = true := by simp [State.groupHeld, h3, h4]
    simp [State.startOutcome, h1, State.onFaulted, h2, this]

/-- The rows of R55 and R60 in which a start is refused. -/
theorem startOutcome_refused {s : State} {e : EntryIdx} {st : Status}
   (h : (st = .state ∧ ((s.entry e).state = .free ∨ (s.entry e).state = .spent)) ∨
    (st = .faulted ∧ ((s.entry e).state = .idle ∨ (s.entry e).state = .armed) ∧
      (s.timebase (s.entry e).behavior.timebase).state = .faulted)) : s.startOutcome e = .refuse st ∧ (st = .state ∨ st = .faulted) := by
  rcases h with ⟨rfl, h | h⟩ | ⟨rfl, h | h, h2⟩ <;> simp [State.startOutcome, State.onFaulted, *]

theorem ahead_eq (d n : Tick) : clampDeadline d n - n = if distance d n < 0 then 0 else d - n := by
  unfold clampDeadline; split <;> simp

/-! ## Bytes, views and queues -/

/-- A byte built from eight bits, bit by bit. -/
theorem byteOfBits_bits : ∀ (b0 b1 b2 b3 b4 b5 b6 b7 : Bool) (n : Fin 8),
    (byteOfBits [b0, b1, b2, b3, b4, b5, b6, b7]).getLsbD n.val = [b0, b1, b2, b3, b4, b5, b6, b7][n.val]'(n.isLt) := by
  decide

/-- Bit `n` of the low byte is line `n` (R169). -/
theorem outByte_low (s : State) (n : Fin 8) : (s.outByte false).getLsbD n.val = s.out.latch[n.val] := by
  have h : s.out.latch.toList.take 8 = [s.out.latch[0], s.out.latch[1], s.out.latch[2], s.out.latch[3],
      s.out.latch[4], s.out.latch[5], s.out.latch[6], s.out.latch[7]] := by
    apply List.ext_getElem
    · simp
    · intro i h1 h2
      simp at h2
      match i, h2 with
      | 0, _ | 1, _ | 2, _ | 3, _ | 4, _ | 5, _ | 6, _ | 7, _ => simp
  simp only [State.outByte, Bool.false_eq_true, if_false, h]
  rw [byteOfBits_bits]
  revert n; intro n
  match n with
  | 0 | 1 | 2 | 3 | 4 | 5 | 6 | 7 => rfl

/-- Bit `n` of the high byte is line `n + 8` (R169). -/
theorem outByte_high (s : State) (n : Fin 8) : (s.outByte true).getLsbD n.val = s.out.latch[n.val + 8] := by
  have h : s.out.latch.toList.drop 8 = [s.out.latch[8], s.out.latch[9], s.out.latch[10], s.out.latch[11],
      s.out.latch[12], s.out.latch[13], s.out.latch[14], s.out.latch[15]] := by
    apply List.ext_getElem
    · simp
    · intro i h1 h2
      simp at h2
      match i, h2 with
      | 0, _ | 1, _ | 2, _ | 3, _ | 4, _ | 5, _ | 6, _ | 7, _ => simp
  simp only [State.outByte, if_true, h]
  rw [byteOfBits_bits]
  match n with
  | 0 | 1 | 2 | 3 | 4 | 5 | 6 | 7 => rfl

/-- The last entry of a list has none after it (R192). -/
theorem following_last {l : List EntryIdx} {e : EntryIdx} {before : List EntryIdx} (h : l = before ++ [e]) (hn : e ∉ before) :
    following l e = none := by
  subst h
  induction before with
  | nil => simp [following]
  | cons a l ih =>
    simp only [List.mem_cons, not_or] at hn
    simp only [List.cons_append, following, if_neg (Ne.symm hn.1)]
    exact ih hn.2

/-- The entry after another on its list (R192). -/
theorem following_next {l : List EntryIdx} {e a : EntryIdx} {before after : List EntryIdx} (h : l = before ++ e :: a :: after) (hn : e ∉ before) :
    following l e = some a := by
  subst h
  induction before with
  | nil => simp [following]
  | cons a l ih =>
    simp only [List.mem_cons, not_or] at hn
    simp only [List.cons_append, following, if_neg (Ne.symm hn.1)]
    exact ih hn.2

/-- No chosen requester: none waits. -/
theorem firstWaiting_none {s : State} {r : Requester} (h : s.firstWaiting r = none) : ∀ r', s.waits r' = false := by
  unfold State.firstWaiting at h
  split at h
  · cases h
  · split at h
    · cases h
    · split at h
      · cases h
      · intro r'
        cases r <;> cases r' <;> simp_all [Requester.next]

/-- A purge in closed form (R99, R101). -/
theorem purged_without (n : NoticeQueue) (e : EntryIdx) : n.purged e = n.without e := by
  have hf : ∀ l : List Notice, l.filter (fun x => x.entry != e) = l.filter (fun x => decide (x.entry ≠ e)) :=
    fun l => List.filter_congr fun x _ => by rw [Bool.eq_iff_iff]; simp
  have hh : (n.headSealed && !n.headNames e) = (n.headSealed && decide (n.proper.head?.map (·.entry) ≠ some e)) := by
    unfold NoticeQueue.headNames
    cases n.proper with
    | nil => simp
    | cons h t => rw [Bool.eq_iff_iff]; simp
  simp only [NoticeQueue.purged, NoticeQueue.drained, NoticeQueue.without, hf, hh, drainInto_eq]

/-- A merge keeps the notice it adds to. -/
theorem mergeWhere_any (p : Post) (l : List Notice) (h : l.any (·.entry == p.entry) = true) :
    (mergeWhere p l).any (·.entry == p.entry) = true := by
  induction l with
  | nil => simp at h
  | cons a l ih =>
    unfold mergeWhere
    split
    · rename_i hh; simp [Notice.merged, hh]
    · rename_i hh; simp only [List.any_cons] at h ⊢
      rw [ih (by simpa [hh] using h)]; simp

/-- An insertion by entry index holds the notice inserted. -/
theorem insertByEntry_any (x : Notice) (l : List Notice) : (insertByEntry x l).any (·.entry == x.entry) = true := by
  induction l with
  | nil => simp [insertByEntry]
  | cons a l ih =>
    unfold insertByEntry
    split
    · simp only [List.any_cons, ih]; simp
    · simp

/-- A queue that lists a notice of an entry counts it. -/
theorem countOf_ne {n : NoticeQueue} {e : EntryIdx} (h : (∃ x ∈ n.proper, x.entry = e) ∨ ∃ x ∈ n.backlog, x.entry = e) : n.countOf e ≠ 0 := by
  unfold NoticeQueue.countOf
  rcases h with ⟨x, hx, he⟩ | ⟨x, hx, he⟩
  · have : 0 < n.proper.countP (fun y => y.entry == e) := List.countP_pos_iff.mpr ⟨x, hx, by simp [he]⟩
    omega
  · have : 0 < n.backlog.countP (fun y => y.entry == e) := List.countP_pos_iff.mpr ⟨x, hx, by simp [he]⟩
    omega

/-- A taken post leaves a notice that names its entry (R93, R94). -/
theorem posted_counts (n : NoticeQueue) (p : Post) : (n.posted p).countOf p.entry ≠ 0 := by
  apply countOf_ne
  unfold NoticeQueue.posted
  split
  · rename_i h
    left
    obtain ⟨x, hx, he⟩ := any_entry_iff.mp (mergeWhere_any p _ h)
    exact ⟨x, by simp [hx], he⟩
  · split
    · rename_i h
      right
      exact any_entry_iff.mp (mergeWhere_any p _ h)
    · split
      · left; exact ⟨p.opened, by simp, rfl⟩
      · right; exact any_entry_iff.mp (insertByEntry_any p.opened _)

/-- Only the distances of the listed entries decide an insertion. -/
theorem insertByDistance_congr {f g : EntryIdx → Int} {e : EntryIdx} {d : Int} {l : List EntryIdx} (h : ∀ a ∈ l, f a = g a) :
    insertByDistance f e d l = insertByDistance g e d l := by
  induction l with
  | nil => rfl
  | cons a l ih =>
    unfold insertByDistance
    rw [h a (by simp), ih (fun x hx => h x (by simp [hx]))]

end Sys2Proof.Machine
end

