-- ==== Sys2Proof/Laws/Operation.lean ====
section
/-!
SUPPORT. One whole engine operation, from its grant to its completion, for the shapes of plan that the engine decides.
-/
namespace Sys2Proof.Machine

/-! ## Operations -/

theorem setLine_setLine (s : State) (l : TrigIdx) (x y : TriggerLine) : (s.setLine l x).setLine l y = s.setLine l y := by
  simp [State.setLine]

theorem noReports_eq {s : State} (h : s.notices.reports = []) : s.noReports = s := by
  show ({ s with notices := { s.notices with reports := [] } } : State) = s
  rw [← h]

theorem grant_quiet {s : State} (hg : s.Grantable .command) (p : Plan) :
    (((s.openWalk p.walk).begin .command p).setStage .engine).Quiet :=
  hg.quiet.engine (by simp [State.begin]) fun x hx => stage_of_setStage hx

theorem trig_quiet {s : State} (hg : s.Grantable .trigger) (l : TrigIdx) (p : Plan) (f) :
    (((s.openWalk p.walk).begin (.trigger l) p).setLine l f).Quiet :=
  hg.quiet.of (by simp [State.begin]) (by simp [State.begin])

theorem begin_quiet {s : State} (hq : s.Quiet) (cl : Client) (p : Plan) : (s.begin cl p).Quiet := hq.of rfl rfl

theorem quiet_takePost {s : State} (hq : s.Quiet) (p : Post) : (s.takePost p).Quiet where
  reports := by rw [(takePost_keeps s p).2.2]; exact hq.reports
  standing q := by
    unfold State.takePost; rw [queue_setQueue]
    split
    · rename_i h; subst h; rw [posted_standing]; exact hq.standing _
    · exact hq.standing q
  nop := by have := hq.nop; simpa [State.nopDue, State.executing, (takePost_keeps s p).2.1] using this
  owner c hc := hq.owner c (by simpa [State.executing, (takePost_keeps s p).2.1] using hc)

theorem inFlight_of {s t : State} {op : Operation} (h : s.Quiet) (hn : t.notices = s.notices) (hc : t.cmd = s.cmd)
  (hb : t.engine.activity = .busy op) : t.InFlight op := (h.of hn hc).inFlight hb

/-- The state after a command grant that opens no walk. -/
def State.commandStart (s : State) (p : Plan) : State := (s.begin .command p).setStage .engine

/-- The state after a trigger grant that opens no walk. -/
def State.triggerStart (s : State) (l : TrigIdx) (c : Capture) (p : Plan) : State :=
  (s.begin (.trigger l) p).setLine l { s.line l with record := .inService c none }

/-- The operation that a grant begins. -/
def State.operationOf (s : State) (cl : Client) (p : Plan) : Operation := ⟨cl, s.now .tb0, s.now .tb1, p⟩

/-- The state after a final step with one write. -/
def State.oneWrite (t : State) (op : Operation) (a : Act) : State :=
  (t.act op a).setPlan op { op.plan with claims := op.plan.claimsAfter, acts := [] }

/-- A plan with nothing but the given writes. -/
structure Plan.One (p : Plan) (acts : List Act) : Prop where
  lineOp : p.lineOp = none
  post : p.post = none
  walk : p.walk = none
  purge : p.purge = none
  acts : p.acts = acts

/-- A write that leaves the notices and the Command Unit alone. -/
def Act.Plain (a : Act) : Prop := ∀ (t : State) (op : Operation), (t.act op a).notices = t.notices ∧ (t.act op a).cmd = t.cmd

theorem exec_final {s : State} {op : Operation} {a : Act} (h : s.InFlight op) (h1 : op.plan.lineOp = none)
    (h2 : op.plan.post = none) (h3 : op.plan.walk = none) (h4 : op.plan.purge = none) (h5 : op.plan.acts = [a]) :
    exec .finalStep s = .next ((s.act op a).setPlan op { op.plan with claims := op.plan.claimsAfter, acts := [] }) := by
  simp only [exec, execFinalStep, finalStep_one h h1 h2 h3 h4 h5]

/-- The final step with one write, and the completion after it. -/
theorem after_one {s : State} {op : Operation} {a : Act} (hq : s.Quiet) (hb : s.engine.activity = .busy op)
    (h : Plan.One op.plan [a]) (ha : Act.Plain a) :
    exec .finalStep s = .next (State.oneWrite s op a) ∧
    exec .operationCompletion (State.oneWrite s op a) = .next (((State.oneWrite s op a).completedTo op.client.requester.next).handBack
      op.client op.plan.status op.plan.value) := by
  refine ⟨exec_final (hq.inFlight hb) h.lineOp h.post h.walk h.purge h.acts, ?_⟩
  have hI2 : (State.oneWrite s op a).InFlight { op with plan := { op.plan with claims := op.plan.claimsAfter, acts := [] } } :=
    inFlight_of hq (ha s op).1 (ha s op).2 rfl
  simp only [exec, execOperationCompletion]
  rw [complete_done hI2 h.lineOp h.post h.walk h.purge rfl]

/-- The completion of a plan without writes. -/
theorem after_none {s : State} {op : Operation} (hq : s.Quiet) (hb : s.engine.activity = .busy op)
    (h : Plan.One op.plan []) :
    exec .operationCompletion s = .next ((s.completedTo op.client.requester.next).handBack
      op.client op.plan.status op.plan.value) := by
  simp only [exec, execOperationCompletion]
  rw [complete_done (hq.inFlight hb) h.lineOp h.post h.walk h.purge h.acts]

theorem cmd_start {s : State} {c : Command} {k : Command → Bool} {p : Plan}
    (hg : s.Grantable .command) (hc : s.executing .grantWait = some c) (hp : s.commandPlan c = some p) (hk : k c = true)
    (h3 : p.walk = none) : s.commandGrant k = s.commandStart p ∧ (s.commandStart p).Quiet := by
  have hG := commandGrant_of hg hc hp hk
  have hQ := grant_quiet hg p
  rw [h3] at hG hQ
  exact ⟨hG, hQ⟩

theorem trig_start {s : State} {l : TrigIdx} {c : Capture} {k : TriggerAction → Bool} {p : Plan}
    (hg : s.Grantable .trigger) (hw : s.waitingLine = some (l, c)) (hk : k c.action = true) (hp : s.triggerPlan c = p)
    (h3 : p.walk = none) : s.triggerGrant k = s.triggerStart l c p ∧ (s.triggerStart l c p).Quiet := by
  have hG := triggerGrant_of hg hw hk
  rw [hp] at hG
  have hQ := trig_quiet hg l p { s.line l with record := .inService c none }
  rw [h3] at hG hQ
  exact ⟨hG, hQ⟩

/-- A commanded operation with one write, from grant to completion. -/
theorem cmd_one {s : State} {c : Command} {k : Command → Bool} {p : Plan} {a : Act}
    (hg : s.Grantable .command) (hc : s.executing .grantWait = some c) (hp : s.commandPlan c = some p) (hk : k c = true)
    (h : Plan.One p [a]) (ha : Act.Plain a) :
    s.commandGrant k = s.commandStart p ∧
    exec .finalStep (s.commandStart p) = .next (State.oneWrite (s.commandStart p) (s.operationOf .command p) a) ∧
    exec .operationCompletion (State.oneWrite (s.commandStart p) (s.operationOf .command p) a) = .next
      (((State.oneWrite (s.commandStart p) (s.operationOf .command p) a).completedTo .trigger).answer p.status (BitVec.ofNat 8 p.value)) := by
  obtain ⟨hG, hQ⟩ := cmd_start hg hc hp hk h.walk
  exact ⟨hG, after_one (op := s.operationOf .command p) hQ rfl h ha⟩

/-- A commanded operation without writes. -/
theorem cmd_none {s : State} {c : Command} {k : Command → Bool} {p : Plan}
    (hg : s.Grantable .command) (hc : s.executing .grantWait = some c) (hp : s.commandPlan c = some p) (hk : k c = true)
    (h : Plan.One p []) :
    s.commandGrant k = s.commandStart p ∧
    exec .operationCompletion (s.commandStart p) = .next
      (((s.commandStart p).completedTo .trigger).answer p.status (BitVec.ofNat 8 p.value)) := by
  obtain ⟨hG, hQ⟩ := cmd_start hg hc hp hk h.walk
  exact ⟨hG, after_none (op := s.operationOf .command p) hQ rfl h⟩

theorem finished_eq (x : TriggerLine) (c : Capture) (st : Status) :
    ({ x with record := .inService c none } : TriggerLine).finished st =
      { x with record := .none, miss := x.miss || (match st with | .state | .faulted | .limit => true | _ => false) } := by
  cases st <;> rfl

/-- A triggered operation with one write, from grant to completion. -/
theorem trig_one {s : State} {l : TrigIdx} {c : Capture} {k : TriggerAction → Bool} {a : Act} {p : Plan}
    (hg : s.Grantable .trigger) (hw : s.waitingLine = some (l, c)) (hk : k c.action = true) (hp : s.triggerPlan c = p)
    (h : Plan.One p [a]) (ha : Act.Plain a) (hl : ∀ t op, (State.act t op a).trig = t.trig) :
    s.triggerGrant k = s.triggerStart l c p ∧
    exec .finalStep (s.triggerStart l c p) = .next (State.oneWrite (s.triggerStart l c p) (s.operationOf (.trigger l) p) a) ∧
    exec .operationCompletion (State.oneWrite (s.triggerStart l c p) (s.operationOf (.trigger l) p) a) = .next
      (((State.oneWrite (s.triggerStart l c p) (s.operationOf (.trigger l) p) a).completedTo .expiry).setLine l
        { s.line l with record := .none, miss := (s.line l).miss || (match p.status with | .state | .faulted | .limit => true | _ => false) }) := by
  obtain ⟨hG, hQ⟩ := trig_start hg hw hk hp h.walk
  obtain ⟨h1, h2⟩ := after_one (op := s.operationOf (.trigger l) p) hQ rfl h ha
  refine ⟨hG, h1, ?_⟩
  rw [h2]
  have hx : ((State.oneWrite (s.triggerStart l c p) (s.operationOf (.trigger l) p) a).completedTo .expiry).line l =
      { s.line l with record := .inService c none } := by
    show (State.act _ _ _).trig.lines[l] = _
    rw [hl]; simp [State.triggerStart, State.setLine]
  show Host.Outcome.next (State.setLine _ l ((State.line _ l).finished p.status)) = _
  rw [show ((State.oneWrite (s.triggerStart l c p) (s.operationOf (.trigger l) p) a).completedTo (s.operationOf (.trigger l) p).client.requester.next).line l = _ from hx, finished_eq]
  rfl

/-- A triggered operation without writes. -/
theorem trig_none {s : State} {l : TrigIdx} {c : Capture} {k : TriggerAction → Bool} {p : Plan}
    (hg : s.Grantable .trigger) (hw : s.waitingLine = some (l, c)) (hk : k c.action = true) (hp : s.triggerPlan c = p)
    (h : Plan.One p []) :
    s.triggerGrant k = s.triggerStart l c p ∧
    exec .operationCompletion (s.triggerStart l c p) = .next
      (((s.triggerStart l c p).completedTo .expiry).setLine l
        { s.line l with record := .none, miss := (s.line l).miss || (match p.status with | .state | .faulted | .limit => true | _ => false) }) := by
  obtain ⟨hG, hQ⟩ := trig_start hg hw hk hp h.walk
  refine ⟨hG, ?_⟩
  rw [after_none (op := s.operationOf (.trigger l) p) hQ rfl h]
  have hx : ((s.triggerStart l c p).completedTo .expiry).line l =
      { s.line l with record := .inService c none } := by
    show (s.triggerStart l c p).line l = _
    simp [State.triggerStart]
  show Host.Outcome.next (State.setLine _ l ((State.line _ l).finished p.status)) = _
  rw [show ((s.triggerStart l c p).completedTo (s.operationOf (.trigger l) p).client.requester.next).line l = _ from hx, finished_eq]
  rfl

theorem cmd_table (s : State) (p : Plan) (hg : s.Grantable .command) {c : Command} {k : Command → Bool} (hc : s.executing .grantWait = some c)
    (hp : s.commandPlan c = some p) (hk : k c = true) : (s.commandGrant k).table = s.table := by
  rw [commandGrant_of hg hc hp hk]; show (s.openWalk p.walk).table = _; simp

theorem trig_table (s : State) (hg : s.Grantable .trigger) {l : TrigIdx} {c : Capture} {k : TriggerAction → Bool}
    (hw : s.waitingLine = some (l, c)) (hk : k c.action = true) : (s.triggerGrant k).table = s.table := by
  rw [triggerGrant_of hg hw hk]; show (s.openWalk _).table = _; simp

theorem plain_link (e d r) : Act.Plain (.link e d r) := fun t op => by simp [State.act]

theorem plain_hold (e d r) : Act.Plain (.hold e d r) := fun t op => by
  simp only [State.act]; unfold State.holdStart; dsimp only; split <;> simp

theorem plain_idle (e) : Act.Plain (.idle e) := fun t op => by simp [State.act]

theorem plain_release (e) : Act.Plain (.release e) := fun t op => by simp [State.act]

theorem plain_depth (g n) : Act.Plain (.depth g n) := fun t op => by simp [State.act]

theorem plain_clearNow (b) : Act.Plain (.clearNow b) := fun t op => by simp [State.act, State.zeroNow]

theorem settle_notices (s : State) (e : EntryIdx) : (s.settleEntry e).notices = s.notices := by
  unfold State.settleEntry; (repeat' split) <;> simp

theorem settle_cmd (s : State) (e : EntryIdx) : (s.settleEntry e).cmd = s.cmd := by
  unfold State.settleEntry; (repeat' split) <;> simp

theorem plain_retire (e) : Act.Plain (.retire e) := fun t op => by
  simp only [State.act]; rw [settle_notices, settle_cmd]; simp

/-- The final step of a plan that purges. -/
theorem exec_final_purge {s : State} {op : Operation} {e : EntryIdx} (h : s.InFlight op) (h1 : op.plan.lineOp = none)
    (h2 : op.plan.post = none) (h3 : op.plan.walk = none) (h4 : op.plan.purge = some e) :
    exec .finalStep s = .next ((op.plan.acts.foldl (fun s a => s.act op a) (s.purge e)).setPlan op
        { op.plan with
          claims := op.plan.claimsAfter, purge := none, walk := none, acts := []
          value := op.plan.value + s.noticesOf e }) := by
  simp only [exec, execFinalStep]
  rw [finalStep_of h (by simp [Plan.atFinalStep, Plan.walking, h1, h2, h3]) (by simp [Plan.hasFinalStep, h4])]
  simp only [h4, State.purgeRequested, State.purgeCount]

/-- A waiting report of an unclaimed entry that is not SPENT is taken and changes nothing else. -/
theorem settle_reports {s : State} {op : Operation} (hb : s.engine.activity = .busy op) (hst : ∀ q, (s.queue q).standing = none)
    (hnop : s.nopDue = false) (ho : ∀ c, s.executing .owner = some c → c.firstStage ≠ .owner)
    (e : EntryIdx) (hr : s.notices.reports = [] ∨ s.notices.reports = [e])
    (hc : s.claimed e = false) (hs : (s.entry e).state ≠ .spent) : s.settle = s.noReports := by
  have hQ : s.noReports.Quiet := ⟨rfl, fun q => by rw [← hst q]; cases q <;> rfl, hnop, ho⟩
  have hd : s.noReports.dueStep = none := hQ.dueStep (by show s.engine.activity ≠ _; simp [hb])
  rcases hr with hr | hr
  · have hd' : s.noReports = s := by
      show ({ s with notices := { s.notices with reports := [] } } : State) = s
      rw [← hr]
    have hd2 := hQ.settled (op := op) hb
    rw [hd'] at hd2 ⊢
    exact settle_of_settled hd2
  · have hdue : s.reportDue e = true := by simp [State.reportDue, hr, hc]
    have h1 : s.dueStep = some s.noReports := by
      unfold State.dueStep
      simp only [hr, List.find?_cons, hdue]
      congr 1
      simp only [State.takeWaitingReport, hdue, if_true, State.takeReport]
      have : ¬ (((s.setReports (s.notices.reports.erase e)).entry e).state = .spent ∧ (s.setReports (s.notices.reports.erase e)).noticesOf e = 0) := fun hh => hs hh.1
      rw [if_neg this, hr]; simp [State.setReports, State.noReports]
    have h2 : s.beforeGrant = s.noReports := by
      show s.takeDue (s.notices.reports.length + s.cmd.queue.length + 4) = _
      rw [show s.notices.reports.length + s.cmd.queue.length + 4 = (s.cmd.queue.length + 4) + 1 by simp [hr]; omega]
      unfold State.takeDue
      rw [h1]
      exact takeDue_of_none hd _
    have h3 : s.noReports.engine.activity = .busy op := hb
    simp only [State.settle, h2, State.grantIdle, h3]

/-- A commanded operation with a purge and one write that ends its claim, from grant to completion. -/
theorem purge_one {s : State} {c : Command} {k : Command → Bool} {p : Plan} {a : Act} {e : EntryIdx}
    (hg : s.Grantable .command) (hc : s.executing .grantWait = some c) (hp : s.commandPlan c = some p) (hk : k c = true)
    (h1 : p.lineOp = none) (h2 : p.post = none) (h3 : p.walk = none) (h4 : p.purge = some e) (h5 : p.acts = [a])
    (hcl : p.claims = [e]) (hae : a.entry = some e) (ha : Act.Plain a)
    (hst : ∀ t op, t.table = s.table → ((State.act t op a).entry e).state ≠ .spent) :
    let t := s.commandStart p
    let s2 := (((t.purge e).act (s.operationOf .command p) a).setPlan (s.operationOf .command p)
      { p with claims := [], purge := none, walk := none, acts := [], value := p.value + s.noticesOf e })
    s.commandGrant k = t ∧ exec .finalStep t = .next s2 ∧
    exec .operationCompletion s2 = .next ((s2.noReports.completedTo .trigger).answer p.status
      (BitVec.ofNat 8 (p.value + s.noticesOf e))) := by
  intro t s2
  obtain ⟨hG, hQ⟩ := cmd_start hg hc hp hk h3
  have hI := hQ.inFlight (op := s.operationOf .command p) rfl
  have hno : t.noticesOf e = s.noticesOf e := noticesOf_of_queues (fun q => by cases q <;> rfl) e
  have hca : p.claimsAfter = [] := by simp [Plan.claimsAfter, hcl, h5, hae]
  have hcd : t.claimed e = true := by
    show (p.claims).contains e = true
    simp [hcl]
  have hF := exec_final_purge hI h1 h2 h3 h4
  refine ⟨hG, ?_, ?_⟩
  · rw [hF]
    show Host.Outcome.next (State.setPlan (List.foldl (fun x a => x.act (s.operationOf .command p) a) ((s.commandStart p).purge e) p.acts) _ _) = _
    rw [h5]
    simp only [List.foldl_cons, List.foldl_nil]
    show Host.Outcome.next (State.setPlan _ _ { p with claims := p.claimsAfter, purge := none, walk := none, acts := [], value := p.value + (s.commandStart p).noticesOf e }) = _
    rw [hca, show (s.commandStart p).noticesOf e = s.noticesOf e from hno]
  · have hn2 : s2.notices = (t.purge e).notices := (ha _ _).1
    have hc2 : s2.cmd = t.cmd := (ha _ _).2.trans (by simp)
    obtain ⟨hpt, hpr⟩ := purge_claimed hcd
    have hq2 : ∀ q, (s2.queue q).standing = none := by
      intro q
      rw [queue_of_notices hn2, queue_purge, standing_purged]; exact hQ.standing q
    have hr2 : s2.notices.reports = [] ∨ s2.notices.reports = [e] := by
      rw [hn2, hpr, show t.notices.reports = [] from hQ.reports]
      split
      · exact .inl rfl
      · exact .inr rfl
    have hset : s2.settle = s2.noReports := by
      refine settle_reports (op := { s.operationOf .command p with plan := _ }) rfl hq2 ?_ ?_ e hr2 ?_ ?_
      · have := hQ.nop; simpa [State.nopDue, State.executing, hc2] using this
      · intro c hx; exact hQ.owner c (by simpa [State.executing, hc2] using hx)
      · rfl
      · exact hst (t.purge e) _ hpt
    simp only [exec, execOperationCompletion]
    rw [hset]
    have hb : s2.noReports.engine.activity = .busy { s.operationOf .command p with plan :=
      { p with claims := [], purge := none, walk := none, acts := [], value := p.value + s.noticesOf e } } := rfl
    simp only [State.complete, hb]
    simp only [Plan.atFinalStep, Plan.walking, h1, h2, Plan.hasFinalStep]
    rfl

/-! ## Grants and writes in closed form -/

theorem commandStart_granted (s : State) (p : Plan) : s.CommandGranted (s.commandStart p) p.claims := ⟨p, rfl, rfl⟩

theorem triggerStart_granted (s : State) (l : TrigIdx) (c : Capture) (p : Plan) :
    s.TriggerGranted (s.triggerStart l c p) l c p.claims := ⟨p, rfl, rfl⟩

/-- The claim on the one entry that the one write names ends with the final step (R17). -/
theorem claimsAfter_one {p : Plan} {e : EntryIdx} {a : Act} (h1 : p.claims = [e])
    (h2 : p.acts = [a]) (h3 : a.entry = some e) :
    p.claimsAfter = [] := by
  simp [Plan.claimsAfter, h1, h2, h3]

/-- A final step with one write leaves the Command Unit as it was. -/
theorem oneWrite_cmd {t : State} {op : Operation} {a : Act} (ha : Act.Plain a) :
    (t.oneWrite op a).cmd = t.cmd := (ha t op).2

/-- A grant touches no queue. -/
theorem commandStart_queue (s : State) (p : Plan) (q) : (s.commandStart p).queue q = s.queue q := by cases q <;> rfl

/-- The reports after a purge of a claimed entry (R17, R101, R106). -/
theorem purge_reports {s : State} {e : EntryIdx} (hc : s.claimed e = true) :
    (s.purge e).notices.reports = s.notices.reports ++ (if s.noticesOf e ≠ 0 then [e] else []) := by
  rw [(purge_claimed hc).2]; split <;> simp [*]

/-- A purge of `e` on either queue (R101). -/
theorem queue_purge_without (s : State) (e : EntryIdx) (q) : (s.purge e).queue q = (s.queue q).without e := by
  rw [queue_purge, purged_without]

/-- What the final step of an insertion does (R45, R55). -/
theorem linkedAt_act {s t : State} {op : Operation} {e : EntryIdx} {d : Tick} {p : Plan}
    (h0 : op.now0 = s.now .tb0) (h1 : op.now1 = s.now .tb1) (ht : t.table = s.table) (hl : ∀ b, t.list b = s.list b)
    (hn : t.notices = s.notices) (hg : t.engine.groups = s.engine.groups) :
    s.LinkedAt ((t.act op (.link e d (s.entry e).reload)).setPlan op p) e d := by
  have hE : ∀ a, t.entry a = s.entry a := entry_of_table ht
  have hnow : ∀ b, op.now b = s.now b := by intro b; cases b <;> simp [Operation.now, h0, h1]
  constructor
  · show ((t.insertAt _ e d).setEntry e ((t.entry e).armed d _)).entry e = _
    rw [entry_setEntry_same, hE]; rfl
  · simp only [State.act, State.setPlan, setActivity_list, hE, hnow]
    simp [State.link, State.insertAt, hE, hl, State.setEntry]
    cases (s.entry e).behavior.timebase <;> rfl
  · intro a ha
    have : ((t.act op (.link e d (s.entry e).reload)).setPlan op p).entry a = t.entry a := by
      show ((t.insertAt _ e d).setEntry e _).entry a = _
      rw [entry_setEntry_other _ _ (Ne.symm ha)]
      exact entry_of_table (by simp) a
    rw [this, hE]
  · intro b hb
    show ((t.insertAt _ e d)).list b = _
    simp only [State.insertAt, hE]
    rw [list_setList, if_neg (Ne.symm hb), hl]
  · show (t.insertAt _ e d).table.freeList = _
    simp [ht]
  · show (t.insertAt _ e d).engine.groups = _
    simp [State.insertAt, hg]
  · show (t.insertAt _ e d).notices = _
    simp [hn]

/-- What the final step of a HELD start does (R55, R119). -/
theorem heldAt_act {s t : State} {op : Operation} {e : EntryIdx} {m : Tick} {p : Plan}
    (hst : (s.entry e).state = .held ∨ (s.entry e).state = .idle)
    (ht : t.table = s.table) (hl : ∀ b, t.list b = s.list b)
    (hn : t.notices = s.notices) (hg : ∀ g, t.group g = s.group g) :
    s.HeldAt ((t.act op (.hold e m (s.entry e).reload)).setPlan op p) e m := by
  have hE : ∀ a, t.entry a = s.entry a := entry_of_table ht
  have key : (t.act op (.hold e m (s.entry e).reload)) = if (s.entry e).state = .held then
      t.setEntry e ((s.entry e).heldWith m (s.entry e).reload) else
      (t.setEntry e ((s.entry e).heldWith m (s.entry e).reload)).raiseHeld (s.entry e).behavior.group := by
    simp only [State.act, State.holdStart, hE]
  have hX : ∀ a, (t.act op (.hold e m (s.entry e).reload)).entry a =
      (t.setEntry e ((s.entry e).heldWith m (s.entry e).reload)).entry a := by
    intro a; rw [key]; split
    · rfl
    · exact entry_of_table (by simp) a
  have hG : ∀ g, (t.act op (.hold e m (s.entry e).reload)).group g = { s.group g with
    heldCount := (s.group g).heldCount + (if (s.entry e).state = .idle ∧ (s.entry e).behavior.group = some g then 1 else 0) } := by
    intro g; rw [key]
    rcases hst with hh | hh
    · rw [if_pos hh, if_neg (by simp [hh])]; exact hg g
    · rw [if_neg (by simp [hh]), raiseHeld_group]
      have : (t.setEntry e ((s.entry e).heldWith m (s.entry e).reload)).group g = s.group g := hg g
      rw [this]; simp [hh]
  constructor
  · show (t.act op _).entry e = _
    rw [hX, entry_setEntry_same]; rfl
  · intro g; show ((t.act op _).group g).heldCount = _; rw [hG]
  · intro g; show ((t.act op _).group g).phase = _ ∧ ((t.act op _).group g).depth = _; rw [hG]; exact ⟨rfl, rfl⟩
  · intro a ha; show (t.act op _).entry a = _; rw [hX, entry_setEntry_other _ _ (Ne.symm ha), hE]
  · intro b; show (t.act op _).list b = _; rw [key]; split
    · exact hl b
    · rw [raiseHeld_list]; exact hl b
  · show (t.act op _).table.freeList = _; rw [key]; split <;> simp [ht]
  · show (t.act op _).notices = _; rw [key]; split <;> simp [hn]

/-- The claims after a final step that writes one entry (R17). -/
theorem claims_one {p : Plan} {a : Act} {e : EntryIdx} (h : p.acts = [a]) (ha : a.entry = some e) :
    p.claimsAfter = p.claims.filter (fun a => decide (a ∉ [e])) := by
  unfold Plan.claimsAfter; congr 1; funext x
  simp only [h, List.any_cons, List.any_nil, ha, Bool.or_false, List.mem_singleton]
  by_cases hx : x = e
  · simp [hx]
  · simp [hx, Ne.symm hx]

/-- The claims after a final step that writes two entries (R17). -/
theorem claims_two {p : Plan} {a b : Act} {e y : EntryIdx} (h : p.acts = [a, b])
    (ha : a.entry = some e) (hb : b.entry = some y) :
    p.claimsAfter = p.claims.filter (fun a => decide (a ∉ [e, y])) := by
  unfold Plan.claimsAfter; congr 1; funext x
  simp only [h, List.any_cons, List.any_nil, ha, hb, Bool.or_false, List.mem_cons, List.not_mem_nil, or_false]
  rw [Bool.eq_iff_iff]; simp [eq_comm (a := x)]

/-- The final step with two writes (R66). -/
theorem final_two {s : State} {op : Operation} {a b : Act} (hI : s.InFlight op)
    (h1 : op.plan.lineOp = none) (h2 : op.plan.post = none) (h3 : op.plan.purge = none) (h4 : op.plan.walk = none)
    (h5 : op.plan.acts = [a, b]) :
    exec .finalStep s = .next (((s.act op a).act op b).setPlan op
      { op.plan with claims := op.plan.claimsAfter, acts := [] }) := by
  have : ({ op.plan with
      claims := op.plan.claimsAfter, purge := none, walk := none, acts := []
      value := op.plan.value + 0 } : Plan) = { op.plan with claims := op.plan.claimsAfter, acts := [] } := by
    rw [← h3, ← h4]; rfl
  simp only [exec, execFinalStep]
  rw [finalStep_of hI (by simp [Plan.atFinalStep, Plan.walking, h1, h2, h4]) (by simp [Plan.hasFinalStep, h5])]
  simp only [h5, h3, State.purgeRequested, State.purgeCount, List.foldl_cons, List.foldl_nil, this]

/-- A retiring entry is released, or settled in place (R16, R81). -/
theorem retire_eq (s : State) (op : Operation) (e : EntryIdx) :
    s.act op (.retire e) = if (s.entry e).behavior.autoFree = true ∧ s.noticesOf e = 0 then (s.unlink e).release e
      else (s.unlink e).setEntry e ((s.entry e).settled (if (s.entry e).behavior.autoFree then .spent else .idle)) := by
  have hU : ∀ a, (s.unlink e).entry a = s.entry a := entry_of_table (by simp)
  have hN : (s.unlink e).noticesOf e = s.noticesOf e := noticesOf_of_queues (fun q => by
    rw [queue_of_notices (s := s) (by simp)]) e
  show (s.unlink e).settleEntry e = _
  unfold State.settleEntry
  rw [hU, hN]
  by_cases ha : (s.entry e).behavior.autoFree = true <;> by_cases hn : s.noticesOf e = 0 <;> simp [ha, hn]

/-- A retiring entry leaves its list (R46). -/
theorem retire_list (s : State) (op : Operation) (e : EntryIdx) (k) :
    (s.act op (.retire e)).list k = if (s.entry e).behavior.timebase = k then (s.list k).erase e else s.list k := by
  have : (s.unlink e).list k = if (s.entry e).behavior.timebase = k then (s.list k).erase e else s.list k := by
    simp only [State.unlink, list_setList]
    split
    · rename_i h; rw [h]
    · rfl
  rw [retire_eq, ← this]; split
  · exact list_of_engine (by simp) k
  · exact list_of_engine (by simp) k

/-- What the retirement of an entry leaves alone. -/
theorem retire_kept (s : State) (op : Operation) (e : EntryIdx) :
    (s.act op (.retire e)).engine.groups = s.engine.groups ∧
    (s.act op (.retire e)).engine.activity = s.engine.activity ∧ s.OutsideKept (s.act op (.retire e)) := by
  rw [retire_eq]; split <;> (refine ⟨by simp [State.unlink], by simp [State.unlink], ⟨?_, ?_, ?_, ?_⟩⟩ <;> simp)

/-- What the retirement of an entry does (R16, R46, R81). -/
theorem retire_at (s : State) (op : Operation) (e : EntryIdx) (but) : s.RetiredAt (s.act op (.retire e)) e but := by
  have hU : ∀ a, (s.unlink e).entry a = s.entry a := entry_of_table (by simp)
  refine ⟨?_, ?_, ?_, (plain_retire e s op).1, (plain_retire e s op).2, ?_⟩
  · rw [retire_eq]; split
    · rename_i h; rw [entry_release_same, hU, h.1, h.2]; rfl
    · rename_i h; rw [entry_setEntry_same]
      by_cases ha : (s.entry e).behavior.autoFree = true
      · have : s.noticesOf e ≠ 0 := fun hn => h ⟨ha, hn⟩
        simp [ha, this, Entry.settled]
      · simp [ha, Entry.settled]
  · rw [retire_eq]; split
    · rw [freeList_release]; simp
    · show (s.unlink e).table.freeList = _; simp
  · intro a ha _
    rw [retire_eq]; split
    · rw [entry_release_other _ ha, hU]
    · rw [entry_setEntry_other _ _ (Ne.symm ha), hU]
  · rw [retire_eq]; split <;> simp

end Sys2Proof.Machine
end

