-- ==== Sys2Proof/Tests/Slice0.lean ====
section
/-!
SUPPORT. Tests: ill-formed rows, one step of each row on a small state, and for every statement with hypotheses a
concrete state and operands that meet them.
-/
namespace Sys2Proof.Machine.Tests

/-! ## Small states -/

/-- The state after a row. -/
def after (i : Instr) (s : State) : State :=
  match exec i s with
  | .next t => t
  | .fault _ | .refused _ => s

/-- A queued command with its first parameter bytes. -/
def queued (code : Byte) (params : List Byte) : QueuedCommand :=
  { code := code, params := Vector.ofFn fun i => params.getD i.val 0, seq := 0 }

/-- A state with a command in execution. -/
def executing (code : Byte) (params : List Byte) (stage : Stage) : State :=
  { State.reset with cmd := { CommandUnit.reset with execution := some ⟨queued code params, stage⟩ } }

/-- A state with some NOPs queued, behind an ARM in stage ENGINE, and some results. -/
def crowded (commands : Nat) (results : List ResultRecord) : State :=
  { State.reset with cmd := { CommandUnit.reset with
      queue := List.replicate commands (queued 0 []), execution := some ⟨queued 4 [0], .engine⟩
      results := results } }

/-- A result record. -/
def record : ResultRecord := { seq := 9, code := 4, status := .ok, value := 7 }

/-- The state with an entry of timebase TB0 ARMED at a deadline, alone on list 0, with a period and a behavior. -/
def withArmed (s : State) (e : EntryIdx) (deadline period : Tick) (b : Behavior) : State :=
  (s.setEntry e { Entry.allocated with
    state := .armed, deadline := deadline, period := period, behavior := b
    repeatsLeft := if period = 0 then 1 else b.repeatLoad }).setList b.timebase [e]

/-- The state with an entry in a state that stands on no list. -/
def withEntry (s : State) (e : EntryIdx) (st : EntryState) (b : Behavior) : State :=
  s.setEntry e { Entry.allocated with state := st, startDelay := 5, behavior := b }

/-- The behavior of a member of a group. -/
def member (g : GroupIdx) : Behavior := { Behavior.defaults with group := some g }

/-- The state with a group at a phase and depth. -/
def withGroup (s : State) (g : GroupIdx) (phase : GroupPhase) (depth : BitVec 4) : State :=
  s.setGroup g { phase := phase, depth := depth, heldCount := 0 }

/-- The state with a PENDING record of an action on a line, captured at NOW0 = 3 and NOW1 = 4. -/
def withRecord (l : TrigIdx) (a : TriggerAction) : State :=
  State.reset.setLine l { State.reset.line l with record := .pending ⟨a, 3, 4⟩ }

/-- The state with a timebase at a state, divider and partial count. -/
def withTimebase (t : Timebase) (st : TimebaseState) (divider partialCount : BitVec 16) : State :=
  State.reset.setTimebase t { state := st, divider := divider, partialCount := partialCount, now := 0 }

/-- A notice that names an entry. -/
def notice (e : EntryIdx) : Notice :=
  { entry := e, tag := 0x11, timebase := .tb0, final := true, chainMiss := false, saturated := false, count := 1
    deadline := 0x030201, lateness := 0x0504 }

/-- The state with notices in NQ0. -/
def withNotices (s : State) (proper backlog : List Notice) : State :=
  s.setQueue .nq0 { s.queue .nq0 with proper := proper, backlog := backlog }

/-- A plan with nothing to do. -/
def nothing : Plan := .refused [] .ok 0

/-- An operation for the expiry requester. -/
def operation (p : Plan) : Operation := { client := .expiry, now0 := 0, now1 := 0, plan := p }

/-- The state with an operation in flight. -/
def busy (s : State) (op : Operation) : State := s.setActivity (.busy op)

/-- A post of a service. -/
def post : Post :=
  { queue := .nq0, entry := 7, tag := 0x22, timebase := .tb0, final := false, chainMiss := false, count := 300
    deadline := 9, lateness := 1 }

/-! ## Ill-formed rows -/

theorem test_outopSet_illFormed : (Instr.outopSet 0x1F).wellFormed = false := by decide
theorem test_outopClear_illFormed : (Instr.outopClear 0x0F).wellFormed = false := by decide
theorem test_outopToggle_illFormed : (Instr.outopToggle 0x30).wellFormed = false := by decide
theorem test_outopFourth_illFormed : (Instr.outopFourthEncoding 0x20).wellFormed = false := by decide
theorem test_discard_illFormed : (Instr.discard 0xFB).wellFormed = false := by decide
theorem test_schedulerClear_illFormed : (Instr.schedulerClear 0xF7).wellFormed = false := by decide
theorem test_wmClear_illFormed : (Instr.wmClear 0xEF).wellFormed = false := by decide
theorem test_rows_wellFormed :
    (Instr.outopSet 0x0F).wellFormed ∧ (Instr.outopClear 0x1F).wellFormed ∧ (Instr.outopToggle 0x2F).wellFormed ∧
    (Instr.outopFourthEncoding 0x3F).wellFormed ∧ (Instr.discard 0x04).wellFormed ∧
    (Instr.schedulerClear 0x08).wellFormed ∧ (Instr.wmClear 0x10).wellFormed ∧ (Instr.cmd 0xFF).wellFormed := by
  decide

/-! ## One step of each row -/

theorem test_hardwareReset :
    (after (.hardwareReset true 5) (crowded 4 [])).cmd = .reset ∧
    (after (.hardwareReset true 5) (crowded 4 [])).time.tkiLevel = true ∧
    ((after (.hardwareReset true 5) (crowded 4 [])).line 2).level = true := by decide

theorem test_tkiEdge : (after .tkiEdge (withTimebase .tb1 .running 1 0)).time =
    { tb0 := .reset, tb1 := { state := .running, divider := 1, partialCount := 1, now := 0 }
      tkiEdge := .rising, tkiLevel := true } := by decide

theorem test_tick : (after (.tick .tb0) (withTimebase .tb0 .running 2 2)).time.tb0 =
    { state := .running, divider := 2, partialCount := 0, now := 1 } := by decide

theorem test_tick_not_due : after (.tick .tb0) (withTimebase .tb0 .running 2 1) = withTimebase .tb0 .running 2 1 := by
  decide

theorem test_clkPeriod : (after .clkPeriod (withTimebase .tb0 .running 2 1)).time.tb0 =
    { state := .running, divider := 2, partialCount := 2, now := 0 } := by decide

/-- A line bound to its rising edge, with an action. -/
def bound : State :=
  State.reset.setLine 1 { State.reset.line 1 with edge := .rising, action := .hold 3 }

theorem test_triggerEdge : (after (.triggerEdge 1) bound).line 1 =
    { edge := .rising, action := .hold 3, level := true, record := .pending ⟨.hold 3, 0, 0⟩, overrun := false
      miss := false } := by decide

theorem test_cmd : (after (.cmd 4) State.reset).cmd.execution = some ⟨queued 4 [], .grantWait⟩ ∧
    (after (.cmd 4) State.reset).cmd.seq = 1 := by decide

theorem test_cmd_bad_code : (after (.cmd 0x0F) State.reset).cmd.results = [⟨0, 0x0F, .badCode, 0⟩] := by decide

theorem test_nop : (after .nop (executing 0 [] .check)).cmd.results = [⟨0, 0, .ok, 0⟩] := by decide

theorem test_alloc : (after .alloc (executing 1 [0xFF] .owner)).entry 0 = .allocated ∧
    (after .alloc (executing 1 [0xFF] .owner)).cmd.results = [⟨0, 1, .ok, 0⟩] := by decide

theorem test_alloc_named : (after .alloc (executing 1 [47] .owner)).table.freeList.length = 47 ∧
    (after .alloc (executing 1 [47] .owner)).cmd.results = [⟨0, 1, .ok, 47⟩] := by decide

/-- An IDLE entry 7 with a command of the host in execution. -/
def onIdle (code : Byte) (params : List Byte) (stage : Stage) : State :=
  withEntry (executing code params stage) 7 .idle .defaults

theorem test_setupTiming : (after .setupTiming (onIdle 2 [7, 1, 2, 3, 4, 5, 6] .owner)).entry 7 =
    { Entry.allocated with startDelay := 0x030201, period := 0x060504 } := by decide

theorem test_setupBehavior : (after .setupBehavior (onIdle 3 [7, 0x5D, 0x65, 0x10, 0x20, 0xFF, 9] .owner)).entry 7 =
    { Entry.allocated with startDelay := 5, behavior := {
        timebase := .tb1, catchUp := .keep, autoFree := true, postMode := .every, queue := .nq1, action := .toggle
        line := 5, repeatLoad := 0x10, tag := 0x20, group := none, successor := some 9 } } := by decide

theorem test_retune : ((after .retune (withArmed (executing 0x0E [7, 9, 0, 0] .owner) 7 1 0
    { Behavior.defaults with repeatLoad := 6 })).entry 7).repeatsLeft = 6 := by decide

theorem test_arm : (after .arm (onIdle 4 [7] .grantWait)).engine.activity = .busy
    { client := .command, now0 := 0, now1 := 0
      plan := { nothing with claims := [7], acts := [.link 7 5 1], value := 7, bound := 4 } } := by decide

theorem test_armAt : (after .armAt (onIdle 5 [7, 0xFF, 0xFF, 0xFF] .grantWait)).engine.activity = .busy
    { client := .command, now0 := 0, now1 := 0
      plan := { nothing with claims := [7], acts := [.link 7 0 1], value := 7, bound := 4 } } := by decide

theorem test_cancel : (after .cancel (withArmed (executing 6 [7, 1] .grantWait) 7 1 0 .defaults)).engine.activity =
    .busy { client := .command, now0 := 0, now1 := 0
            plan := { nothing with claims := [7], acts := [.idle 7], purge := some 7, bound := 7 } } := by decide

theorem test_free : (after .free (onIdle 7 [7] .grantWait)).engine.activity = .busy
    { client := .command, now0 := 0, now1 := 0
      plan := { nothing with claims := [7], acts := [.release 7], purge := some 7, bound := 7 } } := by decide

theorem test_hold : (after .hold (executing 8 [3] .grantWait)).group 3 =
    { phase := .holding, depth := 1, heldCount := 0 } := by decide

theorem test_resume : (after .resume (withGroup (executing 9 [3] .grantWait) 3 .held 1)).group 3 =
    { phase := .resuming, depth := 0, heldCount := 0 } := by decide

theorem test_setDivider : (after .setDivider (executing 0x0A [1, 0, 0x34, 0, 1] .owner)).time =
    { tb0 := .reset, tb1 := { TimebaseRecord.reset with divider := 0x34 }, tkiEdge := .falling, tkiLevel := false } := by
  decide

theorem test_start : (after .start (executing 0x0A [0, 1] .owner)).time.tb0.state = .running := by decide

theorem test_stop : (after .stop (executing 0x0A [0, 2] .owner)).cmd.results = [⟨0, 0x0A, .noEffect, 0⟩] := by decide

theorem test_clearNow : (after .clearNow (executing 0x0A [1, 3] .grantWait)).engine.activity = .busy
    { client := .command, now0 := 0, now1 := 0, plan := { nothing with acts := [.clearNow .tb1] } } := by decide

theorem test_clearFault : (after .clearFault
    { withTimebase .tb0 .faulted 0 0 with cmd := (executing 0x0A [0, 4] .owner).cmd }).time.tb0.state = .stopped := by
  decide

theorem test_queueConfig : ((after .queueConfig (executing 0x0B [1, 16] .owner)).queue .nq1).watermark = 16 := by decide

theorem test_flushQueue : (after .flushQueue
    (withNotices (withEntry (executing 0x0C [0] .owner) 7 .spent .defaults) [notice 7] [])).cmd.results =
      [⟨0, 0x0C, .ok, 1⟩] ∧
    ((after .flushQueue (withNotices (withEntry (executing 0x0C [0] .owner) 7 .spent .defaults) [notice 7] [])).entry
      7).state = .free := by decide

theorem test_bindTrigger : (after .bindTrigger (executing 0x0D [2, 3, 2, 5] .owner)).line 2 =
    { TriggerLine.reset false with edge := .both, action := .hold 5 } := by decide

theorem test_service : (after .service (withArmed State.reset 7 0 10 { Behavior.defaults with
    action := .set, line := 4 })).engine.activity = .busy (operation
      { nothing with claims := [7], lineOp := some (4, .set), acts := [.link 7 10 0], bound := 16 }) := by decide

theorem test_lineOperation : (after .lineOperation (busy State.reset (operation
    { nothing with lineOp := some (15, .toggle) }))).out.latch[15] = true := by decide

theorem test_post : ((after .post (busy State.reset (operation { nothing with post := some post }))).queue .nq0).proper =
    [{ entry := 7, tag := 0x22, timebase := .tb0, final := false, chainMiss := false, saturated := true, count := 255
       deadline := 9, lateness := 1 }] := by decide

theorem test_triggerArm : (after .triggerArm (withEntry (withRecord 2 (.arm 7)) 7 .idle .defaults)).line 2 =
    { TriggerLine.reset false with record := .inService ⟨.arm 7, 3, 4⟩ none } := by decide

theorem test_triggerCancel : (after .triggerCancel (withRecord 2 (.cancel 7))).engine.activity = .busy
    { client := .trigger 2, now0 := 0, now1 := 0, plan := .refused [7] .state 0 } := by decide

theorem test_triggerHold : ((after .triggerHold (withRecord 2 (.hold 3))).group 3).phase = .holding := by decide

theorem test_triggerResume : (after .triggerResume (withRecord 2 (.resume 3))).engine.activity = .busy
    { client := .trigger 2, now0 := 0, now1 := 0, plan := .refused [] .noEffect 0 } := by decide

/-- A hold walk with entry 7 still to move. -/
def walkPlan : Plan := { nothing with walk := some ⟨.hold, 3, [7]⟩, acts := [.closeWalk 3 .held] }

theorem test_walkMemberStep : ((after .walkMemberStep
    (busy (withGroup (withArmed State.reset 7 9 0 (member 3)) 3 .holding 1) (operation walkPlan))).entry 7) =
    { Entry.allocated with state := .held, remaining := 9, repeatsLeft := 1, behavior := member 3 } := by decide

theorem test_finalStep : (after .finalStep (busy (withArmed State.reset 7 9 0 .defaults) (operation
    { nothing with claims := [7], acts := [.idle 7] }))).list .tb0 = [] := by decide

theorem test_operationCompletion : (after .operationCompletion (busy State.reset (operation nothing))).engine =
    { ListEngine.reset with activity := .deciding, rotation := .command } := by decide

/-- A waiting report on entry 7, SPENT and without notices. -/
def reported : State := (withEntry State.reset 7 .spent .defaults).setReports [7]

theorem test_releaseReport : ((after (.releaseReport 7) reported).entry 7).state = .free ∧
    (after (.releaseReport 7) reported).notices.reports = [] := by decide

theorem test_paramWrite : (after (.paramWrite 0xAB) State.reset).cmd.pptr = 1 ∧
    (after (.paramWrite 0xAB) State.reset).cmd.staging[0] = 0xAB := by decide

theorem test_paramRead : (after .paramRead State.reset).bus.readData = some 0 := by decide

theorem test_pptrWrite : (after (.pptrWrite 7) State.reset).cmd.pptr = 7 ∧
    (after (.pptrWrite 8) State.reset).bus.wm = true := by decide

theorem test_resultRead : (after .resultRead (crowded 0 [record])).bus.readData = some 9 ∧
    (after .resultRead (crowded 0 [record])).cmd.resultLatch = [9, 4, 0, 7] := by decide

theorem test_resultPop : (after (.resultPop 0x55) (crowded 0 [record])).cmd.results = [] := by decide

theorem test_noticeRead : ((after (.noticeRead .nq0) (withNotices State.reset [notice 7] [])).queue .nq0).latch =
    [7, 0x11, 2, 1, 1, 2, 3, 4, 5] := by decide

theorem test_noticePop : ((after (.noticePop .nq0 7) (withNotices State.reset [notice 7] [])).queue .nq0).proper = [] := by
  decide

/-- A pop of NQ0 that stands on entry 7. -/
def standing : State :=
  let s := withNotices (withEntry State.reset 7 .spent .defaults) [notice 7] []
  s.setQueue .nq0 { s.queue .nq0 with standing := some 7 }

theorem test_standingPop : ((after (.standingPop .nq0) standing).queue .nq0).proper = [] ∧
    ((after (.standingPop .nq0) standing).entry 7).state = .free := by decide

theorem test_vselWrite : (after (.vselWrite 0x47) State.reset).bus.vsel = .group 7 ∧
    (after (.vselWrite 0x48) State.reset).bus.wm = true := by decide

theorem test_viewRead : (after .viewRead State.reset).bus.viewLatch =
    [0, 0, 0, 0, 0, 0xFF, 0xFF, 0, 0, 0, 0, 0, 0, 0, 0, 0, 0, 1, 0] := by decide

theorem test_nselWrite : (after (.nselWrite 0xFF) State.reset).bus.nsel = .tb1 := by decide

theorem test_nowRead : (after .nowRead (State.reset.setTimebase .tb0
    { TimebaseRecord.reset with now := 0x030201 })).bus.nowLatch = [1, 2, 3] := by decide

theorem test_iclrWrite : (after (.iclrWrite 0x08)
    { State.reset with irq := { InterruptUnit.reset with rej := true } }).irq.rej = false := by decide

theorem test_ienWrite : (after (.ienWrite 0xFF) State.reset).ienByte = 0x7F := by decide

theorem test_outopSet : (after (.outopSet 0x0F) State.reset).outByte true = 0x80 := by decide

theorem test_outopClear : (after (.outopClear 0x13)
    { State.reset with out := { OutputUnit.reset with latch := Vector.replicate 16 true } }).outByte false = 0xF7 := by
  decide

theorem test_outopToggle : (after (.outopToggle 0x20) State.reset).outByte false = 0x01 := by decide

theorem test_outopFourth : (after (.outopFourthEncoding 0x30) State.reset).bus.wm = true := by decide

theorem test_triggerFlagClear : ((after (.triggerFlagClear 0x20)
    (State.reset.setLine 1 { TriggerLine.reset false with overrun := true, miss := true })).line 1) =
    { TriggerLine.reset false with overrun := true } := by decide

theorem test_refusedWindowWrite : (after (.refusedWindowWrite .view 0) State.reset).bus.wm = true := by decide

theorem test_outputEnable : (after (.outputEnable 0x01) State.reset).pin 3 = some false := by decide

theorem test_masterEnable : (after (.masterEnable 0x02) State.reset).gstat = 0x20 := by decide

theorem test_discard : (after (.discard 0x04) (crowded 3 [])).cmd.queue = [] ∧
    (after (.discard 0x04) (crowded 3 [])).cmd.execution.isSome := by decide

theorem test_schedulerClear : (after (.schedulerClear 0x0B) (crowded 3 [record])).cmd = .reset ∧
    (after (.schedulerClear 0x0B) (crowded 3 [record])).gstat = 0x30 := by decide

theorem test_wmClear : (after (.wmClear 0x10) State.reset.misuse).bus.wm = false := by decide

/-- INT# follows in the same event: a NOP is answered, and its result asserts the line (R140, R174, R179). -/
theorem test_intLow_same_event :
    let s := after (.cmd 0) { State.reset with irq := { InterruptUnit.reset with ien := 4, master := true } }
    s.intLow = true ∧ s.windowRead 1 = .byte 4 ∧ (State.intLow { s with irq := { s.irq with ien := 0 } }) = false := by
  decide

/-! ## The queue of steps -/

theorem test_step_front : step { State.reset with pending := [.clkPeriod, .nop] } =
    exec .clkPeriod { State.reset with pending := [.nop] } := rfl

theorem test_step_idle : step State.reset = .next State.reset := rfl

/-! ## States that meet the hypotheses of the statements -/

theorem test_hyps_FrontCommandRuns : ({ State.reset with pending := [.nop] } : State).pending = .nop :: [] ∧
    State.reset.pending = [] := by decide

theorem test_hyps_EventRowsSettleFirst : State.reset.settled = true ∧ rowSettlesFirst .clkPeriod = true := by decide

theorem test_hyps_NotDueChangesNothing : State.reset.ownerDue = none ∧ State.reset.nopDue = false ∧
    State.reset.reportDue 47 = false ∧ State.reset.standingDue .nq1 = none ∧
    (busy State.reset (operation nothing)).dueStep = none ∧
    (State.reset.setActivity (.chosen .trigger)).dueStep = none ∧
    (State.reset.setActivity (.chosen .trigger)).engine.activity = .chosen .trigger ∧
    (State.reset.setActivity (.chosen .command)).dueStep = none := by decide

theorem test_hyps_SchedulerClearValues : State.reset.settled = true := by decide

theorem test_hyps_GctrlWrites : State.reset.settled = true ∧ (0x14 : Byte).getLsbD 3 = false ∧
    (0x14 : Byte).getLsbD 2 = true ∧ (0x14 : Byte).getLsbD 4 = true := by decide

theorem test_hyps_CmdWrites : (crowded 3 []).settled = true ∧ (crowded 3 []).cmd.queue.length < 4 ∧
    (crowded 4 []).settled = true ∧ 4 ≤ (crowded 4 []).cmd.queue.length := by decide

/-- A state with one queued command that waits to be taken, and some results. -/
def waiting (code : Byte) (results : List ResultRecord) : State :=
  { State.reset with cmd := { CommandUnit.reset with queue := [queued code [48]], results := results } }

theorem test_hyps_TakeAndAnswer :
    (State.reset.cmd.queue = [] ∧ (crowded 1 []).cmd.execution.isSome ∧
      4 ≤ (waiting 0 [record, record, record, record]).cmd.results.length) ∧
    ((waiting 0 [record, record, record]).cmd.queue = queued 0 [48] :: [] ∧
      (waiting 0 [record, record, record]).cmd.execution = none ∧
      (waiting 0 [record, record, record]).cmd.results.length < 4 ∧ (queued 0 [48]).check = .ok .nop) ∧
    ((queued 1 [48]).check = .error .badIndex ∧ (queued 4 [48]).check = .error .badIndex ∧
      (queued 0x0F []).check = .error .badCode ∧ (queued 6 [47, 2]).check = .error .range) ∧
    (crowded 0 []).cmd.execution = some ⟨queued 4 [0], .engine⟩ := by
  refine ⟨by decide, ⟨by decide, by decide, by decide, rfl⟩, ⟨rfl, rfl, rfl, rfl⟩, by decide⟩

/-- Codes and indices at their limits (R136, R137). -/
theorem test_checks_indices :
    (queued 0x0E [47, 0, 0, 0]).check = .ok (.retune 47 0) ∧ (queued 0xFF []).check = .error .badCode ∧
    (queued 1 [47]).check = .ok (.alloc (some 47)) ∧ (queued 1 [0xFE]).check = .error .badIndex ∧
    (queued 8 [7]).check = .ok (.hold 7) ∧ (queued 9 [8]).check = .error .badIndex ∧
    (queued 0x0C [1]).check = .ok (.flushQueue .nq1) ∧ (queued 0x0C [2]).check = .error .badIndex ∧
    (queued 3 [0, 0x32, 0, 0, 0, 0xFF, 0xFF]).check = .error .badIndex ∧
    (queued 3 [0, 0x80, 0x80, 0, 0, 0xFF, 0xFF]).check = .error .badIndex ∧
    (queued 3 [0, 0, 0x10, 0, 0, 0xFF, 0xFF]).check = .error .badIndex ∧
    (queued 3 [0, 0, 0, 0, 0, 8, 0xFF]).check = .error .badIndex ∧
    (queued 3 [0, 0, 0, 0, 0, 0xFF, 48]).check = .error .badIndex ∧
    (queued 0x0D [4, 4, 4, 0]).check = .error .badIndex ∧ (queued 0x0D [0, 4, 1, 48]).check = .error .badIndex ∧
    (queued 0x0D [0, 0, 3, 8]).check = .error .badIndex :=
  ⟨rfl, rfl, rfl, rfl, rfl, rfl, rfl, rfl, rfl, rfl, rfl, rfl, rfl, rfl, rfl, rfl⟩

/-- Ranges at their limits (R137). -/
theorem test_checks_ranges :
    (queued 2 [0, 0xFF, 0xFF, 0x7F, 0xFF, 0xFF, 0x7F]).check = .ok (.setupTiming 0 8388607 8388607) ∧
    (queued 2 [0, 0, 0, 0x80]).check = .error .range ∧ (queued 2 [0, 0, 0, 0, 0, 0, 0x80]).check = .error .range ∧
    (queued 3 [0, 0x30, 0, 0, 0, 0xFF, 0xFF]).check = .error .range ∧
    (queued 3 [0, 0, 0x80, 0, 0, 0xFF, 0xFF]).check = .error .range ∧
    (queued 6 [0, 1]).check = .ok (.cancel 0 true) ∧ (queued 6 [0, 2]).check = .error .range ∧
    (queued 0x0A [1, 0, 0xFF, 0, 1]).check = .ok (.setDivider .tb1 255 (some .falling)) ∧
    (queued 0x0A [1, 0, 0, 1, 0]).check = .error .range ∧ (queued 0x0A [1, 0, 0, 0, 2]).check = .error .range ∧
    (queued 0x0A [0, 0, 0xFF, 0xFF, 2]).check = .ok (.setDivider .tb0 65535 none) ∧
    (queued 0x0A [0, 5]).check = .error .range ∧
    (queued 0x0B [1, 1]).check = .ok (.queueConfig .nq1 1) ∧ (queued 0x0B [1, 16]).check = .ok (.queueConfig .nq1 16) ∧
    (queued 0x0B [1, 0]).check = .error .range ∧ (queued 0x0B [1, 17]).check = .error .range ∧
    (queued 0x0D [0, 4, 0, 0]).check = .error .range ∧ (queued 0x0D [0, 0, 4, 0xFF]).check = .error .range ∧
    (queued 0x0D [3, 3, 2, 7]).check = .ok (.bindTrigger 3 .both (.hold 7)) ∧
    (queued 0x0E [0, 0, 0, 0x80]).check = .error .range :=
  ⟨rfl, rfl, rfl, rfl, rfl, rfl, rfl, rfl, rfl, rfl, rfl, rfl, rfl, rfl, rfl, rfl, rfl, rfl, rfl, rfl⟩

theorem test_hyps_ParamAccess : State.reset.settled = true := by decide

theorem test_hyps_PptrAccess : State.reset.settled = true ∧ (7 : Byte).toNat < 8 ∧ 8 ≤ (8 : Byte).toNat ∧
    (crowded 3 []).cmd.queue.length < 4 ∧ (crowded 4 []).settled = true ∧ 4 ≤ (crowded 4 []).cmd.queue.length := by
  decide

theorem test_hyps_ResultPort : State.reset.settled = true ∧ State.reset.cmd.results = [] ∧
    (crowded 0 [record]).settled = true ∧ (crowded 0 [record]).cmd.results = record :: [] := by decide

/-- A full NQ0 with entries 7 and 0–14, and entry 20 in its backlog. -/
def full : State :=
  withNotices State.reset (notice 7 :: ((List.finRange 15).map fun i => notice ⟨i.val, by omega⟩)) [notice 20]

theorem test_hyps_NoticePortRead : State.reset.settled = true ∧ (State.reset.queue .nq0).pointer = 0 ∧
    (State.reset.queue .nq0).proper = [] ∧ full.settled = true ∧ (full.queue .nq0).pointer = 0 ∧
    (full.queue .nq0).proper ≠ [] ∧ (after (.noticeRead .nq0) full).settled = true ∧
    ((after (.noticeRead .nq0) full).queue .nq0).pointer ≠ 0 := by decide

/-- Entry 7 SPENT with its one notice in NQ0, under the claim of an operation in flight. -/
def claimedSpent : State :=
  busy (withNotices (withEntry State.reset 7 .spent .defaults) [notice 7] []) (operation { nothing with claims := [7] })

/-- The pop of that notice, standing. -/
def claimedStanding : State := after (.noticePop .nq0 7) claimedSpent

theorem test_hyps_NoticePopNotTaken : State.reset.settled = true ∧ (State.reset.queue .nq0).proper = [] ∧
    claimedStanding.settled = true ∧ (claimedStanding.queue .nq0).standing = some 7 ∧
    full.settled = true ∧ (notice 7).entry.val ≠ (8 : Byte).toNat ∧
    claimedSpent.settled = true ∧ (claimedSpent.queue .nq0).standing = none ∧
    (claimedSpent.queue .nq0).proper = notice 7 :: [] ∧ (notice 7).entry.val = (7 : Byte).toNat ∧
    (claimedSpent.entry 7).state = .spent ∧ claimedSpent.claimed 7 = true ∧ claimedSpent.noticesOf 7 = 1 := by decide

/-- Entry 7 SPENT with its one notice in NQ0, unclaimed. -/
def spent : State := withNotices (withEntry State.reset 7 .spent .defaults) [notice 7] []

/-- Entry 7 ARMED with its one notice in NQ0, under the claim of an operation in flight. -/
def claimedArmed : State :=
  busy (withNotices (withEntry State.reset 7 .armed .defaults) [notice 7] []) (operation { nothing with claims := [7] })

theorem test_hyps_NoticePopTaken :
    (full.settled = true ∧ (full.queue .nq0).standing = none ∧ (full.entry 7).state ≠ .spent ∧
      ((full.queue .nq0).proper.drop 1).length = 15 ∧ (full.queue .nq0).backlog ≠ []) ∧
    spent.settled = true ∧ (spent.queue .nq0).proper = notice 7 :: [] ∧ spent.claimed 7 = false ∧
      (spent.entry 7).state = .spent ∧ spent.noticesOf 7 = 1 ∧ (spent.queue .nq0).backlog = [] ∧
    (claimedArmed.settled = true ∧ (claimedArmed.queue .nq0).standing = none ∧
      (claimedArmed.queue .nq0).proper = notice 7 :: [] ∧ claimedArmed.claimed 7 = true ∧
      claimedArmed.noticesOf 7 = 1 ∧ (after (.noticePop .nq0 7) claimedArmed).notices.reports = [7]) := by decide

/-- The pop of NQ0 that stands on entry 7 when the head names another entry. -/
def standingElsewhere : State := standing.setQueue .nq0 { standing.queue .nq0 with proper := [notice 8] }

/-- The same pop when the queue has been emptied. -/
def standingEmpty : State := standing.setQueue .nq0 { standing.queue .nq0 with proper := [] }

theorem test_hyps_StandingPopTaken : (standing.queue .nq0).standing = some 7 ∧ standing.claimed 7 = false ∧
    (standing.queue .nq0).proper = notice 7 :: [] ∧ (standing.entry 7).state = .spent ∧ standing.noticesOf 7 = 1 ∧
    (standingElsewhere.queue .nq0).standing = some 7 ∧ (standingElsewhere.queue .nq0).proper = notice 8 :: [] ∧
    (standingEmpty.queue .nq0).standing = some 7 ∧ (standingEmpty.queue .nq0).proper = [] := by decide

theorem test_hyps_SelectorWrites : State.reset.settled = true ∧ (ViewItem.entry 47).code = 0x2F ∧
    ViewItem.ofCode 0x30 = none ∧ ViewItem.ofCode 0x3F = none ∧ ViewItem.ofCode 0x48 = none ∧
    ViewItem.ofCode 0x54 = none ∧ ViewItem.ofCode 0x63 = none := by decide

theorem test_hyps_SelectorWrites_invalid : ∀ v : ViewItem, v.code ≠ 0x30 := by
  intro v
  cases v with
  | entry e => revert e; decide
  | group g => revert g; decide
  | trigger l => revert l; decide
  | list t => cases t <;> decide
  | freeList => decide

theorem test_hyps_ViewAndNowReads : State.reset.settled = true ∧ State.reset.bus.viewPointer = 0 ∧
    (after .viewRead State.reset).bus.viewPointer ≠ 0 ∧ (after .nowRead State.reset).bus.nowPointer ≠ 0 := by decide

/-- An entry first, between others and last on its list, and on no list (R1, R192). -/
theorem test_hyps_ViewAndNowReads_next :
    ((State.reset.entry 0).state = .free ∧ State.reset.table.freeList = [] ++ 0 :: 1 :: State.reset.table.freeList.drop 2 ∧
      State.reset.nextOf 0 = some 1) ∧
    (State.reset.table.freeList = State.reset.table.freeList.take 47 ++ [47] ∧ 47 ∉ State.reset.table.freeList.take 47 ∧
      State.reset.nextOf 47 = none) ∧
    (let s := (withArmed State.reset 7 0 0 .defaults).setList .tb0 [8, 7, 9]
     (s.entry 7).state = .armed ∧ s.list (s.entry 7).behavior.timebase = [8] ++ 7 :: 9 :: [] ∧ s.nextOf 7 = some 9) ∧
    (∀ st ∈ [EntryState.idle, .held, .spent], (withEntry State.reset 7 st .defaults).nextOf 7 = none) := by decide

/-- The last byte of the entry view, with notices on both queues and in a backlog (R107, R192). -/
theorem test_view_notices :
    ((withNotices State.reset [notice 7, notice 8] [notice 7]).viewBytes (.entry 7)).getD 18 0 = 0x06 := by decide

theorem test_hyps_FlagWrites : State.reset.settled = true := by decide

theorem test_hyps_OutopAndRefusedWrites : State.reset.settled = true ∧ (0x2F : Byte).toNat % 16 = (15 : LineIdx).val := by
  decide

theorem test_hyps_EventsAreCounted : (withTimebase .tb0 .stopped 0 0).settled = true ∧
    (withTimebase .tb0 .running 1 0).settled = true ∧ (withTimebase .tb0 .running 1 1).settled = true ∧
    (withTimebase .tb1 .running 1 0).settled = true ∧ (withTimebase .tb1 .running 1 1).settled = true ∧
    (withTimebase .tb1 .running 1 0).time.tkiEdge = .rising ∧
    (withTimebase .tb1 .running 1 0).time.tkiLevel = false ∧
    (after .tkiEdge (withTimebase .tb1 .running 1 0)).time.tkiLevel = true ∧
    (after .tkiEdge (withTimebase .tb1 .running 1 0)).settled = true := by decide

/-- TB0 one counted event before a tick, with entry 7 at a deadline at the head of list 0, under a claim. -/
def behind (deadline : Tick) : State :=
  busy (withArmed (withTimebase .tb0 .running 0 0) 7 deadline 0 .defaults) (operation { nothing with claims := [7] })

theorem test_hyps_TickTestsHead :
    ((withTimebase .tb0 .running 0 0).settled = true ∧ (withTimebase .tb0 .running 0 0).list .tb0 = []) ∧
    ((behind 0xC00002).settled = true ∧ distance 0xC00002 0 = -4194302) ∧
    ((behind 0xC00001).settled = true ∧ distance 0xC00001 0 = -4194303) ∧
    ((behind 0xC00000).settled = true ∧ distance 0xC00000 0 = -4194304) ∧
    ((behind 0xC00000).list .tb0 = 7 :: [] ∧ ((behind 0xC00000).entry 7).deadline = 0xC00000) ∧
    (withTimebase .tb1 .running 0 0).settled = true ∧ (withTimebase .tb1 .running 0 0).time.tkiEdge = .rising := by
  decide

/-- A line with a record, bound to both edges, while another operation is in flight. -/
def lineWith (edge : BindingEdge) (r : TriggerRecord) : State :=
  busy (State.reset.setLine 3 { TriggerLine.reset false with edge := edge, record := r }) (operation nothing)

theorem test_hyps_TriggerEdges : (lineWith .off .none).settled = true ∧ (lineWith .falling .none).settled = true ∧
    (lineWith .rising .none).settled = true ∧ (lineWith .both (.pending ⟨.arm 7, 0, 0⟩)).settled = true ∧
    (lineWith .both (.inService ⟨.arm 7, 0, 0⟩ none)).settled = true ∧
    (lineWith .both (.inService ⟨.arm 7, 0, 0⟩ (some ⟨.arm 8, 0, 0⟩))).settled = true ∧
    ((lineWith .both (.pending ⟨.arm 7, 0, 0⟩)).line 3).record = .pending ⟨.arm 7, 0, 0⟩ := by decide

theorem test_hyps_NopAnswered : (executing 0 [] .check).cmd.execution = some ⟨queued 0 [], .check⟩ ∧
    (queued 0 []).check = .ok .nop := ⟨by decide, rfl⟩

theorem test_hyps_AllocTaken : (executing 1 [0xFF] .owner).ownerDue = some (.alloc none) ∧
    (executing 1 [0xFF] .owner).table.freeList ≠ [] ∧
    ({ executing 1 [0xFF] .owner with table := { TimerTable.reset with freeList := [] } } : State).ownerDue =
      some (.alloc none) ∧
    (executing 1 [47] .owner).ownerDue = some (.alloc (some 47)) ∧
    ((executing 1 [47] .owner).entry 47).state = .free ∧
    (onIdle 1 [7] .owner).ownerDue = some (.alloc (some 7)) ∧ ((onIdle 1 [7] .owner).entry 7).state ≠ .free := by decide

/-- The state with entry 7 in a state, and a command in execution in stage OWNER. -/
def ownerOn (code : Byte) (params : List Byte) (st : EntryState) : State :=
  withEntry (executing code params .owner) 7 st .defaults

theorem test_hyps_EntryProgrammed :
    (∀ st ∈ [EntryState.free, .idle, .armed, .held, .spent],
      (ownerOn 2 [7, 0, 0, 0, 0, 0, 0x7F] st).ownerDue = some (.setupTiming 7 0 0x7F0000) ∧
      (ownerOn 3 [7, 0, 0, 0, 0, 0xFF, 0xFF] st).ownerDue = some (.setupBehavior 7 .defaults) ∧
      (ownerOn 0x0E [7, 1, 0, 0] st).ownerDue = some (.retune 7 1) ∧
      ((ownerOn 0x0E [7, 1, 0, 0] st).entry 7).state = st) := by decide

theorem test_hyps_SettingsTaken :
    (executing 0x0A [0, 0, 1, 0] .owner).ownerDue = some (.setDivider .tb0 1 none) ∧
    (executing 0x0A [1, 0, 1, 0, 0] .owner).ownerDue = some (.setDivider .tb1 1 (some .rising)) ∧
    (executing 0x0B [0, 1] .owner).ownerDue = some (.queueConfig .nq0 1) ∧
    (executing 0x0D [3, 0, 0, 47] .owner).ownerDue = some (.bindTrigger 3 .off (.arm 47)) := by decide

/-- The state with TB0 at a state and a TIMEBASE action on it in execution. -/
def timebaseOn (action : Byte) (st : TimebaseState) : State :=
  { withTimebase .tb0 st 0 0 with cmd := (executing 0x0A [0, action] .owner).cmd }

theorem test_hyps_TimebaseStates : ∀ st ∈ [TimebaseState.stopped, .running, .faulted],
    (timebaseOn 1 st).ownerDue = some (.start .tb0) ∧ (timebaseOn 2 st).ownerDue = some (.stop .tb0) ∧
    (timebaseOn 4 st).ownerDue = some (.clearFault .tb0) ∧ ((timebaseOn 4 st).timebase .tb0).state = st := by decide

theorem test_hyps_FlushTaken : (executing 0x0C [1] .owner).ownerDue = some (.flushQueue .nq1) ∧
    ((executing 0x0C [1] .owner).queue .nq1).proper = [] ∧
    (withNotices (ownerOn 0x0C [0] .spent) [notice 7] []).ownerDue = some (.flushQueue .nq0) ∧
    ((withNotices (ownerOn 0x0C [0] .spent) [notice 7] []).queue .nq0).proper ≠ [] ∧
    (let s := busy (withNotices (ownerOn 0x0C [0] .armed) [notice 7] []) (operation { nothing with claims := [7] })
     s.ownerDue = some (.flushQueue .nq0) ∧ s.claimed 7 = true ∧ s.noticesOf 7 = (s.queue .nq0).countOf 7 ∧
       (after .flushQueue s).notices.reports = [7]) := by decide

theorem test_hyps_ClaimsHoldUpOwners :
    (busy (ownerOn 2 [7] .idle) (operation { nothing with claims := [7] })).executing .owner = some (.setupTiming 7 0 0) ∧
    (busy (ownerOn 2 [7] .idle) (operation { nothing with claims := [7] })).claimed 7 = true ∧
    (ownerOn 3 [7, 0, 0, 0, 0, 0xFF, 0xFF] .idle).executing .owner = some (.setupBehavior 7 .defaults) ∧
    (ownerOn 0x0E [7] .idle).executing .owner = some (.retune 7 0) ∧
    (ownerOn 1 [7] .idle).executing .owner = some (.alloc (some 7)) ∧ (ownerOn 1 [7] .idle).claimed 7 = false := by
  decide

theorem test_hyps_ClaimsHoldUpOwners_any :
    (let s := { executing 1 [0xFF] .owner with table := { TimerTable.reset with freeList := [] } }
     s.executing .owner = some (.alloc none) ∧ s.table.freeList = []) ∧
    (let s := busy (executing 1 [0xFF] .owner) (operation { nothing with claims := [0] })
     s.executing .owner = some (.alloc none) ∧ s.table.freeList = 0 :: s.table.freeList.drop 1 ∧ s.claimed 0 = true) ∧
    ((executing 1 [0xFF] .owner).executing .owner = some (.alloc none) ∧ (executing 1 [0xFF] .owner).claimed 0 = false) ∧
    (let s := busy (withNotices (ownerOn 0x0C [0] .spent) [notice 7] []) (operation { nothing with claims := [7] })
     s.executing .owner = some (.flushQueue .nq0) ∧ (s.entry 7).state = .spent ∧ s.claimed 7 = true ∧
       0 < (s.queue .nq0).countOf 7 ∧ s.noticesOf 7 = (s.queue .nq0).countOf 7) ∧
    (let s := busy (withNotices (ownerOn 0x0C [0] .spent) [notice 7] []) (operation { nothing with claims := [8] })
     s.executing .owner = some (.flushQueue .nq0) ∧ s.ownerDue = some (.flushQueue .nq0)) ∧
    (executing 0x0A [0, 1] .owner).executing .owner = some (.start .tb0) ∧
    (executing 0x0B [0, 1] .owner).executing .owner = some (.queueConfig .nq0 1) ∧
    (executing 0x0D [3, 0, 0, 47] .owner).executing .owner = some (.bindTrigger 3 .off (.arm 47)) := by decide

/-- A report that names an entry that still has a notice. -/
def reportedInVain : State := (withNotices reported [notice 7] [])

theorem test_hyps_ReportTaken : 7 ∈ reported.notices.reports ∧ reported.claimed 7 = false ∧
    (reported.entry 7).state = .spent ∧ reported.noticesOf 7 = 0 ∧
    7 ∈ reportedInVain.notices.reports ∧ reportedInVain.claimed 7 = false ∧ reportedInVain.noticesOf 7 ≠ 0 := by decide

/-- Entry 7 in a state with a behavior, group 3 at a phase, and TB0 at a state. -/
def around (s : State) (st : EntryState) (b : Behavior) (phase : GroupPhase) (tb0 : TimebaseState) : State :=
  (withGroup (withEntry s 7 st b) 3 phase (if phase = .held then 1 else 0)).setTimebase .tb0
    { TimebaseRecord.reset with state := tb0 }

/-- A start of entry 7 that can be granted in a state: by ARM, by ARM AT and by a trigger record. -/
def startable (st : EntryState) (b : Behavior) (phase : GroupPhase) (tb0 : TimebaseState) (f : State → Prop) : Prop :=
  (let s := around (executing 4 [7] .grantWait) st b phase tb0
   s.Grantable .command ∧ s.executing .grantWait = some (.arm 7) ∧ f s) ∧
  (let s := around (executing 5 [7, 0xFF, 0xFF, 0xFF] .grantWait) st b phase tb0
   s.Grantable .command ∧ s.executing .grantWait = some (.armAt 7 0xFFFFFF) ∧ f s) ∧
  (let s := around (withRecord 2 (.arm 7)) st b phase tb0
   s.Grantable .trigger ∧ s.waitingLine = some (2, ⟨.arm 7, 3, 4⟩) ∧ f s)

theorem test_hyps_StartsLink :
    startable .armed (member 3) .running .stopped (fun s =>
      (s.entry 7).state = .armed ∧ (s.timebase (s.entry 7).behavior.timebase).state ≠ .faulted) ∧
    startable .idle .defaults .held .running (fun s => (s.entry 7).state = .idle ∧
      (s.entry 7).behavior.group = none ∧ (s.timebase (s.entry 7).behavior.timebase).state ≠ .faulted) ∧
    startable .idle (member 3) .running .running (fun s =>
      (s.entry 7).state = .idle ∧ (s.timebase (s.entry 7).behavior.timebase).state ≠ .faulted ∧
        (s.entry 7).behavior.group = some 3 ∧ (s.group 3).phase ≠ .held) := by
  refine ⟨⟨?_, ?_, ?_⟩, ⟨?_, ?_, ?_⟩, ⟨?_, ?_, ?_⟩⟩ <;> exact ⟨⟨rfl, rfl⟩, rfl, by decide⟩

theorem test_hyps_StartsHold :
    startable .held .defaults .running .faulted (fun s => (s.entry 7).state = .held) ∧
    startable .idle (member 3) .held .stopped (fun s =>
      (s.entry 7).state = .idle ∧ (s.timebase (s.entry 7).behavior.timebase).state ≠ .faulted ∧
        (s.entry 7).behavior.group = some 3 ∧ (s.group 3).phase = .held) := by
  refine ⟨⟨?_, ?_, ?_⟩, ⟨?_, ?_, ?_⟩⟩ <;> exact ⟨⟨rfl, rfl⟩, rfl, by decide⟩

theorem test_hyps_StartsRefused :
    startable .free .defaults .running .stopped (fun s => (s.entry 7).state = .free) ∧
    startable .spent .defaults .running .faulted (fun s => (s.entry 7).state = .spent) ∧
    startable .idle .defaults .running .faulted (fun s =>
      (s.entry 7).state = .idle ∧ (s.timebase (s.entry 7).behavior.timebase).state = .faulted) ∧
    startable .armed .defaults .running .faulted (fun s =>
      (s.entry 7).state = .armed ∧ (s.timebase (s.entry 7).behavior.timebase).state = .faulted) := by
  refine ⟨⟨?_, ?_, ?_⟩, ⟨?_, ?_, ?_⟩, ⟨?_, ?_, ?_⟩, ⟨?_, ?_, ?_⟩⟩ <;> exact ⟨⟨rfl, rfl⟩, rfl, by decide⟩

/-- CANCEL without and with purge, a triggered CANCEL and FREE of entry 7 in a state can be granted. -/
def removable (st : EntryState) : Prop :=
  (let s := around (executing 6 [7, 0] .grantWait) st (member 3) .running .stopped
   s.Grantable .command ∧ s.executing .grantWait = some (.cancel 7 false) ∧ (s.entry 7).state = st) ∧
  (let s := around (executing 6 [7, 1] .grantWait) st (member 3) .running .stopped
   s.Grantable .command ∧ s.executing .grantWait = some (.cancel 7 true) ∧ (s.entry 7).state = st) ∧
  (let s := around (withRecord 2 (.cancel 7)) st (member 3) .running .stopped
   s.Grantable .trigger ∧ s.waitingLine = some (2, ⟨.cancel 7, 3, 4⟩) ∧ (s.entry 7).state = st) ∧
  (let s := around (executing 7 [7] .grantWait) st (member 3) .running .stopped
   s.Grantable .command ∧ s.executing .grantWait = some (.free 7) ∧ (s.entry 7).state = st)

theorem test_hyps_CancelMakesIdle : removable .armed ∧ removable .held := by
  refine ⟨⟨?_, ?_, ?_, ?_⟩, ⟨?_, ?_, ?_, ?_⟩⟩ <;> exact ⟨⟨rfl, rfl⟩, rfl, by decide⟩

theorem test_hyps_CancelElsewhere : removable .idle ∧ removable .free ∧ removable .spent := by
  refine ⟨⟨?_, ?_, ?_, ?_⟩, ⟨?_, ?_, ?_, ?_⟩, ⟨?_, ?_, ?_, ?_⟩⟩ <;> exact ⟨⟨rfl, rfl⟩, rfl, by decide⟩

theorem test_hyps_FreeReleases : removable .idle ∧ removable .held ∧ removable .spent ∧ removable .free := by
  refine ⟨⟨?_, ?_, ?_, ?_⟩, ⟨?_, ?_, ?_, ?_⟩, ⟨?_, ?_, ?_, ?_⟩, ⟨?_, ?_, ?_, ?_⟩⟩ <;>
    exact ⟨⟨rfl, rfl⟩, rfl, by decide⟩

/-- HOLD and RESUME of group 3, commanded and triggered, can be granted at a phase and depth. -/
def changeable (phase : GroupPhase) (depth : BitVec 4) : Prop :=
  (let s := withGroup (executing 8 [3] .grantWait) 3 phase depth
   s.Grantable .command ∧ s.executing .grantWait = some (.hold 3) ∧ s.group 3 = ⟨phase, depth, 0⟩) ∧
  (let s := withGroup (executing 9 [3] .grantWait) 3 phase depth
   s.Grantable .command ∧ s.executing .grantWait = some (.resume 3) ∧ s.group 3 = ⟨phase, depth, 0⟩) ∧
  (let s := withGroup (withRecord 2 (.hold 3)) 3 phase depth
   s.Grantable .trigger ∧ s.waitingLine = some (2, ⟨.hold 3, 3, 4⟩) ∧ s.group 3 = ⟨phase, depth, 0⟩) ∧
  (let s := withGroup (withRecord 2 (.resume 3)) 3 phase depth
   s.Grantable .trigger ∧ s.waitingLine = some (2, ⟨.resume 3, 3, 4⟩) ∧ s.group 3 = ⟨phase, depth, 0⟩)

theorem test_hyps_DepthChanges : changeable .held 15 ∧ changeable .held 14 ∧ changeable .held 2 ∧ changeable .running 0 := by
  refine ⟨⟨?_, ?_, ?_, ?_⟩, ⟨?_, ?_, ?_, ?_⟩, ⟨?_, ?_, ?_, ?_⟩, ⟨?_, ?_, ?_, ?_⟩⟩ <;>
    exact ⟨⟨rfl, rfl⟩, rfl, by decide⟩

theorem test_hyps_WalksOpen : changeable .running 0 ∧ changeable .held 1 := by
  refine ⟨⟨?_, ?_, ?_, ?_⟩, ⟨?_, ?_, ?_, ?_⟩⟩ <;> exact ⟨⟨rfl, rfl⟩, rfl, by decide⟩

theorem test_hyps_WalkSteps :
    (busy State.reset (operation walkPlan)).InFlight (operation walkPlan) ∧
    (busy State.reset (operation { walkPlan with walk := some ⟨.resume, 3, [7]⟩ })).InFlight
      (operation { walkPlan with walk := some ⟨.resume, 3, [7]⟩ }) ∧
    (busy State.reset (operation { walkPlan with walk := some ⟨.hold, 3, []⟩ })).InFlight
      (operation { walkPlan with walk := some ⟨.hold, 3, []⟩ }) ∧
    walkPlan.acts = [.closeWalk 3 .held] ∧ walkPlan.lineOp = none ∧ walkPlan.post = none ∧ walkPlan.purge = none :=
  ⟨⟨rfl, rfl⟩, ⟨rfl, rfl⟩, ⟨rfl, rfl⟩, rfl, rfl, rfl, rfl⟩

theorem test_hyps_ClearNowTaken :
    (executing 0x0A [0, 3] .grantWait).Grantable .command ∧
    (executing 0x0A [0, 3] .grantWait).executing .grantWait = some (.clearNow .tb0) ∧
    ((executing 0x0A [0, 3] .grantWait).timebase .tb0).state = .stopped ∧
    (executing 0x0A [0, 3] .grantWait).list .tb0 = [] ∧
    ((executing 0x0A [0, 3] .grantWait).setTimebase .tb0 { TimebaseRecord.reset with state := .running }).Grantable
      .command :=
  ⟨⟨rfl, rfl⟩, rfl, rfl, rfl, ⟨rfl, rfl⟩⟩

/-- Entry 7 due on list 0, and entry 8 due on list 1, at the given deadlines. -/
def bothDue (d0 d1 : Tick) : State :=
  withArmed (withArmed State.reset 7 d0 0 .defaults) 8 d1 0 { Behavior.defaults with timebase := .tb1 }

theorem test_hyps_ServiceChoosesHead :
    ((withArmed State.reset 7 0 0 .defaults).Grantable .expiry ∧
      (withArmed State.reset 7 0 0 .defaults).chooseHead = some (.tb0, 7)) ∧
    (((bothDue 0 1).list .tb0).head? = some 7 ∧ distance ((bothDue 0 1).entry 7).deadline ((bothDue 0 1).now .tb0) ≤ 0 ∧
      ((bothDue 0 1).list .tb1).head? = some 8 ∧
      ¬distance ((bothDue 0 1).entry 8).deadline ((bothDue 0 1).now .tb1) ≤ 0) ∧
    ((bothDue 0 0).chooseHead = some (.tb0, 7) ∧ (bothDue 0 0xFFFFFF).chooseHead = some (.tb1, 8) ∧
      (bothDue 1 0).chooseHead = some (.tb1, 8) ∧ (bothDue 1 1).chooseHead = none) :=
  ⟨⟨⟨by decide, by decide⟩, by decide⟩, by decide, by decide⟩

/-- A periodic entry with a catch-up policy and repeats left, overdue by 20 of its periods of 10 ticks. -/
def overdue (c : CatchUp) (repeats : Byte) : Entry :=
  { Entry.allocated with
    state := .armed, period := 10, deadline := 0xFFFF38, repeatsLeft := repeats
    behavior := { Behavior.defaults with catchUp := c, repeatLoad := repeats } }

theorem test_hyps_ExpiriesCounted : distance 0xFFFF38 0 = -200 ∧
    (overdue .skip 0).expiries 0 = ⟨21, false, 0⟩ ∧ (overdue .skip 21).expiries 0 = ⟨21, true, 0⟩ ∧
    (overdue .skip 22).expiries 0 = ⟨21, false, 1⟩ ∧ (overdue .skip 20).expiries 0 = ⟨20, true, 0⟩ ∧
    (overdue .keep 0).expiries 0 = ⟨1, false, 0⟩ ∧ (overdue .keep 1).expiries 0 = ⟨1, true, 0⟩ ∧
    (overdue .keep 2).expiries 0 = ⟨1, false, 1⟩ ∧
    ({ overdue .keep 1 with period := 0 } : Entry).expiries 0 = ⟨1, true, 0⟩ := by decide

/-- Entry 7 due and ending its run, with a successor 9 in a state. -/
def chained (successor : EntryState) : State :=
  (withArmed State.reset 7 0 0 { Behavior.defaults with successor := some 9, postMode := .final }).setEntry 9
    { Entry.allocated with state := successor }

theorem test_hyps_ServiceDecides :
    (((chained .idle).entry 7).expiries 0).ends = true ∧ ((chained .idle).entry 7).behavior.successor = some 9 ∧
    ((chained .idle).servicePlan .tb0 7).acts = [.retire 7, .link 9 0 1] ∧
    ((chained .held).servicePlan .tb0 7).acts = [.retire 7, .hold 9 0 1] ∧
    ((chained .spent).servicePlan .tb0 7).acts = [.retire 7] ∧
    (((chained .free).servicePlan .tb0 7).post.map (·.chainMiss)) = some true := by decide

/-- Entry 7 due, periodic and never ending, with action SET and post mode EVERY. -/
def reloading : State :=
  withArmed State.reset 7 0 10 { Behavior.defaults with action := .set, line := 4, postMode := .every }

theorem test_hyps_ServiceReloads : reloading.Grantable .expiry ∧ reloading.chooseHead = some (.tb0, 7) ∧
    (reloading.entry 7).behavior.timebase = .tb0 ∧ (reloading.entry 7).state = .armed ∧
    ((reloading.entry 7).expiries (reloading.now .tb0)).ends = false ∧ (reloading.entry 7).behavior.action = .set ∧
    (reloading.entry 7).behavior.postMode = .every :=
  ⟨⟨by decide, by decide⟩, by decide, by decide, by decide, by decide, by decide, by decide⟩

theorem test_hyps_ServiceRetires : (withArmed State.reset 7 0 0 .defaults).Grantable .expiry ∧
    (withArmed State.reset 7 0 0 .defaults).chooseHead = some (.tb0, 7) ∧
    ((withArmed State.reset 7 0 0 .defaults).entry 7).state = .armed ∧
    (((withArmed State.reset 7 0 0 .defaults).entry 7).expiries 0).ends = true ∧
    ((withArmed State.reset 7 0 0 .defaults).entry 7).behavior = .defaults :=
  ⟨⟨by decide, by decide⟩, by decide, by decide, by decide, by decide⟩

/-- Entry 7 due, one-shot, with auto-free and post mode FINAL. -/
def autoFreeing : State :=
  withArmed State.reset 7 0 0 { Behavior.defaults with autoFree := true, postMode := .final }

theorem test_hyps_ServiceRetires_spent : autoFreeing.Grantable .expiry ∧ autoFreeing.chooseHead = some (.tb0, 7) ∧
    (autoFreeing.entry 7).behavior.timebase = .tb0 ∧ (autoFreeing.entry 7).state = .armed ∧
    ((autoFreeing.entry 7).expiries (autoFreeing.now .tb0)).ends = true ∧
    (autoFreeing.entry 7).behavior.successor = none ∧ (autoFreeing.entry 7).behavior.action = .none ∧
    (autoFreeing.entry 7).behavior.postMode ≠ .off ∧ (autoFreeing.entry 7).behavior.autoFree = true :=
  ⟨⟨by decide, by decide⟩, by decide, by decide, by decide, by decide, by decide, by decide, by decide, by decide⟩

/-- An operation with the given final step in flight, with entry 7 on list 0. -/
def finishing (acts : List Act) : State :=
  busy (withArmed State.reset 7 0 0 .defaults) (operation { nothing with claims := [7, 9], acts := acts })

theorem finishing_inFlight (acts : List Act) :
    (finishing acts).InFlight (operation { nothing with claims := [7, 9], acts := acts }) := ⟨rfl, rfl⟩

theorem test_hyps_ServiceRetires_final :
    (∀ acts ∈ [[Act.link 7 5 1], [.retire 7], [.retire 7, .link 9 5 1], [.retire 7, .hold 9 5 1]],
      (operation { nothing with claims := [7, 9], acts := acts }).plan.acts = acts) ∧
    nothing.lineOp = none ∧ nothing.post = none ∧ nothing.purge = none ∧ nothing.walk = none ∧
    (∀ b ∈ [Timebase.tb0, .tb1], ((finishing [.retire 7, .link 9 5 1]).list b).Nodup) ∧
    (finishing [.retire 7, .link 9 5 1]).list .tb0 = [7] ∧ (finishing [.retire 7, .link 9 5 1]).list .tb1 = [] ∧
    ((finishing [.retire 7, .link 9 5 1]).entry 7).behavior.timebase = .tb0 := by decide

theorem test_final_successor :
    ((after .finalStep (finishing [.retire 7, .link 9 5 1])).list .tb0 = [9]) ∧
    ((after .finalStep (finishing [.retire 7, .hold 9 5 1])).entry 9).state = .held := by decide

theorem test_hyps_HandOvers :
    (busy State.reset (operation { nothing with lineOp := some (15, .toggle) })).InFlight
      (operation { nothing with lineOp := some (15, .toggle) }) ∧
    (busy State.reset (operation nothing)).InFlight (operation nothing) ∧
    (busy State.reset { operation nothing with client := .command }).InFlight
      { operation nothing with client := .command } ∧
    (busy (lineWith .both (.inService ⟨.arm 7, 0, 0⟩ none)) { operation nothing with client := .trigger 3 }).InFlight
      { operation nothing with client := .trigger 3 } ∧
    ((lineWith .both (.inService ⟨.arm 7, 0, 0⟩ none)).line 3).record = .inService ⟨.arm 7, 0, 0⟩ none ∧
    nothing.acts = [] ∧ nothing.lineOp = none ∧ nothing.post = none ∧ nothing.purge = none ∧ nothing.walk = none :=
  ⟨⟨rfl, rfl⟩, ⟨rfl, rfl⟩, ⟨rfl, rfl⟩, ⟨rfl, rfl⟩, rfl, rfl, rfl, rfl, rfl, rfl⟩

/-- A post on its way to NQ0, with notices there. -/
def posting (proper backlog : List Notice) : State :=
  busy (withNotices State.reset proper backlog) (operation { nothing with post := some post })

theorem test_hyps_PostPlaced :
    ((posting [notice 8, notice 7] []).InFlight (operation { nothing with post := some post }) ∧
      ((posting [notice 8, notice 7] []).queue .nq0).openPart = [notice 8] ++ notice 7 :: [] ∧
      (notice 7).entry = post.entry ∧ (notice 8).entry ≠ post.entry) ∧
    ((posting (List.replicate 16 (notice 8)) [notice 6, notice 7]).InFlight
        (operation { nothing with post := some post }) ∧
      ((posting (List.replicate 16 (notice 8)) [notice 6, notice 7]).queue .nq0).backlog =
        [notice 6] ++ notice 7 :: []) ∧
    ((posting (List.replicate 15 (notice 8)) []).queue .nq0).proper.length < 16 ∧
    16 ≤ ((posting (List.replicate 16 (notice 8)) [notice 6, notice 9]).queue .nq0).proper.length ∧
    ([notice 6, notice 9].map (·.entry)).Pairwise (· < ·) :=
  ⟨⟨⟨rfl, rfl⟩, rfl, rfl, by decide⟩, ⟨⟨rfl, rfl⟩, rfl⟩, by decide, by decide, by decide⟩

theorem test_hyps_RotationDecides :
    (State.reset.engine.rotation = .expiry ∧ (withArmed State.reset 7 0 0 .defaults).waits .expiry = true ∧
      (withArmed State.reset 7 0 0 .defaults).engine.activity = .idle) ∧
    ((onIdle 4 [7] .grantWait).waits .expiry = false ∧ (onIdle 4 [7] .grantWait).waits .command = true ∧
      (onIdle 4 [7] .grantWait).engine.activity = .idle) ∧
    ((withRecord 2 (.arm 7)).waits .expiry = false ∧ (withRecord 2 (.arm 7)).waits .command = false ∧
      (withRecord 2 (.arm 7)).waits .trigger = true) ∧
    (withArmed State.reset 7 0 0 .defaults).dueStep = none ∧ (onIdle 4 [7] .grantWait).dueStep = none ∧
    (withRecord 2 (.arm 7)).dueStep = none := by decide

/-- At a completion, with nothing else due: all three requesters wait, the pointer names one. -/
def decidingAt (r : Requester) : State :=
  let s := (withArmed (withRecord 2 (.hold 3)) 7 0 0 .defaults).setActivity .deciding
  { s with cmd := (executing 8 [3] .grantWait).cmd, engine := { s.engine with rotation := r } }

theorem test_hyps_RotationDecides_deciding : ∀ r ∈ [Requester.expiry, .command, .trigger],
    (decidingAt r).engine.activity = .deciding ∧ (decidingAt r).nopDue = false ∧ (decidingAt r).ownerDue = none ∧
    (decidingAt r).notices.reports = [] ∧ (decidingAt r).standingDue .nq0 = none ∧
    (decidingAt r).standingDue .nq1 = none ∧ (decidingAt r).settle.engine.activity = .chosen r := by decide

theorem test_hyps_DistanceRule : ((0x7FFFFF : Tick) - 0).toNat < 8388608 ∧ 8388608 ≤ ((0x800000 : Tick) - 0).toNat := by
  decide

theorem test_hyps_InsertionKeepsOrder :
    ([1, 2, 2, 5] : List EntryIdx).Pairwise (fun a b => (a.val : Int) ≤ (b.val : Int)) := by decide

/-- Entry 7 due on list 0 and off the free list, with a service in the queue of steps. -/
def lawful : State :=
  let s := withArmed State.reset 7 0 10 .defaults
  { s with table := { s.table with freeList := s.table.freeList.erase 7 }, pending := [.service] }

theorem lawful_idle (op : Operation) : lawful.engine.activity ≠ .busy op := nofun

theorem test_hyps_CommandLawKept : lawful.CommandLaw ∧ ∃ t, step lawful = .next t :=
  ⟨⟨by decide, by decide, by decide⟩, _, rfl⟩

theorem test_hyps_NoticeLawKept : lawful.NoticeLaw ∧ ∃ t, step lawful = .next t := by
  refine ⟨⟨?_, ?_, fun op _ h => absurd h (lawful_idle op)⟩, _, rfl⟩ <;>
    exact ⟨by decide, by decide, by decide, by decide, by decide, by decide, by decide⟩

theorem test_hyps_ListLawKept : lawful.ListLaw ∧ ∃ t, step lawful = .next t := by
  refine ⟨⟨by decide, by decide, ?_, ?_, fun op h => absurd h (lawful_idle op)⟩, _, rfl⟩
  · intro t; cases t <;> decide
  · intro t; cases t <;> decide

theorem test_hyps_GroupLawKept : lawful.GroupLaw ∧ ∃ t, step lawful = .next t := by
  refine ⟨⟨by decide, ?_, by decide, fun op h => absurd h (lawful_idle op),
    fun op _ _ h => absurd h (lawful_idle op), fun op _ h => absurd h (lawful_idle op)⟩, _, rfl⟩
  have hm : ∀ g, lawful.membersIn .held g = [] := by decide
  have hr : ∀ g, lawful.group g = Group.reset := by decide
  intro g
  simp [State.PhaseLaw, hr, hm, Group.reset]

theorem test_hyps_SpentLawKept : lawful.SpentLaw ∧ ∃ t, step lawful = .next t :=
  ⟨⟨by decide, by decide, fun op _ h => absurd h (lawful_idle op), fun op _ h => absurd h (lawful_idle op),
    fun op _ h => absurd h (lawful_idle op)⟩, _, rfl⟩

theorem test_hyps_LiveFieldsKept : lawful.RepeatsLaw ∧ lawful.LiveLaw ∧ ∃ t, step lawful = .next t := by
  have hr : ∀ e, e ≠ 7 → lawful.entry e = Entry.reset := by decide
  refine ⟨⟨?_, fun op _ _ _ h => absurd h (lawful_idle op), fun op _ _ _ h => absurd h (lawful_idle op)⟩, ?_, _, rfl⟩
  · intro e
    by_cases h : e = 7
    · subst h; intro _; show (0 : Byte) = 0; rfl
    · rw [hr e h]; simp [Entry.reset]
  · intro e
    by_cases h : e = 7
    · subst h; show (0 : Tick) = 0; rfl
    · rw [hr e h]; exact ⟨rfl, rfl, rfl⟩

end Sys2Proof.Machine.Tests
end

section
/-!
The laws of the Timer Table and the lists, kept by every step: everything a step can do to an entry, a list or the
plan in flight, said once (R5, R7, R17, R43).
-/
namespace Sys2Proof.Machine

/-! ## States with the same table and lists -/

/-- `t` has the entries, the free list and the pending lists of `s`. -/
structure State.SameTable (s t : State) : Prop where
  table : t.table = s.table
  list : ∀ b, t.list b = s.list b

theorem State.SameTable.of_engine {s t : State} (ht : t.table = s.table) (he : t.engine = s.engine) :
    s.SameTable t := ⟨ht, list_of_engine he⟩

theorem State.SameTable.entry {s t : State} (h : s.SameTable t) (e : EntryIdx) : t.entry e = s.entry e :=
  entry_of_table h.table e

theorem State.SameTable.linked {s t : State} (h : s.SameTable t) (hs : s.Linked) : t.Linked := hs.of h.table h.list

/-- The opening step of a walk and the grant write neither table nor lists (R47, R115). -/
theorem openWalk_begin_sameTable (s : State) (w : Option Walk) (cl : Client) (p : Plan) :
    s.SameTable ((s.openWalk w).begin cl p) := by
  refine ⟨by simp, fun b => ?_⟩
  have : ((s.openWalk w).begin cl p).list b = (s.openWalk w).list b := by cases b <;> rfl
  rw [this]
  unfold State.openWalk
  split <;> simp

/-- A hand-over writes neither table nor lists (R66). -/
theorem setPlan_sameTable_of {s t : State} (ht : t.table = s.table) (he : t.engine = s.engine) (op : Operation)
    (p : Plan) : s.SameTable (t.setPlan op p) :=
  ⟨by rw [setPlan_table, ht], fun b => by rw [State.setPlan, setActivity_list, list_of_engine he]⟩

/-- A CLK period counts for R51 and leaves lists and activity (R25). -/
theorem clkPeriod_engine (s : State) :
    (∀ b, s.clkPeriod.list b = s.list b) ∧ s.clkPeriod.engine.activity = s.engine.activity := by
  have he : (s.countEvent .tb0).engine = s.engine := by simp
  unfold State.clkPeriod
  dsimp only
  split
  · exact ⟨fun b => (list_of_engine he b).symm ▸ by cases b <;> rfl, by rw [he]⟩
  · exact ⟨list_of_engine he, by rw [he]⟩

/-- A plan that the engine can decide at a grant (R54, R60, R66). -/
inductive State.Plans (s : State) : Plan → Prop
  | service {b : Timebase} {e : EntryIdx} (h : s.chooseHead = some (b, e)) : s.Plans (s.servicePlan b e)
  | start (e : EntryIdx) (d : Tick) : s.Plans (s.startPlan e d)
  | cancel (e : EntryIdx) (purge : Bool) : s.Plans (s.cancelPlan e purge)
  | free (e : EntryIdx) : s.Plans (s.freePlan e)
  | hold (g : GroupIdx) : s.Plans (s.holdPlan g)
  | resume (g : GroupIdx) : s.Plans (s.resumePlan g)
  | clearNow (b : Timebase) : s.Plans (s.clearNowPlan b)

theorem commandPlan_plans {s : State} {c : Command} {p : Plan} (h : s.commandPlan c = some p) : s.Plans p := by
  cases c <;> simp only [State.commandPlan, Option.some.injEq, reduceCtorEq] at h <;> subst h
  case arm => exact .start _ _
  case armAt => exact .start _ _
  case cancel => exact .cancel _ _
  case free => exact .free _
  case hold => exact .hold _
  case resume => exact .resume _
  case clearNow => exact .clearNow _

theorem triggerPlan_plans (s : State) (c : Capture) : s.Plans (s.triggerPlan c) := by
  unfold State.triggerPlan
  split
  · exact .start _ _
  · exact .cancel _ _
  · exact .hold _
  · exact .resume _

/-- `P` looks at the table, the lists and the operation in flight only, and the writes of the owners keep it. -/
structure OwnerKeeps (P : State → Prop) : Prop where
  /-- Nothing changes there, or an operation ends. -/
  frame : ∀ {s t : State}, P s → s.SameTable t → t.engine.activity = s.engine.activity ∨ t.Open → P t
  /-- ALLOC loads an entry of the free list, not under a claim (R3, R11, R12, R17). -/
  allocate : ∀ {s : State} {e : EntryIdx}, P s → s.claimed e = false → (s.Linked → (s.entry e).state = .free) →
    P (s.allocate e)
  /-- A report releases a SPENT entry, not under a claim (R10, R17). -/
  release : ∀ {s : State} {e : EntryIdx}, P s → s.claimed e = false → (s.entry e).state = .spent → P (s.release e)
  /-- A SETUP or a RETUNE programs an IDLE entry, not under a claim (R13–R15, R17). -/
  program : ∀ {s : State} {e : EntryIdx} (startDelay period : Tick) (b : Behavior), P s → s.claimed e = false →
    (s.entry e).state = .idle →
    P (s.setEntry e { s.entry e with startDelay := startDelay, period := period, behavior := b })
  /-- A RETUNE programs a running entry, not under a claim (R15, R17). -/
  retune : ∀ {s : State} {e : EntryIdx} (period : Tick), P s → s.claimed e = false →
    (s.entry e).state = .armed ∨ (s.entry e).state = .held →
    P (s.setEntry e { s.entry e with period := period, repeatsLeft := retunedRepeats (s.entry e) period })

/-- The writes of the List Engine keep `P` too. -/
structure TableKeeps (P : State → Prop) : Prop extends OwnerKeeps P where
  /-- A grant puts a plan in flight (R47). -/
  grant : ∀ {s t : State} {op : Operation}, P s → s.SameTable t → s.Plans op.plan → t.engine.activity = .busy op → P t
  /-- A hand-over leaves claims, purge, walk and writes of the plan (R66). -/
  handed : ∀ {s t : State} {op : Operation} {p : Plan}, P s → s.SameTable t → s.engine.activity = .busy op →
    t.engine.activity = .busy { op with plan := p } → p.claims = op.plan.claims → p.purge = op.plan.purge →
    p.walk = op.plan.walk → p.acts = op.plan.acts → P t
  walk : ∀ {s : State}, P s → P s.walkStep
  final : ∀ {s : State}, P s → P s.finalStep
  /-- A reset empties the lists and frees every entry (R21, R64). -/
  reset : ∀ {t : State}, t.table = .reset → t.engine = .reset → P t

/-! ## Reports and owners -/

section
variable {P : State → Prop} (h : OwnerKeeps P)
include h

/-- What leaves table and engine alone keeps `P`. -/
theorem OwnerKeeps.same {s t : State} (hs : P s) (ht : t.table = s.table) (he : t.engine = s.engine) : P t :=
  h.frame hs (.of_engine ht he) (.inl (by rw [he]))

theorem takeReport_table_keeps {s : State} {e : EntryIdx} (hs : P s) (hc : s.claimed e = false) :
    P (s.takeReport e) := by
  unfold State.takeReport
  split
  · rename_i hr; exact h.release hs hc hr.1
  · exact hs

theorem sendReport_table_keeps {s : State} (hs : P s) (e : EntryIdx) : P (s.sendReport e) := by
  unfold State.sendReport
  split
  · exact h.same hs (by simp) (by simp)
  · rename_i hc; exact takeReport_table_keeps h hs (by simpa using hc)

theorem sendReports_table_keeps (l : List EntryIdx) {s : State} (hs : P s) : P (l.foldl State.sendReport s) := by
  induction l generalizing s with
  | nil => exact hs
  | cons e l ih => exact ih (sendReport_table_keeps h hs e)

theorem purge_table_keeps {s : State} (hs : P s) (e : EntryIdx) : P (s.purge e) := by
  have hq : P ((s.setQueue .nq0 ((s.queue .nq0).purged e)).setQueue .nq1 ((s.queue .nq1).purged e)) :=
    h.same hs (by simp) (by simp)
  unfold State.purge
  dsimp only
  split
  · exact hq
  · exact sendReport_table_keeps h hq e

theorem takePop_table_keeps {s : State} (hs : P s) (q : QueueId) (i : Nat) : P (s.takePop q i) := by
  have hm : P s.misuse := h.same hs (by simp) (by simp)
  unfold State.takePop
  split
  · exact hm
  · split
    · have hq : P (s.setQueue q (s.queue q).popped) := h.same hs (by simp) (by simp)
      unfold State.reportIfNone
      split
      · exact sendReport_table_keeps h hq _
      · exact hq
    · exact hm

theorem popNotice_table_keeps {s : State} (hs : P s) (q : QueueId) (i : Nat) : P (s.popNotice q i) := by
  unfold State.popNotice
  split
  · exact h.same hs (by simp) (by simp)
  · split
    · exact h.same hs (by simp) (by simp)
    · split
      · exact h.same hs (by simp) (by simp)
      · exact takePop_table_keeps h hs q i

/-- An owner takes a command that waits for no claim (R17, R138). -/
theorem owned_table_keeps {s : State} {c : Command} {r : Owned} (hs : P s) (ho : s.owned c = some r)
    (hw : s.ownerMustWait c = false) : P r.1 := by
  cases c <;> simp only [State.owned, Option.some.injEq, reduceCtorEq] at ho <;> subst ho
  case alloc w =>
    cases w with
    | none =>
      unfold ownAlloc
      cases hf : s.table.freeList with
      | nil => exact hs
      | cons e rest =>
        simp only [State.ownerMustWait, hf] at hw
        exact h.allocate hs hw fun hl => (hl.free e).mp (by simp [hf])
    | some e =>
      unfold ownAlloc
      dsimp only
      split
      · rename_i he; exact h.allocate hs hw fun _ => he
      · exact hs
  case setupTiming e sd p =>
    unfold ownSetupTiming
    split
    · rename_i he; exact h.program sd p (s.entry e).behavior hs hw he
    · exact hs
  case setupBehavior e b =>
    unfold ownSetupBehavior
    split
    · rename_i he; exact h.program (s.entry e).startDelay (s.entry e).period b hs hw he
    · exact hs
  case retune e p =>
    unfold ownRetune
    split
    · rename_i he; exact h.program (s.entry e).startDelay p (s.entry e).behavior hs hw he
    · rename_i he; exact h.retune p hs hw (.inl he)
    · rename_i he; exact h.retune p hs hw (.inr he)
    all_goals exact hs
  case flushQueue q =>
    unfold ownFlushQueue
    dsimp only
    split
    · exact hs
    · exact sendReports_table_keeps h _ (h.same hs (by simp) (by simp))
  case setDivider => rw [ownSetDivider_frame]; exact h.same hs rfl rfl
  case start => rw [ownStart_frame]; exact h.same hs rfl rfl
  case stop => rw [ownStop_frame]; exact h.same hs rfl rfl
  case clearFault => rw [ownClearFault_frame]; exact h.same hs rfl rfl
  case queueConfig => rw [ownQueueConfig_frame]; exact h.same hs rfl rfl
  case bindTrigger => rw [ownBindTrigger_frame]; exact h.same hs rfl rfl

theorem ownerStep_table_keeps {s : State} (hs : P s) (k : Command → Bool) : P (s.ownerStep k) := by
  unfold State.ownerStep
  split
  · exact hs
  · rename_i c hc
    split
    · exact hs
    · rename_i s' st v ho
      split
      · exact h.same (owned_table_keeps h hs ho (ownerDue_some hc).2.2) (by simp) (by simp)
      · exact hs

theorem OwnerKeeps.due : DueKeeps P where
  report s e hs := by
    unfold State.takeWaitingReport
    split
    · rename_i hd
      have hc : s.claimed e = false := by
        simp only [State.reportDue, Bool.and_eq_true, Bool.not_eq_true'] at hd
        exact hd.2
      exact takeReport_table_keeps h (h.same hs (by simp) (by simp)) hc
    · exact hs
  standing s q hs := by
    unfold State.takeStanding
    split
    · exact hs
    · exact takePop_table_keeps h (h.same hs (by simp) (by simp)) q _
  nop s hs := h.same hs (by simp) (by simp)
  owner s k hs := ownerStep_table_keeps h hs k
  decide s _ hs := by
    refine h.frame hs ⟨by simp, fun b => by simp [State.decideGrant]⟩ (.inr fun op => ?_)
    unfold State.decideGrant
    rw [setActivity_activity]
    split <;> nofun

end

/-! ## Every step -/

section
variable {P : State → Prop} (h : TableKeeps P)
include h

theorem TableKeeps.grants : GrantKeeps P where
  service s _ hs := by
    unfold State.grantService
    split
    · exact hs
    · rename_i b e hc
      exact h.grant hs (openWalk_begin_sameTable s none _ _) (.service hc) rfl
  command s k _ hs := by
    unfold State.grantCommand
    split
    · exact hs
    · split
      · exact hs
      · rename_i p hp
        split
        · obtain ⟨ht, hl⟩ := openWalk_begin_sameTable s p.walk .command p
          exact h.grant hs ⟨ht, hl⟩ (commandPlan_plans hp) rfl
        · exact hs
  trigger s k _ hs := by
    unfold State.grantTrigger
    split
    · exact hs
    · rename_i l c hl
      split
      · obtain ⟨ht, hl⟩ := openWalk_begin_sameTable s (s.triggerPlan c).walk (.trigger l) (s.triggerPlan c)
        exact h.grant hs ⟨ht, hl⟩ (triggerPlan_plans s c) rfl
      · exact hs

theorem TableKeeps.engine : EngineKeeps P where
  lineOp s hs := by
    unfold State.handLineOp
    split
    · rename_i op ho
      split
      · exact h.handed hs (setPlan_sameTable_of (by simp) (by simp) op _) ho rfl rfl rfl rfl rfl
      · exact hs
    all_goals exact hs
  post s hs := by
    unfold State.handPost
    split
    · rename_i op ho
      split
      · exact h.handed hs (setPlan_sameTable_of (by simp) (by simp) op _) ho rfl rfl rfl rfl rfl
      all_goals exact hs
    all_goals exact hs
  walk s hs := h.walk hs
  final s hs := h.final hs
  complete s hs := by
    unfold State.complete
    split
    · rename_i op ho
      split
      · exact h.frame hs ⟨by simp, fun b => by rw [list_of_engine (handBack_engine _ _ _ _)]; cases b <;> rfl⟩
          (.inr fun op' => by rw [handBack_engine]; nofun)
      · exact hs
    all_goals exact hs

theorem TableKeeps.window : WindowKeeps P where
  cmd s b hs := h.same hs (by simp) (by simp)
  writeParam s b hs := h.same hs (by simp) (by simp)
  readParam s hs := h.same hs (by simp) (by simp)
  pptr s b hs := h.same hs (by simp) (by simp)
  readResult s hs := h.same hs (by simp) (by simp)
  popResult s hs := h.same hs (by simp) (by simp)
  readNotice s q hs := h.same hs (by simp) (by simp)
  popNotice s q i hs := popNotice_table_keeps h.toOwnerKeeps hs q i
  vsel s b hs := h.same hs (by simp) (by simp)
  view s hs := h.same hs (by simp) (by simp)
  nsel s b hs := h.same hs (by simp) (by simp)
  now s hs := h.same hs (by simp) (by simp)
  iclr s b hs := h.same hs (by simp) (by simp)
  ien s b hs := h.same hs (by simp) (by simp)
  outop s n o hs := h.same hs (by simp) (by simp)
  misuse s hs := h.same hs (by simp) (by simp)
  flags s b hs := h.same hs (by simp) (by simp)
  enables s b hs := h.same hs (by simp) (by simp)
  clear _ _ := h.reset rfl rfl
  discard s hs := h.same hs (by simp) (by simp)
  clearWm s hs := h.same hs (by simp) (by simp)

theorem TableKeeps.pin : PinKeeps P where
  clk s hs := h.frame hs ⟨by simp, (clkPeriod_engine s).1⟩ (.inl (clkPeriod_engine s).2)
  tki s hs := h.same hs (by simp) (by simp)
  trigger s l hs := h.same hs (by simp) (by simp)
  reset _ _ _ := h.reset rfl rfl

/-- A law of the table and the lists that every write there keeps is kept by every step of the part. -/
theorem TableKeeps.keeps : Keeps P where
  due := h.due
  grant := h.grants
  engine := h.engine
  window := h.window
  pin := h.pin
  pending _ _ hs := h.same hs rfl rfl

end

end Sys2Proof.Machine
end

section
/-!
The law of the lists (R5, R7, R43): what the engine decides at a grant can be written, and every write keeps the lists.
-/
namespace Sys2Proof.Machine

/-! ## The entries and lists after a write of the engine (R45, R115, R117, R119) -/

theorem link_entry (s : State) (n : Tick) (e : EntryIdx) (d : Tick) (r : Byte) (a : EntryIdx) :
    (s.link n e d r).entry a = if e = a then (s.entry e).armed d r else s.entry a := by
  rw [State.link, entry_setEntry, entry_of_table (insertAt_table _ _ _ _)]

theorem link_list (s : State) (n : Tick) (e : EntryIdx) (d : Tick) (r : Byte) (b : Timebase) :
    (s.link n e d r).list b =
      if (s.entry e).behavior.timebase = b then
        insertByDistance (fun a => distance (s.entry a).deadline n) e (distance d n) ((s.list b).erase e)
      else s.list b := by
  rw [State.link, list_of_engine (setEntry_engine _ _ _), State.insertAt, list_setList]
  split
  · rename_i h; rw [h]
  · rfl

theorem holdStart_entry (s : State) (e : EntryIdx) (m : Tick) (r : Byte) (a : EntryIdx) :
    (s.holdStart e m r).entry a = if e = a then (s.entry e).heldWith m r else s.entry a := by
  unfold State.holdStart
  dsimp only
  split
  · exact entry_setEntry s e a _
  · rw [entry_of_table (raiseHeld_table _ _), entry_setEntry]

theorem holdMember_entry (s : State) (n : Tick) (g : GroupIdx) (e a : EntryIdx) :
    (s.holdMember n g e).entry a =
      if e = a then (s.entry e).heldWith (heldRemaining (s.entry e).deadline n) (s.entry e).repeatsLeft
      else s.entry a := by
  rw [State.holdMember, entry_of_table (raiseHeld_table _ _), entry_setEntry, entry_of_table (unlink_table s e)]

theorem resumeMember_entry (s : State) (n : Tick) (g : GroupIdx) (e a : EntryIdx) :
    (s.resumeMember n g e).entry a =
      if e = a then (s.entry e).armed (n + (s.entry e).remaining) (s.entry e).repeatsLeft else s.entry a := by
  rw [State.resumeMember, entry_of_table (lowerHeld_table _ _), link_entry]

theorem holdMember_activity (s : State) (n : Tick) (g : GroupIdx) (e : EntryIdx) :
    (s.holdMember n g e).engine.activity = s.engine.activity := by
  simp [State.holdMember, State.raiseHeld, State.unlink]

theorem resumeMember_activity (s : State) (n : Tick) (g : GroupIdx) (e : EntryIdx) :
    (s.resumeMember n g e).engine.activity = s.engine.activity := by
  simp [State.resumeMember, State.lowerHeld, State.link, State.insertAt]

/-! ## Readiness of a plan (R17) -/

/-- What a plan rests on: the states of the claimed entries, and state and group of the running ones. -/
structure State.PlanKept (s t : State) (claims : List EntryIdx) : Prop where
  claimed : ∀ e ∈ claims, (t.entry e).state = (s.entry e).state
  running : ∀ e, (s.entry e).state = .armed ∨ (s.entry e).state = .held →
    (t.entry e).state = (s.entry e).state ∧ (t.entry e).behavior.group = (s.entry e).behavior.group

theorem State.PlanKept.of_entries {s t : State} (h : ∀ e, t.entry e = s.entry e) (l : List EntryIdx) :
    s.PlanKept t l := ⟨fun e _ => by rw [h], fun e _ => by rw [h]; exact ⟨rfl, rfl⟩⟩

theorem Act.Ready.of_states {s t : State} {l : List EntryIdx} {a : Act}
    (hk : ∀ e, a.entry = some e → e ∈ l → (t.entry e).state = (s.entry e).state) (h : a.Ready s l) : a.Ready t l := by
  cases a with
  | link e d r | hold e m r | idle e | retire e | release e =>
    simp only [Act.Ready] at h ⊢
    rw [hk e rfl h.1]; exact h
  | depth | closeWalk | clearNow => trivial

theorem Walk.Ready.of_kept {s t : State} {l : List EntryIdx} {w : Walk} (hk : s.PlanKept t l) (h : w.Ready s) :
    w.Ready t := by
  refine ⟨h.1, fun e he => ?_⟩
  obtain ⟨hg, hst⟩ := h.2 e he
  obtain ⟨h1, h2⟩ := hk.running e (by rw [hst]; cases w.kind <;> simp)
  exact ⟨h2.trans hg, h1.trans hst⟩

theorem Plan.Ready.of_kept {s t : State} {p : Plan} (hk : s.PlanKept t p.claims) (h : p.Ready s) : p.Ready t where
  acts a ha := (h.acts a ha).of_states fun e _ he => hk.claimed e he
  apart := h.apart
  purge := h.purge
  walk w hw := ⟨(h.walk w hw).1.of_kept hk, (h.walk w hw).2⟩

/-- A plan without a walk is ready when its writes are, on different entries, and its purge is claimed. -/
theorem Plan.Ready.of_acts {s : State} {p : Plan} (ha : ∀ a ∈ p.acts, a.Ready s p.claims)
    (hd : (p.acts.filterMap Act.entry).Nodup) (hp : ∀ e, p.purge = some e → e ∈ p.claims) (hw : p.walk = none) :
    p.Ready s := ⟨ha, hd, hp, fun w h => by rw [hw] at h; cases h⟩

theorem refused_ready (s : State) (l : List EntryIdx) (st : Status) (v : Nat) : (Plan.refused l st v).Ready s :=
  .of_acts nofun .nil nofun rfl

/-! ## The plans that the engine decides -/

theorem startOutcome_link {s : State} {e : EntryIdx} (h : s.startOutcome e = .link) :
    (s.entry e).state = .idle ∨ (s.entry e).state = .armed := by
  unfold State.startOutcome at h
  cases hst : (s.entry e).state <;> simp [hst] at h ⊢

theorem startOutcome_hold {s : State} {e : EntryIdx} (h : s.startOutcome e = .hold) :
    (s.entry e).state = .idle ∨ (s.entry e).state = .held := by
  unfold State.startOutcome at h
  cases hst : (s.entry e).state <;> simp [hst] at h ⊢
  split at h <;> cases h

theorem startPlan_ready (s : State) (e : EntryIdx) (d : Tick) : (s.startPlan e d).Ready s := by
  unfold State.startPlan
  split
  · exact refused_ready _ _ _ _
  · rename_i h
    exact .of_acts (by simpa [Act.Ready, Plan.refused] using startOutcome_link h) (by simp [Act.entry])
      (by simp [Plan.refused]) rfl
  · rename_i h
    exact .of_acts (by simpa [Act.Ready, Plan.refused] using startOutcome_hold h) (by simp [Act.entry])
      (by simp [Plan.refused]) rfl

theorem cancelPlan_ready (s : State) (e : EntryIdx) (purge : Bool) : (s.cancelPlan e purge).Ready s := by
  have hp : ∀ x, (if purge then some e else none) = some x → x ∈ [e] := by
    cases purge <;> simp
  unfold State.cancelPlan
  split
  · exact refused_ready _ _ _ _
  · exact refused_ready _ _ _ _
  · exact .of_acts nofun .nil hp rfl
  · rename_i h
    exact .of_acts (by simp [Act.Ready, Plan.refused, h]) (by simp [Act.entry]) hp rfl
  · rename_i h
    exact .of_acts (by simp [Act.Ready, Plan.refused, h]) (by simp [Act.entry]) hp rfl

theorem freePlan_ready (s : State) (e : EntryIdx) : (s.freePlan e).Ready s := by
  unfold State.freePlan
  split
  · exact refused_ready _ _ _ _
  · rename_i h
    exact .of_acts (by simp [Act.Ready, Plan.refused, h]) (by simp [Act.entry]) (by simp [Plan.refused]) rfl

/-- A hold walk finds every ARMED member once (R115). -/
theorem armedMembers_ready {s : State} (hl : s.Linked) (g : GroupIdx) :
    Walk.Ready s { kind := .hold, group := g, todo := s.armedMembers g } := by
  refine ⟨(List.nodup_append.mpr ⟨hl.once _, hl.once _, ?_⟩).sublist List.filter_sublist, fun e he => ?_⟩
  · intro a ha b hb hab
    have h0 := ((hl.pending _ _).mp ha).2
    have h1 := ((hl.pending _ _).mp hb).2
    rw [hab, h1] at h0; cases h0
  · simp only [State.armedMembers, List.mem_filter, List.mem_append, hl.pending, beq_iff_eq] at he
    exact ⟨he.2, he.1.elim And.left And.left⟩

/-- A resume walk finds every HELD member once (R117). -/
theorem heldMembers_ready (s : State) (g : GroupIdx) :
    Walk.Ready s { kind := .resume, group := g, todo := s.heldMembers g } := by
  refine ⟨(List.nodup_finRange 48).sublist List.filter_sublist, fun e he => ?_⟩
  simp only [State.heldMembers, List.mem_filter, Bool.and_eq_true, beq_iff_eq] at he
  exact ⟨he.2.2, he.2.1⟩

/-- A plan that claims nothing and writes no entry is ready when its walk is. -/
theorem Plan.Ready.of_walk {s : State} {p : Plan} (ha : ∀ a ∈ p.acts, a.entry = none) (hp : p.purge = none)
    (hw : ∀ w, p.walk = some w → w.Ready s) : p.Ready s where
  acts a h := by
    have := ha a h
    cases a <;> trivial
  apart := by rw [List.filterMap_eq_nil_iff.mpr ha]; exact .nil
  purge e h := by rw [hp] at h; cases h
  walk w h := ⟨hw w h, ha⟩

theorem holdPlan_ready {s : State} (hl : s.Linked) (g : GroupIdx) : (s.holdPlan g).Ready s := by
  unfold State.holdPlan
  split
  · refine .of_walk (by simp [Act.entry]) rfl fun w hw => ?_
    cases hw; exact armedMembers_ready hl g
  all_goals
    split
    · exact refused_ready _ _ _ _
    · exact .of_walk (by simp [Act.entry]) rfl nofun

theorem resumePlan_ready (s : State) (g : GroupIdx) : (s.resumePlan g).Ready s := by
  unfold State.resumePlan
  split
  · split
    · refine .of_walk (by simp [Act.entry]) rfl fun w hw => ?_
      cases hw; exact heldMembers_ready s g
    · exact .of_walk (by simp [Act.entry]) rfl nofun
  all_goals exact refused_ready _ _ _ _

theorem clearNowPlan_ready (s : State) (b : Timebase) : (s.clearNowPlan b).Ready s := by
  unfold State.clearNowPlan
  split
  · exact .of_walk (by simp [Act.entry]) rfl nofun
  · exact refused_ready _ _ _ _

/-- The head that a service takes stands on its list (R50). -/
theorem chooseHead_mem {s : State} {b : Timebase} {e : EntryIdx} (h : s.chooseHead = some (b, e)) : e ∈ s.list b := by
  have hd : s.dueHead b = some e := by
    unfold State.chooseHead at h
    split at h
    · split at h <;> (cases h; assumption)
    all_goals (cases h; try assumption)
  exact List.mem_of_mem_head? ((dueHead_iff s b e).mp hd).1

/-- The run of an ARMED entry decides writes that can be made, each on an entry of its own (R73, R76–R79). -/
theorem runStep_ready {s : State} {e : EntryIdx} (ha : (s.entry e).state = .armed) (b : Timebase) (n : Expiries)
    (latest : Tick) :
    (∀ a ∈ (s.runStep b e n latest).acts, a.Ready s (s.runStep b e n latest).claims) ∧
      ((s.runStep b e n latest).acts.filterMap Act.entry).Nodup := by
  unfold State.runStep
  dsimp only
  split
  · split
    · simp [Act.Ready, Act.entry, ha]
    · rename_i y _
      split
      · simp [Act.Ready, Act.entry, ha]
      · rename_i hy
        unfold State.startSuccessor
        dsimp only
        split
        · simp [Act.Ready, Act.entry, ha]
        · rename_i ho
          simpa [Act.Ready, Act.entry, ha, Ne.symm hy] using startOutcome_link ho
        · rename_i ho
          simpa [Act.Ready, Act.entry, ha, Ne.symm hy] using startOutcome_hold ho
  · simp [Act.Ready, Act.entry, ha]

/-- Whatever the engine decides at a grant, it can write (R17, R54, R60, R66). -/
theorem plans_ready {s : State} (hl : s.Linked) {p : Plan} (h : s.Plans p) : p.Ready s := by
  cases h with
  | service hc =>
    obtain ⟨h1, h2⟩ := runStep_ready ((hl.pending _ _).mp (chooseHead_mem hc)).1 _ _ _
    exact .of_acts h1 h2 nofun rfl
  | start => exact startPlan_ready s _ _
  | cancel => exact cancelPlan_ready s _ _
  | free => exact freePlan_ready s _
  | hold => exact holdPlan_ready hl _
  | resume => exact resumePlan_ready s _
  | clearNow => exact clearNowPlan_ready s _

/-! ## Writes of the final step and of a walk -/

/-- Every write of the final step touches at most the entry that it names. -/
theorem act_entry_other {s : State} {op : Operation} {a : Act} {e : EntryIdx} (h : a.entry ≠ some e) :
    (s.act op a).entry e = s.entry e := by
  cases a with
  | link x d r =>
    have hx : x ≠ e := fun hh => h (by rw [hh]; rfl)
    rw [State.act, link_entry, if_neg hx]
  | hold x m r =>
    have hx : x ≠ e := fun hh => h (by rw [hh]; rfl)
    rw [State.act, State.holdStart]
    split
    · exact entry_setEntry_other _ _ hx
    · rw [entry_of_table (raiseHeld_table _ _), entry_setEntry_other _ _ hx]
  | idle x =>
    have hx : x ≠ e := fun hh => h (by rw [hh]; rfl)
    rw [State.act, entry_setEntry_other _ _ hx]
    exact entry_of_table (by simp) e
  | retire x =>
    have hx : e ≠ x := fun hh => h (by rw [hh]; rfl)
    exact (retire_at s op x none).otherEntries e hx nofun
  | release x =>
    have hx : e ≠ x := fun hh => h (by rw [hh]; rfl)
    rw [State.act, entry_release_other _ hx]
    exact entry_of_table (by simp) e
  | depth | closeWalk => rfl
  | clearNow b => exact entry_of_table (zeroNow_table s b) e

/-- An entry that is ARMED, or on no list at all, may be taken off its list. -/
theorem detach_but {s : State} (hl : s.Linked) {e : EntryIdx} (he : (s.entry e).state ≠ .free) :
    (s.detach e).LinkedBut e := by
  by_cases ha : (s.entry e).state = .armed
  · simpa only [State.detach, ha] using unlink_but hl ha
  · have hd : s.SameTable (s.detach e) := ⟨by simp, fun b => by rw [list_detach]; simp [ha]⟩
    exact (hd.linked hl).but (by rwa [hd.entry]) (by rwa [hd.entry])

theorem settleEntry_linked {s : State} {e : EntryIdx} (h : s.LinkedBut e) : (s.settleEntry e).Linked := by
  unfold State.settleEntry
  split
  · split
    · exact release_linked h
    · exact setEntry_linked h nofun nofun
  · exact setEntry_linked h nofun nofun

/-- A write that can be made keeps lists and entry states in step (R45, R46). -/
theorem act_linked {s : State} (hl : s.Linked) {l : List EntryIdx} {a : Act} (h : a.Ready s l) (op : Operation) :
    (s.act op a).Linked := by
  cases a with
  | link e d r =>
    rcases h.2 with hi | ha
    · exact link_linked (hl.but (by simp [hi]) (by simp [hi])) _ d r
    · exact link_of_armed ha hl _ d r
  | hold e m r =>
    have hb : s.LinkedBut e := by rcases h.2 with hst | hst <;> exact hl.but (by simp [hst]) (by simp [hst])
    have hs : (s.setEntry e ((s.entry e).heldWith m r)).Linked := setEntry_linked hb nofun nofun
    rw [State.act, State.holdStart]
    split
    · exact hs
    · exact hs.of (by simp) (raiseHeld_list _ _)
  | idle e =>
    have hne : (s.entry e).state ≠ .free := by rcases h.2 with hst | hst <;> simp [hst]
    exact setEntry_linked (detach_but hl hne) nofun nofun
  | retire e => exact settleEntry_linked (unlink_but hl h.2)
  | release e => exact release_linked (detach_but hl h.2)
  | depth g n | closeWalk g ph => exact hl.of rfl (setGroup_list _ _ _)
  | clearNow b => exact hl.of (zeroNow_table s b) (list_of_engine (zeroNow_engine s b))

/-- All writes of a final step, one after another. -/
theorem acts_linked {l : List EntryIdx} (op : Operation) (acts : List Act) {s : State} (hl : s.Linked)
    (h : ∀ a ∈ acts, a.Ready s l) (hd : (acts.filterMap Act.entry).Nodup) :
    (acts.foldl (fun s a => s.act op a) s).Linked := by
  induction acts generalizing s with
  | nil => exact hl
  | cons a rest ih =>
    have hrest : ∀ b ∈ rest, ∀ e, b.entry = some e → a.entry ≠ some e := by
      intro b hb e hbe hae
      rw [List.filterMap_cons_some hae, List.nodup_cons] at hd
      exact hd.1 (List.mem_filterMap.mpr ⟨b, hb, hbe⟩)
    refine ih (act_linked hl (h a (by simp)) op) (fun b hb => ?_) (hd.sublist ?_)
    · exact (h b (by simp [hb])).of_states fun e he _ => by rw [act_entry_other (hrest b hb e he)]
    · exact (List.sublist_cons_self a rest).filterMap _

theorem holdMember_linked {s : State} (hl : s.Linked) {e : EntryIdx} (ha : (s.entry e).state = .armed) (n : Tick)
    (g : GroupIdx) : (s.holdMember n g e).Linked := by
  have hs : ((s.unlink e).setEntry e
      ((s.entry e).heldWith (heldRemaining (s.entry e).deadline n) (s.entry e).repeatsLeft)).Linked :=
    setEntry_linked (unlink_but hl ha) nofun nofun
  exact hs.of (by rw [State.holdMember, raiseHeld_table]) (raiseHeld_list _ _)

theorem resumeMember_linked {s : State} (hl : s.Linked) {e : EntryIdx} (hh : (s.entry e).state = .held) (n : Tick)
    (g : GroupIdx) : (s.resumeMember n g e).Linked := by
  have hb : s.LinkedBut e := hl.but (by simp [hh]) (by simp [hh])
  exact (link_linked hb n _ _).of (by rw [State.resumeMember, lowerHeld_table]) (lowerHeld_list _ _)

/-! ## The law -/

theorem claimed_iff {s : State} {op : Operation} (h : s.engine.activity = .busy op) (e : EntryIdx) :
    s.claimed e = true ↔ e ∈ op.plan.claims := by
  simp [State.claimed, State.claims, h]

/-- A write of one unclaimed entry that leaves a running one in its state and group. -/
theorem State.ListLaw.of_write {s t : State} {e : EntryIdx} (hs : s.ListLaw) (hl : t.Linked)
    (he : t.engine.activity = s.engine.activity) (ho : ∀ a, a ≠ e → t.entry a = s.entry a)
    (hc : s.claimed e = false)
    (hr : (s.entry e).state = .armed ∨ (s.entry e).state = .held →
      (t.entry e).state = (s.entry e).state ∧ (t.entry e).behavior.group = (s.entry e).behavior.group) :
    t.ListLaw := by
  refine ⟨hl.free, hl.freeOnce, hl.pending, hl.once, fun op hb => ?_⟩
  rw [he] at hb
  refine (hs.plan op hb).of_kept ⟨fun a ha => ?_, fun a ha => ?_⟩
  · have hne : a ≠ e := fun hh => by rw [← (claimed_iff hb a), hh, hc] at ha; cases ha
    rw [ho a hne]
  · by_cases hae : a = e
    · subst hae; exact hr ha
    · rw [ho a hae]; exact ⟨rfl, rfl⟩

/-- With no operation in flight the law is that of the lists. -/
theorem State.Linked.listLaw {s : State} (h : s.Linked) (ho : s.Open) : s.ListLaw :=
  ⟨h.free, h.freeOnce, h.pending, h.once, fun op hb => absurd hb (ho op)⟩

theorem reset_linked {t : State} (ht : t.table = .reset) (he : t.engine = .reset) : t.Linked := by
  have hent : ∀ e, t.entry e = .reset := fun e => by
    simp [State.entry, ht, TimerTable.reset]
  have hl : ∀ b, t.list b = [] := fun b => by cases b <;> simp [State.list, he, ListEngine.reset]
  have hf : t.table.freeList = List.finRange 48 := by rw [ht]; rfl
  refine ⟨fun e => ?_, ?_, fun b e => ?_, fun b => ?_⟩
  · simp [hf, hent, Entry.reset]
  · rw [hf]; exact List.nodup_finRange 48
  · simp [hl, hent, Entry.reset]
  · simp [hl]

/-- A walk that has moved its next member can still move the others (R115, R117). -/
theorem walk_rest_ready {s t : State} {p : Plan} {kind : WalkKind} {g : GroupIdx} {e : EntryIdx} {rest : List EntryIdx}
    (hp : p.Ready s) (hw : p.walk = some ⟨kind, g, e :: rest⟩) (ho : ∀ a, a ≠ e → t.entry a = s.entry a) (v : Nat) :
    Plan.Ready t { p with walk := some ⟨kind, g, rest⟩, value := v } := by
  obtain ⟨⟨hnd, hmem⟩, hacts⟩ := hp.walk _ hw
  rw [List.nodup_cons] at hnd
  refine ⟨fun a ha => ?_, hp.apart, hp.purge, fun w hw' => ?_⟩
  · exact (hp.acts a ha).of_states fun x hx => by rw [hacts a ha] at hx; cases hx
  · cases hw'
    refine ⟨⟨hnd.2, fun a ha => ?_⟩, hacts⟩
    rw [ho a fun hh => hnd.1 (hh ▸ ha)]
    exact hmem a (by simp [ha])

theorem State.ListLaw.walkStep {s : State} (hs : s.ListLaw) : s.walkStep.ListLaw := by
  unfold State.walkStep
  split
  · rename_i op ho
    split
    · rename_i kind g e rest hw
      have hp := hs.plan op ho
      have hst := (((hp.walk _ hw).1.2 e (by simp))).2
      have hT := setPlan_sameTable_of (s := s) rfl rfl op
        { op.plan with walk := some ⟨kind, g, rest⟩, value := op.plan.value + 1 }
      have hl := hT.linked hs.linked
      have hst' := (congrArg Entry.state (hT.entry e)).trans hst
      cases kind with
      | hold =>
        have hl' := holdMember_linked hl hst' (op.now (s.entry e).behavior.timebase) g
        refine ⟨hl'.free, hl'.freeOnce, hl'.pending, hl'.once, fun op' hb => ?_⟩
        rw [holdMember_activity] at hb; cases hb
        exact walk_rest_ready hp hw (fun a ha => by rw [holdMember_entry, if_neg (Ne.symm ha), hT.entry]) _
      | resume =>
        have hl' := resumeMember_linked hl hst' (op.now (s.entry e).behavior.timebase) g
        refine ⟨hl'.free, hl'.freeOnce, hl'.pending, hl'.once, fun op' hb => ?_⟩
        rw [resumeMember_activity] at hb; cases hb
        exact walk_rest_ready hp hw (fun a ha => by rw [resumeMember_entry, if_neg (Ne.symm ha), hT.entry]) _
    all_goals exact hs
  all_goals exact hs

/-- A purge at the final step is of a claimed entry, so its report waits (R17, R101). -/
theorem purgeRequested_sameTable {s : State} {op : Operation} (hp : op.plan.Ready s)
    (ho : s.engine.activity = .busy op) : s.SameTable (s.purgeRequested op.plan.purge) := by
  refine .of_engine ?_ (by simp)
  cases hq : op.plan.purge with
  | none => rfl
  | some e => exact (purge_claimed ((claimed_iff ho e).mpr (hp.purge e hq))).1

theorem State.ListLaw.finalStep {s : State} (hs : s.ListLaw) : s.finalStep.ListLaw := by
  unfold State.finalStep
  split
  · rename_i op ho
    have hp := hs.plan op ho
    split
    · have hT := purgeRequested_sameTable hp ho
      have hl := acts_linked op op.plan.acts (hT.linked hs.linked)
        (fun a ha => (hp.acts a ha).of_states fun e _ _ => by rw [hT.entry]) hp.apart
      have hl' := (setPlan_sameTable_of rfl rfl op { op.plan with
        claims := op.plan.claimsAfter, purge := none, walk := none, acts := []
        value := op.plan.value + s.purgeCount op.plan.purge }).linked hl
      refine ⟨hl'.free, hl'.freeOnce, hl'.pending, hl'.once, fun op' hb => ?_⟩
      cases hb
      exact .of_acts nofun .nil nofun rfl
    · exact hs
  all_goals exact hs

/-- Every write to table, lists and plan keeps the law of the lists. -/
theorem listLaw_tableKeeps : TableKeeps State.ListLaw where
  frame {s t} hs ht ha := by
    have hl := ht.linked hs.linked
    rcases ha with ha | ha
    · refine ⟨hl.free, hl.freeOnce, hl.pending, hl.once, fun op hb => ?_⟩
      exact (hs.plan op (ha ▸ hb)).of_kept (.of_entries ht.entry _)
    · exact hl.listLaw ha
  allocate {s e} hs hc hf := by
    have hst := hf hs.linked
    refine hs.of_write (allocate_linked hs.linked hst) (by simp) (fun a ha => ?_) hc (by simp [hst])
    exact entry_setEntry_other s _ (Ne.symm ha)
  release {s e} hs hc hst := by
    refine hs.of_write (release_linked (hs.linked.but (by simp [hst]) (by simp [hst]))) (by simp) (fun a ha => ?_) hc
      (by simp [hst])
    exact entry_release_other s ha
  program {s e} sd p b hs hc hst := by
    refine hs.of_write (setEntry_kept hs.linked rfl (by simp [hst])) (by simp) (fun a ha => ?_) hc (by simp [hst])
    exact entry_setEntry_other s _ (Ne.symm ha)
  retune {s e} p hs hc _ := by
    refine hs.of_write (setEntry_kept hs.linked rfl fun _ => rfl) (by simp) (fun a ha => ?_) hc (by simp)
    exact entry_setEntry_other s _ (Ne.symm ha)
  grant {s t op} hs ht hp hb := by
    have hl := ht.linked hs.linked
    refine ⟨hl.free, hl.freeOnce, hl.pending, hl.once, fun op' hb' => ?_⟩
    rw [hb] at hb'; cases hb'
    exact (plans_ready hs.linked hp).of_kept (.of_entries ht.entry _)
  handed {s t op p} hs ht ho hb hc hu hw ha := by
    have hl := ht.linked hs.linked
    refine ⟨hl.free, hl.freeOnce, hl.pending, hl.once, fun op' hb' => ?_⟩
    rw [hb] at hb'; cases hb'
    have hp := hs.plan op ho
    refine Plan.Ready.of_kept (.of_entries ht.entry _) ⟨?_, ?_, ?_, ?_⟩
    · rw [ha, hc]; exact hp.acts
    · rw [ha]; exact hp.apart
    · rw [hu, hc]; exact hp.purge
    · rw [hw, ha]; exact hp.walk
  walk hs := hs.walkStep
  final hs := hs.finalStep
  reset ht he := (reset_linked ht he).listLaw fun op => by rw [he]; nofun

/-- Settles O57: every write that a step can make keeps the law, and so every step does. -/
theorem listLawKept : Obligations.ListLawKept :=
  fun _ _ hs e => step_keeps listLaw_tableKeeps.keeps hs e

end Sys2Proof.Machine
end

section
/-!
The laws of the live fields and of repeats left (R2, R4).
-/
namespace Sys2Proof.Machine

/-! ## What a write of the final step makes of an entry -/

/-- A write leaves an entry, or settles it, or makes it ARMED or HELD with what the write carries (R45, R46). -/
theorem act_entry_cases (s : State) (op : Operation) (a : Act) (e : EntryIdx) :
    (s.act op a).entry e = s.entry e ∨
    (∃ st, st ≠ .armed ∧ st ≠ .held ∧ (s.act op a).entry e = (s.entry e).settled st) ∨
    (∃ d r, a = .link e d r ∧ (s.act op a).entry e = (s.entry e).armed d r) ∨
    ∃ m r, a = .hold e m r ∧ (s.act op a).entry e = (s.entry e).heldWith m r := by
  by_cases h : a.entry = some e
  · cases a with
    | link x d r =>
      cases h
      exact .inr (.inr (.inl ⟨d, r, rfl, by rw [State.act, link_entry, if_pos rfl]⟩))
    | hold x m r =>
      cases h
      exact .inr (.inr (.inr ⟨m, r, rfl, by rw [State.act, holdStart_entry, if_pos rfl]⟩))
    | idle x =>
      cases h
      exact .inr (.inl ⟨.idle, nofun, nofun, entry_setEntry_same _ _ _⟩)
    | retire x =>
      cases h
      refine .inr (.inl ?_)
      rw [(retire_at s op e none).entry]
      split
      · split
        · exact ⟨.free, nofun, nofun, rfl⟩
        · exact ⟨.spent, nofun, nofun, rfl⟩
      · exact ⟨.idle, nofun, nofun, rfl⟩
    | release x =>
      cases h
      refine .inr (.inl ⟨.free, nofun, nofun, ?_⟩)
      rw [State.act, entry_release_same, entry_of_table (detach_table s e)]
    | depth | closeWalk | clearNow => cases h
  · exact .inl (act_entry_other h)

/-- The walk in flight moves `e` next (R115, R117). -/
def State.movesNext (s : State) (e : EntryIdx) : Prop :=
  ∃ op kind g rest, s.engine.activity = .busy op ∧ op.plan.walk = some ⟨kind, g, e :: rest⟩

/-- A walk step leaves an entry, or moves it with its repeats left (R115, R117). -/
theorem walkStep_entry_cases (s : State) (e : EntryIdx) :
    s.walkStep.entry e = s.entry e ∨
    (∃ d, s.walkStep.entry e = (s.entry e).armed d (s.entry e).repeatsLeft ∧ s.movesNext e) ∨
    ∃ m, s.walkStep.entry e = (s.entry e).heldWith m (s.entry e).repeatsLeft ∧ s.movesNext e := by
  unfold State.walkStep
  split
  · rename_i op ho
    split
    · rename_i kind g x rest hw
      have hT : ∀ p a, (s.setPlan op p).entry a = s.entry a := fun p => entry_of_table (setPlan_table s op p)
      by_cases hx : x = e
      · subst hx
        have hn : s.movesNext x := ⟨op, kind, g, rest, ho, hw⟩
        cases kind with
        | hold => exact .inr (.inr ⟨_, by rw [holdMember_entry, if_pos rfl, hT], hn⟩)
        | resume => exact .inr (.inl ⟨_, by rw [resumeMember_entry, if_pos rfl, hT], hn⟩)
      · cases kind with
        | hold => exact .inl (by rw [holdMember_entry, if_neg hx, hT])
        | resume => exact .inl (by rw [resumeMember_entry, if_neg hx, hT])
    all_goals exact .inl rfl
  all_goals exact .inl rfl

/-- What a walk moves next is ARMED or HELD. -/
theorem State.ListLaw.running_of_movesNext {s : State} (hs : s.ListLaw) {e : EntryIdx} (h : s.movesNext e) :
    (s.entry e).state = .armed ∨ (s.entry e).state = .held := by
  obtain ⟨op, kind, g, rest, ho, hw⟩ := h
  have hst := (((hs.plan op ho).walk _ hw).1.2 e (by simp)).2
  cases kind with
  | hold => exact .inl hst
  | resume => exact .inr hst

/-! ## Live fields (R2) -/

theorem settled_live (x : Entry) {st : EntryState} (ha : st ≠ .armed) (hh : st ≠ .held) : (x.settled st).LiveLaw := by
  cases st with
  | free | idle | spent => exact ⟨rfl, rfl, rfl⟩
  | armed => exact absurd rfl ha
  | held => exact absurd rfl hh

theorem act_live {s : State} (hs : s.LiveLaw) (op : Operation) (a : Act) : (s.act op a).LiveLaw := by
  intro e
  rcases act_entry_cases s op a e with h | ⟨st, ha, hh, h⟩ | ⟨d, r, _, h⟩ | ⟨m, r, _, h⟩ <;> rw [h]
  · exact hs e
  · exact settled_live _ ha hh
  · exact rfl
  · exact rfl

/-- Writing one entry that obeys the law keeps it. -/
theorem State.LiveLaw.setEntry {s : State} (hs : s.LiveLaw) (e : EntryIdx) {x : Entry} (hx : x.LiveLaw) :
    (s.setEntry e x).LiveLaw := by
  intro a
  rw [entry_setEntry]
  split
  · exact hx
  · exact hs a

theorem State.LiveLaw.of_table {s t : State} (hs : s.LiveLaw) (h : t.table = s.table) : t.LiveLaw :=
  fun e => by rw [entry_of_table h]; exact hs e

/-- The writes of the owners keep the live fields. -/
theorem liveLaw_ownerKeeps : OwnerKeeps State.LiveLaw where
  frame hs ht _ := hs.of_table ht.table
  allocate {s e} hs _ _ := hs.setEntry e (x := .allocated) ⟨rfl, rfl, rfl⟩
  release {s e} hs _ _ := hs.setEntry e (settled_live _ nofun nofun)
  program {s e} sd p b hs _ hst := hs.setEntry e (by simpa [Entry.LiveLaw, hst] using hs e)
  retune {s e} p hs _ hst := hs.setEntry e (by
    have := hs e
    rcases hst with hst | hst <;> simpa [Entry.LiveLaw, hst] using this)

theorem purgeRequested_live {s : State} (hs : s.LiveLaw) (e : Option EntryIdx) : (s.purgeRequested e).LiveLaw := by
  cases e with
  | none => exact hs
  | some e => exact purge_table_keeps liveLaw_ownerKeeps hs e

theorem acts_live {s : State} (hs : s.LiveLaw) (op : Operation) (acts : List Act) :
    (acts.foldl (fun s a => s.act op a) s).LiveLaw := by
  induction acts generalizing s with
  | nil => exact hs
  | cons a rest ih => exact ih (act_live hs op a)

theorem liveLaw_tableKeeps : TableKeeps State.LiveLaw where
  toOwnerKeeps := liveLaw_ownerKeeps
  grant hs ht _ _ := hs.of_table ht.table
  handed hs ht _ _ _ _ _ _ := hs.of_table ht.table
  walk {s} hs e := by
    rcases walkStep_entry_cases s e with h | ⟨d, h, _⟩ | ⟨m, h, _⟩
    · rw [h]; exact hs e
    · rw [h]; exact rfl
    · rw [h]; exact rfl
  final {s} hs := by
    unfold State.finalStep
    split
    · rename_i op _
      split
      · refine State.LiveLaw.of_table ?_ (setPlan_table _ op _)
        exact acts_live (purgeRequested_live hs _) op _
      · exact hs
    all_goals exact hs
  reset ht _ e := by
    simp [State.entry, ht, TimerTable.reset, Entry.reset, Entry.LiveLaw]

/-! ## Repeats left (R4) -/

/-- Repeats left of a one-shot (R4). -/
theorem repeatsFit_oneShot {x : Entry} {r : Byte} (hp : x.period = 0) : x.RepeatsFit r ↔ r = 1 := by
  rw [Entry.RepeatsFit, if_pos hp]

/-- Repeats left of an entry that repeats without end (R4). -/
theorem repeatsFit_endless {x : Entry} {r : Byte} (hp : x.period ≠ 0) (hl : x.behavior.repeatLoad = 0) :
    x.RepeatsFit r ↔ r = 0 := by
  rw [Entry.RepeatsFit, if_neg hp, if_pos hl]

/-- Repeats left of an entry that repeats a number of times (R4). -/
theorem repeatsFit_counted {x : Entry} {r : Byte} (hp : x.period ≠ 0) (hl : x.behavior.repeatLoad ≠ 0) :
    x.RepeatsFit r ↔ 1 ≤ r.toNat ∧ r.toNat ≤ x.behavior.repeatLoad.toNat := by
  rw [Entry.RepeatsFit, if_neg hp, if_neg hl]

/-- What fits an entry depends on its period and its behavior fields only. -/
theorem Entry.RepeatsFit.of_program {x y : Entry} {r : Byte} (h : x.RepeatsFit r)
    (hp : y.period = x.period ∧ y.behavior = x.behavior) : y.RepeatsFit r := by
  simpa only [Entry.RepeatsFit, hp.1, hp.2] using h

theorem toNat_pos_of_ne {b : Byte} (h : b ≠ 0) : 1 ≤ b.toNat :=
  Nat.one_le_iff_ne_zero.mpr fun hh => h (BitVec.eq_of_toNat_eq hh)

theorem repeatLoad_fits {x : Entry} (hp : x.period ≠ 0) : x.RepeatsFit x.behavior.repeatLoad := by
  by_cases hl : x.behavior.repeatLoad = 0
  · exact (repeatsFit_endless hp hl).mpr hl
  · exact (repeatsFit_counted hp hl).mpr ⟨toNat_pos_of_ne hl, Nat.le_refl _⟩

/-- A reload fits (R4). -/
theorem reload_fits (x : Entry) : x.RepeatsFit x.reload := by
  unfold Entry.reload
  split
  · rename_i hp; exact (repeatsFit_oneShot hp).mpr rfl
  · rename_i hp; exact repeatLoad_fits hp

/-- What a RETUNE leaves of a running entry fits its new period (R15). -/
theorem retunedRepeats_fits {x : Entry} (h : x.RepeatsFit x.repeatsLeft) (p : Tick) :
    Entry.RepeatsFit { x with period := p, repeatsLeft := retunedRepeats x p } (retunedRepeats x p) := by
  unfold retunedRepeats
  split
  · rename_i hx
    split
    · rename_i hp; exact (repeatsFit_oneShot hp).mpr ((repeatsFit_oneShot hx).mp h)
    · rename_i hp; exact repeatLoad_fits (x := { x with period := p, repeatsLeft := _ }) hp
  · rename_i hx
    split
    · rename_i hp; exact (repeatsFit_oneShot hp).mpr rfl
    · rename_i hp
      have h' := h
      rw [Entry.RepeatsFit, if_neg hx] at h'
      rwa [Entry.RepeatsFit, if_neg hp]

/-- A run goes on only with a period, and counts the expiries off its repeats left (R68–R70). -/
theorem expiries_left {x : Entry} {now : Tick} (he : (x.expiries now).ends = false) :
    x.period ≠ 0 ∧ (x.repeatsLeft = 0 ∧ (x.expiries now).left = 0 ∨
      1 ≤ (x.expiries now).left.toNat ∧ (x.expiries now).left.toNat ≤ x.repeatsLeft.toNat) := by
  unfold Entry.expiries at he ⊢
  dsimp only at he ⊢
  split at he
  · cases he
  rename_i hp
  refine ⟨hp, ?_⟩
  rw [if_neg hp]
  cases hc : x.behavior.catchUp with
  | keep =>
    rw [hc] at he
    dsimp only at he ⊢
    split at he
    · rename_i h0; exact .inl ⟨h0, by rw [if_pos h0]⟩
    · rename_i h0
      split at he
      · cases he
      · rename_i h1
        rw [if_neg h0, if_neg h1]
        right
        have := toNat_pos_of_ne h0
        have h1' : x.repeatsLeft.toNat ≠ 1 := fun hh => h1 (BitVec.eq_of_toNat_eq hh)
        dsimp only
        bv_omega
  | skip =>
    rw [hc] at he
    dsimp only at he ⊢
    split at he
    · rename_i h0; exact .inl ⟨h0, by rw [if_pos h0]⟩
    · rename_i h0
      split at he
      · rename_i hk
        rw [if_neg h0, if_pos hk]
        right
        dsimp only
        have h1 : 1 ≤ skipSpan (-(distance x.deadline now)).toNat x.period.toNat := Nat.le_add_left _ _
        generalize skipSpan (-(distance x.deadline now)).toNat x.period.toNat = k at hk h1
        have := x.repeatsLeft.isLt
        rw [BitVec.toNat_sub_of_le (by bv_omega), BitVec.toNat_ofNat]
        omega
      · cases he

/-- Repeats left after a service whose run goes on fit (R68–R70). -/
theorem expiries_fits {x : Entry} (h : x.RepeatsFit x.repeatsLeft) {now : Tick}
    (he : (x.expiries now).ends = false) : x.RepeatsFit (x.expiries now).left := by
  obtain ⟨hp, hl⟩ := expiries_left he
  by_cases hb : x.behavior.repeatLoad = 0
  · rw [repeatsFit_endless hp hb] at h ⊢
    rcases hl with ⟨_, h0⟩ | ⟨h1, h2⟩
    · exact h0
    · rw [h] at h2; exact absurd (Nat.le_trans h1 h2) (by decide)
  · rw [repeatsFit_counted hp hb] at h ⊢
    rcases hl with ⟨h0, _⟩ | ⟨h1, h2⟩
    · rw [h0] at h; exact absurd h.1 (by decide)
    · exact ⟨h1, Nat.le_trans h2 h.2⟩

/-! ## The writes that an operation has decided (R4) -/

/-- The repeats left that a write carries fit the entry that it names. -/
def Act.Fits (s : State) (a : Act) : Prop :=
  match a with
  | .link e _ r | .hold e _ r => (s.entry e).RepeatsFit r
  | .idle _ | .retire _ | .release _ | .depth _ _ | .closeWalk _ _ | .clearNow _ => True

/-- The repeats left of every running entry fit. -/
def State.RunningFits (s : State) : Prop :=
  ∀ e, (s.entry e).state = .armed ∨ (s.entry e).state = .held → (s.entry e).RepeatsFit (s.entry e).repeatsLeft

theorem repeatsLaw_iff (s : State) :
    s.RepeatsLaw ↔ s.RunningFits ∧ ∀ op, s.engine.activity = .busy op → ∀ a ∈ op.plan.acts, a.Fits s := by
  constructor
  · intro h
    refine ⟨h.running, fun op hb a ha => ?_⟩
    cases a with
    | link e d r => exact h.link op e d r hb ha
    | hold e m r => exact h.hold op e m r hb ha
    | _ => trivial
  · intro h
    exact ⟨h.1, fun op e d r hb ha => h.2 op hb _ ha, fun op e m r hb ha => h.2 op hb _ ha⟩

theorem Act.Fits.of_program {s t : State} {a : Act} (h : a.Fits s)
    (hp : ∀ e, a.entry = some e → (t.entry e).period = (s.entry e).period ∧ (t.entry e).behavior = (s.entry e).behavior) :
    a.Fits t := by
  cases a with
  | link e d r | hold e m r => exact Entry.RepeatsFit.of_program h (hp e rfl)
  | _ => trivial

theorem State.RunningFits.of_entries {s t : State} (h : s.RunningFits) (he : ∀ e, t.entry e = s.entry e) :
    t.RunningFits := fun e hr => by rw [he] at hr ⊢; exact h e hr

theorem startPlan_fits (s : State) (e : EntryIdx) (d : Tick) : ∀ a ∈ (s.startPlan e d).acts, a.Fits s := by
  unfold State.startPlan
  split
  · nofun
  · simpa [Act.Fits] using reload_fits (s.entry e)
  · simpa [Act.Fits] using reload_fits (s.entry e)

/-- The writes of the run of an ARMED entry carry repeats left that fit (R4, R68–R73, R77–R79). -/
theorem runStep_fits {s : State} (h : s.RunningFits) {e : EntryIdx} (ha : (s.entry e).state = .armed) (b : Timebase)
    (now latest : Tick) : ∀ a ∈ (s.runStep b e ((s.entry e).expiries now) latest).acts, a.Fits s := by
  unfold State.runStep
  dsimp only
  split
  · split
    · simp [Act.Fits]
    · rename_i y _
      split
      · simpa [Act.Fits] using reload_fits (s.entry e)
      · unfold State.startSuccessor
        dsimp only
        split
        · simp [Act.Fits]
        · simpa [Act.Fits] using reload_fits (s.entry y)
        · simpa [Act.Fits] using reload_fits (s.entry y)
  · rename_i he
    simpa [Act.Fits] using expiries_fits (h e (.inl ha)) (by simpa using he)

/-- Whatever the engine decides at a grant carries repeats left that fit. -/
theorem plans_fit {s : State} (hl : s.Linked) (h : s.RunningFits) {p : Plan} (hp : s.Plans p) :
    ∀ a ∈ p.acts, a.Fits s := by
  cases hp with
  | service hc => exact runStep_fits h ((hl.pending _ _).mp (chooseHead_mem hc)).1 _ _ _
  | start => exact startPlan_fits s _ _
  | cancel => unfold State.cancelPlan; split <;> simp [Plan.refused, Act.Fits]
  | free => unfold State.freePlan; split <;> simp [Plan.refused, Act.Fits]
  | hold => unfold State.holdPlan; (repeat' split) <;> simp [Plan.refused, Act.Fits]
  | resume => unfold State.resumePlan; (repeat' split) <;> simp [Plan.refused, Act.Fits]
  | clearNow => unfold State.clearNowPlan; split <;> simp [Plan.refused, Act.Fits]

/-! ## What the writes of the engine keep -/

/-- No write of the final step changes a program. -/
theorem act_program (s : State) (op : Operation) (a : Act) (e : EntryIdx) :
    ((s.act op a).entry e).period = (s.entry e).period ∧ ((s.act op a).entry e).behavior = (s.entry e).behavior := by
  rcases act_entry_cases s op a e with h | ⟨st, _, _, h⟩ | ⟨d, r, _, h⟩ | ⟨m, r, _, h⟩ <;> rw [h] <;> exact ⟨rfl, rfl⟩

theorem act_runningFits {s : State} (h : s.RunningFits) {a : Act} (ha : a.Fits s) (op : Operation) :
    (s.act op a).RunningFits := by
  intro e hr
  rcases act_entry_cases s op a e with he | ⟨st, h1, h2, he⟩ | ⟨d, r, rfl, he⟩ | ⟨m, r, rfl, he⟩ <;> rw [he] at hr ⊢
  · exact h e hr
  · exact absurd hr (not_or.mpr ⟨h1, h2⟩)
  · exact Entry.RepeatsFit.of_program ha ⟨rfl, rfl⟩
  · exact Entry.RepeatsFit.of_program ha ⟨rfl, rfl⟩

theorem acts_runningFits {s : State} (h : s.RunningFits) (op : Operation) (acts : List Act)
    (ha : ∀ a ∈ acts, a.Fits s) : (acts.foldl (fun s a => s.act op a) s).RunningFits := by
  induction acts generalizing s with
  | nil => exact h
  | cons a rest ih =>
    refine ih (act_runningFits h (ha a (by simp)) op) fun b hb => ?_
    exact (ha b (by simp [hb])).of_program fun e _ => act_program s op a e

theorem walkStep_program (s : State) (e : EntryIdx) :
    (s.walkStep.entry e).period = (s.entry e).period ∧ (s.walkStep.entry e).behavior = (s.entry e).behavior := by
  rcases walkStep_entry_cases s e with h | ⟨d, h, _⟩ | ⟨m, h, _⟩ <;> rw [h] <;> exact ⟨rfl, rfl⟩

/-- A walk step leaves the writes of the final step. -/
theorem walkStep_acts {s : State} {op : Operation} (h : s.walkStep.engine.activity = .busy op) :
    ∃ op', s.engine.activity = .busy op' ∧ op.plan.acts = op'.plan.acts := by
  unfold State.walkStep at h
  split at h
  · rename_i op' ho
    split at h
    · rename_i kind g e rest _
      cases kind with
      | hold => rw [holdMember_activity] at h; cases h; exact ⟨op', ho, rfl⟩
      | resume => rw [resumeMember_activity] at h; cases h; exact ⟨op', ho, rfl⟩
    all_goals exact ⟨op, h, rfl⟩
  all_goals exact ⟨op, h, rfl⟩

/-! ## The law of repeats left -/

/-- The entry that a ready write names is claimed (R17). -/
theorem Act.Ready.claimed {s : State} {l : List EntryIdx} {a : Act} {e : EntryIdx} (h : a.Ready s l)
    (he : a.entry = some e) : e ∈ l := by
  cases a <;> cases he <;> exact h.1

/-- A write of one unclaimed entry with repeats left that fit. -/
theorem State.RepeatsLaw.of_write {s t : State} {e : EntryIdx} (hr : s.RepeatsLaw) (hs : s.ListLaw)
    (he : t.engine.activity = s.engine.activity) (ho : ∀ a, a ≠ e → t.entry a = s.entry a)
    (hc : s.claimed e = false)
    (hx : (t.entry e).state = .armed ∨ (t.entry e).state = .held → (t.entry e).RepeatsFit (t.entry e).repeatsLeft) :
    t.RepeatsLaw := by
  rw [repeatsLaw_iff] at hr ⊢
  refine ⟨fun a ha => ?_, fun op hb a ha => ?_⟩
  · by_cases hae : a = e
    · subst hae; exact hx ha
    · rw [ho a hae] at ha ⊢; exact hr.1 a ha
  · rw [he] at hb
    refine (hr.2 op hb a ha).of_program fun x hax => ?_
    have hcl : x ∈ op.plan.claims := ((hs.plan op hb).acts a ha).claimed hax
    have hne : x ≠ e := fun hh => by rw [← claimed_iff hb, hh, hc] at hcl; cases hcl
    rw [ho x hne]; exact ⟨rfl, rfl⟩

theorem State.RepeatsLaw.walkStep {s : State} (hr : s.RepeatsLaw) (hs : s.ListLaw) : s.walkStep.RepeatsLaw := by
  rw [repeatsLaw_iff] at hr ⊢
  refine ⟨fun e he => ?_, fun op hb a ha => ?_⟩
  · rcases walkStep_entry_cases s e with h | ⟨d, h, hn⟩ | ⟨m, h, hn⟩ <;> rw [h] at he ⊢
    · exact hr.1 e he
    · exact (hr.1 e (hs.running_of_movesNext hn)).of_program ⟨rfl, rfl⟩
    · exact (hr.1 e (hs.running_of_movesNext hn)).of_program ⟨rfl, rfl⟩
  · obtain ⟨op', hb', hacts⟩ := walkStep_acts hb
    exact (hr.2 op' hb' a (hacts ▸ ha)).of_program fun e _ => walkStep_program s e

theorem State.RepeatsLaw.finalStep {s : State} (hr : s.RepeatsLaw) (hs : s.ListLaw) : s.finalStep.RepeatsLaw := by
  rw [repeatsLaw_iff] at hr
  unfold State.finalStep
  split
  · rename_i op ho
    split
    · have hT := purgeRequested_sameTable (hs.plan op ho) ho
      have hf := acts_runningFits (hr.1.of_entries hT.entry) op op.plan.acts fun a ha =>
        (hr.2 op ho a ha).of_program fun e _ => by rw [hT.entry]; exact ⟨rfl, rfl⟩
      rw [repeatsLaw_iff]
      refine ⟨hf.of_entries (entry_of_table (setPlan_table _ op _)), fun op' hb => ?_⟩
      cases hb; nofun
    · exact (repeatsLaw_iff s).mpr hr
  all_goals exact (repeatsLaw_iff s).mpr hr

/-- Every write to table, lists and plan keeps the law of repeats left, with the law of the lists. -/
theorem repeatsLaw_tableKeeps : TableKeeps fun s => s.ListLaw ∧ s.RepeatsLaw where
  frame {s t} hs ht ha := by
    refine ⟨listLaw_tableKeeps.frame hs.1 ht ha, ?_⟩
    have hr := (repeatsLaw_iff s).mp hs.2
    rw [repeatsLaw_iff]
    refine ⟨hr.1.of_entries ht.entry, fun op hb a hm => ?_⟩
    rcases ha with ha | ha
    · exact (hr.2 op (ha ▸ hb) a hm).of_program fun e _ => by rw [ht.entry]; exact ⟨rfl, rfl⟩
    · exact absurd hb (ha op)
  allocate {s e} hs hc hf := by
    refine ⟨listLaw_tableKeeps.allocate hs.1 hc hf, hs.2.of_write hs.1 (by simp) (fun a ha => ?_) hc ?_⟩
    · exact entry_setEntry_other s _ (Ne.symm ha)
    · have : (s.allocate e).entry e = .allocated := entry_setEntry_same s e _
      simp [this, Entry.allocated]
  release {s e} hs hc hst := by
    refine ⟨listLaw_tableKeeps.release hs.1 hc hst, hs.2.of_write hs.1 (by simp) (fun a ha => ?_) hc ?_⟩
    · exact entry_release_other s ha
    · simp [entry_release_same, Entry.settled]
  program {s e} sd p b hs hc hst := by
    refine ⟨listLaw_tableKeeps.program sd p b hs.1 hc hst, hs.2.of_write hs.1 (by simp) (fun a ha => ?_) hc ?_⟩
    · exact entry_setEntry_other s _ (Ne.symm ha)
    · simp [hst]
  retune {s e} p hs hc hst := by
    refine ⟨listLaw_tableKeeps.retune p hs.1 hc hst, hs.2.of_write hs.1 (by simp) (fun a ha => ?_) hc fun _ => ?_⟩
    · exact entry_setEntry_other s _ (Ne.symm ha)
    · rw [entry_setEntry_same]; exact retunedRepeats_fits (hs.2.running e hst) p
  grant {s t op} hs ht hp hb := by
    have hr := ((repeatsLaw_iff s).mp hs.2).1
    refine ⟨listLaw_tableKeeps.grant hs.1 ht hp hb, (repeatsLaw_iff t).mpr ⟨hr.of_entries ht.entry, fun op' hb' a ha => ?_⟩⟩
    rw [hb] at hb'; cases hb'
    exact (plans_fit hs.1.linked hr hp a ha).of_program fun e _ => by rw [ht.entry]; exact ⟨rfl, rfl⟩
  handed {s t op p} hs ht ho hb hc hu hw ha := by
    have hr := (repeatsLaw_iff s).mp hs.2
    refine ⟨listLaw_tableKeeps.handed hs.1 ht ho hb hc hu hw ha,
      (repeatsLaw_iff t).mpr ⟨hr.1.of_entries ht.entry, fun op' hb' a hm => ?_⟩⟩
    rw [hb] at hb'; cases hb'
    exact (hr.2 op ho a (ha ▸ hm)).of_program fun e _ => by rw [ht.entry]; exact ⟨rfl, rfl⟩
  walk hs := ⟨listLaw_tableKeeps.walk hs.1, hs.2.walkStep hs.1⟩
  final hs := ⟨listLaw_tableKeeps.final hs.1, hs.2.finalStep hs.1⟩
  reset {t} ht he := by
    have hent : ∀ e, t.entry e = .reset := fun e => by simp [State.entry, ht, TimerTable.reset]
    refine ⟨listLaw_tableKeeps.reset ht he, (repeatsLaw_iff t).mpr ⟨fun e hst => ?_, fun op hb => ?_⟩⟩
    · simp [hent, Entry.reset] at hst
    · rw [he] at hb; cases hb

/-- Settles O60: every write that a step can make keeps both laws, and so every step does. -/
theorem liveFieldsKept : Obligations.LiveFieldsKept :=
  ⟨fun _ _ hl hr e => (step_keeps repeatsLaw_tableKeeps.keeps ⟨hl, hr⟩ e).2,
    fun _ _ hs e => step_keeps liveLaw_tableKeeps.keeps hs e⟩

end Sys2Proof.Machine
end

section
/-!
The rows of the Timer Table's owner, the claims that hold owners up, and release reports (R3, R8, R10–R17, R104).
-/
namespace Sys2Proof.Machine

/-! ## The Timer Table's commands (R11–R15) -/

/-- What an owner returns goes back to the Command Unit as the result (R138). -/
def answerOwned (r : Owned) : State := r.1.answer r.2.1 r.2.2

theorem exec_alloc_due {s : State} {w : Option EntryIdx} (hd : s.ownerDue = some (.alloc w)) :
    exec .alloc s = .next (answerOwned (ownAlloc w s)) :=
  congrArg _ (ownerStep_eq hd rfl rfl)

theorem exec_setupTiming_due {s : State} {e : EntryIdx} {sd p : Tick}
    (hd : s.ownerDue = some (.setupTiming e sd p)) :
    exec .setupTiming s = .next (answerOwned (ownSetupTiming e sd p s)) :=
  congrArg _ (ownerStep_eq hd rfl rfl)

theorem exec_setupBehavior_due {s : State} {e : EntryIdx} {b : Behavior}
    (hd : s.ownerDue = some (.setupBehavior e b)) :
    exec .setupBehavior s = .next (answerOwned (ownSetupBehavior e b s)) :=
  congrArg _ (ownerStep_eq hd rfl rfl)

theorem exec_retune_due {s : State} {e : EntryIdx} {p : Tick} (hd : s.ownerDue = some (.retune e p)) :
    exec .retune s = .next (answerOwned (ownRetune e p s)) :=
  congrArg _ (ownerStep_eq hd rfl rfl)

/-- The head of the free list is the entry that an ALLOC of any takes off it (R11). -/
theorem allocate_head {s : State} {e : EntryIdx} {rest : List EntryIdx} (hf : s.table.freeList = e :: rest) :
    s.allocate e = { s with table := { entries := s.table.entries.set e .allocated, freeList := rest } } := by
  simp [State.allocate, State.setEntry, hf]

/-- Settles O25: the four outcomes are the branches of the owner's step. -/
theorem allocTaken : Obligations.AllocTaken := by
  refine ⟨fun s hd hf => ?_, fun s e rest hd hf => ?_, fun s e hd he => ?_, fun s e hd he => ?_⟩
  · rw [exec_alloc_due hd, ownAlloc, hf]; rfl
  · rw [exec_alloc_due hd, ownAlloc, hf]
    dsimp only
    rw [allocate_head hf]; rfl
  · rw [exec_alloc_due hd, ownAlloc]
    rw [if_pos he]; rfl
  · rw [exec_alloc_due hd, ownAlloc]
    rw [if_neg he]; rfl

/-- The repeats left after a RETUNE as R15 gives them. -/
theorem retunedRepeats_eq (x : Entry) (p : Tick) :
    retunedRepeats x p =
      if x.period = 0 ∧ p ≠ 0 then x.behavior.repeatLoad
      else if x.period ≠ 0 ∧ p = 0 then 1 else x.repeatsLeft := by
  unfold retunedRepeats
  by_cases hx : x.period = 0 <;> by_cases hp : p = 0
  · rw [if_pos hx, if_pos hp, if_neg (fun h => h.2 hp), if_neg (fun h => h.1 hx)]
  · rw [if_pos hx, if_neg hp, if_pos ⟨hx, hp⟩]
  · rw [if_neg hx, if_pos hp, if_neg (fun h => hx h.1), if_pos ⟨hx, hp⟩]
  · rw [if_neg hx, if_neg hp, if_neg (fun h => hx h.1), if_neg (fun h => hp h.2)]

/-- Settles O26: each command writes in the states that R13 to R15 name and is answered STATE in the others. -/
theorem entryProgrammed : Obligations.EntryProgrammed := by
  refine ⟨⟨fun s e sd p hd => ⟨fun he => ?_, fun he => ?_⟩, fun s e b hd => ⟨fun he => ?_, fun he => ?_⟩⟩,
    fun s e p hd => ⟨fun he => ?_, fun he => ?_, fun he => ?_⟩⟩
  · rw [exec_setupTiming_due hd, ownSetupTiming, if_pos he]; rfl
  · rw [exec_setupTiming_due hd, ownSetupTiming, if_neg he]; rfl
  · rw [exec_setupBehavior_due hd, ownSetupBehavior, if_pos he]; rfl
  · rw [exec_setupBehavior_due hd, ownSetupBehavior, if_neg he]; rfl
  · rw [exec_retune_due hd, ownRetune, he]; rfl
  · rw [← retunedRepeats_eq, exec_retune_due hd, ownRetune]
    rcases he with he | he <;> rw [he] <;> rfl
  · rw [exec_retune_due hd, ownRetune]
    rcases he with he | he <;> rw [he] <;> rfl

/-! ## What a claim holds up (R17, R104, R138) -/

/-- A command of stage OWNER is due unless a claim holds it up. -/
theorem ownerDue_eq {s : State} {c : Command} (h : s.executing .owner = some c) (hf : c.firstStage = .owner) :
    s.ownerDue = if s.ownerMustWait c then none else some c := by
  simp [State.ownerDue, h, hf]

/-- A command that waits for the claim on one entry. -/
theorem ownerDue_claim {s : State} {c : Command} {e : EntryIdx} (h : s.executing .owner = some c)
    (hf : c.firstStage = .owner) (hw : s.ownerMustWait c = s.claimed e) :
    (s.claimed e = true → s.ownerDue = none) ∧ (s.claimed e = false → s.ownerDue = some c) := by
  rw [ownerDue_eq h hf, hw]
  exact ⟨fun hc => by rw [hc]; rfl, fun hc => by rw [hc]; rfl⟩

/-- A flush waits for a SPENT entry under a claim whose notices all stand in its queue (R104). -/
theorem flushMustWait_iff (s : State) (q : QueueId) :
    s.flushMustWait q = true ↔ ∃ e, (s.entry e).state = .spent ∧ s.claimed e = true ∧
      0 < (s.queue q).countOf e ∧ s.noticesOf e = (s.queue q).countOf e := by
  simp only [State.flushMustWait, State.emptiedByFlush, List.any_eq_true, List.mem_filter, List.mem_finRange, true_and,
    Bool.and_eq_true, decide_eq_true_eq, beq_iff_eq]
  refine exists_congr fun e => ⟨?_, ?_⟩
  · rintro ⟨⟨h0, h1⟩, hs, hc⟩; exact ⟨hs, hc, h0, h1⟩
  · rintro ⟨hs, hc, h0, h1⟩; exact ⟨⟨h0, h1⟩, hs, hc⟩

/-- Settles O30: each command of the statement against what its owner waits for. -/
theorem claimsHoldUpOwners : Obligations.ClaimsHoldUpOwners := by
  refine ⟨fun s e c h hc => ?_, fun s h => ⟨fun hf => ?_, fun e rest hf => ?_⟩, fun s q h => ⟨fun hw => ?_, fun hw => ?_⟩,
    fun s c h hc => ?_⟩
  · rcases hc with ⟨sd, p, rfl⟩ | ⟨b, rfl⟩ | ⟨p, rfl⟩ | rfl <;> exact ownerDue_claim h rfl rfl
  · rw [ownerDue_eq h rfl, State.ownerMustWait, hf]; rfl
  · exact ownerDue_claim h rfl (by rw [State.ownerMustWait, hf])
  · rw [ownerDue_eq h rfl, State.ownerMustWait, (flushMustWait_iff s q).mpr hw]; rfl
  · rw [ownerDue_eq h rfl, State.ownerMustWait, Bool.eq_false_iff.mpr (mt (flushMustWait_iff s q).mp hw)]; rfl
  · rcases hc with ⟨b, d, x, rfl⟩ | ⟨b, rfl | rfl | rfl⟩ | ⟨q, w, rfl⟩ | ⟨l, x, a, rfl⟩ <;>
      exact ownerDue_eq h rfl

/-! ## Release reports (R8, R10) -/

/-- Settles O31: the report that waits is due, and its taking either releases the entry or does nothing more. -/
theorem reportTaken : Obligations.ReportTaken := by
  intro s e hm hc
  have hd : s.reportDue e = true := by simp [State.reportDue, hm, hc]
  have hrow : exec (.releaseReport e) s = .next ((s.setReports (s.notices.reports.erase e)).takeReport e) := by
    rw [exec, execReleaseReport, State.takeWaitingReport, if_pos hd]
  have hn : (s.setReports (s.notices.reports.erase e)).noticesOf e = s.noticesOf e :=
    noticesOf_of_queues (setReports_queue s _) e
  refine ⟨fun hs h0 => ?_, fun hne => ?_⟩
  · rw [hrow, State.takeReport, if_pos ⟨hs, hn.trans h0⟩]; rfl
  · rw [hrow, State.takeReport, if_neg (fun h => hne ⟨h.1, hn.symm.trans h.2⟩)]; rfl

end Sys2Proof.Machine
end

section
/-!
The part after a hardware reset (R21, R41, R64, R110, R126, R152, R165, R172, R181, R183, R190): its blocks, its laws,
and what the host reads.
-/
namespace Sys2Proof.Machine

/-! ## The blocks after a reset -/

theorem resetWith_open (tki : Bool) (trg : BitVec 4) : (State.resetWith tki trg).Open := fun _ => nofun

theorem resetWith_entry (tki : Bool) (trg : BitVec 4) (e : EntryIdx) :
    (State.resetWith tki trg).entry e = .reset := by
  simp [State.entry, State.resetWith, TimerTable.reset]

theorem resetWith_group (tki : Bool) (trg : BitVec 4) (g : GroupIdx) :
    (State.resetWith tki trg).group g = .reset := by
  simp [State.group, State.resetWith, ListEngine.reset]

theorem resetWith_line (tki : Bool) (trg : BitVec 4) (l : TrigIdx) :
    (State.resetWith tki trg).line l = .reset (trg.getLsbD l) := by
  simp [State.line, State.resetWith, TriggerUnit.reset]

theorem resetWith_list (tki : Bool) (trg : BitVec 4) (b : Timebase) : (State.resetWith tki trg).list b = [] := by
  cases b <;> rfl

theorem resetWith_queue (tki : Bool) (trg : BitVec 4) (q : QueueId) :
    (State.resetWith tki trg).queue q = .cleared 1 := by
  cases q <;> rfl

theorem resetWith_timebase (tki : Bool) (trg : BitVec 4) (b : Timebase) :
    (State.resetWith tki trg).timebase b = .reset := by
  cases b <;> rfl

/-! ## The laws after a reset -/

theorem resetWith_membersIn (tki : Bool) (trg : BitVec 4) {st : EntryState} (h : st ≠ .free) (g : GroupIdx) :
    (State.resetWith tki trg).membersIn st g = [] := by
  simp [State.membersIn, resetWith_entry, Entry.reset, Ne.symm h]

theorem resetWith_commandLaw (tki : Bool) (trg : BitVec 4) : (State.resetWith tki trg).CommandLaw :=
  ⟨Nat.zero_le _, Nat.zero_le _, .inl rfl⟩

theorem resetWith_noticeLaw (tki : Bool) (trg : BitVec 4) : (State.resetWith tki trg).NoticeLaw :=
  ⟨cleared_law (by decide), cleared_law (by decide), fun op _ hb => absurd hb (resetWith_open tki trg op)⟩

theorem resetWith_groupLaw (tki : Bool) (trg : BitVec 4) : (State.resetWith tki trg).GroupLaw where
  count g := by rw [resetWith_group, resetWith_membersIn tki trg (st := .held) nofun]; rfl
  phase g := by simp [State.PhaseLaw, resetWith_group, Group.reset, resetWith_membersIn tki trg]
  grouped e h := by rw [resetWith_entry] at h; cases h
  acts op hb := absurd hb (resetWith_open tki trg op)
  closing op _ _ hb := absurd hb (resetWith_open tki trg op)
  walk op _ hb := absurd hb (resetWith_open tki trg op)

theorem resetWith_spentLaw (tki : Bool) (trg : BitVec 4) : (State.resetWith tki trg).SpentLaw where
  free e _ := rfl
  spent e h := by rw [resetWith_entry] at h; cases h
  post op _ hb := absurd hb (resetWith_open tki trg op)
  release op _ hb := absurd hb (resetWith_open tki trg op)
  purge op _ hb := absurd hb (resetWith_open tki trg op)

/-- Settles O54: no operation is in flight, every entry is FREE, and every list and queue is empty. -/
theorem lawsAtReset : Obligations.LawsAtReset := fun tki trg =>
  have hr := repeatsLaw_tableKeeps.reset (t := State.resetWith tki trg) rfl rfl
  ⟨resetWith_commandLaw tki trg, resetWith_noticeLaw tki trg, hr.1, resetWith_groupLaw tki trg,
    resetWith_spentLaw tki trg, hr.2, liveLaw_tableKeeps.reset rfl rfl⟩

/-! ## What the host reads after a reset (R132, R169, R172, R181) -/

/-- The part after a reset, with the steps that wait. -/
def State.resetQueued (tki : Bool) (trg : BitVec 4) (q : List Instr) : State :=
  { State.resetWith tki trg with pending := q }

theorem exec_hardwareReset (tki : Bool) (trg : BitVec 4) (s : State) :
    exec (.hardwareReset tki trg) s = .next (State.resetQueued tki trg s.pending) := rfl

/-- No trigger record waits after a reset. -/
theorem resetQueued_waitingLine (tki : Bool) (trg : BitVec 4) (q : List Instr) :
    (State.resetQueued tki trg q).waitingLine = none := by
  rw [State.waitingLine, List.findSome?_eq_none_iff]
  intro l _
  have hl : (State.resetQueued tki trg q).line l = .reset (trg.getLsbD l) := resetWith_line tki trg l
  rw [hl]; rfl

/-- Nothing is due after a reset, and no requester waits. -/
theorem resetQueued_settle (tki : Bool) (trg : BitVec 4) (q : List Instr) :
    (State.resetQueued tki trg q).settle = State.resetQueued tki trg q := by
  have hd : (State.resetQueued tki trg q).dueStep = none := dueStep_none_of rfl rfl rfl rfl rfl nofun
  have ht : (State.resetQueued tki trg q).waits .trigger = false := by
    rw [State.waits, resetQueued_waitingLine]; rfl
  have hw : (State.resetQueued tki trg q).firstWaiting .expiry = none := by
    simp only [State.firstWaiting, Requester.next, ht]; rfl
  refine settle_of_settled ?_
  rw [State.settled, hd]
  exact congrArg Option.isNone hw

/-- No interrupt source is pending after a reset (R181). -/
theorem resetQueued_ipend (tki : Bool) (trg : BitVec 4) (q : List Instr) :
    (State.resetQueued tki trg q).ipend = 0 := by
  have ht : (State.resetQueued tki trg q).trgPending = false := by
    rw [Bool.eq_false_iff, ne_eq, trg_iff]
    rintro ⟨l, h⟩
    have hl : (State.resetQueued tki trg q).line l = .reset (trg.getLsbD l) := resetWith_line tki trg l
    rw [hl] at h
    rcases h with h | h <;> cases h
  rw [State.ipend, State.sources, ht]; rfl

/-- Settles O5: block by block from the reset records, and the reads from the settled state that a reset leaves. -/
theorem hardwareReset : Obligations.HardwareReset := by
  refine ⟨fun tki trg s => ⟨_, exec_hardwareReset tki trg s, ?_⟩, fun tki trg s => ⟨_, exec_hardwareReset tki trg s, ?_⟩⟩
  · exact ⟨resetWith_entry tki trg, rfl, resetWith_timebase tki trg, rfl, rfl, resetWith_list tki trg, rfl, rfl,
      resetWith_group tki trg, resetWith_queue tki trg, rfl, resetWith_line tki trg, rfl, rfl, rfl, rfl, rfl, rfl, rfl,
      rfl, rfl, rfl⟩
  · have hs := resetQueued_settle tki trg s.pending
    have hi := resetQueued_ipend tki trg s.pending
    simp only [State.windowRead, State.intLow, hs, State.intAsserted, hi]
    exact ⟨rfl, rfl, rfl, rfl, rfl, rfl, rfl, rfl, rfl, rfl, fun _ => rfl⟩

end Sys2Proof.Machine
end

section
/-!
The end of a run: what the final steps of a service write, and the whole operation where nothing follows
(R16, R45, R46, R66, R76, R78, R81).
-/
namespace Sys2Proof.Machine

/-! ## Final steps (R45, R46) -/

/-- The claims on the entries of `l` have ended, and the writes are made (R17). -/
def Operation.afterWriting (op : Operation) (l : List EntryIdx) : Operation :=
  { op with plan := { op.plan with claims := op.plan.claims.filter (fun a => decide (a ∉ l)), acts := [] } }

theorem oneWrite_eq (s : State) {op : Operation} {a : Act} {e : EntryIdx} (h : op.plan.acts = [a])
    (he : a.entry = some e) : s.oneWrite op a = (s.act op a).setActivity (.busy (op.afterWriting [e])) := by
  rw [State.oneWrite, claims_one h he]; rfl

theorem finalStep_one_write {s : State} {op : Operation} {a : Act} {e : EntryIdx} (hI : s.InFlight op)
    (h : Plan.One op.plan [a]) (he : a.entry = some e) :
    exec .finalStep s = .next ((s.act op a).setActivity (.busy (op.afterWriting [e]))) := by
  rw [exec_final hI h.lineOp h.post h.walk h.purge h.acts, claims_one h.acts he]; rfl

theorem finalStep_two_writes {s : State} {op : Operation} {a b : Act} {e y : EntryIdx} (hI : s.InFlight op)
    (h : Plan.One op.plan [a, b]) (he : a.entry = some e) (hy : b.entry = some y) :
    exec .finalStep s = .next (((s.act op a).act op b).setActivity (.busy (op.afterWriting [e, y]))) := by
  rw [final_two hI h.lineOp h.post h.purge h.walk h.acts, claims_two h.acts he hy]; rfl

/-- Only CLEAR NOW writes a block outside the List Engine, the table and the groups. -/
theorem act_outside (s : State) (op : Operation) {a : Act} {e : EntryIdx} (h : a.entry = some e) :
    s.OutsideKept (s.act op a) := by
  refine ⟨?_, act_out s op a, act_irq s op a, act_bus s op a⟩
  cases a <;> cases h <;> simp [State.act]

theorem State.OutsideKept.trans {s t u : State} (h : s.OutsideKept t) (k : t.OutsideKept u) : s.OutsideKept u :=
  ⟨k.time.trans h.time, k.out.trans h.out, k.irq.trans h.irq, k.bus.trans h.bus⟩

theorem link_kept (s : State) (n : Tick) (e : EntryIdx) (d : Tick) (r : Byte) :
    (s.link n e d r).table.freeList = s.table.freeList ∧ (s.link n e d r).engine.groups = s.engine.groups := by
  simp [State.link, State.insertAt]

theorem holdStart_kept (s : State) (e : EntryIdx) (m : Tick) (r : Byte) :
    (s.holdStart e m r).table.freeList = s.table.freeList ∧ ∀ b, (s.holdStart e m r).list b = s.list b := by
  unfold State.holdStart
  dsimp only
  split
  · exact ⟨rfl, list_of_engine (setEntry_engine _ _ _)⟩
  · exact ⟨by simp, fun b => (raiseHeld_list _ _ b).trans (list_of_engine (setEntry_engine _ _ _) b)⟩

/-- A held start raises the held count of the entry's group by one, unless the entry was HELD (R119). -/
theorem holdStart_group (s : State) (e : EntryIdx) (m : Tick) (r : Byte) (g : GroupIdx) :
    (s.holdStart e m r).group g = { s.group g with heldCount := (s.group g).heldCount +
      (if (s.entry e).state ≠ .held ∧ (s.entry e).behavior.group = some g then 1 else 0) } := by
  unfold State.holdStart
  dsimp only
  split
  · rename_i h; simp [h, group_of_engine (setEntry_engine s e _)]
  · rename_i h; simp [raiseHeld_group, h, group_of_engine (setEntry_engine s e _)]

/-- A write of another entry after a retirement. -/
theorem State.RetiredAt.and_write {s u : State} {e y : EntryIdx} {a : Act} (op : Operation) (h : s.RetiredAt u e none)
    (hy : y ≠ e) (ha : a.entry = some y) (hf : (u.act op a).table.freeList = u.table.freeList) :
    s.RetiredAt (u.act op a) e (some y) where
  entry := by
    rw [act_entry_other (by rw [ha]; simpa using hy)]; exact h.entry
  freeList := hf.trans h.freeList
  otherEntries x hx hxy := by
    rw [act_entry_other (by rw [ha]; exact hxy)]; exact h.otherEntries x hx nofun
  notices := (act_notices u op a).trans h.notices
  cmd := (act_cmd u op a).trans h.cmd
  trig := (act_trig u op a).trans h.trig

/-! ## The post hand-over (R84, R93) -/

/-- After a post the queue of its entry names the entry (R93). -/
theorem takePost_noticesOf (s : State) (p : Post) : (s.takePost p).noticesOf p.entry ≠ 0 := by
  have hq : ((s.takePost p).queue p.queue).countOf p.entry ≠ 0 := by
    rw [State.takePost, queue_setQueue_same]; exact posted_counts _ _
  unfold State.noticesOf
  cases h : p.queue <;> rw [h] at hq <;> omega

/-- The plan after the post hand-over. -/
def Plan.posted (p : Plan) : Plan := { p with post := none }

/-- The state after the grant of a service with a post and the hand-over of the post. -/
def State.servicePosted (s : State) (pl : Plan) (p : Post) : State :=
  ((s.begin .expiry pl).takePost p).setPlan (s.operationOf .expiry pl) pl.posted

theorem exec_post_of {s : State} {op : Operation} {p : Post} (hI : s.InFlight op) (hl : op.plan.lineOp = none)
    (hp : op.plan.post = some p) : exec .post s = .next ((s.takePost p).setPlan op op.plan.posted) := by
  rw [exec, execPost, settle_of_settled hI.settled, State.handPost, hI.busy]
  simp only [hl, hp, Plan.posted]

theorem exec_post_begin {s : State} (hq : s.Quiet) {pl : Plan} {p : Post} (hl : pl.lineOp = none)
    (hp : pl.post = some p) : exec .post (s.begin .expiry pl) = .next (s.servicePosted pl p) :=
  exec_post_of (op := s.operationOf .expiry pl) ((begin_quiet hq .expiry pl).inFlight rfl) hl hp

theorem servicePosted_quiet {s : State} (hq : s.Quiet) (pl : Plan) (p : Post) : (s.servicePosted pl p).Quiet :=
  (quiet_takePost (begin_quiet hq .expiry pl) p).of rfl rfl

theorem servicePosted_noticesOf (s : State) (pl : Plan) (p : Post) : (s.servicePosted pl p).noticesOf p.entry ≠ 0 :=
  takePost_noticesOf (s.begin .expiry pl) p

theorem servicePosted_notices (s : State) (pl : Plan) (p : Post) :
    (s.servicePosted pl p).notices = (s.setQueue p.queue ((s.queue p.queue).posted p)).notices := by
  show ((s.begin .expiry pl).takePost p).notices = _
  unfold State.takePost
  cases p.queue <;> rfl

theorem servicePosted_list (s : State) (pl : Plan) (p : Post) (b : Timebase) :
    (s.servicePosted pl p).list b = s.list b := by
  rw [State.servicePosted, State.setPlan, setActivity_list, list_of_engine (takePost_engine _ _)]
  cases b <;> rfl

theorem servicePosted_groups (s : State) (pl : Plan) (p : Post) :
    (s.servicePosted pl p).engine.groups = s.engine.groups := by
  rw [State.servicePosted, State.setPlan, setActivity_groups, takePost_engine]; rfl

/-- A grant and a post leave all blocks but the List Engine and the Notice Unit. -/
theorem servicePosted_kept (s : State) (pl : Plan) (p : Post) :
    (s.servicePosted pl p).table = s.table ∧ (s.servicePosted pl p).cmd = s.cmd ∧
      (s.servicePosted pl p).trig = s.trig ∧ s.OutsideKept (s.servicePosted pl p) := by
  refine ⟨?_, ?_, ?_, ?_, ?_, ?_, ?_⟩ <;> simp [State.servicePosted]

/-! ## The service of an entry whose run ends with nothing after it (R76, R81) -/

/-- The service of `e` on its list ends the run, and neither action nor successor follows. -/
structure State.Ending (s : State) (b : Timebase) (e : EntryIdx) : Prop where
  grantable : s.Grantable .expiry
  head : s.chooseHead = some (b, e)
  ends : ((s.entry e).expiries (s.now b)).ends = true
  successor : (s.entry e).behavior.successor = none
  action : (s.entry e).behavior.action = .none

/-- The plan of such a service: the post if there is one, and the retirement. -/
theorem State.Ending.plan {s : State} {b : Timebase} {e : EntryIdx} (h : s.Ending b e) :
    (s.servicePlan b e).claims = [e] ∧ (s.servicePlan b e).lineOp = none ∧
      Plan.One (s.servicePlan b e).posted [.retire e] := by
  have hr : ∀ n latest, n.ends = true → s.runStep b e n latest =
      { claims := [e], acts := [.retire e], miss := false, bound := 3 } := by
    intro n latest hn
    simp only [State.runStep, hn, if_true, h.successor]
  have hl : (s.servicePlan b e).lineOp = none := by simp only [State.servicePlan, Behavior.lineOp, h.action]
  have hc : (s.servicePlan b e).claims = [e] := by simp only [State.servicePlan, hr _ _ h.ends]
  have ha : (s.servicePlan b e).acts = [.retire e] := by simp only [State.servicePlan, hr _ _ h.ends]
  exact ⟨hc, hl, hl, rfl, rfl, rfl, ha⟩

theorem State.Ending.grant {s : State} {b : Timebase} {e : EntryIdx} (h : s.Ending b e) :
    exec .service s = .next (s.begin .expiry (s.servicePlan b e)) :=
  congrArg _ (expiryGrant_of h.grantable h.head)

/-- A service posts in the queue of its entry when the run ends and the post mode is not OFF (R82, R83). -/
theorem State.Ending.post {s : State} {b : Timebase} {e : EntryIdx} (h : s.Ending b e)
    (hm : (s.entry e).behavior.postMode ≠ .off) :
    ∃ p, (s.servicePlan b e).post = some p ∧ p.entry = e ∧ p.queue = (s.entry e).behavior.queue := by
  simp only [State.servicePlan, Entry.postOf]
  cases hc : (s.entry e).behavior.postMode with
  | off => exact absurd hc hm
  | every => exact ⟨_, rfl, rfl, rfl⟩
  | final => exact ⟨_, by rw [if_pos h.ends], rfl, rfl⟩

/-! ## What the final steps leave behind -/

/-- `e` is off its list, and the lists are otherwise as before (R46). -/
def State.OffList (s t : State) (e : EntryIdx) : Prop :=
  ∀ b, t.list b = if (s.entry e).behavior.timebase = b then (s.list b).erase e else s.list b

/-- The operation has written the entries of `l` and no block outside the engine, the table and the requester. -/
def State.Written (s t : State) (op : Operation) (l : List EntryIdx) : Prop :=
  t.engine.activity = .busy (op.afterWriting l) ∧ s.OutsideKept t

theorem written_setActivity {s u : State} (h : s.OutsideKept u) (op : Operation) (l : List EntryIdx) :
    s.Written (u.setActivity (.busy (op.afterWriting l))) op l := ⟨rfl, h.time, h.out, h.irq, h.bus⟩

theorem State.RetiredAt.setActivity {s u : State} {e : EntryIdx} {but : Option EntryIdx} (h : s.RetiredAt u e but)
    (a : Activity) : s.RetiredAt (u.setActivity a) e but :=
  ⟨h.entry, h.freeList, h.otherEntries, h.notices, h.cmd, h.trig⟩

/-- A retirement as the only write (R16, R46, R81). -/
theorem oneWrite_retires (s : State) {op : Operation} {e : EntryIdx} (h : op.plan.acts = [.retire e]) :
    s.RetiredAt (s.oneWrite op (.retire e)) e none ∧ s.OffList (s.oneWrite op (.retire e)) e ∧
      (s.oneWrite op (.retire e)).engine.groups = s.engine.groups ∧
      s.Written (s.oneWrite op (.retire e)) op [e] := by
  rw [oneWrite_eq s h rfl]
  obtain ⟨hg, _, ho⟩ := retire_kept s op e
  refine ⟨(retire_at s op e none).setActivity _, fun b => ?_, hg, written_setActivity ho op [e]⟩
  rw [setActivity_list, retire_list]

/-- The only claim of the operation has ended. -/
theorem claims_of_written {t : State} {op : Operation} {e : EntryIdx}
    (h : t.engine.activity = .busy (op.afterWriting [e])) (hc : op.plan.claims = [e]) : t.claims = [] := by
  simp [State.claims, h, Operation.afterWriting, hc]

/-- The service that ends the run of `e` without a post: retirement and completion (R16, R46, R81). -/
theorem ending_retires {s : State} {b : Timebase} {e : EntryIdx} (h : s.Ending b e)
    (hm : (s.entry e).behavior.postMode = .off) :
    ∃ s1 s2 : State, exec .service s = .next s1 ∧ s1.table = s.table ∧ exec .finalStep s1 = .next s2 ∧
      s.RetiredAt s2 e none ∧ s.OffList s2 e ∧ s2.engine.groups = s.engine.groups ∧ s2.claims = [] ∧
      s.OutsideKept s2 ∧ exec .operationCompletion s2 = .next (s2.completedTo .command) := by
  obtain ⟨hc, hl, hp⟩ := h.plan
  have hpost : (s.servicePlan b e).post = none := by simp only [State.servicePlan, Entry.postOf, hm]
  have hone : Plan.One (s.servicePlan b e) [.retire e] := ⟨hl, hpost, hp.walk, hp.purge, hp.acts⟩
  have hQ := begin_quiet h.grantable.quiet .expiry (s.servicePlan b e)
  obtain ⟨hF, hC⟩ := after_one (op := s.operationOf .expiry (s.servicePlan b e)) hQ rfl hone (plain_retire e)
  obtain ⟨hR, hO, hG, hA, hK⟩ := oneWrite_retires (s.begin .expiry (s.servicePlan b e))
    (op := s.operationOf .expiry (s.servicePlan b e)) hp.acts
  refine ⟨_, _, h.grant, rfl, hF, ⟨hR.entry, hR.freeList, hR.otherEntries, hR.notices, hR.cmd, hR.trig⟩,
    fun k => ?_, hG, claims_of_written hA hc, ⟨hK.time, hK.out, hK.irq, hK.bus⟩, hC⟩
  have := hO k
  cases k <;> exact this

/-- The service that ends the run of `e` with auto-free and a post of its own: the entry ends SPENT (R16, R81). -/
theorem ending_spends {s : State} {b : Timebase} {e : EntryIdx} (h : s.Ending b e)
    (hm : (s.entry e).behavior.postMode ≠ .off) (haf : (s.entry e).behavior.autoFree = true) :
    ∃ (s1 s2 s3 : State) (p : Post), exec .service s = .next s1 ∧ s1.table = s.table ∧
      (s.servicePlan b e).post = some p ∧ exec .post s1 = .next s2 ∧ s2.table = s.table ∧
      s2.notices = (s.setQueue (s.entry e).behavior.queue
        ((s.queue (s.entry e).behavior.queue).posted p)).notices ∧
      exec .finalStep s2 = .next s3 ∧
      s3.entry e = { s.entry e with state := .spent, deadline := 0, remaining := 0, repeatsLeft := 0 } ∧
      (∀ a, a ≠ e → s3.entry a = s.entry a) ∧ s3.table.freeList = s.table.freeList ∧ s.OffList s3 e ∧
      s3.engine.groups = s.engine.groups ∧ s3.notices = s2.notices ∧ s3.cmd = s.cmd ∧ s3.trig = s.trig ∧
      s3.claims = [] ∧ s.OutsideKept s3 ∧ exec .operationCompletion s3 = .next (s3.completedTo .command) := by
  obtain ⟨hc, hl, hp⟩ := h.plan
  obtain ⟨p, hpost, hpe, hpq⟩ := h.post hm
  have hQ := servicePosted_quiet h.grantable.quiet (s.servicePlan b e) p
  have hN := servicePosted_noticesOf s (s.servicePlan b e) p
  have hN' := servicePosted_notices s (s.servicePlan b e) p
  obtain ⟨hT, hcmd, htrig, hout⟩ := servicePosted_kept s (s.servicePlan b e) p
  have hent : ∀ a, (s.servicePosted (s.servicePlan b e) p).entry a = s.entry a := entry_of_table hT
  obtain ⟨hF, hC⟩ := after_one (op := s.operationOf .expiry (s.servicePlan b e).posted) hQ rfl hp (plain_retire e)
  obtain ⟨hR, hO, hG, hA, hOut⟩ := oneWrite_retires (s.servicePosted (s.servicePlan b e) p)
    (op := s.operationOf .expiry (s.servicePlan b e).posted) hp.acts
  rw [hpe] at hN
  rw [hpq] at hN'
  refine ⟨_, _, _, p, h.grant, rfl, hpost, exec_post_begin h.grantable.quiet hl hpost, hT, hN', hF, ?_,
    fun a ha => ?_, ?_, fun k => ?_, hG.trans (servicePosted_groups _ _ _), hR.notices, hR.cmd.trans hcmd,
    hR.trig.trans htrig, claims_of_written hA hc, hout.trans hOut, hC⟩
  · rw [hR.entry, hent, if_pos haf, if_neg hN]
  · rw [hR.otherEntries a ha nofun, hent]
  · rw [hR.freeList, if_neg (fun hh => hN hh.2), List.append_nil, hT]
  · rw [hO k, hent, servicePosted_list]

/-- A relink as the only write (R45, R66). -/
theorem finalStep_relinks {s : State} {op : Operation} {e : EntryIdx} {d : Tick} {r : Byte} (hI : s.InFlight op)
    (h : Plan.One op.plan [.link e d r]) :
    ∃ t, exec .finalStep s = .next t ∧
      t.entry e = { s.entry e with state := .armed, deadline := d, remaining := 0, repeatsLeft := r } ∧
      t.list (s.entry e).behavior.timebase =
        insertByDistance (fun a => distance (s.entry a).deadline (op.now (s.entry e).behavior.timebase)) e
          (distance d (op.now (s.entry e).behavior.timebase)) ((s.list (s.entry e).behavior.timebase).erase e) ∧
      (∀ b, b ≠ (s.entry e).behavior.timebase → t.list b = s.list b) ∧ (∀ a, a ≠ e → t.entry a = s.entry a) ∧
      t.table.freeList = s.table.freeList ∧ t.engine.groups = s.engine.groups ∧ t.notices = s.notices ∧
      t.cmd = s.cmd ∧ t.trig = s.trig ∧ s.Written t op [e] := by
  obtain ⟨hf, hg⟩ := link_kept s (op.now (s.entry e).behavior.timebase) e d r
  refine ⟨_, finalStep_one_write hI h rfl, ?_, ?_, fun b hb => ?_, fun a ha => ?_, hf, hg,
    act_notices s op _, act_cmd s op _, act_trig s op _, written_setActivity (act_outside s op rfl) op [e]⟩
  · exact (link_entry s _ e d r e).trans (if_pos rfl)
  · rw [setActivity_list, State.act, link_list, if_pos rfl]
  · rw [setActivity_list, State.act, link_list, if_neg (Ne.symm hb)]
  · exact (link_entry s _ e d r a).trans (if_neg (Ne.symm ha))

/-- A retirement and the link of a successor (R76, R78). -/
theorem finalStep_retires_links {s : State} {op : Operation} {e y : EntryIdx} {d : Tick} {r : Byte}
    (hI : s.InFlight op) (h : Plan.One op.plan [.retire e, .link y d r]) (hy : y ≠ e)
    (hn : ∀ b, (s.list b).Nodup) (hb : ∀ b, e ∈ s.list b → (s.entry e).behavior.timebase = b) :
    ∃ t, exec .finalStep s = .next t ∧ s.RetiredAt t e (some y) ∧
      t.entry y = { s.entry y with state := .armed, deadline := d, remaining := 0, repeatsLeft := r } ∧
      t.list (s.entry y).behavior.timebase =
        insertByDistance (fun a => distance (s.entry a).deadline (op.now (s.entry y).behavior.timebase)) y
          (distance d (op.now (s.entry y).behavior.timebase))
          (((s.list (s.entry y).behavior.timebase).erase e).erase y) ∧
      (∀ b, b ≠ (s.entry y).behavior.timebase → t.list b = (s.list b).erase e) ∧
      t.engine.groups = s.engine.groups ∧ s.Written t op [e, y] := by
  have hR := retire_at s op e none
  obtain ⟨hg, _, ho⟩ := retire_kept s op e
  have hlist : ∀ b, (s.act op (.retire e)).list b = (s.list b).erase e := by
    intro b
    rw [retire_list]
    split
    · rfl
    · rename_i hne; exact (List.erase_of_not_mem fun hm => hne (hb b hm)).symm
  have hF := finalStep_two_writes hI h rfl rfl
  generalize s.act op (.retire e) = u at hF hR hg ho hlist
  have hent : ∀ a, a ≠ e → u.entry a = s.entry a := fun a ha => hR.otherEntries a ha nofun
  have hy' := hent y hy
  obtain ⟨hf, hk⟩ := link_kept u (op.now (u.entry y).behavior.timebase) y d r
  refine ⟨_, hF, (hR.and_write (a := .link y d r) op hy rfl hf).setActivity _, ?_, ?_, fun b hb => ?_, hk.trans hg,
    written_setActivity (ho.trans (act_outside u op rfl)) op [e, y]⟩
  · exact ((link_entry u _ y d r y).trans (if_pos rfl)).trans (by rw [hy']; rfl)
  · rw [setActivity_list, State.act, link_list, hy', if_pos rfl, hlist]
    refine insertByDistance_congr fun a ha => ?_
    rw [hent a ((hn _).mem_erase_iff.mp (List.mem_of_mem_erase ha)).1]
  · rw [setActivity_list, State.act, link_list, hy', if_neg (Ne.symm hb), hlist]

/-- A retirement and the held start of a successor (R76, R78, R119). -/
theorem finalStep_retires_holds {s : State} {op : Operation} {e y : EntryIdx} {m : Tick} {r : Byte}
    (hI : s.InFlight op) (h : Plan.One op.plan [.retire e, .hold y m r]) (hy : y ≠ e) :
    ∃ t, exec .finalStep s = .next t ∧ s.RetiredAt t e (some y) ∧ s.OffList t e ∧
      t.entry y = { s.entry y with state := .held, deadline := 0, remaining := m, repeatsLeft := r } ∧
      (∀ g, t.group g = { s.group g with heldCount := (s.group g).heldCount +
        (if (s.entry y).state ≠ .held ∧ (s.entry y).behavior.group = some g then 1 else 0) }) ∧
      s.Written t op [e, y] := by
  have hF := finalStep_two_writes hI h rfl rfl
  have hR := retire_at s op e none
  obtain ⟨hg, _, ho⟩ := retire_kept s op e
  have hlist := retire_list s op e
  generalize s.act op (.retire e) = u at hF hR hg ho hlist
  have hy' : u.entry y = s.entry y := hR.otherEntries y hy nofun
  obtain ⟨hf, hl⟩ := holdStart_kept u y m r
  refine ⟨_, hF, (hR.and_write (a := .hold y m r) op hy rfl hf).setActivity _, fun b => ?_, ?_, fun g => ?_,
    written_setActivity (ho.trans (act_outside u op rfl)) op [e, y]⟩
  · rw [setActivity_list, State.act, hl, hlist]
  · exact ((holdStart_entry u y m r y).trans (if_pos rfl)).trans (by rw [hy']; rfl)
  · rw [setActivity_group, State.act, holdStart_group, hy', show u.group g = s.group g by simp only [State.group, hg]]

/-- Settles O46: the two whole services, and the four shapes of final step. -/
theorem serviceRetires : Obligations.ServiceRetires := by
  unfold Obligations.ServiceRetires
  intro now off written final ending
  refine ⟨fun s b e h hm => ?_, fun s b e h hm haf => ?_, fun s op e d r h => ?_, fun s op e h => ?_,
    fun s op e y d r h hy hn hb => ?_, fun s op e y m r h hy => ?_⟩
  · obtain ⟨hg, hh, _, _, he, hs, ha⟩ := h
    exact ending_retires ⟨hg, hh, he, hs, ha⟩ hm
  · obtain ⟨hg, hh, _, _, he, hs, ha⟩ := h
    exact ending_spends ⟨hg, hh, he, hs, ha⟩ hm haf
  · obtain ⟨hI, h1, h2, h3, h4, h5⟩ := h
    exact finalStep_relinks hI ⟨h1, h2, h4, h3, h5⟩
  · obtain ⟨hI, h1, h2, h3, h4, h5⟩ := h
    exact ⟨_, exec_final hI h1 h2 h4 h3 h5, oneWrite_retires s h5⟩
  · obtain ⟨hI, h1, h2, h3, h4, h5⟩ := h
    exact finalStep_retires_links hI ⟨h1, h2, h4, h3, h5⟩ hy hn hb
  · obtain ⟨hI, h1, h2, h3, h4, h5⟩ := h
    exact finalStep_retires_holds hI ⟨h1, h2, h4, h3, h5⟩ hy

end Sys2Proof.Machine
end

section
/-!
The Timebase Unit: the distance of a deadline, counted events and ticks, and the commands that set and start a
timebase, with the other settings that an owner takes whole, and CLEAR NOW (R25–R28, R35–R38, R105, R163).
-/
namespace Sys2Proof.Machine

/-! ## The distance of a deadline (R28) -/

theorem distance_of_lt {d now : Tick} (h : (d - now).toNat < 8388608) : distance d now = ((d - now).toNat : Int) :=
  if_pos h

theorem distance_of_ge {d now : Tick} (h : 8388608 ≤ (d - now).toNat) :
    distance d now = ((d - now).toNat : Int) - 16777216 :=
  if_neg (Nat.not_lt.mpr h)

theorem distance_range (d now : Tick) : -8388608 ≤ distance d now ∧ distance d now ≤ 8388607 := by
  have hx : (d - now).toNat < 16777216 := (d - now).isLt
  rcases Nat.lt_or_ge (d - now).toNat 8388608 with h | h
  · rw [distance_of_lt h]; omega
  · rw [distance_of_ge h]; omega

/-- One tick takes the smallest distance to the greatest: the case that `distance_succ` leaves out (R28). -/
theorem distance_succ_wraps {d now : Tick} (h : distance d now = -8388608) : distance d (now + 1) = 8388607 := by
  have hx : (d - now).toNat = 8388608 := by
    rcases Nat.lt_or_ge (d - now).toNat 8388608 with hd | hd
    · rw [distance_of_lt hd] at h; omega
    · rw [distance_of_ge hd] at h; omega
  have hy : (d - (now + 1)).toNat = 8388607 := by bv_omega
  rw [distance_of_lt (by omega), hy]; rfl

/-- Settles O51: the two halves of the range, and the one distance at which a tick wraps. -/
theorem distanceRule : Obligations.DistanceRule := by
  intro d now
  obtain ⟨hlow, hhigh⟩ := distance_range d now
  refine ⟨distance_of_lt, distance_of_ge, hlow, hhigh, ?_⟩
  by_cases h : distance d now = -8388608
  · rw [if_pos h, distance_succ_wraps h]
  · rw [if_neg h, distance_succ d now (by omega)]

/-! ## Counted events (R25) -/

theorem aboutToTick_iff (r : TimebaseRecord) :
    r.aboutToTick = true ↔ r.state = .running ∧ r.divider.toNat ≤ r.partialCount.toNat := by
  simp [TimebaseRecord.aboutToTick]

theorem countEvent_not_running {s : State} {b : Timebase} (h : (s.timebase b).state ≠ .running) :
    s.countEvent b = s := if_neg h

theorem countEvent_below {s : State} {b : Timebase} (hr : (s.timebase b).state = .running)
    (hc : (s.timebase b).partialCount.toNat < (s.timebase b).divider.toNat) :
    s.countEvent b = s.setTimebase b { s.timebase b with partialCount := (s.timebase b).partialCount + 1 } := by
  rw [State.countEvent, if_pos hr, if_neg (fun h => absurd ((aboutToTick_iff _).mp h).2 (Nat.not_le.mpr hc))]

theorem countEvent_ticks {s : State} {b : Timebase} (hr : (s.timebase b).state = .running)
    (hc : (s.timebase b).divider.toNat ≤ (s.timebase b).partialCount.toNat) :
    s.countEvent b =
      s.setTimebase b (({ s.timebase b with partialCount := 0 } : TimebaseRecord).ticked (s.headDeadline b)) := by
  rw [State.countEvent, if_pos hr, if_pos ((aboutToTick_iff _).mpr ⟨hr, hc⟩)]

/-- Beyond the counted event a CLK period only counts for R51. -/
theorem clkPeriod_time (s : State) : s.clkPeriod.time = (s.countEvent .tb0).time := by
  unfold State.clkPeriod; dsimp only; split <;> rfl

theorem clkPeriod_clocks (s : State) : s.clkPeriod.engine = { s.engine with clocks := s.clkPeriod.engine.clocks } := by
  have he := countEvent_engine s .tb0
  unfold State.clkPeriod; dsimp only; split <;> simp only [he]

/-- The level on TKI has changed, and no edge has been counted yet (R25). -/
def State.tkiToggled (s : State) : State := { s with time := { s.time with tkiLevel := !s.time.tkiLevel } }

/-- The coming edge is of the selected kind (R23). -/
theorem selects_toggled_iff (e : TkiEdge) (level : Bool) :
    e.selects (!level) = true ↔ e = if level then .falling else .rising := by
  cases e <;> cases level <;> decide

theorem tkiChange_selected {s : State} (h : s.time.tkiEdge = if s.time.tkiLevel then .falling else .rising) :
    s.tkiChange = s.tkiToggled.countEvent .tb1 :=
  if_pos ((selects_toggled_iff _ _).mpr h)

theorem tkiChange_other {s : State} (h : s.time.tkiEdge = if s.time.tkiLevel then .rising else .falling) :
    s.tkiChange = s.tkiToggled := by
  refine if_neg fun hs => ?_
  have hsel := (selects_toggled_iff _ _).mp hs
  rw [h] at hsel
  cases hl : s.time.tkiLevel <;> simp [hl] at hsel

/-- While TB1 is not RUNNING an edge of either kind only changes the level (R25). -/
theorem tkiChange_not_running {s : State} (h : s.time.tb1.state ≠ .running) : s.tkiChange = s.tkiToggled := by
  unfold State.tkiChange
  dsimp only
  split
  · exact countEvent_not_running (s := s.tkiToggled) (b := .tb1) h
  · rfl

/-! ## Ticks (R26) -/

/-- The next counted event of `b` is a tick; for TB1 the coming edge is of the selected kind (R25). -/
structure State.TickDue (s : State) (b : Timebase) : Prop where
  running : (s.timebase b).state = .running
  count : (s.timebase b).divider.toNat ≤ (s.timebase b).partialCount.toNat
  edge : b = .tb1 → s.time.tkiEdge = if s.time.tkiLevel then .falling else .rising

theorem State.TickDue.tb0 {s : State} (h : s.TickDue .tb0) : s.tick .tb0 = s.clkPeriod :=
  if_pos ((aboutToTick_iff _).mpr ⟨h.running, h.count⟩)

theorem State.TickDue.tb1 {s : State} (h : s.TickDue .tb1) : s.tick .tb1 = s.tkiChange :=
  if_pos (Bool.and_eq_true_iff.mpr
    ⟨(aboutToTick_iff _).mpr ⟨h.running, h.count⟩, (selects_toggled_iff _ _).mpr (h.edge rfl)⟩)

/-- The timebase record after a tick. -/
def State.tickedRecord (s : State) (b : Timebase) : TimebaseRecord :=
  ({ s.timebase b with partialCount := 0 } : TimebaseRecord).ticked (s.headDeadline b)

theorem tickedRecord_partialCount (s : State) (b : Timebase) : (s.tickedRecord b).partialCount = 0 :=
  ticked_partial _ _

theorem State.TickDue.clkPeriod_time {s : State} (h : s.TickDue .tb0) :
    s.clkPeriod.time = { s.time with tb0 := s.tickedRecord .tb0 } := by
  rw [Machine.clkPeriod_time, countEvent_ticks h.running h.count]; rfl

theorem State.TickDue.tkiChange_time {s : State} (h : s.TickDue .tb1) :
    s.tkiChange.time = { s.time with tkiLevel := !s.time.tkiLevel, tb1 := s.tickedRecord .tb1 } := by
  have hc := countEvent_ticks (s := s.tkiToggled) (b := .tb1) h.running h.count
  rw [tkiChange_selected (h.edge rfl), hc]; rfl

/-- A tick writes the record of its own timebase, and for TB1 the level on TKI. -/
theorem State.TickDue.time {s : State} {b : Timebase} (h : s.TickDue b) :
    (s.tick b).timebase b = s.tickedRecord b ∧ (∀ k, k ≠ b → (s.tick b).timebase k = s.timebase k) ∧
      (s.tick b).time.tkiEdge = s.time.tkiEdge ∧
      (s.tick b).time.tkiLevel = if b = .tb1 then !s.time.tkiLevel else s.time.tkiLevel := by
  cases b with
  | tb0 =>
    have ht : (s.tick .tb0).time = { s.time with tb0 := s.tickedRecord .tb0 } := by rw [h.tb0, h.clkPeriod_time]
    refine ⟨by rw [State.timebase, ht], fun k hk => ?_, by rw [ht], by rw [ht]; rfl⟩
    cases k with
    | tb0 => exact absurd rfl hk
    | tb1 => rw [State.timebase, ht]; rfl
  | tb1 =>
    have ht : (s.tick .tb1).time = { s.time with tkiLevel := !s.time.tkiLevel, tb1 := s.tickedRecord .tb1 } := by
      rw [h.tb1, h.tkiChange_time]
    refine ⟨by rw [State.timebase, ht], fun k hk => ?_, by rw [ht], by rw [ht]; rfl⟩
    cases k with
    | tb0 => rw [State.timebase, ht]; rfl
    | tb1 => exact absurd rfl hk

/-- A tick leaves lists, groups and the operation in flight (R52), and every block outside the Timebase Unit. -/
theorem tick_kept (s : State) (b : Timebase) :
    (s.tick b).engine = { s.engine with clocks := (s.tick b).engine.clocks } ∧ (s.tick b).bus = s.bus ∧
      (s.tick b).cmd = s.cmd ∧ (s.tick b).table = s.table ∧ (s.tick b).notices = s.notices ∧
      (s.tick b).trig = s.trig ∧ (s.tick b).out = s.out ∧ (s.tick b).irq = s.irq := by
  cases b with
  | tb0 =>
    unfold State.tick; dsimp only; split
    · exact ⟨clkPeriod_clocks s, by simp⟩
    · simp
  | tb1 => unfold State.tick; dsimp only; split <;> simp

theorem headDeadline_nil {s : State} {b : Timebase} (h : s.list b = []) : s.headDeadline b = none := by
  rw [State.headDeadline, h]; rfl

theorem headDeadline_cons {s : State} {b : Timebase} {e : EntryIdx} {rest : List EntryIdx} (h : s.list b = e :: rest) :
    s.headDeadline b = some (s.entry e).deadline := by
  rw [State.headDeadline, h]; rfl

/-- Short of the threshold on both sides of the tick, NOW advances and the state stays. -/
theorem ticked_advances {r : TimebaseRecord} {d : Tick} (h : -4194302 ≤ distance d r.now) :
    r.ticked (some d) = { r with now := r.now + 1 } := by
  have hs := distance_succ d r.now (by omega)
  have h1 : ¬ distance d r.now ≤ Config.faultThreshold := by unfold Config.faultThreshold; omega
  have h2 : ¬ distance d (r.now + 1) = Config.faultThreshold := by unfold Config.faultThreshold; omega
  rw [TimebaseRecord.ticked, if_neg h1, if_neg h2]

/-- The tick that brings the head to the threshold advances NOW and faults the timebase. -/
theorem ticked_reaches {r : TimebaseRecord} {d : Tick} (h : distance d r.now = -4194303) :
    r.ticked (some d) = { r with now := r.now + 1, state := .faulted } ∧ distance d (r.now + 1) = -4194304 := by
  have hs : distance d (r.now + 1) = -4194304 := by rw [distance_succ d r.now (by omega), h]; rfl
  have h1 : ¬ distance d r.now ≤ Config.faultThreshold := by unfold Config.faultThreshold; omega
  have h2 : distance d (r.now + 1) = Config.faultThreshold := hs
  rw [TimebaseRecord.ticked, if_neg h1, if_pos h2]
  exact ⟨rfl, hs⟩

/-- With the head at the threshold already, the timebase faults and NOW stays. -/
theorem ticked_stays {r : TimebaseRecord} {d : Tick} (h : distance d r.now = -4194304) :
    r.ticked (some d) = { r with state := .faulted } := by
  have h1 : distance d r.now ≤ Config.faultThreshold := Int.le_of_eq h
  rw [TimebaseRecord.ticked, if_pos h1]

/-! ## The rows of the pins (R25, R26) -/

theorem exec_clkPeriod_settled {s : State} (h : s.settled = true) : exec .clkPeriod s = .next s.clkPeriod := by
  simp only [exec, execClkPeriod, settle_of_settled h]

theorem exec_tkiEdge_settled {s : State} (h : s.settled = true) : exec .tkiEdge s = .next s.tkiChange := by
  simp only [exec, execTkiEdge, settle_of_settled h]

theorem exec_tick_settled {s : State} (h : s.settled = true) (b : Timebase) :
    exec (.tick b) s = .next (s.tick b) := by
  simp only [exec, execTick, settle_of_settled h]

/-- Settles O22: the due tick writes `tickedRecord`, which the distance of the head decides. -/
theorem tickTestsHead : Obligations.TickTestsHead := by
  intro b s hs hr hc he
  have hdue : s.TickDue b := ⟨hr, hc, he⟩
  obtain ⟨hown, hother, hedge, hlevel⟩ := hdue.time
  have hhead : ∀ e rest, s.list b = e :: rest → (s.tick b).timebase b =
      ({ s.timebase b with partialCount := 0 } : TimebaseRecord).ticked (some (s.entry e).deadline) :=
    fun e rest hl => by rw [hown, State.tickedRecord, headDeadline_cons hl]
  refine ⟨s.tick b, exec_tick_settled hs b, fun hl => ?_, fun e rest hl hd => ?_, fun e rest hl hd => ?_,
    fun e rest hl hd => ?_, hother, hedge, ?_, tick_kept s b⟩
  · rw [hown, State.tickedRecord, headDeadline_nil hl]; rfl
  · rw [hhead e rest hl]; exact ticked_advances hd
  · have hreach := ticked_reaches (r := { s.timebase b with partialCount := 0 }) hd
    have htick := (hhead e rest hl).trans hreach.1
    exact ⟨htick, by rw [State.now, htick]; exact hreach.2⟩
  · rw [hhead e rest hl]; exact ticked_stays hd
  · rw [hlevel]; cases b <;> rfl

/-- Settles O21: each event is not counted, counted below the divider, or the tick itself. -/
theorem eventsAreCounted : Obligations.EventsAreCounted := by
  refine ⟨fun s hs => ⟨s.clkPeriod, exec_clkPeriod_settled hs, fun hr => ?_, fun hr hc => ?_, fun hr hc => ?_,
    clkPeriod_bus s, clkPeriod_cmd s, clkPeriod_table s, clkPeriod_notices s, clkPeriod_trig s, clkPeriod_out s,
    clkPeriod_irq s, clkPeriod_clocks s⟩,
    fun s hs => ⟨s.tkiChange, exec_tkiEdge_settled hs, fun hr => ?_, fun hr he hc => ?_, fun hr he hc => ?_,
    tkiChange_bus s, tkiChange_cmd s, tkiChange_table s, tkiChange_notices s, tkiChange_trig s, tkiChange_out s,
    tkiChange_irq s, tkiChange_engine s⟩⟩
  · rw [clkPeriod_time, countEvent_not_running (b := .tb0) hr]
  · rw [clkPeriod_time, countEvent_below (b := .tb0) hr hc]; rfl
  · have hdue : s.TickDue .tb0 := ⟨hr, hc, nofun⟩
    rw [exec_clkPeriod_settled hs, exec_tick_settled hs, hdue.tb0, hdue.clkPeriod_time]
    exact ⟨rfl, rfl, tickedRecord_partialCount s .tb0⟩
  · rcases hr with hr | he
    · rw [tkiChange_not_running hr]; rfl
    · rw [tkiChange_other he]; rfl
  · have hbelow := countEvent_below (s := s.tkiToggled) (b := .tb1) hr hc
    rw [tkiChange_selected he, hbelow]; rfl
  · have hdue : s.TickDue .tb1 := ⟨hr, hc, fun _ => he⟩
    rw [exec_tkiEdge_settled hs, exec_tick_settled hs, hdue.tb1, hdue.tkiChange_time]
    exact ⟨rfl, rfl, tickedRecord_partialCount s .tb1⟩

/-! ## Commands that their owners take whole (R35, R36, R38, R105, R163) -/

theorem exec_start_due {s : State} {b : Timebase} (hd : s.ownerDue = some (.start b)) :
    exec .start s = .next (answerOwned (ownStart b s)) :=
  congrArg _ (ownerStep_eq hd rfl rfl)

theorem exec_stop_due {s : State} {b : Timebase} (hd : s.ownerDue = some (.stop b)) :
    exec .stop s = .next (answerOwned (ownStop b s)) :=
  congrArg _ (ownerStep_eq hd rfl rfl)

theorem exec_clearFault_due {s : State} {b : Timebase} (hd : s.ownerDue = some (.clearFault b)) :
    exec .clearFault s = .next (answerOwned (ownClearFault b s)) :=
  congrArg _ (ownerStep_eq hd rfl rfl)

theorem exec_setDivider_due {s : State} {b : Timebase} {d : BitVec 16} {x : Option TkiEdge}
    (hd : s.ownerDue = some (.setDivider b d x)) :
    exec .setDivider s = .next (answerOwned (ownSetDivider b d x s)) :=
  congrArg _ (ownerStep_eq hd rfl rfl)

theorem exec_queueConfig_due {s : State} {q : QueueId} {w : Byte} (hd : s.ownerDue = some (.queueConfig q w)) :
    exec .queueConfig s = .next (answerOwned (ownQueueConfig q w s)) :=
  congrArg _ (ownerStep_eq hd rfl rfl)

theorem exec_bindTrigger_due {s : State} {l : TrigIdx} {x : BindingEdge} {a : TriggerAction}
    (hd : s.ownerDue = some (.bindTrigger l x a)) :
    exec .bindTrigger s = .next (answerOwned (ownBindTrigger l x a s)) :=
  congrArg _ (ownerStep_eq hd rfl rfl)

/-- Settles O28: each command in each of the three states of its timebase. -/
theorem timebaseStates : Obligations.TimebaseStates := by
  refine ⟨fun s b hd => ⟨fun hs => ?_, fun hs => ?_, fun hs => ?_⟩,
    fun s b hd => ⟨fun hs => ?_, fun hs => ?_, fun hs => ?_⟩, fun s b hd => ⟨fun hs => ?_, fun hs => ?_⟩⟩
  · rw [exec_start_due hd, ownStart, hs]; rfl
  · rw [exec_start_due hd, ownStart, hs]; rfl
  · rw [exec_start_due hd, ownStart, hs]; rfl
  · rw [exec_stop_due hd, ownStop, hs]; rfl
  · rw [exec_stop_due hd, ownStop, hs]; rfl
  · rw [exec_stop_due hd, ownStop, hs]; rfl
  · rw [exec_clearFault_due hd, ownClearFault, hs]; rfl
  · rw [exec_clearFault_due hd, ownClearFault]
    cases hst : (s.timebase b).state with
    | stopped => rfl
    | running => rfl
    | faulted => exact absurd hst hs

/-- SET DIVIDER is answered OK and writes the divider, the partial count and, when one is given, the TKI edge (R35). -/
theorem ownSetDivider_spec (b : Timebase) (d : BitVec 16) (x : Option TkiEdge) (s : State) :
    (ownSetDivider b d x s).2 = (.ok, 0) ∧
      (ownSetDivider b d x s).1.timebase b = { s.timebase b with divider := d, partialCount := 0 } ∧
      (∀ k, k ≠ b → (ownSetDivider b d x s).1.timebase k = s.timebase k) ∧
      (ownSetDivider b d x s).1.time.tkiEdge = x.getD s.time.tkiEdge ∧
      (ownSetDivider b d x s).1.time.tkiLevel = s.time.tkiLevel := by
  have hb : (ownSetDivider b d x s).1.timebase =
      (s.setTimebase b { s.timebase b with divider := d, partialCount := 0 }).timebase := by
    cases x <;> rfl
  refine ⟨?_, ?_, fun k hk => ?_, ?_, ?_⟩
  · cases x <;> rfl
  · rw [hb, timebase_setTimebase_same]
  · rw [hb, timebase_setTimebase, if_neg (Ne.symm hk)]
  · cases b <;> cases x <;> rfl
  · cases b <;> cases x <;> rfl

/-- Settles O27: each owner's write, answered with OK and 0. -/
theorem settingsTaken : Obligations.SettingsTaken := by
  refine ⟨fun s b d x hd => ?_, fun s q w hd => ?_, fun s l x a hd => ?_⟩
  · obtain ⟨hres, hown, hother, hedge, hlevel⟩ := ownSetDivider_spec b d x s
    refine ⟨(ownSetDivider b d x s).1, ?_, hown, hother, hedge, hlevel, ownSetDivider_frame b d x s⟩
    rw [exec_setDivider_due hd, answerOwned, hres]
  · rw [exec_queueConfig_due hd]; rfl
  · rw [exec_bindTrigger_due hd]; rfl

/-! ## CLEAR NOW (R37) -/

theorem clearNowPlan_taken {s : State} {b : Timebase} (h : (s.timebase b).state = .stopped ∧ s.list b = []) :
    s.clearNowPlan b = { Plan.refused [] .ok 0 with acts := [.clearNow b] } := if_pos h

theorem clearNowPlan_refused {s : State} {b : Timebase} (h : ¬((s.timebase b).state = .stopped ∧ s.list b = [])) :
    s.clearNowPlan b = .refused [] .state 0 := if_neg h

/-- CLEAR NOW claims no entry and opens no walk, taken or refused. -/
theorem clearNowPlan_claims_walk (s : State) (b : Timebase) :
    (s.clearNowPlan b).claims = [] ∧ (s.clearNowPlan b).walk = none := by
  unfold State.clearNowPlan; split <;> exact ⟨rfl, rfl⟩

theorem exec_clearNow_grants {s : State} {b : Timebase} (hg : s.Grantable .command)
    (hc : s.executing .grantWait = some (.clearNow b)) :
    exec .clearNow s = .next (s.commandStart (s.clearNowPlan b)) :=
  congrArg _ (cmd_start hg hc rfl rfl (clearNowPlan_claims_walk s b).2).1

/-- The final step of CLEAR NOW writes NOW of `b` and nothing else of the Timebase Unit. -/
theorem oneWrite_clearNow_time (t : State) (op : Operation) (b : Timebase) :
    (t.oneWrite op (.clearNow b)).timebase b = { t.timebase b with now := 0 } ∧
      (∀ k, k ≠ b → (t.oneWrite op (.clearNow b)).timebase k = t.timebase k) ∧
      (t.oneWrite op (.clearNow b)).time.tkiEdge = t.time.tkiEdge ∧
      (t.oneWrite op (.clearNow b)).time.tkiLevel = t.time.tkiLevel := by
  have ht : (t.oneWrite op (.clearNow b)).time = (t.zeroNow b).time := setPlan_time _ _ _
  have hk := timebase_of_time ht
  refine ⟨?_, fun k hne => ?_, ?_, ?_⟩
  · rw [hk, State.zeroNow, timebase_setTimebase_same]
  · rw [hk, State.zeroNow, timebase_setTimebase, if_neg (Ne.symm hne)]
  · rw [ht]; cases b <;> rfl
  · rw [ht]; cases b <;> rfl

/-- Outside the Timebase Unit the final step of CLEAR NOW only ends its plan. -/
theorem oneWrite_clearNow_kept (t : State) (op : Operation) (b : Timebase) :
    (t.oneWrite op (.clearNow b)).table = t.table ∧ (∀ k, (t.oneWrite op (.clearNow b)).list k = t.list k) ∧
      (t.oneWrite op (.clearNow b)).engine.groups = t.engine.groups ∧
      (t.oneWrite op (.clearNow b)).notices = t.notices ∧ (t.oneWrite op (.clearNow b)).cmd = t.cmd ∧
      (t.oneWrite op (.clearNow b)).trig = t.trig ∧ (t.oneWrite op (.clearNow b)).out = t.out ∧
      (t.oneWrite op (.clearNow b)).irq = t.irq ∧ (t.oneWrite op (.clearNow b)).bus = t.bus := by
  refine ⟨?_, fun k => ?_, ?_, ?_, ?_, ?_, ?_, ?_, ?_⟩
  case refine_2 => exact (setActivity_list _ _ k).trans (list_of_engine (zeroNow_engine t b) k)
  all_goals simp [State.oneWrite, State.setPlan, State.act]

theorem commandStart_list (s : State) (p : Plan) (k : Timebase) : (s.commandStart p).list k = s.list k := by
  cases k <;> rfl

/-- Settles O41: the taken CLEAR NOW is a plan with one write, the refused one a plan without. -/
theorem clearNowTaken : Obligations.ClearNowTaken := by
  intro s b hg hc
  have hgrant := commandStart_granted s (s.clearNowPlan b)
  rw [(clearNowPlan_claims_walk s b).1] at hgrant
  refine ⟨_, exec_clearNow_grants hg hc, hgrant, fun h => ?_, fun h => ?_⟩
  · have hp := clearNowPlan_taken h
    rw [hp]
    obtain ⟨_, hfinal, hdone⟩ := cmd_one (k := fun _ => true) hg hc (congrArg some hp) rfl ⟨rfl, rfl, rfl, rfl, rfl⟩
      (plain_clearNow b)
    obtain ⟨hnow, hother, hedge, hlevel⟩ := oneWrite_clearNow_time _ _ b
    obtain ⟨htable, hlist, hgroups, hnotices, hcmd, htrig, hout, hirq, hbus⟩ := oneWrite_clearNow_kept _ _ b
    exact ⟨_, hfinal, hnow, hother, hedge, hlevel, htable, fun k => (hlist k).trans (commandStart_list s _ k), hgroups,
      hnotices, hcmd, htrig, hout, hirq, hbus, hdone⟩
  · have hp := clearNowPlan_refused h
    rw [hp]
    exact (cmd_none (k := fun _ => true) hg hc (congrArg some hp) rfl ⟨rfl, rfl, rfl, rfl, rfl⟩).2

end Sys2Proof.Machine
end

section
/-!
Pending lists and grants: the place of an insertion and the order it keeps, the head that a service takes, and the
rotation of the grants (R43, R45, R49, R50, R66).
-/
namespace Sys2Proof.Machine

/-! ## Insertion by distance (R43, R45) -/

/-- What follows the leading entries at distance `d` or less lies behind `d`, when the list is in order. -/
theorem lt_of_mem_dropWhile {dist : EntryIdx → Int} {d : Int} {l : List EntryIdx} {a : EntryIdx}
    (hl : l.Pairwise (fun a b => dist a ≤ dist b)) (ha : a ∈ l.dropWhile (fun a => decide (dist a ≤ d))) :
    d < dist a := by
  induction l with
  | nil => cases ha
  | cons b l ih =>
    obtain ⟨hb, hl⟩ := List.pairwise_cons.mp hl
    by_cases hbd : dist b ≤ d
    · rw [List.dropWhile_cons, if_pos (decide_eq_true hbd)] at ha
      exact ih hl ha
    · rw [List.dropWhile_cons, if_neg (by simpa using hbd)] at ha
      rcases List.mem_cons.mp ha with rfl | ha
      · exact Int.not_le.mp hbd
      · exact Int.lt_of_lt_of_le (Int.not_le.mp hbd) (hb a ha)

theorem insertByDistance_pairwise {dist : EntryIdx → Int} (e : EntryIdx) {l : List EntryIdx}
    (hl : l.Pairwise (fun a b => dist a ≤ dist b)) :
    (insertByDistance dist e (dist e) l).Pairwise (fun a b => dist a ≤ dist b) := by
  have hbefore : ∀ a ∈ l.takeWhile (fun a => decide (dist a ≤ dist e)), dist a ≤ dist e :=
    fun a ha => of_decide_eq_true (List.all_eq_true.mp List.all_takeWhile a ha)
  have hbehind : ∀ a ∈ l.dropWhile (fun a => decide (dist a ≤ dist e)), dist e ≤ dist a :=
    fun a ha => Int.le_of_lt (lt_of_mem_dropWhile hl ha)
  rw [insertByDistance_takeWhile, List.pairwise_append, List.pairwise_cons]
  refine ⟨hl.sublist (List.takeWhile_sublist _), ⟨hbehind, hl.sublist (List.dropWhile_sublist _)⟩, fun a ha b hb => ?_⟩
  rcases List.mem_cons.mp hb with rfl | hb
  · exact hbefore a ha
  · exact Int.le_trans (hbefore a ha) (hbehind b hb)

/-- Settles O52: the two parts of the list around the place of the insertion. -/
theorem insertionKeepsOrder : Obligations.InsertionKeepsOrder :=
  fun dist e l => ⟨insertByDistance_takeWhile dist e l,
    fun hl => ⟨insertByDistance_pairwise e hl, fun _ ha => lt_of_mem_dropWhile hl ha⟩⟩

/-! ## The head that a service takes (R50) -/

/-- Settles O42: the due heads of the two lists decide the choice, case by case. -/
theorem serviceChoosesHead : Obligations.ServiceChoosesHead := by
  refine ⟨fun s b e hg hc => congrArg _ (expiryGrant_of hg hc), fun s e h0 h1 => ?_, fun s e h1 h0 => ?_,
    fun s a b h0 h1 => ?_, fun s h0 h1 => ?_⟩
  · rw [State.chooseHead, (dueHead_iff s .tb0 e).mpr h0, (dueHead_none s .tb1).mpr h1]
  · rw [State.chooseHead, (dueHead_none s .tb0).mpr h0, (dueHead_iff s .tb1 e).mpr h1]
  · rw [State.chooseHead, (dueHead_iff s .tb0 a).mpr h0, (dueHead_iff s .tb1 b).mpr h1]; rfl
  · rw [State.chooseHead, (dueHead_none s .tb0).mpr h0, (dueHead_none s .tb1).mpr h1]

/-! ## The rotation of the grants (R49) -/

/-- What a state with no claim and nothing due but a decision still holds. -/
theorem quiet_of_unclaimed {s : State} (hcl : s.claims = []) (hr : ∀ e, s.reportDue e = false)
    (hst : ∀ q, s.standingDue q = none) (hn : s.nopDue = false) (ho : s.ownerDue = none) : s.Quiet where
  reports := by
    refine List.eq_nil_iff_forall_not_mem.mpr fun e he => ?_
    have := hr e
    simp [State.reportDue, State.claimed, hcl, he] at this
  standing q := standing_none_of_idle (hst q) hcl
  nop := hn
  owner c hc hf := by simp [State.ownerDue, hc, hf, mustWait_of_unclaimed hcl] at ho

theorem decideGrant_activity_ne (s : State) : s.decideGrant.engine.activity ≠ .deciding := by
  unfold State.decideGrant
  split <;> nofun

theorem decideGrant_waits (s : State) (r : Requester) : s.decideGrant.waits r = s.waits r := by
  cases r <;> rfl

/-- An engine that the decision leaves IDLE has no requester waiting, so nothing is granted at once. -/
theorem decideGrant_grantIdle (s : State) : s.decideGrant.grantIdle = s.decideGrant := by
  cases hw : s.firstWaiting s.engine.rotation with
  | some r =>
    have ha : s.decideGrant.engine.activity = .chosen r := by simp [State.decideGrant, hw]
    simp only [State.grantIdle, ha]
  | none =>
    have ha : s.decideGrant.engine.activity = .idle := by simp [State.decideGrant, hw]
    have hnone : s.decideGrant.firstWaiting .expiry = none := by
      simp [State.firstWaiting, decideGrant_waits, firstWaiting_none hw]
    simp only [State.grantIdle, ha, hnone]

/-- The decision is the only step that is due, and none is due after it. -/
theorem beforeGrant_of_deciding {s : State} (ha : s.engine.activity = .deciding) (hr : ∀ e, s.reportDue e = false)
    (hst : ∀ q, s.standingDue q = none) (hn : s.nopDue = false) (ho : s.ownerDue = none) :
    s.beforeGrant = s.decideGrant := by
  have hq : s.Quiet := quiet_of_unclaimed (by simp [State.claims, ha]) hr hst hn ho
  have hdue : s.dueStep = some s.decideGrant := by
    simp [State.dueStep, hq.reports, hst, hn, ho, ha]
  have hdone : s.decideGrant.dueStep = none :=
    State.Quiet.dueStep (hq.of (t := s.decideGrant) rfl rfl) (decideGrant_activity_ne s)
  rw [State.beforeGrant, State.dueFuel, State.takeDue, hdue]
  exact takeDue_of_none hdone _

theorem settle_eq_grantIdle {s : State} (hd : s.dueStep = none) : s.settle = s.grantIdle := by
  rw [State.settle, beforeGrant_of_none hd]

/-- Settles O50: the three pointers, the decision as a due step, and the three requesters at an IDLE engine. -/
theorem rotationDecides : Obligations.RotationDecides := by
  refine ⟨fun s r1 r2 r3 hr hm => ?_, fun s ha h1 h2 h3 h4 => ?_, fun s hd ha he => ?_, fun s hd ha he hc => ?_,
    fun s hd ha he hc ht => ?_⟩
  · obtain ⟨rfl, rfl⟩ : r2 = r1.next ∧ r3 = r1.next.next := by
      cases r1 <;> simpa [Requester.next] using hm
    rw [State.decideGrant, hr, State.firstWaiting]
    cases s.waits r1 with
    | true => rfl
    | false =>
      cases s.waits r1.next with
      | true => rfl
      | false => cases s.waits r1.next.next <;> rfl
  · have hb := beforeGrant_of_deciding ha h1 h2 h3 h4
    exact ⟨hb, by rw [State.settle, hb, decideGrant_grantIdle]⟩
  · simp [settle_eq_grantIdle hd, State.grantIdle, ha, State.firstWaiting, he]
  · simp [settle_eq_grantIdle hd, State.grantIdle, ha, State.firstWaiting, Requester.next, he, hc]
  · simp [settle_eq_grantIdle hd, State.grantIdle, ha, State.firstWaiting, Requester.next, he, hc, ht]

end Sys2Proof.Machine
end

section
/-!
The commands of the List Engine on one entry, whole, from grant to completion: ARM, ARM AT, CANCEL and FREE, and the
triggered ARM and CANCEL (R17, R45, R55–R60, R101, R106, R119, R160, R161).
-/
namespace Sys2Proof.Machine

/-! ## Plans on one entry (R55–R60) -/

/-- A plan on `e`: the purge it requests, its writes, and its outcome. -/
structure Plan.Does (p : Plan) (e : EntryIdx) (removal : Option EntryIdx) (writes : List Act) (st : Status)
    (v : Nat) : Prop where
  claims : p.claims = [e]
  lineOp : p.lineOp = none
  post : p.post = none
  walk : p.walk = none
  purge : p.purge = removal
  acts : p.acts = writes
  status : p.status = st
  value : p.value = v

theorem Plan.Does.one {p : Plan} {e : EntryIdx} {writes : List Act} {st : Status} {v : Nat}
    (h : p.Does e none writes st v) : Plan.One p writes := ⟨h.lineOp, h.post, h.walk, h.purge, h.acts⟩

theorem startPlan_links {s : State} {e : EntryIdx} (h : s.startOutcome e = .link) (d : Tick) :
    (s.startPlan e d).Does e none [.link e d (s.entry e).reload] .ok e.val := by
  rw [State.startPlan, h]; constructor <;> rfl

theorem startPlan_holds {s : State} {e : EntryIdx} (h : s.startOutcome e = .hold) (d : Tick) :
    (s.startPlan e d).Does e none [.hold e (d - s.nowOf e) (s.entry e).reload] .ok e.val := by
  rw [State.startPlan, h]; constructor <;> rfl

theorem startPlan_refuses {s : State} {e : EntryIdx} {st : Status} (h : s.startOutcome e = .refuse st) (d : Tick) :
    (s.startPlan e d).Does e none [] st e.val := by
  rw [State.startPlan, h]; constructor <;> rfl

/-- A start at NOW and a delay holds for the delay (R55). -/
theorem armPlan_holds {s : State} {e : EntryIdx} (h : s.startOutcome e = .hold) :
    (s.armPlan e).Does e none [.hold e (s.entry e).startDelay (s.entry e).reload] .ok e.val := by
  have hd : s.nowOf e + (s.entry e).startDelay - s.nowOf e = (s.entry e).startDelay := by bv_omega
  have := startPlan_holds h (s.nowOf e + (s.entry e).startDelay)
  rwa [hd] at this

theorem cancelPlan_running {s : State} {e : EntryIdx}
    (h : (s.entry e).state = .armed ∨ (s.entry e).state = .held) (purge : Bool) :
    (s.cancelPlan e purge).Does e (if purge then some e else none) [.idle e] .ok 0 := by
  rcases h with h | h <;> (rw [State.cancelPlan, h]; constructor <;> rfl)

theorem cancelPlan_idle {s : State} {e : EntryIdx} (h : (s.entry e).state = .idle) (purge : Bool) :
    (s.cancelPlan e purge).Does e (if purge then some e else none) [] .noEffect 0 := by
  rw [State.cancelPlan, h]; constructor <;> rfl

theorem cancelPlan_elsewhere {s : State} {e : EntryIdx}
    (h : (s.entry e).state = .free ∨ (s.entry e).state = .spent) (purge : Bool) :
    (s.cancelPlan e purge).Does e none [] .state 0 := by
  rcases h with h | h <;> (rw [State.cancelPlan, h]; constructor <;> rfl)

theorem freePlan_releases {s : State} {e : EntryIdx} (h : (s.entry e).state ≠ .free) :
    (s.freePlan e).Does e (some e) [.release e] .ok 0 := by
  rw [State.freePlan, if_neg h]; constructor <;> rfl

theorem freePlan_refuses {s : State} {e : EntryIdx} (h : (s.entry e).state = .free) :
    (s.freePlan e).Does e none [] .state 0 := by
  rw [State.freePlan, if_pos h]; constructor <;> rfl

/-! ## Grants and purges leave table, lists and groups -/

theorem commandStart_sameTable (s : State) (p : Plan) : s.SameTable (s.commandStart p) := ⟨rfl, commandStart_list s p⟩

theorem triggerStart_sameTable (s : State) (l : TrigIdx) (c : Capture) (p : Plan) :
    s.SameTable (s.triggerStart l c p) := ⟨rfl, fun b => by cases b <;> rfl⟩

theorem purge_sameTable {s : State} {e : EntryIdx} (h : s.claimed e = true) : s.SameTable (s.purge e) :=
  .of_engine (purge_claimed h).1 (by simp)

theorem act_plain (a : Act) : a.Plain := fun t op => ⟨act_notices t op a, act_cmd t op a⟩

/-! ## A commanded operation on one entry (R17, R47, R139) -/

/-- A commanded operation on `e`: granted, which makes `s1`, and written by its final step, which makes `s2` and leaves
the claims `left`. -/
structure State.CommandRun (s s1 s2 : State) (e : EntryIdx) (left : List EntryIdx) : Prop where
  granted : s.CommandGranted s1 [e]
  final : exec .finalStep s1 = .next s2
  outside : s.OutsideKept s2
  cmd : s2.cmd = s1.cmd
  trig : s2.trig = s.trig
  claims : s2.claims = left

section
variable {s : State} {i : Instr} {c : Command} {k : Command → Bool} {p : Plan} {e : EntryIdx} {a : Act} {st : Status}
  {v : Nat} (hi : exec i s = .next (s.commandGrant k)) (hg : s.Grantable .command)
  (hc : s.executing .grantWait = some c) (hk : k c = true) (hp : s.commandPlan c = some p)
include hi hg hc hk hp

/-- A command that writes nothing. -/
theorem command_refuses (h : p.Does e none [] st v) :
    ∃ s1 : State, exec i s = .next s1 ∧ s.CommandGranted s1 [e] ∧
      exec .operationCompletion s1 = .next ((s1.completedTo .trigger).answer st (BitVec.ofNat 8 v)) := by
  obtain ⟨hgrant, hdone⟩ := cmd_none hg hc hp hk h.one
  rw [h.status, h.value] at hdone
  exact ⟨_, hi.trans (congrArg _ hgrant), h.claims ▸ commandStart_granted s p, hdone⟩

/-- A command with one write of its entry. -/
theorem command_writes (h : p.Does e none [a] st v) (ha : a.entry = some e) {s2 : State}
    (h2 : s2 = (s.commandStart p).oneWrite (s.operationOf .command p) a) :
    exec i s = .next (s.commandStart p) ∧ s.CommandRun (s.commandStart p) s2 e [] ∧
      exec .operationCompletion s2 = .next ((s2.completedTo .trigger).answer st (BitVec.ofNat 8 v)) := by
  subst h2
  obtain ⟨hgrant, hfinal, hdone⟩ := cmd_one hg hc hp hk h.one (act_plain a)
  have hout := act_outside (s.commandStart p) (s.operationOf .command p) ha
  rw [h.status, h.value] at hdone
  refine ⟨hi.trans (congrArg _ hgrant), ⟨h.claims ▸ commandStart_granted s p, hfinal,
    ⟨hout.time, hout.out, hout.irq, hout.bus⟩, oneWrite_cmd (act_plain a), ?_, ?_⟩, hdone⟩
  · exact act_trig (s.commandStart p) (s.operationOf .command p) a
  · exact claimsAfter_one h.claims h.acts ha

/-- A start that writes its entry, whatever `R` the write makes true. -/
theorem command_starts {R : State → Prop} (h : p.Does e none [a] st v) (ha : a.entry = some e)
    (hR : R ((s.commandStart p).oneWrite (s.operationOf .command p) a)) :
    ∃ s1 s2 : State, exec i s = .next s1 ∧ s.CommandGranted s1 [e] ∧ exec .finalStep s1 = .next s2 ∧ R s2 ∧
      s.OutsideKept s2 ∧ s2.cmd = s1.cmd ∧ s2.trig = s.trig ∧ s2.claims = [] ∧
      exec .operationCompletion s2 = .next ((s2.completedTo .trigger).answer st (BitVec.ofNat 8 v)) := by
  obtain ⟨hrow, hrun, hdone⟩ := command_writes hi hg hc hk hp h ha rfl
  exact ⟨_, _, hrow, hrun.granted, hrun.final, hR, hrun.outside, hrun.cmd, hrun.trig, hrun.claims, hdone⟩

end

/-! ## A triggered operation on one entry (R17, R47, R158) -/

/-- The outcomes that set MISS on a trigger line (R160, R161). -/
def Status.missed (st : Status) : Bool :=
  match st with
  | .state | .faulted | .limit => true
  | .ok | .noEffect | .badCode | .badIndex | .range | .exhausted => false

/-- As `CommandRun`, for the record `c` of line `l`. -/
structure State.TriggerRun (s s1 s2 : State) (l : TrigIdx) (c : Capture) (e : EntryIdx) : Prop where
  granted : s.TriggerGranted s1 l c [e]
  final : exec .finalStep s1 = .next s2
  outside : s.OutsideKept s2
  cmd : s2.cmd = s.cmd
  trig : s2.trig = s1.trig
  claims : s2.claims = []

section
variable {s : State} {i : Instr} {l : TrigIdx} {c : Capture} {k : TriggerAction → Bool} {p : Plan} {e : EntryIdx}
  {a : Act} {st : Status} {v : Nat} (hi : exec i s = .next (s.triggerGrant k)) (hg : s.Grantable .trigger)
  (hw : s.waitingLine = some (l, c)) (hk : k c.action = true) (hp : s.triggerPlan c = p)
include hi hg hw hk hp

/-- A triggered operation that writes nothing. -/
theorem trigger_refuses (h : p.Does e none [] st v) :
    ∃ s1 : State, exec i s = .next s1 ∧ s.TriggerGranted s1 l c [e] ∧
      exec .operationCompletion s1 = .next ((s1.completedTo .expiry).setLine l { s.line l with
        record := .none
        miss := (s.line l).miss || st.missed }) := by
  obtain ⟨hgrant, hdone⟩ := trig_none hg hw hk hp h.one
  rw [h.status] at hdone
  refine ⟨_, hi.trans (congrArg _ hgrant), h.claims ▸ triggerStart_granted s l c p, ?_⟩
  cases st <;> exact hdone

/-- A triggered operation with one write of its entry. -/
theorem trigger_writes (h : p.Does e none [a] .ok v) (ha : a.entry = some e) {s2 : State}
    (h2 : s2 = (s.triggerStart l c p).oneWrite (s.operationOf (.trigger l) p) a) :
    exec i s = .next (s.triggerStart l c p) ∧ s.TriggerRun (s.triggerStart l c p) s2 l c e ∧
      exec .operationCompletion s2 =
        .next ((s2.completedTo .expiry).setLine l { s.line l with record := .none }) := by
  subst h2
  obtain ⟨hgrant, hfinal, hdone⟩ := trig_one hg hw hk hp h.one (act_plain a) (act_trig · · a)
  have hout := act_outside (s.triggerStart l c p) (s.operationOf (.trigger l) p) ha
  rw [h.status] at hdone
  simp only [Bool.or_false] at hdone
  refine ⟨hi.trans (congrArg _ hgrant), ⟨h.claims ▸ triggerStart_granted s l c p, hfinal,
    ⟨hout.time, hout.out, hout.irq, hout.bus⟩, oneWrite_cmd (act_plain a), ?_, ?_⟩, hdone⟩
  · exact act_trig (s.triggerStart l c p) (s.operationOf (.trigger l) p) a
  · exact claimsAfter_one h.claims h.acts ha

/-- A triggered start that writes its entry, whatever `R` the write makes true. -/
theorem trigger_starts {R : State → Prop} (h : p.Does e none [a] .ok v) (ha : a.entry = some e)
    (hR : R ((s.triggerStart l c p).oneWrite (s.operationOf (.trigger l) p) a)) :
    ∃ s1 s2 : State, exec i s = .next s1 ∧ s.TriggerGranted s1 l c [e] ∧ exec .finalStep s1 = .next s2 ∧ R s2 ∧
      s.OutsideKept s2 ∧ s2.cmd = s.cmd ∧ s2.trig = s1.trig ∧ s2.claims = [] ∧
      exec .operationCompletion s2 =
        .next ((s2.completedTo .expiry).setLine l { s.line l with record := .none }) := by
  obtain ⟨hrow, hrun, hdone⟩ := trigger_writes hi hg hw hk hp h ha rfl
  exact ⟨_, _, hrow, hrun.granted, hrun.final, hR, hrun.outside, hrun.cmd, hrun.trig, hrun.claims, hdone⟩

end

/-! ## Starts (R55, R56, R60, R160) -/

theorem commandStart_linkedAt (s : State) (p : Plan) (e : EntryIdx) (d : Tick) :
    s.LinkedAt ((s.commandStart p).oneWrite (s.operationOf .command p) (.link e d (s.entry e).reload)) e d :=
  linkedAt_act rfl rfl rfl (commandStart_list s p) rfl rfl

theorem triggerStart_linkedAt (s : State) (l : TrigIdx) (c : Capture) (p : Plan) (e : EntryIdx) (d : Tick) :
    s.LinkedAt ((s.triggerStart l c p).oneWrite (s.operationOf (.trigger l) p) (.link e d (s.entry e).reload)) e d :=
  linkedAt_act rfl rfl rfl (triggerStart_sameTable s l c p).list rfl rfl

theorem commandStart_heldAt {s : State} {e : EntryIdx} (h : s.startOutcome e = .hold) (p : Plan) (m : Tick) :
    s.HeldAt ((s.commandStart p).oneWrite (s.operationOf .command p) (.hold e m (s.entry e).reload)) e m :=
  heldAt_act (startOutcome_hold h).symm rfl (commandStart_list s p) rfl fun _ => rfl

theorem triggerStart_heldAt {s : State} {e : EntryIdx} (h : s.startOutcome e = .hold) (l : TrigIdx) (c : Capture)
    (p : Plan) (m : Tick) :
    s.HeldAt ((s.triggerStart l c p).oneWrite (s.operationOf (.trigger l) p) (.hold e m (s.entry e).reload)) e m :=
  heldAt_act (startOutcome_hold h).symm rfl (triggerStart_sameTable s l c p).list rfl fun _ => rfl

/-- The captured NOW of the entry's timebase (R160). -/
theorem triggerArmPlan_eq (s : State) (e : EntryIdx) (c : Capture) :
    s.triggerArmPlan e c = s.startPlan e (clampDeadline
      ((if (s.entry e).behavior.timebase = .tb0 then c.now0 else c.now1) + (s.entry e).startDelay) (s.nowOf e)) := by
  unfold State.triggerArmPlan
  cases (s.entry e).behavior.timebase <;> rfl

/-- Settles O32: the three rows decide a plan with the one write that links the entry. -/
theorem startsLink : Obligations.StartsLink := by
  refine ⟨fun s e hg hc hj => ?_, fun s e d hg hc hj => ?_, fun s l e n0 n1 hg hw hj => ?_⟩
  all_goals have hlink := startOutcome_joins hj
  · exact command_starts rfl hg hc rfl rfl (startPlan_links hlink _) rfl (commandStart_linkedAt s _ e _)
  · exact command_starts rfl hg hc rfl rfl (startPlan_links hlink _) rfl (commandStart_linkedAt s _ e _)
  · exact trigger_starts rfl hg hw rfl (triggerArmPlan_eq s e _) (startPlan_links hlink _) rfl
      (triggerStart_linkedAt s l _ _ e _)

/-- A start at a clamped deadline holds for as far as the deadline lies ahead (R56, R119, R160). -/
theorem startPlan_clamped_holds {s : State} {e : EntryIdx} (h : s.startOutcome e = .hold) (d : Tick) :
    (s.startPlan e (clampDeadline d (s.nowOf e))).Does e none
      [.hold e (if distance d (s.nowOf e) < 0 then 0 else d - s.nowOf e) (s.entry e).reload] .ok e.val :=
  ahead_eq d (s.nowOf e) ▸ startPlan_holds h _

/-- Settles O33: the three rows decide a plan with the one write that leaves the entry HELD. -/
theorem startsHold : Obligations.StartsHold := by
  refine ⟨fun s e hg hc hh => ?_, fun s e d hg hc hh => ?_, fun s l e n0 n1 hg hw hh => ?_⟩
  all_goals have hhold := startOutcome_holds hh
  · exact command_starts rfl hg hc rfl rfl (armPlan_holds hhold) rfl (commandStart_heldAt hhold _ _)
  · exact command_starts rfl hg hc rfl rfl (startPlan_clamped_holds hhold d) rfl (commandStart_heldAt hhold _ _)
  · exact trigger_starts rfl hg hw rfl (triggerArmPlan_eq s e _) (startPlan_clamped_holds hhold _) rfl
      (triggerStart_heldAt hhold l _ _ _)

/-- Settles O34: the three rows decide a plan without writes. -/
theorem startsRefused : Obligations.StartsRefused := by
  refine ⟨fun s e st hg hc hr => ?_, fun s e d st hg hc hr => ?_, fun s l e n0 n1 st hg hw hr => ?_⟩
  all_goals obtain ⟨hrefuse, hst⟩ := startOutcome_refused hr
  · exact command_refuses rfl hg hc rfl rfl (startPlan_refuses hrefuse _)
  · exact command_refuses rfl hg hc rfl rfl (startPlan_refuses hrefuse _)
  · have := trigger_refuses (i := .triggerArm) rfl hg hw rfl (triggerArmPlan_eq s e _) (startPlan_refuses hrefuse _)
    rcases hst with rfl | rfl <;> simpa only [Status.missed, Bool.or_true] using this

/-! ## What a CANCEL or a FREE makes of the entry, the lists and the groups (R46, R57, R59) -/

/-- `t` is `s` with `e` at `st`, its live fields 0, off its list and out of its group's held count, and with the free
list `free` (R2, R8, R46, R112). -/
structure State.DetachedAt (s t : State) (e : EntryIdx) (st : EntryState) (free : List EntryIdx) : Prop where
  entry : t.entry e = { s.entry e with state := st, deadline := 0, remaining := 0, repeatsLeft := 0 }
  otherEntries : ∀ a, a ≠ e → t.entry a = s.entry a
  freeList : t.table.freeList = free
  lists : ∀ b, t.list b =
    if (s.entry e).state = .armed ∧ (s.entry e).behavior.timebase = b then (s.list b).erase e else s.list b
  groups : ∀ g, t.group g = { s.group g with heldCount := (s.group g).heldCount -
    (if (s.entry e).state = .held ∧ (s.entry e).behavior.group = some g then 1 else 0) }

section
variable {s t : State} (hT : s.SameTable t) (hG : ∀ g, t.group g = s.group g)
include hT hG

/-- A write that detaches its entry and settles it at `st`. -/
theorem detachedAt_of {op : Operation} {a : Act} {e : EntryIdx} {st : EntryState} {free : List EntryIdx}
    (ha : a.entry = some e) (he : (t.act op a).entry e = (t.entry e).settled st)
    (hf : (t.act op a).table.freeList = free) (hu : (t.act op a).engine = (t.detach e).engine) (q : Plan) :
    s.DetachedAt ((t.act op a).setPlan op q) e st free where
  entry := by
    rw [← hT.entry]; exact he
  otherEntries b hb := by
    rw [← hT.entry]
    exact act_entry_other (by rw [ha]; simpa using Ne.symm hb)
  freeList := hf
  lists b := by rw [State.setPlan, setActivity_list, list_of_engine hu, list_detach, hT.entry, hT.list]
  groups g := by rw [State.setPlan, setActivity_group, group_of_engine hu, group_detach, hT.entry, hG]

theorem idle_detachedAt (op : Operation) (e : EntryIdx) (q : Plan) :
    s.DetachedAt ((t.act op (.idle e)).setPlan op q) e .idle s.table.freeList := by
  refine detachedAt_of (a := .idle e) hT hG rfl (entry_setEntry_same _ _ _) ?_ rfl q
  rw [State.act, setEntry_freeList, detach_table, hT.table]

theorem release_detachedAt (op : Operation) (e : EntryIdx) (q : Plan) :
    s.DetachedAt ((t.act op (.release e)).setPlan op q) e .free (s.table.freeList ++ [e]) := by
  refine detachedAt_of (a := .release e) hT hG rfl ?_ ?_ (release_engine _ _) q
  · rw [State.act, entry_release_same, entry_of_table (detach_table t e)]
  · rw [State.act, freeList_release, detach_table, hT.table]

end

/-! ## A commanded operation with a purge (R58, R101, R106) -/

/-- `t` is `s` with the notices of the claimed entry `e` purged, and its report waiting (R101, R106). -/
structure State.PurgedOf (s t : State) (e : EntryIdx) : Prop where
  queues : ∀ q, t.queue q = (s.queue q).without e
  reports : t.notices.reports = s.notices.reports ++ (if s.noticesOf e ≠ 0 then [e] else [])

section
variable {s : State} {p : Plan} {e : EntryIdx} {removal : Option EntryIdx} {writes : List Act} {st : Status} {v : Nat}
  (h : p.Does e removal writes st v)
include h

theorem commandStart_claimed : (s.commandStart p).claimed e = true := by
  rw [claimed_iff (op := s.operationOf .command p) rfl]
  exact h.claims ▸ List.mem_singleton_self e

theorem commandStart_purge_sameTable : s.SameTable ((s.commandStart p).purge e) where
  table := (purge_sameTable (commandStart_claimed h)).table
  list b := ((purge_sameTable (commandStart_claimed h)).list b).trans (commandStart_list s p b)

theorem purgedOf_of_notices {t : State} (ht : t.notices = ((s.commandStart p).purge e).notices) : s.PurgedOf t e where
  queues q := by rw [queue_of_notices ht, queue_purge_without, commandStart_queue]
  reports := by rw [ht, purge_reports (commandStart_claimed h)]; rfl

end

theorem commandStart_purge_groups (s : State) (p : Plan) (e : EntryIdx) :
    ((s.commandStart p).purge e).engine.groups = s.engine.groups := by
  rw [purge_engine]; rfl

/-- The purge leaves what is outside the Notice Unit and the Timer Table. -/
theorem purge_outside (s : State) (e : EntryIdx) : s.OutsideKept (s.purge e) := ⟨by simp, by simp, by simp, by simp⟩

section
variable {s : State} {i : Instr} {c : Command} {k : Command → Bool} {p : Plan} {e : EntryIdx} {a : Act} {st : Status}
  (hi : exec i s = .next (s.commandGrant k)) (hg : s.Grantable .command)
  (hc : s.executing .grantWait = some c) (hk : k c = true) (hp : s.commandPlan c = some p)
include hi hg hc hk hp

/-- A command with a purge and one write that leaves its entry other than SPENT: the completion takes the report, which
is without effect (R10). -/
theorem command_purges {R : State → Prop} (h : p.Does e (some e) [a] st 0) (ha : a.entry = some e)
    (hst : ∀ t op, ((State.act t op a).entry e).state ≠ .spent)
    (hR : ∀ t op q, s.SameTable t → (∀ g, t.group g = s.group g) → R ((State.act t op a).setPlan op q)) :
    ∃ s1 s2 : State, exec i s = .next s1 ∧ s.CommandRun s1 s2 e [] ∧ R s2 ∧ s.PurgedOf s2 e ∧
      exec .operationCompletion s2 =
        .next ((s2.noReports.completedTo .trigger).answer st (BitVec.ofNat 8 (s.noticesOf e))) := by
  obtain ⟨hgrant, hfinal, hdone⟩ := purge_one hg hc hp hk h.lineOp h.post h.walk h.purge h.acts h.claims ha
    (act_plain a) fun t op _ => hst t op
  have hout := (purge_outside (s.commandStart p) e).trans (act_outside _ (s.operationOf .command p) ha)
  refine ⟨_, _, hi.trans (congrArg _ hgrant), ⟨h.claims ▸ commandStart_granted s p, hfinal,
    ⟨hout.time, hout.out, hout.irq, hout.bus⟩, ?_, ?_, rfl⟩,
    hR _ _ _ (commandStart_purge_sameTable h) (fun g => congrArg (·[g]) (commandStart_purge_groups s p e)),
    purgedOf_of_notices h (act_notices _ _ a), hdone.trans (by rw [h.status, h.value, Nat.zero_add])⟩
  · exact (act_cmd _ _ a).trans (purge_cmd _ e)
  · exact (act_trig _ _ a).trans (purge_trig _ e)

end

/-- Reports that wait for a claim are not due, so they leave an operation in flight (R17). -/
theorem inFlight_of_claimed_reports {t : State} {op : Operation} (hb : t.engine.activity = .busy op)
    (hr : ∀ a ∈ t.notices.reports, a ∈ op.plan.claims) (hst : ∀ q, (t.queue q).standing = none)
    (hn : t.nopDue = false) (ho : ∀ c, t.executing .owner = some c → c.firstStage ≠ .owner) : t.InFlight op := by
  have hreport : t.notices.reports.find? (fun a => t.reportDue a) = none := by
    refine List.find?_eq_none.mpr fun a ha => ?_
    simp [State.reportDue, (claimed_iff hb a).mpr (hr a ha)]
  have howner : t.ownerDue = none := by
    unfold State.ownerDue
    split
    · rfl
    · rename_i c hc; simp [ho c hc]
  have hdue : t.dueStep = none := dueStep_none_of hreport (by simp [State.standingDue, hst])
    (by simp [State.standingDue, hst]) hn howner (by simp [hb])
  exact ⟨by simp [State.settled, hdue, hb], hb⟩

/-- What is left of a purge of `e` without a write: the operation, its claim, and the count of the notices. -/
def Operation.afterPurge (op : Operation) (e : EntryIdx) (n : Nat) : Operation :=
  { op with plan := { op.plan with
      claims := [e], purge := none, walk := none, acts := [], value := op.plan.value + n } }

/-- The state after a final step with a purge and no write. -/
def State.purgeOnly (s : State) (p : Plan) (e : EntryIdx) : State :=
  ((s.commandStart p).purge e).setActivity
    (.busy ((s.operationOf .command p).afterPurge e ((s.commandStart p).noticesOf e)))

theorem purgeOnly_notices (s : State) (p : Plan) (e : EntryIdx) :
    (s.purgeOnly p e).notices = ((s.commandStart p).purge e).notices := setActivity_notices _ _

theorem purgeOnly_cmd (s : State) (p : Plan) (e : EntryIdx) : (s.purgeOnly p e).cmd = (s.commandStart p).cmd :=
  (setActivity_cmd _ _).trans (purge_cmd _ e)

theorem purgeOnly_trig (s : State) (p : Plan) (e : EntryIdx) : (s.purgeOnly p e).trig = s.trig :=
  (setActivity_trig _ _).trans (purge_trig _ e)

theorem purgeOnly_groups (s : State) (p : Plan) (e : EntryIdx) :
    (s.purgeOnly p e).engine.groups = s.engine.groups :=
  (setActivity_groups _ _).trans (commandStart_purge_groups s p e)

theorem purgeOnly_outside (s : State) (p : Plan) (e : EntryIdx) : s.OutsideKept (s.purgeOnly p e) := by
  constructor <;> simp [State.purgeOnly, State.commandStart]

section
variable {s : State} {p : Plan} {e : EntryIdx} {st : Status} {v : Nat} (h : p.Does e (some e) [] st v)
include h

theorem finalStep_purgeOnly (hQ : (s.commandStart p).Quiet) :
    exec .finalStep (s.commandStart p) = .next (s.purgeOnly p e) := by
  have hkeep : p.claimsAfter = [e] := by simp [Plan.claimsAfter, h.claims, h.acts]
  rw [exec_final_purge (hQ.inFlight (op := s.operationOf .command p) rfl) h.lineOp h.post h.walk h.purge,
    show (s.operationOf .command p).plan.acts = [] from h.acts,
    show (s.operationOf .command p).plan.claimsAfter = [e] from hkeep]
  rfl

/-- The claim on `e` lasts until the completion (R17), so the report of the purge still waits for it. -/
theorem purgeOnly_inFlight (hQ : (s.commandStart p).Quiet) :
    (s.purgeOnly p e).InFlight
      ((s.operationOf .command p).afterPurge e ((s.commandStart p).noticesOf e)) := by
  have hcmd := purgeOnly_cmd s p e
  have hreports := (purgedOf_of_notices h (purgeOnly_notices s p e)).reports
  rw [show s.notices.reports = [] from hQ.reports, List.nil_append] at hreports
  refine inFlight_of_claimed_reports rfl (fun a ha => ?_) (fun q => ?_) ?_ fun c hc => hQ.owner c ?_
  · rw [hreports] at ha
    split at ha
    · exact ha
    · cases ha
  · rw [queue_of_notices (purgeOnly_notices s p e), queue_purge, standing_purged, hQ.standing]
  · have := hQ.nop
    rwa [State.nopDue, State.executing, ← hcmd] at this
  · rwa [State.executing, hcmd] at hc

end

section
variable {s : State} {i : Instr} {c : Command} {k : Command → Bool} {p : Plan} {e : EntryIdx} {st : Status}
  (hi : exec i s = .next (s.commandGrant k)) (hg : s.Grantable .command)
  (hc : s.executing .grantWait = some c) (hk : k c = true) (hp : s.commandPlan c = some p)
include hi hg hc hk hp

/-- A command with a purge and no write. -/
theorem command_only_purges (h : p.Does e (some e) [] st 0) :
    exec i s = .next (s.commandStart p) ∧ s.CommandRun (s.commandStart p) (s.purgeOnly p e) e [e] ∧
      s.SameTable (s.purgeOnly p e) ∧ (s.purgeOnly p e).engine.groups = s.engine.groups ∧
      s.PurgedOf (s.purgeOnly p e) e ∧
      exec .operationCompletion (s.purgeOnly p e) =
        .next (((s.purgeOnly p e).completedTo .trigger).answer st (BitVec.ofNat 8 (s.noticesOf e))) := by
  obtain ⟨hgrant, hQ⟩ := cmd_start hg hc hp hk h.walk
  have hT := commandStart_purge_sameTable (s := s) h
  refine ⟨hi.trans (congrArg _ hgrant), ⟨h.claims ▸ commandStart_granted s p, finalStep_purgeOnly h hQ,
    purgeOnly_outside s p e, purgeOnly_cmd s p e, purgeOnly_trig s p e, rfl⟩,
    ⟨hT.table, fun b => (setActivity_list _ _ b).trans (hT.list b)⟩, purgeOnly_groups s p e,
    purgedOf_of_notices h (purgeOnly_notices s p e), ?_⟩
  have hdone := complete_done (purgeOnly_inFlight h hQ) h.lineOp h.post rfl rfl rfl
  rw [exec, execOperationCompletion, hdone]
  show Host.Outcome.next ((State.completedTo _ .trigger).answer p.status (BitVec.ofNat 8 (p.value + s.noticesOf e))) = _
  rw [h.status, h.value, Nat.zero_add]

end

/-! ## CANCEL (R57, R58, R161) -/

/-- A row that grants leaves no release report, so none waits after a final step without a purge. -/
theorem oneWrite_noReports {s : State} (hg : s.Grantable .command) (p : Plan) (op : Operation) (a : Act) :
    ((s.commandStart p).oneWrite op a).noReports = (s.commandStart p).oneWrite op a :=
  noReports_eq ((congrArg NoticeUnit.reports (act_notices (s.commandStart p) op a)).trans hg.quiet.reports)

theorem idle_oneWrite {s t : State} (hT : s.SameTable t) (hG : ∀ g, t.group g = s.group g)
    (hN : t.notices = s.notices) (op : Operation) (e : EntryIdx) :
    s.DetachedAt (t.oneWrite op (.idle e)) e .idle s.table.freeList ∧
      (t.oneWrite op (.idle e)).notices = s.notices :=
  ⟨idle_detachedAt hT hG op e _, (act_notices t op _).trans hN⟩

/-- Settles O35: CANCEL with and without purge, and the triggered CANCEL, each with the one write that makes its entry
IDLE. -/
theorem cancelMakesIdle : Obligations.CancelMakesIdle := by
  refine ⟨fun s e purge hg hc hst => ?_, fun s l e n0 n1 hg hw hst => ?_⟩
  · have hplan := cancelPlan_running hst purge
    cases purge with
    | true =>
      obtain ⟨s1, s2, hrow, hrun, hD, hP, hdone⟩ :=
        command_purges (i := .cancel) (R := (s.DetachedAt · e .idle s.table.freeList)) rfl hg hc rfl rfl hplan rfl
          (fun t op => by simp [State.act, Entry.settled]) fun t op q hT hG => idle_detachedAt hT hG op e q
      exact ⟨s1, s2, hrow, hrun.granted, hrun.final, ⟨hD.entry, hD.otherEntries, hD.freeList, hD.lists, hD.groups,
        hP.queues, by simpa using hP.reports, hrun.claims, hrun.outside⟩, hrun.cmd, hrun.trig, hdone⟩
    | false =>
      obtain ⟨hrow, hrun, hdone⟩ := command_writes (i := .cancel) rfl hg hc rfl rfl hplan rfl rfl
      obtain ⟨hD, hN⟩ := idle_oneWrite (commandStart_sameTable s (s.cancelPlan e false)) (fun _ => rfl) rfl
        (s.operationOf .command (s.cancelPlan e false)) e
      refine ⟨_, _, hrow, hrun.granted, hrun.final, ⟨hD.entry, hD.otherEntries, hD.freeList, hD.lists, hD.groups,
        queue_of_notices hN, by rw [hN]; simp, hrun.claims, hrun.outside⟩, hrun.cmd, hrun.trig, ?_⟩
      rw [oneWrite_noReports hg]
      exact hdone
  · have hplan := cancelPlan_running hst false
    obtain ⟨hrow, hrun, hdone⟩ :=
      trigger_writes (i := .triggerCancel) (p := s.cancelPlan e false) rfl hg hw rfl rfl hplan rfl rfl
    obtain ⟨hD, hN⟩ := idle_oneWrite (triggerStart_sameTable s l ⟨.cancel e, n0, n1⟩ (s.cancelPlan e false))
      (fun _ => rfl) rfl (s.operationOf (.trigger l) (s.cancelPlan e false)) e
    exact ⟨_, _, hrow, hrun.granted, hrun.final, ⟨hD.entry, hD.otherEntries, hD.freeList, hD.lists, hD.groups,
      queue_of_notices hN, by rw [hN]; simp, hrun.claims, hrun.outside⟩, hrun.cmd, hrun.trig, hdone⟩

/-- Settles O36: a plan without writes, but for the purge of an IDLE entry. -/
theorem cancelElsewhere : Obligations.CancelElsewhere := by
  refine ⟨fun s e hg hc hst => ?_, fun s e hg hc hst => ?_, fun s e purge hg hc hst => ?_,
    fun s l e n0 n1 hg hw ha hh => ?_⟩
  · exact command_refuses rfl hg hc rfl rfl (cancelPlan_idle hst false)
  · obtain ⟨hrow, hrun, hT, hG, hP, hdone⟩ :=
      command_only_purges (i := .cancel) rfl hg hc rfl rfl (cancelPlan_idle hst true)
    exact ⟨_, _, hrow, hrun.granted, hrun.final, hT.table, hT.list, hG, hP.queues, hP.reports, hrun.outside, hrun.cmd,
      hrun.trig, hrun.claims, hdone⟩
  · exact command_refuses rfl hg hc rfl rfl (cancelPlan_elsewhere hst purge)
  · have hrefused {st : Status} (h : (s.cancelPlan e false).Does e none [] st 0) :=
      trigger_refuses (i := .triggerCancel) rfl hg hw rfl rfl h
    cases hst : (s.entry e).state with
    | idle => simpa [Status.missed] using hrefused (cancelPlan_idle hst false)
    | free => simpa [Status.missed] using hrefused (cancelPlan_elsewhere (.inl hst) false)
    | spent => simpa [Status.missed] using hrefused (cancelPlan_elsewhere (.inr hst) false)
    | armed => exact absurd hst ha
    | held => exact absurd hst hh

/-! ## FREE (R59) -/

/-- Settles O37: the purge and the one write that releases the entry, or a plan without writes. -/
theorem freeReleases : Obligations.FreeReleases := by
  refine ⟨fun s e hg hc hst => ?_, fun s e hg hc hst => command_refuses rfl hg hc rfl rfl (freePlan_refuses hst)⟩
  obtain ⟨s1, s2, hrow, hrun, hD, hP, hdone⟩ :=
    command_purges (i := .free) (R := (s.DetachedAt · e .free (s.table.freeList ++ [e]))) rfl hg hc rfl rfl
      (freePlan_releases hst) rfl (fun t op => by simp [State.act, entry_release_same, Entry.settled])
      fun t op q hT hG => release_detachedAt hT hG op e q
  exact ⟨s1, s2, hrow, hrun.granted, hrun.final, hD.entry, hD.otherEntries, hD.freeList, hD.lists, hD.groups,
    hP.queues, hP.reports, hrun.outside, hrun.cmd, hrun.trig, hrun.claims, hdone⟩

end Sys2Proof.Machine
end

section
/-!
The expiry service: what it counts, what it decides at its grant, and the whole service of a run that goes on
(R45, R47, R66–R83, R170).
-/
namespace Sys2Proof.Machine

/-! ## The count of a service (R68–R70) -/

theorem expiries_oneShot {x : Entry} (hp : x.period = 0) (now : Tick) : x.expiries now = ⟨1, true, 0⟩ := if_pos hp

theorem deadlineAfter_zero (x : Entry) : x.deadlineAfter 0 = x.deadline := by
  simp [Entry.deadlineAfter]

theorem expiries_keep {x : Entry} (hp : x.period ≠ 0) (hc : x.behavior.catchUp = .keep) (now : Tick) :
    x.expiries now =
      if x.repeatsLeft = 0 then ⟨1, false, 0⟩
      else if x.repeatsLeft = 1 then ⟨1, true, 0⟩
      else ⟨1, false, x.repeatsLeft - 1⟩ := by
  simp only [Entry.expiries, if_neg hp, hc]

/-- The number of deadlines that an entry overdue at `now` has passed (R70). -/
def Entry.passed (x : Entry) (now : Tick) : Nat := skipSpan (-(distance x.deadline now)).toNat x.period.toNat

theorem expiries_skip {x : Entry} (hp : x.period ≠ 0) (hc : x.behavior.catchUp = .skip) (now : Tick) :
    x.expiries now =
      if x.repeatsLeft = 0 then ⟨x.passed now, false, 0⟩
      else if x.passed now < x.repeatsLeft.toNat then
        ⟨x.passed now, false, x.repeatsLeft - BitVec.ofNat 8 (x.passed now)⟩
      else ⟨x.repeatsLeft.toNat, true, 0⟩ := by
  simp only [Entry.expiries, if_neg hp, hc]
  rfl

theorem one_le_skipSpan (overdue period : Nat) : 1 ≤ skipSpan overdue period := Nat.le_add_left _ _

/-- The span of R70 is the least number of periods that exceeds the overdue amount. -/
theorem skipSpan_bounds (overdue : Nat) {period : Nat} (hp : 0 < period) :
    (skipSpan overdue period - 1) * period ≤ overdue ∧ overdue < skipSpan overdue period * period :=
  ⟨Nat.div_mul_le_self overdue period, by
    rw [skipSpan, Nat.mul_comm]; exact Nat.lt_mul_div_succ overdue hp⟩

/-- The last deadline passed is not ahead, and the next one is (R70). -/
theorem passed_bounds {x : Entry} {now : Tick} (hp : x.period ≠ 0) (hdue : distance x.deadline now ≤ 0) :
    distance x.deadline now + ((x.passed now - 1 : Nat) : Int) * (x.period.toNat : Int) ≤ 0 ∧
      1 ≤ distance x.deadline now + (x.passed now : Int) * (x.period.toNat : Int) := by
  have hpos : 0 < x.period.toNat := Nat.pos_of_ne_zero fun h => hp (BitVec.eq_of_toNat_eq h)
  obtain ⟨hlast, hnext⟩ := skipSpan_bounds (-(distance x.deadline now)).toNat hpos
  rw [← Entry.passed] at hlast hnext
  rw [← Int.natCast_mul, ← Int.natCast_mul]
  omega

/-- Settles O43: one equation for each form of entry, with the number of deadlines passed as the k of R70. -/
theorem expiriesCounted : Obligations.ExpiriesCounted :=
  ⟨fun x now hp => ⟨expiries_oneShot hp now, deadlineAfter_zero x⟩, fun _ now hp hc => expiries_keep hp hc now,
    fun x now hp hc hdue =>
      have ⟨hlast, hnext⟩ := passed_bounds hp hdue
      ⟨x.passed now, one_le_skipSpan _ _, hlast, hnext, expiries_skip hp hc now⟩⟩

/-! ## The start of a successor (R77–R79) -/

/-- The states of a successor in which its start is a chain miss (R79). -/
def State.ChainMisses (s : State) (y : EntryIdx) : Prop :=
  (s.entry y).state = .free ∨ (s.entry y).state = .spent ∨
    ((s.entry y).state = .idle ∨ (s.entry y).state = .armed) ∧
      (s.timebase (s.entry y).behavior.timebase).state = .faulted

/-- The entry belongs to a group in phase HELD (R119). -/
def State.InHeldGroup (s : State) (y : EntryIdx) : Prop :=
  ∃ g, (s.entry y).behavior.group = some g ∧ (s.group g).phase = .held

theorem startOutcome_of_misses {s : State} {y : EntryIdx} (h : s.ChainMisses y) :
    ∃ st, s.startOutcome y = .refuse st := by
  rcases h with hst | hst | ⟨hst, hf⟩
  · exact ⟨.state, (startOutcome_refused (.inl ⟨rfl, .inl hst⟩)).1⟩
  · exact ⟨.state, (startOutcome_refused (.inl ⟨rfl, .inr hst⟩)).1⟩
  · exact ⟨.faulted, (startOutcome_refused (.inr ⟨rfl, hst, hf⟩)).1⟩

theorem startOutcome_of_armed {s : State} {y : EntryIdx} (hm : ¬s.ChainMisses y)
    (h : (s.entry y).state = .armed ∨ (s.entry y).state = .idle ∧ ¬s.InHeldGroup y) : s.startOutcome y = .link := by
  have hf : (s.timebase (s.entry y).behavior.timebase).state ≠ .faulted :=
    fun hf => hm (.inr (.inr ⟨h.symm.imp_left And.left, hf⟩))
  exact startOutcome_joins ⟨hf, h.imp_right fun ⟨hst, hg⟩ => ⟨hst, fun g hy hp => hg ⟨g, hy, hp⟩⟩⟩

theorem startOutcome_of_held {s : State} {y : EntryIdx} (hm : ¬s.ChainMisses y)
    (h : (s.entry y).state = .held ∨ (s.entry y).state = .idle ∧ s.InHeldGroup y) : s.startOutcome y = .hold :=
  startOutcome_holds (h.imp_right fun ⟨hst, hg⟩ => ⟨hst, fun hf => hm (.inr (.inr ⟨.inl hst, hf⟩)), hg⟩)

/-- The five states of an entry fall under the three rows of a start (R78). -/
theorem startOutcome_rows (s : State) (y : EntryIdx) :
    s.ChainMisses y ∨
      ¬s.ChainMisses y ∧ ((s.entry y).state = .armed ∨ (s.entry y).state = .idle ∧ ¬s.InHeldGroup y) ∨
      ¬s.ChainMisses y ∧ ((s.entry y).state = .held ∨ (s.entry y).state = .idle ∧ s.InHeldGroup y) := by
  by_cases hm : s.ChainMisses y
  · exact .inl hm
  · cases hst : (s.entry y).state with
    | free => exact absurd (.inl hst) hm
    | spent => exact absurd (.inr (.inl hst)) hm
    | armed => exact .inr (.inl ⟨hm, .inl rfl⟩)
    | held => exact .inr (.inr ⟨hm, .inl rfl⟩)
    | idle =>
      by_cases hg : s.InHeldGroup y
      · exact .inr (.inr ⟨hm, .inr ⟨rfl, hg⟩⟩)
      · exact .inr (.inl ⟨hm, .inr ⟨rfl, hg⟩⟩)

/-- The deadline of a successor that is linked (R77). -/
def State.successorDeadline (s : State) (b : Timebase) (latest : Tick) (y : EntryIdx) : Tick :=
  s.successorBase b latest y + (s.entry y).startDelay

/-- What a successor step decides, apart from its duration. -/
structure SuccessorStep.Does (r : SuccessorStep) (claims : List EntryIdx) (acts : List Act) (miss : Bool) : Prop where
  claims : r.claims = claims
  acts : r.acts = acts
  miss : r.miss = miss

section
variable {s : State} {y : EntryIdx} (b : Timebase) (e : EntryIdx) (latest : Tick)

theorem startSuccessor_misses (h : s.ChainMisses y) :
    (s.startSuccessor b e latest y).Does [e, y] [.retire e] true := by
  obtain ⟨st, hst⟩ := startOutcome_of_misses h
  rw [State.startSuccessor, hst]
  exact ⟨rfl, rfl, rfl⟩

theorem startSuccessor_links (hm : ¬s.ChainMisses y)
    (h : (s.entry y).state = .armed ∨ (s.entry y).state = .idle ∧ ¬s.InHeldGroup y) :
    (s.startSuccessor b e latest y).Does [e, y]
      [.retire e, .link y (s.successorDeadline b latest y) (s.entry y).reload] false := by
  rw [State.startSuccessor, startOutcome_of_armed hm h]
  exact ⟨rfl, rfl, rfl⟩

theorem startSuccessor_holds (hm : ¬s.ChainMisses y)
    (h : (s.entry y).state = .held ∨ (s.entry y).state = .idle ∧ s.InHeldGroup y) :
    (s.startSuccessor b e latest y).Does [e, y]
      [.retire e, .hold y (s.entry y).startDelay (s.entry y).reload] false := by
  rw [State.startSuccessor, startOutcome_of_held hm h]
  exact ⟨rfl, rfl, rfl⟩

end

theorem startSuccessor_claims (s : State) (b : Timebase) (e : EntryIdx) (latest : Tick) (y : EntryIdx) :
    (s.startSuccessor b e latest y).claims = [e, y] := by
  rcases startOutcome_rows s y with hm | ⟨hm, h⟩ | ⟨hm, h⟩
  · exact (startSuccessor_misses b e latest hm).claims
  · exact (startSuccessor_links b e latest hm h).claims
  · exact (startSuccessor_holds b e latest hm h).claims

theorem startSuccessor_miss_iff (s : State) (b : Timebase) (e : EntryIdx) (latest : Tick) (y : EntryIdx) :
    (s.startSuccessor b e latest y).miss = true ↔ s.ChainMisses y := by
  rcases startOutcome_rows s y with hm | ⟨hm, h⟩ | ⟨hm, h⟩
  · simp [(startSuccessor_misses b e latest hm).miss, hm]
  · simp [(startSuccessor_links b e latest hm h).miss, hm]
  · simp [(startSuccessor_holds b e latest hm h).miss, hm]

/-! ## The run of a service (R71, R73, R76) -/

section
variable {s : State} {e : EntryIdx} {n : Expiries} (b : Timebase) (latest : Tick)

theorem runStep_reloads (hn : n.ends = false) :
    (s.runStep b e n latest).Does [e] [.link e ((s.entry e).deadlineAfter n.count) n.left] false := by
  simp only [State.runStep, hn]
  exact ⟨rfl, rfl, rfl⟩

theorem runStep_retires (hn : n.ends = true) (hs : (s.entry e).behavior.successor = none) :
    (s.runStep b e n latest).Does [e] [.retire e] false := by
  simp only [State.runStep, hn, hs]
  exact ⟨rfl, rfl, rfl⟩

theorem runStep_restarts (hn : n.ends = true) (hs : (s.entry e).behavior.successor = some e) :
    (s.runStep b e n latest).Does [e] [.link e (latest + (s.entry e).startDelay) (s.entry e).reload] false := by
  simp only [State.runStep, hn, hs, if_true]
  exact ⟨rfl, rfl, rfl⟩

theorem runStep_chains {y : EntryIdx} (hn : n.ends = true) (hs : (s.entry e).behavior.successor = some y)
    (hy : y ≠ e) : s.runStep b e n latest = s.startSuccessor b e latest y := by
  simp only [State.runStep, hn, hs, if_true, if_neg hy]

end

/-- A chain miss comes only at the end of a run, from a successor other than the entry itself (R79). -/
theorem runStep_miss_iff (s : State) (b : Timebase) (e : EntryIdx) (n : Expiries) (latest : Tick) :
    (s.runStep b e n latest).miss = true ↔
      n.ends = true ∧ ∃ y, (s.entry e).behavior.successor = some y ∧ y ≠ e ∧ s.ChainMisses y := by
  cases hn : n.ends with
  | false => simp [(runStep_reloads b latest hn).miss]
  | true =>
    cases hs : (s.entry e).behavior.successor with
    | none => simp [(runStep_retires b latest hn hs).miss]
    | some y =>
      by_cases hy : y = e
      · subst hy; simp [(runStep_restarts b latest hn hs).miss]
      · simp [runStep_chains b latest hn hs hy, startSuccessor_miss_iff, hy]

/-! ## The post of a service (R82, R83) -/

theorem postOf_off {x : Entry} (h : x.behavior.postMode = .off) (b : Timebase) (e : EntryIdx) (n : Expiries)
    (miss : Bool) (now : Tick) : x.postOf b e n miss now = none := by
  simp only [Entry.postOf, h]

theorem postOf_final_going_on {x : Entry} {n : Expiries} (h : x.behavior.postMode = .final) (hn : n.ends = false)
    (b : Timebase) (e : EntryIdx) (miss : Bool) (now : Tick) : x.postOf b e n miss now = none := by
  simp only [Entry.postOf, h, hn]; rfl

/-- The post that a service makes when its post mode asks for one (R83). -/
def Entry.madePost (x : Entry) (b : Timebase) (e : EntryIdx) (n : Expiries) (miss : Bool) (now : Tick) : Post where
  queue := x.behavior.queue
  entry := e
  tag := x.behavior.tag
  timebase := b
  final := n.ends
  chainMiss := miss
  count := if x.behavior.postMode = .final then 1 else n.count
  deadline := x.deadlineAfter (n.count - 1)
  lateness := latenessOf (x.deadlineAfter (n.count - 1)) now

theorem postOf_made {x : Entry} {n : Expiries}
    (h : x.behavior.postMode = .every ∨ x.behavior.postMode = .final ∧ n.ends = true) (b : Timebase) (e : EntryIdx)
    (miss : Bool) (now : Tick) : x.postOf b e n miss now = some (x.madePost b e n miss now) := by
  rcases h with hm | ⟨hm, hn⟩
  · simp [Entry.postOf, Entry.madePost, hm]
  · simp [Entry.postOf, Entry.madePost, hm, hn]

/-! ## The plan of a service (R66) -/

/-- What the service of `e` decides about the run. -/
def State.serviceStep (s : State) (b : Timebase) (e : EntryIdx) : SuccessorStep :=
  s.runStep b e ((s.entry e).expiries (s.now b))
    ((s.entry e).deadlineAfter (((s.entry e).expiries (s.now b)).count - 1))

/-- The plan of a service claims and writes what its run decides. -/
theorem servicePlan_of_step {s : State} {b : Timebase} {e : EntryIdx} {claims : List EntryIdx} {acts : List Act}
    {miss : Bool} (h : (s.serviceStep b e).Does claims acts miss) :
    (s.servicePlan b e).acts = acts ∧ (s.servicePlan b e).claims = claims := ⟨h.acts, h.claims⟩

/-- The line operation of a service goes by the action and the count (R74). -/
theorem servicePlan_lineOp (s : State) (b : Timebase) (e : EntryIdx) :
    (s.servicePlan b e).lineOp = (s.entry e).behavior.lineOp ((s.entry e).expiries (s.now b)).count := rfl

/-- Settles O44: the run, the line operation by the action, and the post by the post mode. -/
theorem serviceDecides : Obligations.ServiceDecides := by
  intro s b e x n latest p faulted heldGroup reload start misses
  refine ⟨fun hn => servicePlan_of_step (runStep_reloads b latest hn),
    fun hn hs => servicePlan_of_step (runStep_retires b latest hn hs),
    fun hn hs => servicePlan_of_step (runStep_restarts b latest hn hs), fun y hn hs hy => ?chain,
    fun h => ?_, fun h => ?_, fun h => ?_, fun h => ?_, fun h => postOf_off h _ _ _ _ _,
    fun h hn => postOf_final_going_on h hn _ _ _ _,
    fun h => ⟨_, runStep_miss_iff s b e n latest, postOf_made h _ _ _ _⟩⟩
  case chain =>
    have hstep : s.serviceStep b e = s.startSuccessor b e latest y := runStep_chains b latest hn hs hy
    refine ⟨(congrArg SuccessorStep.claims hstep).trans (startSuccessor_claims s b e latest y), fun hm => ?_,
      fun hm h => ?_, fun hm h => ?_⟩
    · exact (servicePlan_of_step (hstep ▸ startSuccessor_misses b e latest hm)).1
    · exact (servicePlan_of_step (hstep ▸ startSuccessor_links b e latest hm h)).1
    · exact (servicePlan_of_step (hstep ▸ startSuccessor_holds b e latest hm h)).1
  all_goals exact (servicePlan_lineOp s b e).trans (by rw [Behavior.lineOp, h])

/-! ## The output hand-over (R66, R170) -/

/-- The plan after the output hand-over. -/
def Plan.lineHanded (p : Plan) : Plan := { p with lineOp := none }

theorem exec_lineOperation_of {s : State} {op : Operation} {n : LineIdx} {o : LineOp} (hI : s.InFlight op)
    (hl : op.plan.lineOp = some (n, o)) :
    exec .lineOperation s = .next ((s.lineOp n o).setPlan op op.plan.lineHanded) := by
  rw [exec, execLineOperation, settle_of_settled hI.settled, State.handLineOp, hI.busy]
  simp only [hl, Plan.lineHanded]

/-- The row LINE_OPERATION right after the grant: as if the line had been operated before it. -/
theorem exec_lineOperation_begin {s : State} (hq : s.Quiet) {pl : Plan} {n : LineIdx} {o : LineOp}
    (hl : pl.lineOp = some (n, o)) :
    exec .lineOperation (s.begin .expiry pl) = .next ((s.lineOp n o).begin .expiry pl.lineHanded) :=
  exec_lineOperation_of (op := s.operationOf .expiry pl) ((begin_quiet hq .expiry pl).inFlight rfl) hl

theorem lineOp_setQueue_notices (s : State) (n : LineIdx) (o : LineOp) (q : QueueId) (x : NoticeQueue) :
    ((s.lineOp n o).setQueue q x).notices = (s.setQueue q x).notices := by
  cases q <;> rfl

theorem lineOp_quiet {s : State} (hq : s.Quiet) (n : LineIdx) (o : LineOp) : (s.lineOp n o).Quiet := hq.of rfl rfl

/-! ## The whole service of a run that goes on (R45, R47, R66, R73) -/

/-- The completion of a service after its final step (R47, R49). -/
theorem completion_of_service {s t : State} {op : Operation} {acts : List Act} {l : List EntryIdx} (hq : s.Quiet)
    (hn : t.notices = s.notices) (hc : t.cmd = s.cmd) (hb : t.engine.activity = .busy (op.afterWriting l))
    (h : Plan.One op.plan acts) (hcl : op.client = .expiry) :
    exec .operationCompletion t = .next (t.completedTo .command) := by
  have hdone := complete_done (inFlight_of hq hn hc hb) h.lineOp h.post h.walk h.purge rfl
  rw [exec, execOperationCompletion, hdone]
  show Host.Outcome.next (State.handBack _ op.client _ _) = _
  rw [show (op.afterWriting l).client = .expiry from hcl, hcl]
  rfl

/-- `t` is `s` with the ARMED entry `e` relinked at deadline `d` with repeats left `r`, and nothing else of the table, the
lists, the groups and the requesters changed (R45, R73). -/
structure State.RelinkedAt (s t : State) (e : EntryIdx) (d : Tick) (r : Byte) : Prop where
  entry : t.entry e = { s.entry e with state := .armed, deadline := d, remaining := 0, repeatsLeft := r }
  list : t.list (s.entry e).behavior.timebase =
    insertByDistance (fun a => distance (s.entry a).deadline (s.now (s.entry e).behavior.timebase)) e
      (distance d (s.now (s.entry e).behavior.timebase)) ((s.list (s.entry e).behavior.timebase).erase e)
  otherLists : ∀ b, b ≠ (s.entry e).behavior.timebase → t.list b = s.list b
  otherEntries : ∀ a, a ≠ e → t.entry a = s.entry a
  freeList : t.table.freeList = s.table.freeList
  groups : t.engine.groups = s.engine.groups
  cmd : t.cmd = s.cmd
  trig : t.trig = s.trig

theorem operationOf_now (s : State) (cl : Client) (p : Plan) (b : Timebase) : (s.operationOf cl p).now b = s.now b := by
  cases b <;> rfl

/-- The final step and the completion of a service whose plan, after the post, has the relink of `e` as its only
write. -/
theorem servicePosted_relinks {s : State} (hq : s.Quiet) {pl : Plan} {p : Post} {e : EntryIdx} {d : Tick} {r : Byte}
    (h : Plan.One pl.posted [.link e d r]) :
    ∃ t, exec .finalStep (s.servicePosted pl p) = .next t ∧ s.RelinkedAt t e d r ∧
      t.notices = (s.servicePosted pl p).notices ∧ s.OutsideKept t ∧
      exec .operationCompletion t = .next (t.completedTo .command) := by
  have hQ := servicePosted_quiet hq pl p
  obtain ⟨hT, hcmd, htrig, hout⟩ := servicePosted_kept s pl p
  have hent : ∀ a, (s.servicePosted pl p).entry a = s.entry a := entry_of_table hT
  obtain ⟨t, hF, hentry, hlist, hlists, hentries, hfree, hgroups, hn, hc, ht, hactivity, hkept⟩ :=
    finalStep_relinks (op := s.operationOf .expiry pl.posted) (hQ.inFlight rfl) h
  simp only [hent, servicePosted_list, operationOf_now] at hentry hlist hlists hentries
  exact ⟨t, hF,
    { entry := hentry, list := hlist, otherLists := hlists, otherEntries := hentries
      freeList := hfree.trans (congrArg TimerTable.freeList hT), groups := hgroups.trans (servicePosted_groups s pl p)
      cmd := hc.trans hcmd, trig := ht.trans htrig },
    hn, hout.trans hkept, completion_of_service hQ hn hc hactivity h rfl⟩

/-- A line operation changes nothing that a relink speaks of. -/
theorem State.RelinkedAt.of_lineOp {s t : State} {n : LineIdx} {o : LineOp} {e : EntryIdx} {d : Tick} {r : Byte}
    (h : (s.lineOp n o).RelinkedAt t e d r) : s.RelinkedAt t e d r :=
  ⟨h.entry, h.list, h.otherLists, h.otherEntries, h.freeList, h.groups, h.cmd, h.trig⟩

/-- Settles O45: the grant, the two hand-overs, the relink as the only write, and the completion. The state after
LINE_OPERATION is a grant with the line operated before it. -/
theorem serviceReloads : Obligations.ServiceReloads := by
  intro s b e hg hh hb _ hends haction hmode n d
  have hgrant : exec .service s = .next (s.begin .expiry (s.servicePlan b e)) := congrArg _ (expiryGrant_of hg hh)
  obtain ⟨hacts, -⟩ := servicePlan_of_step (runStep_reloads (s := s) (e := e) b _ hends)
  have hline : (s.servicePlan b e).lineOp = some ((s.entry e).behavior.line, .set) := by
    rw [servicePlan_lineOp, Behavior.lineOp, haction]
  obtain ⟨p, hpost, hpq⟩ : ∃ p, (s.servicePlan b e).post = some p ∧ p.queue = (s.entry e).behavior.queue :=
    ⟨_, postOf_made (.inl hmode) b e _ _, rfl⟩
  have hone : Plan.One (s.servicePlan b e).lineHanded.posted [.link e d n.left] := ⟨rfl, rfl, rfl, rfl, hacts⟩
  have hq := lineOp_quiet hg.quiet (s.entry e).behavior.line .set
  have hnotices := servicePosted_notices (s.lineOp (s.entry e).behavior.line .set) (s.servicePlan b e).lineHanded p
  rw [lineOp_setQueue_notices, hpq] at hnotices
  obtain ⟨htable, -, -, hposted⟩ :=
    servicePosted_kept (s.lineOp (s.entry e).behavior.line .set) (s.servicePlan b e).lineHanded p
  obtain ⟨t, hF, hR, hn, hout, hC⟩ := servicePosted_relinks hq (p := p) hone
  obtain ⟨hentry, hlist, hlists, hentries, hfree, hgroups, hcmd, htrig⟩ := hR.of_lineOp
  rw [hb] at hlist hlists
  exact ⟨_, _, _, t, hgrant, rfl, rfl, exec_lineOperation_begin hg.quiet hline, rfl, rfl, rfl,
    exec_post_begin hq rfl hpost, htable, hposted.out, ⟨p, hpost, hnotices⟩, hF, hentry, hlist, hlists, hentries, hfree,
    hgroups, hn, hout.out, hcmd, hout.time, htrig, hout.irq, hout.bus, hC⟩

end Sys2Proof.Machine
end

section
/-!
The rows of the notice ports and FLUSH QUEUE, and where a post is placed (R92–R94, R96–R100, R103, R106, R191).
-/
namespace Sys2Proof.Machine

/-! ## A read of a notice port (R92, R96, R191) -/

/-- The queue with the latch that a read at its pointer uses: at byte 0 the head, sealed, or the empty pattern. -/
def NoticeQueue.latched (n : NoticeQueue) : NoticeQueue :=
  if n.pointer = 0 then
    match n.proper with
    | [] => { n with latch := emptyPattern 9 }
    | h :: _ => { n with latch := h.bytes, headSealed := true }
  else n

/-- The queue after a read of its port. -/
def NoticeQueue.afterRead (n : NoticeQueue) : NoticeQueue := { n.latched with pointer := n.pointer + 1 }

theorem readNotice_eq (s : State) (q : QueueId) :
    s.readNotice q = (s.setQueue q (s.queue q).afterRead).answerRead
      ((s.queue q).afterRead.latch.getD (s.queue q).pointer.val 0) := rfl

theorem afterRead_empty {n : NoticeQueue} (h0 : n.pointer = 0) (hp : n.proper = []) :
    n.afterRead = { n with pointer := 1, latch := [0xFF, 0, 0, 0, 0, 0, 0, 0, 0] } := by
  rw [NoticeQueue.afterRead, NoticeQueue.latched, if_pos h0, hp, h0]; rfl

theorem afterRead_head {n : NoticeQueue} {h : Notice} {rest : List Notice} (h0 : n.pointer = 0)
    (hp : n.proper = h :: rest) : n.afterRead = { n with pointer := 1, latch := h.bytes, headSealed := true } := by
  rw [NoticeQueue.afterRead, NoticeQueue.latched, if_pos h0, hp, h0]; rfl

theorem afterRead_inside {n : NoticeQueue} (h0 : n.pointer ≠ 0) :
    n.afterRead = { n with pointer := n.pointer + 1 } := by
  rw [NoticeQueue.afterRead, NoticeQueue.latched, if_neg h0]

/-- The flag byte of a notice: timebase, FINAL, CHAIN_MISS and SATURATED at bits 0 to 3 (R191). -/
theorem notice_flags (h : Notice) :
    Timebase.code h.timebase + 2 * h.final.toNat + 4 * h.chainMiss.toNat + 8 * h.saturated.toNat =
      (match h.timebase with | .tb0 => 0 | .tb1 => 1) + (if h.final then 2 else 0) + (if h.chainMiss then 4 else 0)
        + (if h.saturated then 8 else 0) := by
  have hbit : ∀ (b : Bool) (k : Nat), k * b.toNat = if b then k else 0 := by
    intro b k; cases b
    · exact Nat.mul_zero k
    · exact Nat.mul_one k
  rw [hbit, hbit, hbit]
  cases h.timebase <;> rfl

/-- Settles O13: the read writes the queue as `afterRead` gives it in the three cases, and forms one byte of its
latch. -/
theorem noticePortRead : Obligations.NoticePortRead := by
  unfold Obligations.NoticePortRead
  intro byte bytes q s hs
  have hq : (s.readNotice q).queue q = (s.queue q).afterRead := by
    rw [readNotice_eq, answerRead_queue, queue_setQueue_same]
  refine ⟨s.readNotice q, ?_, ?_, ?_, fun h0 hp => ?_, fun h rest h0 hp => ?_, fun h0 => ?_, fun r hr => ?_, ?_,
    readNotice_cmd s q, readNotice_table s q, readNotice_time s q, readNotice_engine s q, readNotice_trig s q,
    readNotice_out s q, readNotice_irq s q⟩
  · rw [exec, execNoticeRead, settle_of_settled hs]
  · rw [hq, readNotice_eq, State.answerRead, setQueue_bus]
  · rw [hq]; rfl
  · rw [hq, afterRead_empty h0 hp]
  · have hbytes : h.bytes = bytes h := by rw [Notice.bytes, notice_flags]; rfl
    rw [hq, afterRead_head h0 hp, hbytes]
  · rw [hq, afterRead_inside h0]
  · rw [readNotice_eq, answerRead_queue, queue_setQueue_other hr]
  · rw [readNotice_eq, answerRead_notices, setQueue_reports]

/-! ## Pops (R98, R100) -/

/-- A pop finds no notice at the head, or another entry's (R98). -/
def NoticeQueue.HeadIsNot (n : NoticeQueue) (i : Nat) : Prop :=
  n.proper = [] ∨ ∃ h rest, n.proper = h :: rest ∧ h.entry.val ≠ i

theorem takePop_refused {s : State} {q : QueueId} {i : Nat} (h : (s.queue q).HeadIsNot i) :
    s.takePop q i = s.misuse := by
  rcases h with hp | ⟨h, rest, hp, hi⟩
  · simp only [State.takePop, hp]
  · simp only [State.takePop, hp, if_neg hi]

theorem popMustStand_iff {s : State} {h : Notice} {i : Nat} : s.popMustStand h i = true ↔
    h.entry.val = i ∧ (s.entry h.entry).state = .spent ∧ s.claimed h.entry = true ∧ s.noticesOf h.entry = 1 := by
  simp only [State.popMustStand, Bool.and_eq_true, decide_eq_true_eq, beq_iff_eq, and_assoc]

theorem popNotice_standing {s : State} {q : QueueId} (h : (s.queue q).standing.isSome) (i : Nat) :
    s.popNotice q i = s.misuse := if_pos h

theorem popNotice_refused {s : State} {q : QueueId} {i : Nat} (h : (s.queue q).HeadIsNot i) :
    s.popNotice q i = s.misuse := by
  have htake := takePop_refused h
  unfold State.popNotice
  split
  · rfl
  · rcases h with hp | ⟨h, rest, hp, hi⟩
    · simp only [hp]
    · have hstand : ¬ s.popMustStand h i = true := fun hm => hi (popMustStand_iff.mp hm).1
      simp only [hp, if_neg hstand, htake]

section
variable {s : State} {q : QueueId} {h : Notice} {rest : List Notice} (hs : (s.queue q).standing = none)
  (hp : (s.queue q).proper = h :: rest)
include hs hp

theorem popNotice_stands (hm : (s.entry h.entry).state = .spent ∧ s.claimed h.entry = true ∧ s.noticesOf h.entry = 1) :
    s.popNotice q h.entry.val = s.setQueue q { s.queue q with standing := some h.entry } := by
  have hstand := popMustStand_iff.mpr ⟨rfl, hm⟩
  simp only [State.popNotice, hs, hp, hstand, Option.isSome_none, Bool.false_eq_true, if_false, if_true]

theorem popNotice_taken
    (hm : ¬((s.entry h.entry).state = .spent ∧ s.claimed h.entry = true ∧ s.noticesOf h.entry = 1)) :
    s.popNotice q h.entry.val = s.takePop q h.entry.val := by
  have hstand : ¬ s.popMustStand h h.entry.val = true := fun hh => hm (popMustStand_iff.mp hh).2
  simp only [State.popNotice, hs, hp, if_neg hstand, Option.isSome_none, Bool.false_eq_true, if_false]

end

theorem exec_noticePop_settled {s : State} (h : s.settled = true) (q : QueueId) (i : Byte) :
    exec (.noticePop q i) s = .next (s.popNotice q i.toNat) := by
  rw [exec, execNoticePop, settle_of_settled h]

/-- Settles O14: a pop is refused for the standing pop, or at the head, or it comes to stand. -/
theorem noticePopNotTaken : Obligations.NoticePopNotTaken := by
  refine ⟨fun q i s hset hr => ?_, fun q i s h rest hset hs hp hi hspent hclaim hone => ?_⟩
  · rw [exec_noticePop_settled hset]
    rcases hr with hstand | hhead
    · rw [popNotice_standing hstand]; rfl
    · rw [popNotice_refused hhead]; rfl
  · rw [exec_noticePop_settled hset, ← hi, popNotice_stands hs hp ⟨hspent, hclaim, hone⟩]

/-- Settles O15: the pop is taken, and `takePop_eq` and `takePop_report` say what that does. -/
theorem noticePopTaken : Obligations.NoticePopTaken := by
  intro q i s h rest hset hs hp hi hm hl hb
  obtain ⟨hown, hother, hspent, hkept, hentries, hbus, hcmd, htime, hengine, htrig, hout, hirq⟩ :=
    takePop_eq hp hl hb hm
  refine ⟨s.takePop q h.entry.val, ?_, hown.trans (popped_eq hp hl hb), hother, takePop_report hp hl hb, hspent, hkept,
    hentries, hbus, hcmd, htime, hengine, htrig, hout, hirq⟩
  rw [exec_noticePop_settled hset, ← hi, popNotice_taken hs hp hm]

/-! ## Standing pops (R100) -/

/-- The queue's pop no longer stands. -/
def State.endStanding (s : State) (q : QueueId) : State := s.setQueue q { s.queue q with standing := none }

theorem exec_standingPop_due {s : State} {q : QueueId} {e : EntryIdx} (hs : (s.queue q).standing = some e)
    (hc : s.claimed e = false) : exec (.standingPop q) s = .next ((s.endStanding q).takePop q e.val) := by
  have hdue : s.standingDue q = some e := by simp [State.standingDue, hs, hc]
  simp only [exec, execStandingPop, State.takeStanding, hdue, State.endStanding]

@[simp] theorem endStanding_queue (s : State) (q : QueueId) :
    (s.endStanding q).queue q = { s.queue q with standing := none } := queue_setQueue_same s q _

theorem endStanding_noticesOf (s : State) (q : QueueId) (e : EntryIdx) :
    (s.endStanding q).noticesOf e = s.noticesOf e := by
  have := noticesOf_setQueue s q { s.queue q with standing := none } e
  exact Nat.add_right_cancel this

theorem endStanding_entry (s : State) (q : QueueId) (e : EntryIdx) : (s.endStanding q).entry e = s.entry e :=
  entry_of_table (setQueue_table s q _) e

theorem endStanding_claimed (s : State) (q : QueueId) (e : EntryIdx) : (s.endStanding q).claimed e = s.claimed e :=
  claimed_of_engine (setQueue_engine s q _) e

/-- Settles O16: the pop no longer stands, and is then refused at the head or taken as any other. -/
theorem standingPopTaken : Obligations.StandingPopTaken := by
  intro q e s hs hc
  rw [exec_standingPop_due hs hc]
  refine ⟨fun hr => ?_, fun h rest hp he hl hb hspent hone => ?_⟩
  · have hhead : ((s.endStanding q).queue q).HeadIsNot e.val := by
      rw [endStanding_queue]
      exact hr.imp_right fun ⟨h, rest, hp, hne⟩ => ⟨h, rest, hp, fun hv => hne (Fin.ext hv)⟩
    rw [takePop_refused hhead, State.misuse, State.endStanding, setQueue_bus]
  · subst he
    have hp' : ((s.endStanding q).queue q).proper = h :: rest := by rw [endStanding_queue]; exact hp
    have hb' : ((s.endStanding q).queue q).backlog ≠ [] → rest.length = 15 := by rw [endStanding_queue]; exact hb
    have hspent' := (congrArg Entry.state (endStanding_entry s q h.entry)).trans hspent
    have hone' := (endStanding_noticesOf s q h.entry).trans hone
    have hc' := (endStanding_claimed s q h.entry).trans hc
    obtain ⟨hown, hother, hreleased, -, hentries, hbus, hcmd, htime, hengine, htrig, hout, hirq⟩ :=
      takePop_eq hp' hl hb' (by simp [hc'])
    obtain ⟨hentry, hfree⟩ := hreleased hspent' hone'
    refine ⟨_, rfl, ?_, fun r hr => ?_, ?_, ?_, ?_, fun a ha => ?_, ?_, ?_, ?_, ?_, ?_, ?_, ?_⟩
    · rw [hown, popped_eq hp' hl hb', endStanding_queue]
    · rw [hother r hr]; exact queue_setQueue_other hr _
    · rw [takePop_report hp' hl hb', hc', if_neg (fun hh => nomatch hh.1), List.append_nil]
      exact setQueue_reports s q _
    · rw [hentry, endStanding_entry]; rfl
    · rw [hfree]; exact congrArg (·.freeList ++ _) (setQueue_table s q _)
    · rw [hentries a ha, endStanding_entry]
    · exact hbus.trans (setQueue_bus s q _)
    · exact hcmd.trans (setQueue_cmd s q _)
    · exact htime.trans (setQueue_time s q _)
    · exact hengine.trans (setQueue_engine s q _)
    · exact htrig.trans (setQueue_trig s q _)
    · exact hout.trans (setQueue_out s q _)
    · exact hirq.trans (setQueue_irq s q _)

/-! ## FLUSH QUEUE (R9, R103, R106) -/

theorem exec_flushQueue_due {s : State} {q : QueueId} (hd : s.ownerDue = some (.flushQueue q)) :
    exec .flushQueue s = .next (answerOwned (ownFlushQueue q s)) :=
  congrArg _ (ownerStep_eq hd rfl rfl)

theorem ownFlushQueue_empty {s : State} {q : QueueId} (h : (s.queue q).proper = [] ∧ (s.queue q).backlog = []) :
    ownFlushQueue q s = (s, .noEffect, 0) := by
  unfold ownFlushQueue
  dsimp only
  rw [if_pos (by rw [h.1, h.2]; rfl)]

/-- The queue is emptied, and no report has gone yet. -/
def State.emptied (s : State) (q : QueueId) : State := s.setQueue q (s.queue q).flushed

/-- Every notice that names `e` stands in queue `q`, and one does. -/
def State.namedOnlyIn (s : State) (q : QueueId) (e : EntryIdx) : Bool :=
  decide (0 < (s.queue q).countOf e) && decide (s.noticesOf e = (s.queue q).countOf e)

theorem namedOnlyIn_iff {s : State} {q : QueueId} {e : EntryIdx} :
    s.namedOnlyIn q e = true ↔ 0 < (s.queue q).countOf e ∧ s.noticesOf e = (s.queue q).countOf e := by
  simp only [State.namedOnlyIn, Bool.and_eq_true, decide_eq_true_eq]

theorem mem_emptiedByFlush {s : State} {q : QueueId} {e : EntryIdx} :
    e ∈ s.emptiedByFlush q ↔ s.namedOnlyIn q e = true := by
  simp only [State.emptiedByFlush, State.namedOnlyIn, List.mem_filter, List.mem_finRange, true_and]

/-- A flush that need not wait leaves no claimed SPENT entry without notices (R104). -/
theorem unclaimed_of_flush {s : State} {q : QueueId} {e : EntryIdx} (hw : s.flushMustWait q = false)
    (he : s.namedOnlyIn q e = true) (hs : (s.entry e).state = .spent) : s.claimed e = false := by
  refine Bool.eq_false_iff.mpr fun hc => ?_
  have hwait := (flushMustWait_iff s q).mpr ⟨e, hs, hc, namedOnlyIn_iff.mp he⟩
  rw [hw] at hwait; cases hwait

theorem emptied_entry (s : State) (q : QueueId) (e : EntryIdx) : (s.emptied q).entry e = s.entry e :=
  entry_of_table (setQueue_table s q _) e

theorem emptied_claimed (s : State) (q : QueueId) (e : EntryIdx) : (s.emptied q).claimed e = s.claimed e :=
  claimed_of_engine (setQueue_engine s q _) e

theorem emptied_noticesOf {s : State} {q : QueueId} {e : EntryIdx} (h : s.namedOnlyIn q e = true) :
    (s.emptied q).noticesOf e = 0 := by
  obtain ⟨-, hall⟩ := namedOnlyIn_iff.mp h
  have hcount : (s.queue q).flushed.countOf e = 0 := rfl
  have := noticesOf_setQueue s q (s.queue q).flushed e
  unfold State.emptied
  omega

/-- The SPENT entries that the flush leaves without notices are released in ascending order (R9, R103). -/
theorem flush_releases {s : State} {q : QueueId} (hw : s.flushMustWait q = false) :
    let gone (e : EntryIdx) : Bool := (s.entry e).state == .spent && s.namedOnlyIn q e
    let t := (s.emptiedByFlush q).foldl State.sendReport (s.emptied q)
    t.table.freeList = s.table.freeList ++ (List.finRange 48).filter gone ∧
      ∀ e, t.entry e = if gone e then (s.entry e).settled .free else s.entry e := by
  intro gone t
  obtain ⟨hfree, hentry⟩ := sendReports_table (s.emptiedByFlush q) (s.emptied q)
    ((List.nodup_finRange 48).sublist List.filter_sublist) fun e he hspent _ => by
      rw [emptied_claimed]
      exact unclaimed_of_flush hw (mem_emptiedByFlush.mp he) (by rwa [emptied_entry] at hspent)
  have hgone : ∀ e ∈ s.emptiedByFlush q, (((s.emptied q).entry e).state == .spent &&
      decide ((s.emptied q).noticesOf e = 0)) = ((s.entry e).state == .spent) := by
    intro e he
    rw [emptied_entry, emptied_noticesOf (mem_emptiedByFlush.mp he)]
    exact Bool.and_true _
  refine ⟨?_, fun e => ?_⟩
  · rw [hfree, List.filter_congr hgone, State.emptiedByFlush, List.filter_filter]
    exact congrArg (·.freeList ++ _) (setQueue_table s q _)
  · rw [hentry, emptied_entry]
    by_cases he : e ∈ s.emptiedByFlush q
    · simp only [hgone e he, he, true_and, gone, mem_emptiedByFlush.mp he, Bool.and_true]
    · have hnot : gone e = false := by
        rw [Bool.and_eq_false_iff]; exact .inr (Bool.eq_false_iff.mpr fun hh => he (mem_emptiedByFlush.mpr hh))
      rw [if_neg fun hh => he hh.1, hnot]; rfl

/-- Settles O29: the queue is emptied, and the reports go together. -/
theorem flushTaken : Obligations.FlushTaken := by
  intro s q hd
  refine ⟨fun hempty => ?_, fun hne => ?_⟩
  · rw [exec_flushQueue_due hd, ownFlushQueue_empty hempty]; rfl
  · obtain ⟨hfree, hentry⟩ := flush_releases (s := s) (q := q) (ownerDue_some hd).2.2
    refine ⟨(s.emptiedByFlush q).foldl State.sendReport (s.emptied q), ?_, ?_, fun r hr => ?_, ?_, hfree, hentry,
      ?_, ?_, ?_, ?_, ?_, ?_, ?_⟩
    · rw [exec_flushQueue_due hd, ownFlushQueue_spec q s hne]; rfl
    · rw [sendReports_queue]; exact queue_setQueue_same s q _
    · rw [sendReports_queue]; exact queue_setQueue_other hr _
    · have hclaimed : (s.emptied q).claimed = s.claimed := funext (emptied_claimed s q)
      rw [sendReports_reports, hclaimed, State.emptiedByFlush, List.filter_filter]
      exact congrArg (· ++ _) (setQueue_reports s q _)
    all_goals simp [State.emptied]

/-! ## Posts (R93, R94) -/

theorem any_entry_none {l : List Notice} {e : EntryIdx} (h : ∀ x ∈ l, x.entry ≠ e) : ¬ l.any (·.entry == e) = true :=
  fun ha => have ⟨x, hx, he⟩ := any_entry_iff.mp ha; h x hx he

theorem posted_open {n : NoticeQueue} {p : Post} {before after : List Notice} {m : Notice}
    (ho : n.openPart = before ++ m :: after) (hm : m.entry = p.entry) (hb : ∀ x ∈ before, x.entry ≠ p.entry) :
    n.posted p = { n with proper := n.sealedPart ++ before ++ m.merged p :: after } := by
  have hany : n.openPart.any (·.entry == p.entry) = true := any_entry_iff.mpr ⟨m, by simp [ho], hm⟩
  rw [NoticeQueue.posted, if_pos hany, ho, mergeWhere_split hm hb, List.append_assoc]

section
variable {n : NoticeQueue} {p : Post} (hopen : ∀ x ∈ n.openPart, x.entry ≠ p.entry)
include hopen

theorem posted_backlog {before after : List Notice} {m : Notice} (hbl : n.backlog = before ++ m :: after)
    (hm : m.entry = p.entry) (hb : ∀ x ∈ before, x.entry ≠ p.entry) :
    n.posted p = { n with backlog := before ++ m.merged p :: after } := by
  have hany : n.backlog.any (·.entry == p.entry) = true := any_entry_iff.mpr ⟨m, by simp [hbl], hm⟩
  rw [NoticeQueue.posted, if_neg (any_entry_none hopen), if_pos hany, hbl, mergeWhere_split hm hb]

variable (hback : ∀ x ∈ n.backlog, x.entry ≠ p.entry)
include hback

theorem posted_tail (hroom : n.proper.length < Config.queueCapacity) :
    n.posted p = { n with proper := n.proper ++ [p.opened] } := by
  rw [NoticeQueue.posted, if_neg (any_entry_none hopen), if_neg (any_entry_none hback), if_pos hroom]

theorem posted_joins_backlog (hfull : Config.queueCapacity ≤ n.proper.length)
    (hasc : (n.backlog.map (·.entry)).Pairwise (· < ·)) :
    n.posted p = { n with backlog := n.backlog.filter (fun x => decide (x.entry < p.entry)) ++
      p.opened :: n.backlog.filter (fun x => decide (p.entry < x.entry)) } := by
  rw [NoticeQueue.posted, if_neg (any_entry_none hopen), if_neg (any_entry_none hback),
    if_neg (Nat.not_lt.mpr hfull), insertByEntry_filter p.opened n.backlog hasc hback]
  rfl

end

/-- Settles O48: the four cases of `posted`, in their order. -/
theorem postPlaced : Obligations.PostPlaced := by
  intro s op p hI hl hp
  have hq : ((s.takePost p).setPlan op op.plan.posted).queue p.queue = (s.queue p.queue).posted p := by
    rw [queue_of_notices (setPlan_notices _ _ _), State.takePost, queue_setQueue_same]
  refine ⟨_, exec_post_of hI hl hp, fun before m after ho hm hb => ?_, fun hopen => ⟨fun before m after hbl hm hb => ?_,
    fun hback => ⟨fun hroom => ?_, fun hfull hasc => ?_⟩⟩, fun r hr => ?_, ?_, ?_, ?_, ?_, ?_, ?_⟩
  · rw [hq, posted_open ho hm hb]
  · rw [hq, posted_backlog hopen hbl hm hb]
  · rw [hq, posted_tail hopen hback hroom]; rfl
  · rw [hq, posted_joins_backlog hopen hback hfull hasc]; rfl
  · rw [queue_of_notices (setPlan_notices _ _ _), State.takePost, queue_setQueue_other hr]
  · rw [setPlan_notices]; exact (takePost_keeps s p).2.2
  · rw [State.setPlan, State.setActivity, takePost_engine]; rfl
  · rw [setPlan_table, takePost_table]
  · rw [setPlan_cmd, takePost_cmd]
  · rw [setPlan_trig, takePost_trig]
  · constructor <;> simp

/-- A count as a notice holds it is the number, or 255 when it is greater (R90). -/
theorem cappedCount_toNat (n : Nat) : (cappedCount n).toNat = if 255 < n then 255 else n := by
  simp only [cappedCount, Config.countCap, BitVec.toNat_ofNat]
  split <;> omega

/-- Settles O49: field by field. -/
theorem mergeRule : Obligations.MergeRule := by
  intro n p
  refine ⟨cappedCount_toNat _, ?_, ?_, ?_, rfl, rfl, rfl, rfl, rfl⟩
  · rw [Notice.merged, Bool.or_eq_true, decide_eq_true_iff]; rfl
  · rw [Notice.merged, Bool.or_eq_true]
  · rw [Notice.merged, Bool.or_eq_true]

end Sys2Proof.Machine
end

section
/-!
The law of the notice queues (R90–R92, R105), kept by every step: a step leaves a queue alone, or pops, purges, flushes,
seals or configures it, or places a post in it.
-/
namespace Sys2Proof.Machine

/-! ## Both queues, and the post on its way -/

/-- The law of one queue holds of both. -/
def State.QueuesLawful (s : State) : Prop := ∀ q, (s.queue q).Law

/-- The operation in flight has still to hand over the post `p` (R66). -/
def State.Carries (s : State) (p : Post) : Prop := ∃ op, s.engine.activity = .busy op ∧ op.plan.post = some p

theorem noticeLaw_iff (s : State) : s.NoticeLaw ↔ s.QueuesLawful ∧ ∀ p, s.Carries p → 1 ≤ p.count := by
  constructor
  · intro h
    refine ⟨fun q => ?_, fun p ⟨op, hb, hp⟩ => h.post op p hb hp⟩
    cases q
    · exact h.nq0
    · exact h.nq1
  · rintro ⟨hq, hp⟩
    exact ⟨hq .nq0, hq .nq1, fun op p hb hpost => hp p ⟨op, hb, hpost⟩⟩

theorem State.QueuesLawful.of_queues {s t : State} (h : s.QueuesLawful) (hq : ∀ q, t.queue q = s.queue q) :
    t.QueuesLawful := fun q => by rw [hq]; exact h q

theorem State.QueuesLawful.setQueue {s : State} (h : s.QueuesLawful) (q : QueueId) {n : NoticeQueue} (hn : n.Law) :
    (s.setQueue q n).QueuesLawful := by
  intro r
  rw [queue_setQueue]
  split
  · exact hn
  · exact h r

theorem carries_of_activity {s t : State} (h : t.engine.activity = s.engine.activity) {p : Post}
    (hp : t.Carries p) : s.Carries p := by
  obtain ⟨op, hb, hpost⟩ := hp
  exact ⟨op, h ▸ hb, hpost⟩

theorem not_carries_of_open {s : State} (h : s.Open) (p : Post) : ¬ s.Carries p :=
  fun ⟨op, hb, _⟩ => h op hb

/-- What a step that starts no operation must show. -/
theorem State.NoticeLaw.of {s t : State} (h : s.NoticeLaw) (hq : s.QueuesLawful → t.QueuesLawful)
    (hp : ∀ p, t.Carries p → s.Carries p) : t.NoticeLaw := by
  obtain ⟨hqs, hps⟩ := (noticeLaw_iff s).mp h
  exact (noticeLaw_iff t).mpr ⟨hq hqs, fun p hc => hps p (hp p hc)⟩

/-- A step that leaves the engine's activity alone. -/
theorem State.NoticeLaw.of_activity {s t : State} (h : s.NoticeLaw) (ha : t.engine.activity = s.engine.activity)
    (hq : s.QueuesLawful → t.QueuesLawful) : t.NoticeLaw := h.of hq fun _ => carries_of_activity ha

/-- A step that leaves the Notice Unit alone. -/
theorem State.NoticeLaw.of_notices {s t : State} (h : s.NoticeLaw) (hn : t.notices = s.notices)
    (hp : ∀ p, t.Carries p → s.Carries p) : t.NoticeLaw := h.of (·.of_queues (queue_of_notices hn)) hp

/-- A step that leaves Notice Unit and engine alone. -/
theorem State.NoticeLaw.same {s t : State} (h : s.NoticeLaw) (hn : t.notices = s.notices) (he : t.engine = s.engine) :
    t.NoticeLaw := h.of_notices hn fun _ => carries_of_activity (by rw [he])

/-! ## Reports, pops and owners -/

theorem takeWaitingReport_queue (s : State) (e : EntryIdx) (q : QueueId) :
    (s.takeWaitingReport e).queue q = s.queue q := by
  unfold State.takeWaitingReport
  split
  · rw [queue_of_notices (takeReport_notices _ e), setReports_queue]
  · rfl

/-- A pop leaves a queue or takes its head (R98). -/
theorem takePop_queue (s : State) (q : QueueId) (i : Nat) (r : QueueId) :
    (s.takePop q i).queue r = s.queue r ∨ (s.takePop q i).queue r = (s.queue r).popped := by
  unfold State.takePop
  split
  · exact .inl (queue_of_notices (misuse_notices s) r)
  · split
    · have hrep : ∀ (t : State) (e : EntryIdx), (t.reportIfNone e).queue r = t.queue r := by
        intro t e
        unfold State.reportIfNone
        split
        · exact sendReport_queue t e r
        · rfl
      rw [hrep, queue_setQueue]
      split
      · rename_i hr; exact .inr (by rw [hr])
      · exact .inl rfl
    · exact .inl (queue_of_notices (misuse_notices s) r)

theorem State.QueuesLawful.takePop {s : State} (h : s.QueuesLawful) (q : QueueId) (i : Nat) :
    (s.takePop q i).QueuesLawful := by
  intro r
  rcases takePop_queue s q i r with hr | hr <;> rw [hr]
  · exact h r
  · exact popped_law (h r)

/-- A pop that comes to stand, or stands no longer, leaves the queues lawful (R100). -/
theorem State.QueuesLawful.setStanding {s : State} (h : s.QueuesLawful) (q : QueueId) (e : Option EntryIdx) :
    (s.setQueue q { s.queue q with standing := e }).QueuesLawful := h.setQueue q ((h q).of_port rfl rfl rfl rfl)

theorem State.QueuesLawful.takeStanding {s : State} (h : s.QueuesLawful) (q : QueueId) :
    (s.takeStanding q).QueuesLawful := by
  unfold State.takeStanding
  split
  · exact h
  · exact (h.setStanding q none).takePop q _

theorem State.QueuesLawful.popNotice {s : State} (h : s.QueuesLawful) (q : QueueId) (i : Nat) :
    (s.popNotice q i).QueuesLawful := by
  have hm : s.misuse.QueuesLawful := h.of_queues (queue_of_notices (misuse_notices s))
  unfold State.popNotice
  split
  · exact hm
  · split
    · exact hm
    · split
      · exact h.setStanding q _
      · exact h.takePop q i

/-- A read of the port seals the head, or only writes the port (R92, R96). -/
theorem afterRead_law {n : NoticeQueue} (h : n.Law) : n.afterRead.Law := by
  by_cases h0 : n.pointer = 0
  · cases hp : n.proper with
    | nil => rw [afterRead_empty h0 hp]; exact h.of_port rfl rfl rfl rfl
    | cons x rest => rw [afterRead_head h0 hp]; exact sealed_law h (by simp [hp]) _ _
  · rw [afterRead_inside h0]; exact h.of_port rfl rfl rfl rfl

theorem State.QueuesLawful.readNotice {s : State} (h : s.QueuesLawful) (q : QueueId) :
    (s.readNotice q).QueuesLawful :=
  (h.setQueue q (afterRead_law (h q))).of_queues fun r => by rw [readNotice_eq, answerRead_queue]

theorem State.QueuesLawful.purgeRequested {s : State} (h : s.QueuesLawful) (e : Option EntryIdx) :
    (s.purgeRequested e).QueuesLawful := by
  cases e with
  | none => exact h
  | some e => intro q; exact queue_purge s e q ▸ purged_law (h q) e

/-! ## The watermark (R105, R137) -/

theorem withIndex_ok_iff {α : Type} {x : Option α} {k : α → Checked} {c : Command} :
    withIndex x k = .ok c ↔ ∃ a, x = some a ∧ k a = .ok c := by
  cases x <;> simp [withIndex]

theorem withRange_ok_iff {α : Type} {x : Option α} {k : α → Checked} {c : Command} :
    withRange x k = .ok c ↔ ∃ a, x = some a ∧ k a = .ok c := by
  cases x <;> simp [withRange]

theorem checkTimebase_not_queueConfig (p : Vector Byte 8) (q : QueueId) (w : Byte) :
    checkTimebase p ≠ .ok (.queueConfig q w) := by
  intro h
  obtain ⟨t, -, h⟩ := withIndex_ok_iff.mp h
  split at h
  · cases t with
    | tb0 => cases h
    | tb1 =>
      rw [checkSetDivider] at h
      split at h
      · obtain ⟨x, -, h⟩ := withRange_ok_iff.mp h; cases h
      · cases h
  all_goals cases h

/-- A QUEUE CONFIG that has passed its checks carries a watermark of 1 to 16 (R105, R137). -/
theorem queueConfig_watermark {c : QueuedCommand} {q : QueueId} {w : Byte} (h : c.check = .ok (.queueConfig q w)) :
    1 ≤ w.toNat ∧ w.toNat ≤ 16 := by
  unfold QueuedCommand.check at h
  split at h
  case h_11 => exact absurd h (checkTimebase_not_queueConfig _ q w)
  case h_12 =>
    obtain ⟨x, -, h⟩ := withIndex_ok_iff.mp h
    split at h
    · rename_i hw; cases h; exact hw
    · cases h
  case h_7 =>
    obtain ⟨e, -, h⟩ := withIndex_ok_iff.mp h
    split at h
    · cases h
    · split at h <;> cases h
  all_goals
    simp [checkAlloc, checkSetupTiming, checkSetupBehavior, checkArmAt, checkBindTrigger, checkRetune,
      withIndex_ok_iff, withRange_ok_iff] at h

/-! ## Owners -/

theorem State.QueuesLawful.flush {s : State} (h : s.QueuesLawful) (q : QueueId) :
    (ownFlushQueue q s).1.QueuesLawful := by
  unfold ownFlushQueue
  dsimp only
  split
  · exact h
  · exact (h.setQueue q (flushed_law (h q))).of_queues (sendReports_queue _ _)

/-- Only QUEUE CONFIG and FLUSH QUEUE write the Notice Unit (R103, R105, R138). -/
theorem State.QueuesLawful.owned {s : State} (h : s.QueuesLawful) {c : Command} {r : Owned} (ho : s.owned c = some r)
    (hw : ∀ q w, c = .queueConfig q w → 1 ≤ w.toNat ∧ w.toNat ≤ 16) : r.1.QueuesLawful := by
  cases c <;> simp only [State.owned, Option.some.injEq, reduceCtorEq] at ho <;> subst ho
  case queueConfig q w =>
    obtain ⟨h1, h2, h3, h4, h5, h6, -⟩ := h q
    exact h.setQueue q ⟨h1, h2, h3, h4, h5, h6, hw q w rfl⟩
  case flushQueue q => exact h.flush q
  case alloc => rw [ownAlloc_frame]; exact h
  case setupTiming => rw [ownSetupTiming_frame]; exact h
  case setupBehavior => rw [ownSetupBehavior_frame]; exact h
  case setDivider => rw [ownSetDivider_frame]; exact h
  case start => rw [ownStart_frame]; exact h
  case stop => rw [ownStop_frame]; exact h
  case clearFault => rw [ownClearFault_frame]; exact h
  case bindTrigger => rw [ownBindTrigger_frame]; exact h
  case retune => rw [ownRetune_frame]; exact h

theorem State.NoticeLaw.ownerStep {s : State} (h : s.NoticeLaw) (k : Command → Bool) : (s.ownerStep k).NoticeLaw := by
  unfold State.ownerStep
  split
  · exact h
  · rename_i c hc
    split
    · exact h
    · rename_i s' st v ho
      split
      · have he : s'.engine = s.engine := by simpa using congrArg State.engine (owned_frame ho)
        refine State.NoticeLaw.same ?_ (answer_notices s' st v) (answer_engine s' st v)
        refine h.of_activity (by rw [he]) fun hq => hq.owned ho fun q w hcw => ?_
        obtain ⟨x, -, -, hx⟩ := execution_of_executing (ownerDue_some hc).1
        exact queueConfig_watermark (hcw ▸ hx)
      · exact h

/-! ## The post of a service (R72, R82) -/

/-- A service counts at least one expiry (R68–R70). -/
theorem expiries_count_pos (x : Entry) (now : Tick) : 1 ≤ (x.expiries now).count := by
  unfold Entry.expiries
  dsimp only
  split
  · exact Nat.le_refl 1
  · split
    · (repeat' split) <;> exact Nat.le_refl 1
    · split
      · exact Nat.le_add_left 1 _
      · rename_i h0
        split
        · exact Nat.le_add_left 1 _
        · exact toNat_pos_of_ne h0

theorem postOf_count_pos {x : Entry} {b : Timebase} {e : EntryIdx} {n : Expiries} {miss : Bool} {now : Tick} {p : Post}
    (hn : 1 ≤ n.count) (h : x.postOf b e n miss now = some p) : 1 ≤ p.count := by
  unfold Entry.postOf at h
  dsimp only at h
  split at h
  · cases h
  · cases h; exact hn
  · split at h
    · cases h; exact Nat.le_refl 1
    · cases h

/-- Of the plans that the engine decides only a service's has a post, and the post counts at least 1. -/
theorem State.Plans.post_count_pos {s : State} {pl : Plan} (h : s.Plans pl) {p : Post} (hp : pl.post = some p) :
    1 ≤ p.count := by
  have none_of : pl.post = none → 1 ≤ p.count := fun hn => by rw [hn] at hp; cases hp
  cases h with
  | service => exact postOf_count_pos (expiries_count_pos _ _) hp
  | start => exact none_of (by unfold State.startPlan; split <;> rfl)
  | cancel => exact none_of (by unfold State.cancelPlan; split <;> rfl)
  | free => exact none_of (by unfold State.freePlan; split <;> rfl)
  | hold => exact none_of (by unfold State.holdPlan; (repeat' split) <;> rfl)
  | resume => exact none_of (by unfold State.resumePlan; (repeat' split) <;> rfl)
  | clearNow => exact none_of (by unfold State.clearNowPlan; split <;> rfl)

/-! ## Grants and the steps of an operation in flight -/

/-- A grant puts a decided plan in flight, or nothing happens (R47). -/
def State.GrantedFrom (t s : State) : Prop := t = s ∨ ∃ op, t.engine.activity = .busy op ∧ s.Plans op.plan

theorem grantService_from (s : State) : s.grantService.GrantedFrom s := by
  unfold State.grantService
  split
  · exact .inl rfl
  · rename_i hc; exact .inr ⟨_, rfl, .service hc⟩

theorem grantCommand_from (s : State) (k : Command → Bool) : (s.grantCommand k).GrantedFrom s := by
  unfold State.grantCommand
  split
  · exact .inl rfl
  · split
    · exact .inl rfl
    · rename_i hp
      split
      · exact .inr ⟨_, rfl, commandPlan_plans hp⟩
      · exact .inl rfl

theorem grantTrigger_from (s : State) (k : TriggerAction → Bool) : (s.grantTrigger k).GrantedFrom s := by
  unfold State.grantTrigger
  split
  · exact .inl rfl
  · split
    · exact .inr ⟨_, rfl, triggerPlan_plans s _⟩
    · exact .inl rfl

theorem State.NoticeLaw.granted {s t : State} (h : s.NoticeLaw) (hn : t.notices = s.notices) (hg : t.GrantedFrom s) :
    t.NoticeLaw := by
  rcases hg with rfl | ⟨op, hb, hp⟩
  · exact h
  · refine (noticeLaw_iff t).mpr ⟨((noticeLaw_iff s).mp h).1.of_queues (queue_of_notices hn), ?_⟩
    rintro p ⟨op', hb', hpost⟩
    rw [hb] at hb'; cases hb'
    exact hp.post_count_pos hpost

/-- The plan in flight is replaced by one without a post, or with the same (R66). -/
theorem carries_of_setPlan {s t : State} {op : Operation} (hb : s.engine.activity = .busy op) {pl : Plan}
    {p : Post} (hp : (t.setPlan op pl).Carries p)
    (hpl : pl.post = none ∨ pl.post = op.plan.post) : s.Carries p := by
  obtain ⟨op', hb', hpost⟩ := hp
  cases hb'
  rcases hpl with hpl | hpl
  · exact absurd (hpl.symm.trans hpost) nofun
  · exact ⟨op, hb, hpl.symm.trans hpost⟩

theorem State.NoticeLaw.handLineOp {s : State} (h : s.NoticeLaw) : s.handLineOp.NoticeLaw := by
  refine h.of_notices (handLineOp_notices s) fun p hp => ?_
  unfold State.handLineOp at hp
  split at hp
  · rename_i op hb
    split at hp
    · exact carries_of_setPlan hb hp (.inr rfl)
    · exact hp
  all_goals exact hp

/-- The one step that places a post, which counts at least 1 (R93). -/
theorem State.NoticeLaw.handPost {s : State} (h : s.NoticeLaw) : s.handPost.NoticeLaw := by
  unfold State.handPost
  split
  · rename_i op hb
    split
    · rename_i p _ hp
      refine h.of (fun hq => ?_) fun _ hc => carries_of_setPlan hb hc (.inl rfl)
      have hposted := hq.setQueue p.queue (posted_law (hq p.queue) (h.post op p hb hp))
      exact hposted.of_queues (queue_of_notices (setPlan_notices (s.takePost p) op _))
    all_goals exact h
  all_goals exact h

theorem State.NoticeLaw.walkStep {s : State} (h : s.NoticeLaw) : s.walkStep.NoticeLaw := by
  refine h.of_notices (walkStep_notices s) fun p hp => ?_
  unfold State.walkStep at hp
  split at hp
  · rename_i op hb
    split at hp
    · rename_i kind g e rest _
      cases kind with
      | hold => exact carries_of_setPlan hb (carries_of_activity (holdMember_activity _ _ g e) hp) (.inr rfl)
      | resume => exact carries_of_setPlan hb (carries_of_activity (resumeMember_activity _ _ g e) hp) (.inr rfl)
    all_goals exact hp
  all_goals exact hp

/-- The final step purges, and its writes leave the Notice Unit alone (R58). -/
theorem State.NoticeLaw.finalStep {s : State} (h : s.NoticeLaw) : s.finalStep.NoticeLaw := by
  unfold State.finalStep
  split
  · rename_i op hb
    split
    · refine h.of (fun hq => ?_) fun _ hc => carries_of_setPlan hb hc (.inr rfl)
      refine (hq.purgeRequested op.plan.purge).of_queues (queue_of_notices ?_)
      rw [setPlan_notices, acts_notices]
    · exact h
  all_goals exact h

theorem complete_open_or (s : State) : s.complete = s ∨ s.complete.Open := by
  unfold State.complete
  split
  · split
    · exact .inr fun op => by rw [handBack_engine]; nofun
    · exact .inl rfl
  all_goals exact .inl rfl

theorem State.NoticeLaw.complete {s : State} (h : s.NoticeLaw) : s.complete.NoticeLaw := by
  refine h.of_notices (complete_notices s) fun p hp => ?_
  rcases complete_open_or s with he | ho
  · exact he ▸ hp
  · exact absurd hp (not_carries_of_open ho p)

theorem decideGrant_open (s : State) : s.decideGrant.Open := by
  intro op
  unfold State.decideGrant
  rw [setActivity_activity]
  split <;> nofun

theorem clear_open (s : State) : s.clear.Open := fun _ => nofun

/-- A scheduler clear empties the queues and keeps their watermarks (R111). -/
theorem State.NoticeLaw.clear {s : State} (h : s.NoticeLaw) : s.clear.NoticeLaw :=
  ⟨cleared_law h.nq0.watermark, cleared_law h.nq1.watermark, fun op _ hb => absurd hb (clear_open s op)⟩

/-! ## Every step -/

theorem noticeLaw_due : DueKeeps State.NoticeLaw where
  report s e h := h.of_activity (by simp) (·.of_queues (takeWaitingReport_queue s e))
  standing s q h := h.of_activity (by simp) (·.takeStanding q)
  nop s h := h.same (by simp) (by simp)
  owner s k h := h.ownerStep k
  decide s _ h := h.of_notices (by simp) fun p hp => absurd hp (not_carries_of_open (decideGrant_open s) p)

theorem noticeLaw_grant : GrantKeeps State.NoticeLaw where
  service s _ h := h.granted (by simp) (grantService_from s)
  command s k _ h := h.granted (by simp) (grantCommand_from s k)
  trigger s k _ h := h.granted (by simp) (grantTrigger_from s k)

theorem noticeLaw_engine : EngineKeeps State.NoticeLaw where
  lineOp _ h := h.handLineOp
  post _ h := h.handPost
  walk _ h := h.walkStep
  final _ h := h.finalStep
  complete _ h := h.complete

theorem noticeLaw_window : WindowKeeps State.NoticeLaw where
  cmd s b h := h.same (by simp) (by simp)
  writeParam s b h := h.same (by simp) (by simp)
  readParam s h := h.same (by simp) (by simp)
  pptr s b h := h.same (by simp) (by simp)
  readResult s h := h.same (by simp) (by simp)
  popResult s h := h.same (by simp) (by simp)
  readNotice s q h := h.of_activity (by simp) (·.readNotice q)
  popNotice s q i h := h.of_activity (by simp) (·.popNotice q i)
  vsel s b h := h.same (by simp) (by simp)
  view s h := h.same (by simp) (by simp)
  nsel s b h := h.same (by simp) (by simp)
  now s h := h.same (by simp) (by simp)
  iclr s b h := h.same (by simp) (by simp)
  ien s b h := h.same (by simp) (by simp)
  outop s n o h := h.same (by simp) (by simp)
  misuse s h := h.same (by simp) (by simp)
  flags s b h := h.same (by simp) (by simp)
  enables s b h := h.same (by simp) (by simp)
  clear s h := h.clear
  discard s h := h.same (by simp) (by simp)
  clearWm s h := h.same (by simp) (by simp)

theorem noticeLaw_pin : PinKeeps State.NoticeLaw where
  clk s h := h.of_notices (by simp) fun _ => carries_of_activity (clkPeriod_engine s).2
  tki s h := h.same (by simp) (by simp)
  trigger s l h := h.same (by simp) (by simp)
  reset tki trg _ := (resetWith_noticeLaw tki trg).same rfl rfl

theorem noticeLaw_keeps : Keeps State.NoticeLaw where
  due := noticeLaw_due
  grant := noticeLaw_grant
  engine := noticeLaw_engine
  window := noticeLaw_window
  pin := noticeLaw_pin
  pending _ _ h := h.same rfl rfl

/-- Settles O56: each shared operation keeps the law, and so every step does. -/
theorem noticeLawKept : Obligations.NoticeLawKept := fun _ _ h e => step_keeps noticeLaw_keeps h e

end Sys2Proof.Machine
end

section
/-!
The law of SPENT and FREE entries (R5, R106) is not kept by every step. The law says of a post on its way that its entry
is ARMED until the retirement. A plan that has both a post and a walk may hold that entry before the post is handed
over; the engine decides no such plan, but the law of the lists and the law itself allow it.
-/
namespace Sys2Proof.Machine

/-! ## A post and a hold walk in one operation -/

/-- Entry 0 on timebase TB0, ARMED, in group 0. -/
def heldBeforePost.member : Entry :=
  { Entry.reset with state := .armed, behavior := { Behavior.defaults with group := some 0 } }

/-- A post for entry 0. -/
def heldBeforePost.post : Post :=
  { queue := .nq0, entry := 0, tag := 0, timebase := .tb0, final := false, chainMiss := false, count := 1
    deadline := 0, lateness := 0 }

/-- An operation on entry 0 that has still to post for it and to hold it. -/
def heldBeforePost.operation : Operation :=
  { client := .command, now0 := 0, now1 := 0
    plan := { Plan.refused [0] .ok 0 with
      post := some heldBeforePost.post, walk := some { kind := .hold, group := 0, todo := [0] } } }

/-- The state with that operation in flight, every other entry FREE, and the walk step next. -/
def heldBeforePost : State :=
  { State.reset with
    pending := [.walkMemberStep]
    table := { entries := TimerTable.reset.entries.set 0 heldBeforePost.member, freeList := (List.finRange 48).tail }
    engine := { ListEngine.reset with list0 := [0], activity := .busy heldBeforePost.operation } }

theorem heldBeforePost_operation {op : Operation} (h : heldBeforePost.engine.activity = .busy op) :
    op = heldBeforePost.operation := by
  cases h; rfl

theorem heldBeforePost_ready : heldBeforePost.operation.plan.Ready heldBeforePost where
  acts := nofun
  apart := .nil
  purge := nofun
  walk w hw := by
    cases hw
    exact ⟨⟨by decide, by decide⟩, nofun⟩

theorem heldBeforePost_listLaw : heldBeforePost.ListLaw where
  free := by decide
  freeOnce := by decide
  pending t := by cases t <;> decide
  once t := by cases t <;> decide
  plan op hb := heldBeforePost_operation hb ▸ heldBeforePost_ready

theorem heldBeforePost_spentLaw : heldBeforePost.SpentLaw where
  free := by decide
  spent := by decide
  post op p hb hp := by
    cases heldBeforePost_operation hb
    cases hp
    decide
  release op e hb ha := by
    cases heldBeforePost_operation hb
    cases ha
  purge op e hb hp := by
    cases heldBeforePost_operation hb
    cases hp

/-- The walk step holds entry 0 and leaves its post on the way. -/
theorem heldBeforePost_step : ∃ t op, step heldBeforePost = .next t ∧ t.engine.activity = .busy op ∧
    op.plan.post = some heldBeforePost.post ∧ (t.entry 0).state = .held :=
  ⟨_, _, rfl, rfl, rfl, by decide⟩

/-- Refutes O59: after the walk step the entry of the post is HELD. -/
theorem not_spentLawKept : ¬ Obligations.SpentLawKept := by
  intro h
  obtain ⟨t, op, hstep, hb, hpost, hheld⟩ := heldBeforePost_step
  have harmed := ((h _ t heldBeforePost_listLaw heldBeforePost_spentLaw hstep).post op _ hb hpost).2
  exact absurd (hheld.symm.trans harmed) nofun

end Sys2Proof.Machine
end

section
/-!
The law of the groups (R112, R113), kept by every step. It has three parts: entries and group table fit each other, a
phase that shows a walk has that walk in flight, and what the plan in flight has decided about groups still fits them.
-/
namespace Sys2Proof.Machine

/-! ## Members and held counts (R112) -/

theorem mem_membersIn {s : State} {st : EntryState} {g : GroupIdx} {e : EntryIdx} :
    e ∈ s.membersIn st g ↔ (s.entry e).state = st ∧ (s.entry e).behavior.group = some g := by
  simp [State.membersIn]

theorem membersIn_eq_nil {s : State} {st : EntryState} {g : GroupIdx} :
    s.membersIn st g = [] ↔ ∀ e, (s.entry e).state = st → (s.entry e).behavior.group ≠ some g := by
  rw [List.eq_nil_iff_forall_not_mem]
  simp [mem_membersIn]

/-- What an entry counts in the held count of a group (R112). -/
def Entry.heldIn (x : Entry) (g : GroupIdx) : Nat := if x.state = .held ∧ x.behavior.group = some g then 1 else 0

theorem heldIn_of_ne {x : Entry} (h : x.state ≠ .held) (g : GroupIdx) : x.heldIn g = 0 := if_neg fun hh => h hh.1

/-- The HELD members are those among the other entries, and the entry itself if it is one. -/
theorem membersIn_length_split (s : State) (e : EntryIdx) (g : GroupIdx) :
    (s.membersIn .held g).length = (((List.finRange 48).erase e).filter fun a =>
      (s.entry a).state == .held && (s.entry a).behavior.group == some g).length + (s.entry e).heldIn g := by
  have hperm := List.perm_cons_erase (List.mem_finRange e)
  rw [State.membersIn, (hperm.filter _).length_eq, List.filter_cons, Entry.heldIn]
  split <;> simp_all

/-- A write of one entry changes the number of HELD members by that entry alone. -/
theorem membersIn_length_write {s t : State} {e : EntryIdx} (ho : ∀ a, a ≠ e → t.entry a = s.entry a) (g : GroupIdx) :
    (t.membersIn .held g).length + (s.entry e).heldIn g = (s.membersIn .held g).length + (t.entry e).heldIn g := by
  have hrest : ∀ a ∈ (List.finRange 48).erase e, t.entry a = s.entry a := fun a ha =>
    ho a ((List.nodup_finRange 48).mem_erase_iff.mp ha).1
  rw [membersIn_length_split t e, membersIn_length_split s e,
    List.filter_congr (l := (List.finRange 48).erase e)
      (q := fun a => (s.entry a).state == .held && (s.entry a).behavior.group == some g)
      fun a ha => by rw [hrest a ha]]
  omega

/-! ## Phases and walks (R113, R115, R117) -/

/-- The phase that the opening step of a walk writes. -/
def WalkKind.opened (kind : WalkKind) : GroupPhase :=
  match kind with
  | .hold => .holding
  | .resume => .resuming

/-- The depth that the opening step of a walk writes. -/
def WalkKind.depth (kind : WalkKind) : BitVec 4 :=
  match kind with
  | .hold => 1
  | .resume => 0

/-- The phase that the closing step of a walk writes. -/
def WalkKind.closed (kind : WalkKind) : GroupPhase :=
  match kind with
  | .hold => .held
  | .resume => .running

/-- The state of the members that a walk has still to move. -/
def WalkKind.moves (kind : WalkKind) : EntryState :=
  match kind with
  | .hold => .armed
  | .resume => .held

/-- The opening step of a walk writes phase and depth of its group. -/
theorem openWalk_some_group (s : State) (kind : WalkKind) (g h : GroupIdx) (todo : List EntryIdx) :
    (s.openWalk (some ⟨kind, g, todo⟩)).group h =
      if g = h then { s.group g with phase := kind.opened, depth := kind.depth } else s.group h := by
  cases kind <;> exact group_setGroup _ _ _ _

theorem walk_groupReady_iff (s : State) (w : Walk) (acts : List Act) :
    w.GroupReady s acts ↔ (s.group w.group).phase = w.kind.opened ∧
      (∀ e ∈ s.membersIn w.kind.moves w.group, e ∈ w.todo) ∧ acts = [.closeWalk w.group w.kind.closed] := by
  obtain ⟨kind, g, todo⟩ := w
  cases kind <;> exact Iff.rfl

theorem walkReady_iff (s : State) (w : Walk) :
    w.Ready s ↔ w.todo.Nodup ∧ ∀ e ∈ w.todo, (s.entry e).behavior.group = some w.group ∧
      (s.entry e).state = w.kind.moves := by
  obtain ⟨kind, g, todo⟩ := w
  cases kind <;> exact Iff.rfl

/-! ## The three parts of the law -/

/-- A HELD entry has a group, which is not RUNNING; an ARMED entry is in no HELD group (R113). -/
structure Entry.FitsGroups (x : Entry) (G : GroupIdx → Group) : Prop where
  held : x.state = .held → ∃ g, x.behavior.group = some g ∧ (G g).phase ≠ .running
  armed : x.state = .armed → ∀ g, x.behavior.group = some g → (G g).phase ≠ .held

/-- The hold depth against the phase (R113). -/
def Group.DepthFits (r : Group) : Prop :=
  match r.phase with
  | .running | .resuming => r.depth = 0
  | .holding => r.depth = 1
  | .held => r.depth ≠ 0

/-- The clauses of `GroupLaw` about table and groups alone. -/
structure State.GroupsFit (s : State) : Prop where
  count : ∀ g, (s.group g).heldCount = (s.membersIn .held g).length
  depth : ∀ g, (s.group g).DepthFits
  entries : ∀ e, (s.entry e).FitsGroups s.group

/-- Every walk that a phase shows is in flight (R61, R113). -/
def State.WalksInFlight (s : State) : Prop := ∀ kind g, (s.group g).phase = WalkKind.opened kind → s.walking kind g

/-- What a plan has decided about groups still fits them. -/
structure Plan.GroupReady (s : State) (p : Plan) : Prop where
  acts : ∀ a ∈ p.acts, a.GroupReady s
  closing : ∀ g ph, Act.closeWalk g ph ∈ p.acts → p.walk.isSome
  walk : ∀ w, p.walk = some w → w.GroupReady s p.acts

/-- The law of a phase, clause by clause (R113). -/
theorem phaseLaw_iff (s : State) (g : GroupIdx) :
    s.PhaseLaw g ↔ (s.group g).DepthFits ∧ ((s.group g).phase = .running → s.membersIn .held g = []) ∧
      ((s.group g).phase = .held → s.membersIn .armed g = []) ∧
      ∀ kind, (s.group g).phase = WalkKind.opened kind → s.walking kind g := by
  have hk : ∀ Q : WalkKind → Prop, (∀ kind, Q kind) ↔ Q .hold ∧ Q .resume := fun Q =>
    ⟨fun h => ⟨h _, h _⟩, fun h kind => match kind with
      | .hold => h.1
      | .resume => h.2⟩
  rw [hk]
  unfold State.PhaseLaw Group.DepthFits
  cases (s.group g).phase <;> simp [WalkKind.opened]

theorem groupLaw_iff (s : State) :
    s.GroupLaw ↔ s.GroupsFit ∧ s.WalksInFlight ∧ ∀ op, s.engine.activity = .busy op → op.plan.GroupReady s := by
  constructor
  · intro h
    have hph := fun g => (phaseLaw_iff s g).mp (h.phase g)
    refine ⟨⟨h.count, fun g => (hph g).1, fun e => ⟨fun he => ?_, fun he g hg hp => ?_⟩⟩,
      fun kind g => (hph g).2.2.2 kind,
      fun op hb => ⟨h.acts op hb, fun g ph => h.closing op g ph hb, fun w => h.walk op w hb⟩⟩
    · obtain ⟨g, hg⟩ := Option.isSome_iff_exists.mp (h.grouped e he)
      exact ⟨g, hg, fun hp => membersIn_eq_nil.mp ((hph g).2.1 hp) e he hg⟩
    · exact membersIn_eq_nil.mp ((hph g).2.2.1 hp) e he hg
  · rintro ⟨hf, hw, hp⟩
    refine ⟨hf.count, fun g => (phaseLaw_iff s g).mpr ⟨hf.depth g, fun hph => ?_, fun hph => ?_, fun k => hw k g⟩,
      fun e he => ?_, fun op hb => (hp op hb).acts, fun op g ph hb => (hp op hb).closing g ph,
      fun op w hb => (hp op hb).walk w⟩
    · refine membersIn_eq_nil.mpr fun e hst hg => ?_
      obtain ⟨g', hg', hne⟩ := (hf.entries e).held hst
      cases hg.symm.trans hg'
      exact hne hph
    · exact membersIn_eq_nil.mpr fun e hst hg => (hf.entries e).armed hst g hg hph
    · obtain ⟨g, hg, _⟩ := (hf.entries e).held he
      rw [hg]; rfl

/-- No group shows a walk. -/
def State.NoWalk (s : State) : Prop := ∀ kind g, (s.group g).phase ≠ WalkKind.opened kind

/-- Only the walk in flight shows in a phase. -/
theorem noWalk_of {s : State} (hw : s.WalksInFlight) (hn : ∀ op, s.engine.activity = .busy op → op.plan.walk = none) :
    s.NoWalk := by
  intro kind g hp
  obtain ⟨op, todo, hb, hwalk⟩ := hw kind g hp
  exact absurd (hwalk.symm.trans (hn op hb)) nofun

/-- Without a walk and without writes decided, the law is that of table and groups. -/
theorem State.GroupsFit.groupLaw {s : State} (hf : s.GroupsFit) (hn : s.NoWalk)
    (hp : ∀ op, s.engine.activity = .busy op → op.plan.acts = [] ∧ op.plan.walk = none) : s.GroupLaw := by
  refine (groupLaw_iff s).mpr ⟨hf, fun kind g h => absurd h (hn kind g), fun op hb => ?_⟩
  obtain ⟨ha, hw⟩ := hp op hb
  exact ⟨by rw [ha]; nofun, by rw [ha]; nofun, by rw [hw]; nofun⟩

/-- A group that shows no walk is RUNNING or HELD. -/
theorem State.NoWalk.phase {s : State} (h : s.NoWalk) (g : GroupIdx) :
    (s.group g).phase = .running ∨ (s.group g).phase = .held := by
  have h1 := h .hold g
  have h2 := h .resume g
  cases hp : (s.group g).phase <;> simp_all [WalkKind.opened]

/-! ## Writes of one entry, and writes of groups -/

/-- A write of one entry, with the held counts after it (R112). -/
theorem State.GroupsFit.of_write {s t : State} {e : EntryIdx} (hs : s.GroupsFit)
    (ho : ∀ a, a ≠ e → t.entry a = s.entry a)
    (hg : ∀ g, (t.group g).phase = (s.group g).phase ∧ (t.group g).depth = (s.group g).depth)
    (hc : ∀ g, (t.group g).heldCount + (s.entry e).heldIn g = (s.group g).heldCount + (t.entry e).heldIn g)
    (hx : (t.entry e).FitsGroups s.group) : t.GroupsFit where
  count g := by
    have h1 := membersIn_length_write ho g
    have h2 := hs.count g
    have h3 := hc g
    omega
  depth g := by
    rw [Group.DepthFits, (hg g).1, (hg g).2]
    exact hs.depth g
  entries a := by
    have h : (t.entry a).FitsGroups s.group := by
      by_cases hae : a = e
      · exact hae ▸ hx
      · exact ho a hae ▸ hs.entries a
    refine ⟨fun ha => ?_, fun ha g hgr => (hg g).1 ▸ h.armed ha g hgr⟩
    obtain ⟨g, hgr, hne⟩ := h.held ha
    exact ⟨g, hgr, (hg g).1 ▸ hne⟩

/-- Writes of phases and depths: a group comes to RUNNING without HELD members, and to HELD without ARMED ones. -/
theorem State.GroupsFit.of_groups {s t : State} (hs : s.GroupsFit) (he : ∀ e, t.entry e = s.entry e)
    (hc : ∀ g, (t.group g).heldCount = (s.group g).heldCount) (hd : ∀ g, (t.group g).DepthFits)
    (hr : ∀ g, (t.group g).phase = .running → (s.group g).phase = .running ∨ s.membersIn .held g = [])
    (hh : ∀ g, (t.group g).phase = .held → (s.group g).phase = .held ∨ s.membersIn .armed g = []) : t.GroupsFit where
  count g := by
    have : t.membersIn .held g = s.membersIn .held g := by simp only [State.membersIn, he]
    rw [hc, this, hs.count]
  depth := hd
  entries e := by
    rw [he]
    refine ⟨fun hst => ?_, fun hst g hg hp => ?_⟩
    · obtain ⟨g, hg, hne⟩ := (hs.entries e).held hst
      refine ⟨g, hg, fun hp => ?_⟩
      rcases hr g hp with h | h
      · exact hne h
      · exact membersIn_eq_nil.mp h e hst hg
    · rcases hh g hp with h | h
      · exact (hs.entries e).armed hst g hg h
      · exact membersIn_eq_nil.mp h e hst hg

/-- A write of one group that leaves its held count. -/
theorem State.GroupsFit.of_group {s t : State} {g : GroupIdx} {r : Group} (hs : s.GroupsFit)
    (he : ∀ e, t.entry e = s.entry e) (hg : ∀ h, t.group h = if g = h then r else s.group h)
    (hc : r.heldCount = (s.group g).heldCount) (hd : r.DepthFits)
    (hr : r.phase = .running → (s.group g).phase = .running ∨ s.membersIn .held g = [])
    (hh : r.phase = .held → (s.group g).phase = .held ∨ s.membersIn .armed g = []) : t.GroupsFit := by
  have hcase : ∀ h, t.group h = s.group h ∨ h = g ∧ t.group h = r := by
    intro h
    rw [hg]
    split
    · rename_i heq; exact .inr ⟨heq.symm, rfl⟩
    · exact .inl rfl
  refine hs.of_groups he (fun h => ?_) (fun h => ?_) (fun h => ?_) fun h => ?_
  all_goals rcases hcase h with h' | ⟨rfl, h'⟩ <;> rw [h']
  · exact hc
  · exact hs.depth h
  · exact hd
  · exact .inl
  · exact hr
  · exact .inl
  · exact hh

theorem State.GroupsFit.of_same {s t : State} (hs : s.GroupsFit) (he : ∀ e, t.entry e = s.entry e)
    (hg : ∀ g, t.group g = s.group g) : t.GroupsFit :=
  hs.of_groups he (fun g => by rw [hg]) (fun g => hg g ▸ hs.depth g) (fun g h => .inl (hg g ▸ h))
    fun g h => .inl (hg g ▸ h)

/-- A HELD entry counts in its group. -/
theorem State.GroupsFit.heldIn_le {s : State} (hs : s.GroupsFit) (e : EntryIdx) (g : GroupIdx) :
    (s.entry e).heldIn g ≤ (s.group g).heldCount := by
  unfold Entry.heldIn
  split
  · rename_i h
    rw [hs.count g]
    exact List.length_pos_of_mem (mem_membersIn.mpr h)
  · exact Nat.zero_le _

/-! ## Writes of the final step (R45, R46, R114, R116) -/

theorem heldIn_settled (x : Entry) {st : EntryState} (h : st ≠ .held) (g : GroupIdx) : (x.settled st).heldIn g = 0 :=
  heldIn_of_ne h g

/-- An entry that is taken off its list, or out of its group's held count, is no longer counted (R46, R112). -/
theorem detach_group_kept {s : State} (hs : s.GroupsFit) (e : EntryIdx) (g : GroupIdx) :
    ((s.detach e).group g).phase = (s.group g).phase ∧ ((s.detach e).group g).depth = (s.group g).depth ∧
      ((s.detach e).group g).heldCount + (s.entry e).heldIn g = (s.group g).heldCount := by
  rw [group_detach]
  exact ⟨rfl, rfl, Nat.sub_add_cancel (hs.heldIn_le e g)⟩

/-- What a write of one entry does to the groups: it leaves phases and depths, and counts the entry if it is HELD
afterwards and no longer if it was (R112). -/
theorem act_group_entry {s : State} (hs : s.GroupsFit) {l : List EntryIdx} {a : Act} {e : EntryIdx} (h : a.Ready s l)
    (he : a.entry = some e) (op : Operation) (g : GroupIdx) :
    ((s.act op a).group g).phase = (s.group g).phase ∧ ((s.act op a).group g).depth = (s.group g).depth ∧
      ((s.act op a).group g).heldCount + (s.entry e).heldIn g =
        (s.group g).heldCount + ((s.act op a).entry e).heldIn g := by
  cases a with
  | link x d r =>
    cases he
    have hg : (s.act op (.link e d r)).group g = s.group g := by
      simp only [State.group, State.act, (link_kept _ _ _ _ _).2]
    have hx : (s.entry e).state ≠ .held := by rcases h.2 with hst | hst <;> simp [hst]
    rw [hg, heldIn_of_ne hx, State.act, link_entry, if_pos rfl, heldIn_of_ne (by simp [Entry.armed])]
    exact ⟨rfl, rfl, rfl⟩
  | hold x m r =>
    cases he
    rw [State.act, holdStart_group, holdStart_entry, if_pos rfl]
    refine ⟨rfl, rfl, ?_⟩
    rcases h.2 with hst | hst <;> simp [Entry.heldIn, Entry.heldWith, hst]
  | idle x =>
    cases he
    have hx : (s.act op (.idle e)).entry e = (s.entry e).settled .idle := entry_setEntry_same _ _ _
    rw [hx, heldIn_settled _ (by decide)]
    exact detach_group_kept hs e g
  | retire x =>
    cases he
    have hg : (s.act op (.retire e)).group g = s.group g := by simp only [State.group, (retire_kept s op e).1]
    have hx : ((s.act op (.retire e)).entry e).state ≠ .held := by
      rw [(retire_at s op e none).entry]
      dsimp only
      (repeat' split) <;> nofun
    rw [hg, heldIn_of_ne hx, heldIn_of_ne (by rw [h.2]; nofun)]
    exact ⟨rfl, rfl, rfl⟩
  | release x =>
    cases he
    have hg : (s.act op (.release e)).group g = (s.detach e).group g := group_of_engine (release_engine _ _) g
    have hx : (s.act op (.release e)).entry e = ((s.detach e).entry e).settled .free := entry_release_same _ _
    rw [hg, hx, heldIn_settled _ (by decide)]
    exact detach_group_kept hs e g
  | depth | closeWalk | clearNow => cases he

/-- What a write of the final step makes of an entry fits the groups (R113, R119). -/
theorem act_fitsGroups {s : State} (hs : s.GroupsFit) {a : Act} (ha : a.GroupReady s) (op : Operation) (e : EntryIdx) :
    ((s.act op a).entry e).FitsGroups s.group := by
  rcases act_entry_cases s op a e with h | ⟨st, h1, h2, h⟩ | ⟨d, r, rfl, h⟩ | ⟨m, r, rfl, h⟩ <;> rw [h]
  · exact hs.entries e
  · exact ⟨fun hh => absurd hh h2, fun hh => absurd hh h1⟩
  · exact ⟨nofun, fun _ g hg => by rw [ha g hg]; nofun⟩
  · obtain ⟨g, hg, hp⟩ := ha
    exact ⟨fun _ => ⟨g, hg, by rw [hp]; nofun⟩, nofun⟩

/-- A write of the hold depth of a HELD group (R114, R116). -/
theorem act_depth_group (s : State) (op : Operation) (g : GroupIdx) (n : BitVec 4) (h : GroupIdx) :
    (s.act op (.depth g n)).group h = if g = h then { s.group g with depth := n } else s.group h :=
  group_setGroup s g h _

theorem act_closeWalk_group (s : State) (op : Operation) (g : GroupIdx) (ph : GroupPhase) (h : GroupIdx) :
    (s.act op (.closeWalk g ph)).group h = if g = h then { s.group g with phase := ph } else s.group h :=
  group_setGroup s g h _

/-- A write of the hold depth keeps the phases, and the depth of a HELD group is not 0. -/
theorem act_depth_groupsFit {s : State} (hs : s.GroupsFit) {g : GroupIdx} {n : BitVec 4}
    (ha : (Act.depth g n).GroupReady s) (op : Operation) :
    (s.act op (.depth g n)).GroupsFit ∧ ∀ h, ((s.act op (.depth g n)).group h).phase = (s.group h).phase := by
  have hph : ∀ h, ((s.act op (.depth g n)).group h).phase = (s.group h).phase := by
    intro h
    rw [act_depth_group]
    split
    · rename_i hh; rw [hh]
    · rfl
  refine ⟨hs.of_group (fun _ => rfl) (act_depth_group s op g n) rfl ?_ .inl .inl, hph⟩
  rw [Group.DepthFits, ha.1]
  exact ha.2

/-- A write closes a walk (R115, R117). -/
def Act.Closes (a : Act) : Prop := ∃ g ph, a = .closeWalk g ph

/-- Every write but the closing step of a walk keeps the phases, and table and groups fit each other after it. -/
theorem State.GroupsFit.act {s : State} (hs : s.GroupsFit) {l : List EntryIdx} {a : Act} (hr : a.Ready s l)
    (ha : a.GroupReady s) (hn : ¬ a.Closes) (op : Operation) :
    (s.act op a).GroupsFit ∧ ∀ g, ((s.act op a).group g).phase = (s.group g).phase := by
  cases he : a.entry with
  | some e =>
    have hg := act_group_entry hs hr he op
    refine ⟨hs.of_write (e := e) (fun b hb => act_entry_other ?_) (fun g => ⟨(hg g).1, (hg g).2.1⟩) (fun g => (hg g).2.2)
      (act_fitsGroups hs ha op e), fun g => (hg g).1⟩
    rw [he]
    exact fun hh => hb (Option.some.inj hh).symm
  | none =>
    cases a with
    | depth g n => exact act_depth_groupsFit hs ha op
    | clearNow b =>
      have hg : ∀ g, (s.act op (.clearNow b)).group g = s.group g := group_of_engine (zeroNow_engine s b)
      exact ⟨hs.of_same (entry_of_table (zeroNow_table s b)) hg, fun g => by rw [hg]⟩
    | closeWalk g ph => exact absurd ⟨g, ph, rfl⟩ hn
    | _ => cases he

/-- What a write needs of the groups depends on the phases and on the group of its entry. -/
theorem Act.GroupReady.of_phases {s t : State} {a : Act} (h : a.GroupReady s)
    (hb : ∀ e, a.entry = some e → (t.entry e).behavior.group = (s.entry e).behavior.group)
    (hp : ∀ g, (t.group g).phase = (s.group g).phase) : a.GroupReady t := by
  cases a with
  | link e d r =>
    intro g hg
    rw [hb e rfl] at hg
    rw [hp]; exact h g hg
  | hold e m r =>
    obtain ⟨g, hg, hh⟩ := h
    exact ⟨g, (hb e rfl).trans hg, (hp g).trans hh⟩
  | depth g n => exact ⟨(hp g).trans h.1, h.2⟩
  | _ => trivial

/-- After a write, the writes of other entries can still be made. -/
theorem ready_after_act {s : State} {l : List EntryIdx} {a : Act} {rest : List Act} (op : Operation)
    (hd : ((a :: rest).filterMap Act.entry).Nodup) {b : Act} (hb : b ∈ rest) (h : b.Ready s l) :
    b.Ready (s.act op a) l := by
  refine h.of_states fun e he _ => ?_
  rw [act_entry_other fun hae => ?_]
  rw [List.filterMap_cons_some hae, List.nodup_cons] at hd
  exact hd.1 (List.mem_filterMap.mpr ⟨b, hb, he⟩)

/-- All writes of a final step without a walk, one after another. -/
theorem State.GroupsFit.acts {l : List EntryIdx} (op : Operation) (acts : List Act) {s : State} (hs : s.GroupsFit)
    (hr : ∀ a ∈ acts, a.Ready s l) (hd : (acts.filterMap Act.entry).Nodup) (ha : ∀ a ∈ acts, a.GroupReady s)
    (hn : ∀ a ∈ acts, ¬ a.Closes) :
    (acts.foldl (fun s a => s.act op a) s).GroupsFit ∧
      ∀ g, ((acts.foldl (fun s a => s.act op a) s).group g).phase = (s.group g).phase := by
  induction acts generalizing s with
  | nil => exact ⟨hs, fun _ => rfl⟩
  | cons a rest ih =>
    obtain ⟨hf, hph⟩ := hs.act (hr a (by simp)) (ha a (by simp)) (hn a (by simp)) op
    obtain ⟨hf', hph'⟩ := ih hf (fun b hb => ready_after_act op hd hb (hr b (by simp [hb])))
      (hd.sublist ((List.sublist_cons_self a rest).filterMap _))
      (fun b hb => (ha b (by simp [hb])).of_phases
        (fun e _ => congrArg Behavior.group (act_program s op a e).2) hph)
      fun b hb => hn b (by simp [hb])
    exact ⟨hf', fun g => (hph' g).trans (hph g)⟩

end Sys2Proof.Machine
end

section
/-!
A walk, step by step, and the writes of the final step, against the group table (R112, R113, R115, R117).
-/
namespace Sys2Proof.Machine

/-! ## The steps of a walk (R115, R117) -/

/-- The opening step of a walk leaves table and groups fitting, whatever walk it is. -/
theorem State.GroupsFit.openWalk {s : State} (hs : s.GroupsFit) (w : Option Walk) : (s.openWalk w).GroupsFit := by
  cases w with
  | none => exact hs
  | some w =>
    obtain ⟨kind, g, todo⟩ := w
    refine hs.of_group (entry_of_table (openWalk_table s _)) (fun h => openWalk_some_group s kind g h todo) rfl ?_ ?_ ?_
    · cases kind <;> exact rfl
    · cases kind <;> nofun
    · cases kind <;> nofun

/-- The closing step of a walk that has moved all its members. -/
theorem State.GroupsFit.closeWalk {s : State} (hs : s.GroupsFit) {kind : WalkKind} {g : GroupIdx}
    (hp : (s.group g).phase = kind.opened) (hm : s.membersIn kind.moves g = []) (op : Operation) :
    (s.act op (.closeWalk g kind.closed)).GroupsFit := by
  have hd : Group.DepthFits { s.group g with phase := kind.closed } := by
    have h := hs.depth g
    unfold Group.DepthFits at h
    rw [hp] at h
    cases kind with
    | hold => exact fun h0 => absurd (h.symm.trans h0) (by decide)
    | resume => exact h
  refine hs.of_group (fun _ => rfl) (act_closeWalk_group s op g kind.closed) rfl hd ?_ ?_
  · cases kind with
    | hold => nofun
    | resume => exact fun _ => .inr hm
  · cases kind with
    | hold => exact fun _ => .inr hm
    | resume => nofun

/-- A walk moves a member. -/
def State.moveMember (s : State) (kind : WalkKind) (now : Tick) (g : GroupIdx) (e : EntryIdx) : State :=
  match kind with
  | .hold => s.holdMember now g e
  | .resume => s.resumeMember now g e

/-- The plan of a walk that has moved its next member. -/
def Plan.moved (p : Plan) (kind : WalkKind) (g : GroupIdx) (rest : List EntryIdx) : Plan :=
  { p with walk := some ⟨kind, g, rest⟩, value := p.value + 1 }

theorem walkStep_of {s : State} {op : Operation} {kind : WalkKind} {g : GroupIdx} {e : EntryIdx} {rest : List EntryIdx}
    (hb : s.engine.activity = .busy op) (hw : op.plan.walk = some ⟨kind, g, e :: rest⟩) :
    s.walkStep = (s.setPlan op (op.plan.moved kind g rest)).moveMember kind
      (op.now (s.entry e).behavior.timebase) g e := by
  simp only [State.walkStep, hb, hw]
  cases kind <;> rfl

theorem walkStep_of_not_moving {s : State} (h : ∀ op kind g e rest, s.engine.activity = .busy op →
    op.plan.walk ≠ some ⟨kind, g, e :: rest⟩) : s.walkStep = s := by
  unfold State.walkStep
  split
  · rename_i op hb
    split
    · rename_i kind g e rest hw; exact absurd hw (h op kind g e rest hb)
    all_goals rfl
  all_goals rfl

theorem holdMember_group (s : State) (n : Tick) (g : GroupIdx) (e : EntryIdx) (h : GroupIdx) :
    (s.holdMember n g e).group h =
      { s.group h with heldCount := (s.group h).heldCount + (if g = h then 1 else 0) } := by
  rw [State.holdMember, raiseHeld_group, group_of_engine (setEntry_engine _ _ _)]
  simp [State.group, State.unlink]

theorem resumeMember_group (s : State) (n : Tick) (g : GroupIdx) (e : EntryIdx) (h : GroupIdx) :
    (s.resumeMember n g e).group h =
      { s.group h with heldCount := (s.group h).heldCount - (if g = h then 1 else 0) } := by
  rw [State.resumeMember, lowerHeld_group]
  simp [State.group, (link_kept _ _ _ _ _).2]

theorem moveMember_activity (s : State) (kind : WalkKind) (n : Tick) (g : GroupIdx) (e : EntryIdx) :
    (s.moveMember kind n g e).engine.activity = s.engine.activity := by
  cases kind with
  | hold => exact holdMember_activity s n g e
  | resume => exact resumeMember_activity s n g e

theorem moveMember_entry_other (s : State) (kind : WalkKind) (n : Tick) (g : GroupIdx) {e a : EntryIdx} (h : a ≠ e) :
    (s.moveMember kind n g e).entry a = s.entry a := by
  cases kind with
  | hold => exact (holdMember_entry s n g e a).trans (if_neg (Ne.symm h))
  | resume => exact (resumeMember_entry s n g e a).trans (if_neg (Ne.symm h))

/-- The state that a walk gives to its members. -/
def WalkKind.gives (kind : WalkKind) : EntryState :=
  match kind with
  | .hold => .held
  | .resume => .armed

theorem moveMember_entry_same (s : State) (kind : WalkKind) (n : Tick) (g : GroupIdx) (e : EntryIdx) :
    ((s.moveMember kind n g e).entry e).state = kind.gives ∧
      ((s.moveMember kind n g e).entry e).behavior = (s.entry e).behavior := by
  cases kind with
  | hold => rw [State.moveMember, holdMember_entry, if_pos rfl]; exact ⟨rfl, rfl⟩
  | resume => rw [State.moveMember, resumeMember_entry, if_pos rfl]; exact ⟨rfl, rfl⟩

theorem moveMember_phase (s : State) (kind : WalkKind) (n : Tick) (g : GroupIdx) (e : EntryIdx) (h : GroupIdx) :
    ((s.moveMember kind n g e).group h).phase = (s.group h).phase ∧
      ((s.moveMember kind n g e).group h).depth = (s.group h).depth := by
  cases kind with
  | hold => rw [State.moveMember, holdMember_group]; exact ⟨rfl, rfl⟩
  | resume => rw [State.moveMember, resumeMember_group]; exact ⟨rfl, rfl⟩

/-- The entry that a walk moves enters the held count, or leaves it (R112, R115, R117). -/
theorem moveMember_heldCount {s : State} (hs : s.GroupsFit) {kind : WalkKind} {g : GroupIdx} {e : EntryIdx}
    (hg : (s.entry e).behavior.group = some g) (hst : (s.entry e).state = kind.moves) (n : Tick) (h : GroupIdx) :
    ((s.moveMember kind n g e).group h).heldCount + (s.entry e).heldIn h =
      (s.group h).heldCount + ((s.moveMember kind n g e).entry e).heldIn h := by
  obtain ⟨hst', hb'⟩ := moveMember_entry_same s kind n g e
  have hle := hs.heldIn_le e h
  cases kind with
  | hold =>
    have h0 : (s.entry e).heldIn h = 0 := heldIn_of_ne (by rw [hst]; nofun) h
    have h1 : ((s.moveMember .hold n g e).entry e).heldIn h = if g = h then 1 else 0 := by
      simp [Entry.heldIn, hst', hb', hg, WalkKind.gives]
    rw [h0, h1, State.moveMember, holdMember_group]
    rfl
  | resume =>
    have h0 : ((s.moveMember .resume n g e).entry e).heldIn h = 0 := heldIn_of_ne (by rw [hst']; nofun) h
    have h1 : (s.entry e).heldIn h = if g = h then 1 else 0 := by
      simp [Entry.heldIn, hst, hg, WalkKind.moves]
    rw [h1] at hle
    rw [h0, h1, State.moveMember, resumeMember_group]
    exact Nat.sub_add_cancel hle

theorem State.GroupsFit.moveMember {s : State} (hs : s.GroupsFit) {kind : WalkKind} {g : GroupIdx} {e : EntryIdx}
    (hg : (s.entry e).behavior.group = some g) (hst : (s.entry e).state = kind.moves)
    (hp : (s.group g).phase = kind.opened) (n : Tick) : (s.moveMember kind n g e).GroupsFit := by
  obtain ⟨hst', hb'⟩ := moveMember_entry_same s kind n g e
  refine hs.of_write (e := e) (fun a ha => moveMember_entry_other s kind n g ha) (moveMember_phase s kind n g e)
    (moveMember_heldCount hs hg hst n) ?_
  cases kind with
  | hold => exact ⟨fun _ => ⟨g, by rw [hb', hg], by rw [hp]; nofun⟩, fun h => absurd (hst'.symm.trans h) nofun⟩
  | resume =>
    refine ⟨fun h => absurd (hst'.symm.trans h) nofun, fun _ h hh => ?_⟩
    rw [hb', hg] at hh
    cases hh
    rw [hp]; nofun

/-- A walk moves its next member while its plan goes on to the others: `u` is `s` with that plan. -/
theorem State.GroupLaw.moveMember {s u : State} (hs : s.GroupLaw) (hl : s.ListLaw) {op : Operation} {kind : WalkKind}
    {g : GroupIdx} {e : EntryIdx} {rest : List EntryIdx} (hb : s.engine.activity = .busy op)
    (hw : op.plan.walk = some ⟨kind, g, e :: rest⟩) (he : ∀ a, u.entry a = s.entry a)
    (hgr : ∀ h, u.group h = s.group h)
    (hu : u.engine.activity = .busy { op with plan := op.plan.moved kind g rest }) (n : Tick) :
    (u.moveMember kind n g e).GroupLaw := by
  obtain ⟨hf, hwalks, hplan⟩ := (groupLaw_iff s).mp hs
  obtain ⟨hg, hst⟩ := ((walkReady_iff s _).mp ((hl.plan op hb).walk _ hw).1).2 e (List.mem_cons_self ..)
  obtain ⟨hphase, hmem, hacts⟩ := (walk_groupReady_iff s _ _).mp ((hplan op hb).walk _ hw)
  have hphases : ∀ h, ((u.moveMember kind n g e).group h).phase = (s.group h).phase := fun h =>
    (moveMember_phase u kind n g e h).1.trans (congrArg Group.phase (hgr h))
  have hbt := (moveMember_activity u kind n g e).trans hu
  refine (groupLaw_iff _).mpr ⟨?_, fun k h hp => ?_, fun op' hb' => ?_⟩
  · exact (hf.of_same he hgr).moveMember (by rw [he]; exact hg) (by rw [he]; exact hst) (by rw [hgr]; exact hphase) n
  · obtain ⟨op1, todo, hb1, hw1⟩ := hwalks k h ((hphases h).symm.trans hp)
    cases hb.symm.trans hb1
    cases hw.symm.trans hw1
    exact ⟨_, rest, hbt, rfl⟩
  · cases hbt.symm.trans hb'
    refine ⟨fun a ha => ?_, fun _ _ _ => rfl, fun w hw' => ?_⟩
    · have ha : a ∈ op.plan.acts := ha
      rw [hacts, List.mem_singleton] at ha
      rw [ha]; trivial
    · cases hw'
      refine (walk_groupReady_iff _ _ _).mpr ⟨(hphases g).trans hphase, fun a ha => ?_, hacts⟩
      obtain ⟨hsta, hga⟩ := mem_membersIn.mp ha
      have hne : a ≠ e := by
        rintro rfl
        rw [(moveMember_entry_same u kind n g a).1] at hsta
        cases kind <;> cases hsta
      rw [moveMember_entry_other u kind n g hne, he] at hsta hga
      exact (List.mem_cons.mp (hmem a (mem_membersIn.mpr ⟨hsta, hga⟩))).resolve_left hne

/-- After a walk step its walk is in flight, with the members that are left. -/
theorem State.GroupLaw.walkStep {s : State} (hs : s.GroupLaw) (hl : s.ListLaw) : s.walkStep.GroupLaw := by
  by_cases h : ∃ op kind g e rest, s.engine.activity = .busy op ∧ op.plan.walk = some ⟨kind, g, e :: rest⟩
  · obtain ⟨op, kind, g, e, rest, hb, hw⟩ := h
    rw [walkStep_of hb hw]
    exact hs.moveMember hl hb hw (entry_of_table (setPlan_table s op _)) (fun _ => rfl) rfl _
  · rwa [walkStep_of_not_moving fun op kind g e rest hb hw => h ⟨op, kind, g, e, rest, hb, hw⟩]

/-! ## The final step -/

/-- The final step comes when the walk has moved all its members. -/
theorem todo_of_atFinalStep {p : Plan} (h : p.atFinalStep = true) {w : Walk} (hw : p.walk = some w) : w.todo = [] := by
  obtain ⟨kind, g, todo⟩ := w
  cases todo with
  | nil => rfl
  | cons e rest => simp [Plan.atFinalStep, Plan.walking, hw] at h

/-- The state after every write of the final step of an operation (R45, R46, R66). -/
def State.written (s : State) (op : Operation) : State := op.plan.acts.foldl (fun s a => s.act op a) s

/-- The writes of a final step without a walk. -/
theorem State.GroupLaw.plainWrites {s : State} (hs : s.GroupLaw) {op : Operation} (hb : s.engine.activity = .busy op)
    (hw : op.plan.walk = none) (hr : op.plan.Ready s) :
    (s.written op).GroupsFit ∧ (s.written op).NoWalk := by
  obtain ⟨hf, hwalks, hplan⟩ := (groupLaw_iff s).mp hs
  have hn : s.NoWalk := noWalk_of hwalks fun op' hb' => by cases hb.symm.trans hb'; exact hw
  have hclose : ∀ a ∈ op.plan.acts, ¬ a.Closes := by
    rintro a ha ⟨g, ph, rfl⟩
    have := (hplan op hb).closing g ph ha
    rw [hw] at this
    cases this
  obtain ⟨hf', hph⟩ := hf.acts op op.plan.acts hr.acts hr.apart (hplan op hb).acts hclose
  exact ⟨hf', fun kind g => hph g ▸ hn kind g⟩

/-- The closing step of a walk (R115, R117). -/
theorem State.GroupLaw.closingWrite {s : State} (hs : s.GroupLaw) {op : Operation} (hb : s.engine.activity = .busy op)
    {w : Walk} (hw : op.plan.walk = some w) (hdone : w.todo = []) :
    (s.written op).GroupsFit ∧ (s.written op).NoWalk := by
  obtain ⟨hf, hwalks, hplan⟩ := (groupLaw_iff s).mp hs
  obtain ⟨hphase, hmem, hacts⟩ := (walk_groupReady_iff s _ _).mp ((hplan op hb).walk w hw)
  have hm : s.membersIn w.kind.moves w.group = [] :=
    List.eq_nil_iff_forall_not_mem.mpr fun e he => by simpa [hdone] using hmem e he
  rw [State.written, hacts]
  refine ⟨hf.closeWalk hphase hm op, fun kind h hp => ?_⟩
  rw [List.foldl_cons, List.foldl_nil, act_closeWalk_group] at hp
  split at hp
  · obtain ⟨k, g, todo⟩ := w
    cases k <;> cases kind <;> cases hp
  · rename_i hne
    obtain ⟨op', todo, hb', hw'⟩ := hwalks kind h hp
    cases hb.symm.trans hb'
    cases hw.symm.trans hw'
    exact hne rfl

end Sys2Proof.Machine
end

section
/-!
What the groups see of the table, what the owners leave of it, and what the engine decides at a grant about groups (R54,
R60, R66, R112–R119).
-/
namespace Sys2Proof.Machine

/-! ## What the groups see of the table -/

/-- What the groups see of an entry: its state and its group, while it is ARMED or HELD (R112, R113). -/
def Entry.running (x : Entry) : Option (EntryState × Option GroupIdx) :=
  match x.state with
  | .armed | .held => some (x.state, x.behavior.group)
  | .free | .idle | .spent => none

theorem running_of_still {x : Entry} (ha : x.state ≠ .armed) (hh : x.state ≠ .held) : x.running = none := by
  unfold Entry.running
  cases hst : x.state <;> simp_all

theorem state_group_of_running {x y : Entry} (h : y.running = x.running)
    (hst : y.state = .armed ∨ y.state = .held) :
    x.state = y.state ∧ x.behavior.group = y.behavior.group := by
  unfold Entry.running at h
  rcases hst with hst | hst <;> rw [hst] at h ⊢ <;> cases hx : x.state <;> simp_all

theorem membersIn_of_running {s t : State} (h : ∀ e, (t.entry e).running = (s.entry e).running) {st : EntryState}
    (hst : st = .armed ∨ st = .held) (g : GroupIdx) : t.membersIn st g = s.membersIn st g := by
  refine List.filter_congr fun e _ => ?_
  rw [Bool.eq_iff_iff, Bool.and_eq_true, Bool.and_eq_true, beq_iff_eq, beq_iff_eq, beq_iff_eq, beq_iff_eq]
  constructor
  · rintro ⟨h1, h2⟩
    obtain ⟨k1, k2⟩ := state_group_of_running (h e) (h1 ▸ hst)
    exact ⟨k1.trans h1, k2.trans h2⟩
  · rintro ⟨h1, h2⟩
    obtain ⟨k1, k2⟩ := state_group_of_running (h e).symm (h1 ▸ hst)
    exact ⟨k1.trans h1, k2.trans h2⟩

theorem WalkKind.moves_running (kind : WalkKind) : kind.moves = .armed ∨ kind.moves = .held := by
  cases kind with
  | hold => exact .inl rfl
  | resume => exact .inr rfl

/-- The law is kept when the groups see the same, and the writes that are decided see the groups of their entries. -/
theorem State.GroupLaw.of_running {s t : State} (hs : s.GroupLaw)
    (hr : ∀ e, (t.entry e).running = (s.entry e).running) (hg : ∀ g, t.group g = s.group g)
    (ha : t.engine.activity = s.engine.activity)
    (hk : ∀ op, s.engine.activity = .busy op → ∀ a ∈ op.plan.acts, ∀ e, a.entry = some e →
      (t.entry e).behavior = (s.entry e).behavior) : t.GroupLaw where
  count g := by rw [hg, membersIn_of_running hr (.inr rfl), hs.count]
  phase g := by
    simpa only [State.PhaseLaw, State.walking, hg, ha, membersIn_of_running hr (.inl rfl),
      membersIn_of_running hr (.inr rfl)] using hs.phase g
  grouped e he := by
    obtain ⟨hst, hgr⟩ := state_group_of_running (hr e) (.inr he)
    rw [← hgr]
    exact hs.grouped e (hst.trans he)
  acts op hb a hm := by
    rw [ha] at hb
    exact (hs.acts op hb a hm).of_phases (fun e he => congrArg Behavior.group (hk op hb a hm e he)) fun g => by rw [hg]
  closing op g ph hb := hs.closing op g ph (ha ▸ hb)
  walk op w hb hw := by
    have h := hs.walk op w (ha ▸ hb) hw
    rw [walk_groupReady_iff] at h ⊢
    rw [hg, membersIn_of_running hr w.kind.moves_running]
    exact h

theorem State.GroupLaw.of_same {s t : State} (hs : s.GroupLaw) (he : ∀ e, t.entry e = s.entry e)
    (hg : ∀ g, t.group g = s.group g) (ha : t.engine.activity = s.engine.activity) : t.GroupLaw :=
  hs.of_running (fun e => by rw [he]) hg ha fun _ _ _ _ e _ => by rw [he]

/-- The operation in flight ends, or none was, and no walk was on its way. -/
theorem State.GroupLaw.of_open {s t : State} (hs : s.GroupLaw)
    (hw : ∀ op, s.engine.activity = .busy op → op.plan.walk = none) (he : ∀ e, t.entry e = s.entry e)
    (hg : ∀ g, t.group g = s.group g) (ho : t.Open) : t.GroupLaw := by
  obtain ⟨hf, hwalks, -⟩ := (groupLaw_iff s).mp hs
  exact (hf.of_same he hg).groupLaw (fun kind g => hg g ▸ noWalk_of hwalks hw kind g) fun op hb => absurd hb (ho op)

theorem Plan.GroupReady.of_same {s t : State} {p q : Plan} (h : p.GroupReady s) (he : ∀ e, t.entry e = s.entry e)
    (hg : ∀ g, t.group g = s.group g) (hw : q.walk = p.walk) (ha : q.acts = p.acts) : q.GroupReady t where
  acts a hm := (h.acts a (ha ▸ hm)).of_phases (fun e _ => by rw [he]) fun g => by rw [hg]
  closing g ph hm := hw ▸ h.closing g ph (ha ▸ hm)
  walk w hqw := by
    have hw' := h.walk w (hw.symm.trans hqw)
    rw [walk_groupReady_iff] at hw' ⊢
    rw [hg, membersIn_of_running (s := s) (t := t) (fun e => by rw [he]) w.kind.moves_running, ha]
    exact hw'

/-- The plan in flight is replaced by one with its walk and writes (R66). -/
theorem State.GroupLaw.of_plan {s t : State} (hs : s.GroupLaw) {op : Operation} {p : Plan}
    (hb : s.engine.activity = .busy op) (ht : t.engine.activity = .busy { op with plan := p })
    (he : ∀ e, t.entry e = s.entry e) (hg : ∀ g, t.group g = s.group g) (hw : p.walk = op.plan.walk)
    (ha : p.acts = op.plan.acts) : t.GroupLaw := by
  obtain ⟨hf, hwalks, hplan⟩ := (groupLaw_iff s).mp hs
  refine (groupLaw_iff t).mpr ⟨hf.of_same he hg, fun kind g hp => ?_, fun op' hb' => ?_⟩
  · obtain ⟨op', todo, hb', hw'⟩ := hwalks kind g (hg g ▸ hp)
    cases hb.symm.trans hb'
    exact ⟨_, todo, ht, hw.trans hw'⟩
  · cases ht.symm.trans hb'
    exact (hplan op hb).of_same he hg hw ha

/-! ## The owners (R138) -/

/-- What the owners' writes leave: what the groups see, and the behavior of the claimed entries (R14, R17). -/
structure State.OwnersKeep (s t : State) : Prop where
  lists : t.ListLaw
  running : ∀ e, (t.entry e).running = (s.entry e).running
  claimed : t.Open ∨ t.engine.activity = s.engine.activity ∧
    ∀ e, s.claimed e = true → (t.entry e).behavior = (s.entry e).behavior

theorem State.OwnersKeep.refl {s : State} (h : s.ListLaw) : s.OwnersKeep s :=
  ⟨h, fun _ => rfl, .inr ⟨rfl, fun _ _ => rfl⟩⟩

/-- A write of one unclaimed entry that the groups do not see. -/
theorem State.OwnersKeep.write {s t u : State} {e : EntryIdx} (h : s.OwnersKeep t) (hl : u.ListLaw)
    (ha : u.engine = t.engine) (ho : ∀ a, a ≠ e → u.entry a = t.entry a) (hc : t.claimed e = false)
    (hr : (u.entry e).running = (t.entry e).running) : s.OwnersKeep u where
  lists := hl
  running a := by
    by_cases hae : a = e
    · exact hae ▸ hr.trans (h.running e)
    · rw [ho a hae]; exact h.running a
  claimed := by
    rcases h.claimed with hop | ⟨hact, hb⟩
    · exact .inl fun op => ha ▸ hop op
    · refine .inr ⟨ha ▸ hact, fun a hcl => ?_⟩
      have hne : a ≠ e := by
        rintro rfl
        have : t.claimed a = s.claimed a := by simp only [State.claimed, claims_of_activity hact]
        rw [← this, hc] at hcl
        cases hcl
      rw [ho a hne]
      exact hb a hcl

theorem ownersKeep_ownerKeeps (s : State) : OwnerKeeps s.OwnersKeep where
  frame {t u} h ht ha := by
    refine ⟨listLaw_tableKeeps.frame h.lists ht ha, fun e => by rw [ht.entry]; exact h.running e, ?_⟩
    rcases ha with ha | ho
    · exact h.claimed.imp (fun hop op => ha ▸ hop op) fun ⟨hact, hb⟩ =>
        ⟨ha.trans hact, fun e he => by rw [ht.entry]; exact hb e he⟩
    · exact .inl ho
  allocate {t e} h hc hf := by
    have hst := hf h.lists.linked
    refine h.write (listLaw_tableKeeps.allocate h.lists hc hf) (by simp)
      (fun a ha => entry_setEntry_other t _ (Ne.symm ha)) hc ?_
    rw [show (t.allocate e).entry e = .allocated from entry_setEntry_same t e _]
    exact (running_of_still (by simp [hst]) (by simp [hst])).symm
  release {t e} h hc hst := by
    refine h.write (listLaw_tableKeeps.release h.lists hc hst) (by simp) (fun a ha => entry_release_other t ha) hc ?_
    rw [entry_release_same]
    exact (running_of_still (by simp [hst]) (by simp [hst])).symm
  program {t e} sd p b h hc hst := by
    refine h.write (listLaw_tableKeeps.program sd p b h.lists hc hst) (by simp)
      (fun a ha => entry_setEntry_other t _ (Ne.symm ha)) hc ?_
    rw [entry_setEntry_same, running_of_still (x := t.entry e) (by simp [hst]) (by simp [hst])]
    exact running_of_still (by simp [hst]) (by simp [hst])
  retune {t e} p h hc hst := by
    refine h.write (listLaw_tableKeeps.retune p h.lists hc hst) (by simp)
      (fun a ha => entry_setEntry_other t _ (Ne.symm ha)) hc ?_
    rw [entry_setEntry_same]
    rfl

/-- The laws of the lists and of the groups together. -/
def State.GroupedLists (s : State) : Prop := s.ListLaw ∧ s.GroupLaw

/-- What the owners leave keeps the laws, while the engine stands. -/
theorem State.GroupedLists.of_owners {s t : State} (hs : s.GroupedLists) (h : s.OwnersKeep t) (he : t.engine = s.engine) :
    t.GroupedLists := by
  refine ⟨h.lists, hs.2.of_running h.running (group_of_engine he) (by rw [he]) fun op hb a ha e hae => ?_⟩
  rcases h.claimed with hop | ⟨_, hcl⟩
  · exact absurd (he ▸ hb) (hop op)
  · exact hcl e ((claimed_iff hb e).mpr (((hs.1.plan op hb).acts a ha).claimed hae))

theorem State.GroupedLists.same {s t : State} (hs : s.GroupedLists) (ht : t.table = s.table) (he : t.engine = s.engine) :
    t.GroupedLists :=
  ⟨listLaw_tableKeeps.same hs.1 ht he, hs.2.of_same (entry_of_table ht) (group_of_engine he) (by rw [he])⟩

/-! ## Grants (R54, R60, R66, R114, R116) -/

section
variable {s : State} (hf : s.GroupsFit) (hn : s.NoWalk)
include hf hn

/-- A HELD entry belongs to a HELD group while no walk is on its way (R113). -/
theorem inHeldGroup_of_held {e : EntryIdx} (h : (s.entry e).state = .held) : s.InHeldGroup e := by
  obtain ⟨g, hg, hne⟩ := (hf.entries e).held h
  exact ⟨g, hg, (hn.phase g).resolve_left hne⟩

/-- The groups of an ARMED entry are RUNNING while no walk is on its way (R113). -/
theorem group_running_of_armed {e : EntryIdx} (h : (s.entry e).state = .armed) (g : GroupIdx)
    (hg : (s.entry e).behavior.group = some g) : (s.group g).phase = .running :=
  (hn.phase g).resolve_right ((hf.entries e).armed h g hg)

/-- A start that joins a list does so in a RUNNING group, or without one (R55, R78). -/
theorem link_groupReady {e : EntryIdx} (h : s.startOutcome e = .link) (d : Tick) (r : Byte) :
    (Act.link e d r).GroupReady s := by
  intro g hg
  rcases startOutcome_rows s e with hm | ⟨-, ha | ⟨-, hng⟩⟩ | ⟨hm, hh⟩
  · obtain ⟨st, hst⟩ := startOutcome_of_misses hm
    exact absurd (h.symm.trans hst) nofun
  · exact group_running_of_armed hf hn ha g hg
  · exact (hn.phase g).resolve_right fun hp => hng ⟨g, hg, hp⟩
  · exact absurd (h.symm.trans (startOutcome_of_held hm hh)) nofun

/-- A start that ends HELD does so in a HELD group (R55, R119). -/
theorem hold_groupReady {e : EntryIdx} (h : s.startOutcome e = .hold) (m : Tick) (r : Byte) :
    (Act.hold e m r).GroupReady s := by
  rcases startOutcome_rows s e with hm | ⟨hm, ha⟩ | ⟨-, hh | ⟨-, hg⟩⟩
  · obtain ⟨st, hst⟩ := startOutcome_of_misses hm
    exact absurd (h.symm.trans hst) nofun
  · exact absurd (h.symm.trans (startOutcome_of_armed hm ha)) nofun
  · exact inHeldGroup_of_held hf hn hh
  · exact hg

/-- The writes of the run of an ARMED entry fit the groups (R73, R76–R79). -/
theorem runStep_groupReady {e : EntryIdx} (ha : (s.entry e).state = .armed) (b : Timebase) (n : Expiries)
    (latest : Tick) : ∀ a ∈ (s.runStep b e n latest).acts, a.GroupReady s ∧ ¬ a.Closes := by
  have hlink : ∀ d r, (Act.link e d r).GroupReady s := fun d r => group_running_of_armed hf hn ha
  unfold State.runStep
  dsimp only
  split
  · split
    · simp [Act.GroupReady, Act.Closes]
    · rename_i y _
      split
      · simpa [Act.Closes] using hlink _ _
      · unfold State.startSuccessor
        dsimp only
        split
        · simp [Act.GroupReady, Act.Closes]
        · rename_i ho
          simpa [Act.GroupReady, Act.Closes] using link_groupReady hf hn ho 0 0
        · rename_i ho
          simpa [Act.GroupReady, Act.Closes] using hold_groupReady hf hn ho 0 0
  · simpa [Act.Closes] using hlink _ _

theorem startPlan_groupReady (e : EntryIdx) (d : Tick) :
    ∀ a ∈ (s.startPlan e d).acts, a.GroupReady s ∧ ¬ a.Closes := by
  unfold State.startPlan
  split
  · nofun
  · rename_i h; simpa [Act.Closes] using link_groupReady hf hn h _ _
  · rename_i h; simpa [Act.Closes] using hold_groupReady hf hn h _ _

end

/-- A plan on a group: its walk, its writes and its outcome. -/
structure Plan.OnGroup (p : Plan) (w : Option Walk) (writes : List Act) (st : Status) : Prop where
  claims : p.claims = []
  lineOp : p.lineOp = none
  post : p.post = none
  purge : p.purge = none
  walk : p.walk = w
  acts : p.acts = writes
  status : p.status = st
  value : p.value = 0

theorem holdPlan_walks {s : State} {g : GroupIdx} (h : (s.group g).phase = .running) :
    (s.holdPlan g).OnGroup (some ⟨.hold, g, s.armedMembers g⟩) [.closeWalk g .held] .ok := by
  rw [State.holdPlan, h]; constructor <;> rfl

theorem holdPlan_limit {s : State} {g : GroupIdx} (h : (s.group g).phase = .held) (hd : (s.group g).depth = 15) :
    (s.holdPlan g).OnGroup none [] .limit := by
  rw [State.holdPlan, h]
  dsimp only
  rw [if_pos (show _ = Config.maxDepth from hd)]; constructor <;> rfl

theorem holdPlan_deepens {s : State} {g : GroupIdx} (h : (s.group g).phase = .held) (hd : (s.group g).depth ≠ 15) :
    (s.holdPlan g).OnGroup none [.depth g ((s.group g).depth + 1)] .ok := by
  rw [State.holdPlan, h]
  dsimp only
  rw [if_neg (show _ ≠ Config.maxDepth from hd)]; constructor <;> rfl

theorem resumePlan_walks {s : State} {g : GroupIdx} (h : (s.group g).phase = .held) (hd : (s.group g).depth = 1) :
    (s.resumePlan g).OnGroup (some ⟨.resume, g, s.heldMembers g⟩) [.closeWalk g .running] .ok := by
  rw [State.resumePlan, h]
  dsimp only
  rw [if_pos hd]; constructor <;> rfl

theorem resumePlan_lifts {s : State} {g : GroupIdx} (h : (s.group g).phase = .held) (hd : (s.group g).depth ≠ 1) :
    (s.resumePlan g).OnGroup none [.depth g ((s.group g).depth - 1)] .ok := by
  rw [State.resumePlan, h]
  dsimp only
  rw [if_neg hd]; constructor <;> rfl

theorem resumePlan_noEffect {s : State} {g : GroupIdx} (h : (s.group g).phase = .running) :
    (s.resumePlan g).OnGroup none [] .noEffect := by
  rw [State.resumePlan, h]; constructor <;> rfl

/-- A plan without a walk is ready when its writes are. -/
theorem Plan.GroupReady.of_acts {s : State} {p : Plan} (hw : p.walk = none)
    (ha : ∀ a ∈ p.acts, a.GroupReady s ∧ ¬ a.Closes) : p.GroupReady (s.openWalk p.walk) := by
  rw [hw]
  exact ⟨fun a hm => (ha a hm).1, fun g ph hm => absurd ⟨g, ph, rfl⟩ (ha _ hm).2, by rw [hw]; nofun⟩

/-- A plan that writes the depth of a HELD group. -/
theorem Plan.OnGroup.depth_groupReady {s : State} {p : Plan} {g : GroupIdx} {n : BitVec 4} {st : Status}
    (h : p.OnGroup none [.depth g n] st) (hp : (s.group g).phase = .held) (hn : n ≠ 0) :
    p.GroupReady (s.openWalk p.walk) := by
  refine .of_acts h.walk fun a ha => ?_
  rw [h.acts, List.mem_singleton] at ha
  rw [ha]
  exact ⟨⟨hp, hn⟩, nofun⟩

theorem Plan.OnGroup.none_groupReady {s : State} {p : Plan} {st : Status} (h : p.OnGroup none [] st) :
    p.GroupReady (s.openWalk p.walk) := .of_acts h.walk (by rw [h.acts]; nofun)

/-- A plan whose walk has every member to move, and closes its group. -/
theorem Plan.OnGroup.walk_groupReady {s : State} {p : Plan} {kind : WalkKind} {g : GroupIdx} {todo : List EntryIdx}
    {st : Status} (h : p.OnGroup (some ⟨kind, g, todo⟩) [.closeWalk g kind.closed] st)
    (hm : ∀ e ∈ s.membersIn kind.moves g, e ∈ todo) : p.GroupReady (s.openWalk p.walk) := by
  refine ⟨fun a ha => ?_, fun _ _ _ => by rw [h.walk]; rfl, fun w hw => ?_⟩
  · rw [h.acts, List.mem_singleton] at ha
    rw [ha]; trivial
  · cases h.walk.symm.trans hw
    refine (walk_groupReady_iff _ _ _).mpr ⟨?_, fun e he => hm e ?_, h.acts⟩
    · rw [h.walk, openWalk_some_group, if_pos rfl]
    · rw [mem_membersIn, entry_of_table (openWalk_table s _)] at he
      exact mem_membersIn.mpr he

/-- A hold walk lists every ARMED member (R115). -/
theorem mem_armedMembers {s : State} (hl : s.Linked) {g : GroupIdx} {e : EntryIdx} (h : e ∈ s.membersIn .armed g) :
    e ∈ s.armedMembers g := by
  obtain ⟨hst, hg⟩ := mem_membersIn.mp h
  have hm := (hl.pending (s.entry e).behavior.timebase e).mpr ⟨hst, rfl⟩
  rw [State.armedMembers, List.mem_filter, List.mem_append]
  refine ⟨?_, by simp [hg]⟩
  cases htb : (s.entry e).behavior.timebase <;> rw [htb] at hm
  · exact .inl hm
  · exact .inr hm

theorem holdPlan_groupReady {s : State} (hl : s.Linked) (hn : s.NoWalk) (g : GroupIdx) :
    (s.holdPlan g).GroupReady (s.openWalk (s.holdPlan g).walk) := by
  rcases hn.phase g with hp | hp
  · exact (holdPlan_walks hp).walk_groupReady (kind := .hold) fun e he => mem_armedMembers hl he
  · by_cases hd : (s.group g).depth = 15
    · exact (holdPlan_limit hp hd).none_groupReady
    · exact (holdPlan_deepens hp hd).depth_groupReady hp (by bv_omega)

theorem resumePlan_groupReady {s : State} (hn : s.NoWalk) (g : GroupIdx) :
    (s.resumePlan g).GroupReady (s.openWalk (s.resumePlan g).walk) := by
  rcases hn.phase g with hp | hp
  · exact (resumePlan_noEffect hp).none_groupReady
  · by_cases hd : (s.group g).depth = 1
    · exact (resumePlan_walks hp hd).walk_groupReady (kind := .resume) fun e he => he
    · exact (resumePlan_lifts hp hd).depth_groupReady hp (by bv_omega)

/-- Whatever the engine decides at a grant fits the groups, once its walk is opened (R54, R60, R66). -/
theorem plans_groupReady {s : State} (hl : s.Linked) (hf : s.GroupsFit) (hn : s.NoWalk) {p : Plan} (hp : s.Plans p) :
    p.GroupReady (s.openWalk p.walk) := by
  cases hp with
  | service hc =>
    exact .of_acts rfl (runStep_groupReady hf hn ((hl.pending _ _).mp (chooseHead_mem hc)).1 _ _ _)
  | start e d =>
    refine .of_acts ?_ (startPlan_groupReady hf hn e d)
    unfold State.startPlan
    split <;> rfl
  | cancel e purge =>
    unfold State.cancelPlan
    split <;> exact .of_acts rfl (by simp [Plan.refused, Act.GroupReady, Act.Closes])
  | free e =>
    unfold State.freePlan
    split <;> exact .of_acts rfl (by simp [Plan.refused, Act.GroupReady, Act.Closes])
  | hold g => exact holdPlan_groupReady hl hn g
  | resume g => exact resumePlan_groupReady hn g
  | clearNow b =>
    unfold State.clearNowPlan
    split <;> exact .of_acts rfl (by simp [Plan.refused, Act.GroupReady, Act.Closes])

theorem opened_injective {k k' : WalkKind} (h : k.opened = k'.opened) : k = k' := by
  cases k <;> cases k' <;> simp_all [WalkKind.opened]

/-- A grant puts a plan in flight and opens its walk (R47, R115, R117). -/
theorem State.GroupLaw.granted {s t : State} {op : Operation} (hs : s.GroupLaw) (hl : s.Linked) (ho : s.Open)
    (hp : s.Plans op.plan) (hb : t.engine.activity = .busy op) (ht : t.table = s.table)
    (hg : ∀ h, t.group h = (s.openWalk op.plan.walk).group h) : t.GroupLaw := by
  obtain ⟨hf, hwalks, -⟩ := (groupLaw_iff s).mp hs
  have hn : s.NoWalk := noWalk_of hwalks fun op' hb' => absurd hb' (ho op')
  have he : ∀ e, t.entry e = (s.openWalk op.plan.walk).entry e :=
    entry_of_table (ht.trans (openWalk_table s _).symm)
  refine (groupLaw_iff t).mpr ⟨(hf.openWalk op.plan.walk).of_same he hg, fun kind h hph => ?_, fun op' hb' => ?_⟩
  · rw [hg] at hph
    cases hw : op.plan.walk with
    | none => rw [hw] at hph; exact absurd hph (hn kind h)
    | some w =>
      obtain ⟨k, g, todo⟩ := w
      rw [hw, openWalk_some_group] at hph
      split at hph
      · rename_i hgh
        cases opened_injective hph
        exact ⟨op, todo, hb, hgh ▸ hw⟩
      · exact absurd hph (hn kind h)
  · cases hb.symm.trans hb'
    exact (plans_groupReady hl hf hn hp).of_same he hg rfl rfl

end Sys2Proof.Machine
end

section
/-!
The law of the groups (R112, R113) is kept by every step.
-/
namespace Sys2Proof.Machine

/-! ## The steps of an operation -/

theorem setPlan_entry (s : State) (op : Operation) (p : Plan) (e : EntryIdx) : (s.setPlan op p).entry e = s.entry e :=
  entry_of_table (setPlan_table s op p) e

theorem setPlan_group (s : State) (op : Operation) (p : Plan) (g : GroupIdx) : (s.setPlan op p).group g = s.group g := rfl

/-- After the final step nothing is left to write, and no walk (R45, R66, R115, R117). -/
theorem State.GroupedLists.finalStep {s : State} (hs : s.GroupedLists) : s.finalStep.GroupedLists := by
  refine ⟨hs.1.finalStep, ?_⟩
  unfold State.finalStep
  split
  · rename_i op hb
    split
    · rename_i hat
      have hready := hs.1.plan op hb
      have hT := purgeRequested_sameTable hready hb
      have hE : (s.purgeRequested op.plan.purge).engine = s.engine := purgeRequested_engine s _
      have hb' : (s.purgeRequested op.plan.purge).engine.activity = .busy op := hE ▸ hb
      have hu := (hs.same hT.table hE).2
      have hr : op.plan.Ready (s.purgeRequested op.plan.purge) := hready.of_kept (.of_entries hT.entry _)
      have hwrites : ((s.purgeRequested op.plan.purge).written op).GroupsFit ∧
          ((s.purgeRequested op.plan.purge).written op).NoWalk := by
        cases hw : op.plan.walk with
        | none => exact hu.plainWrites hb' hw hr
        | some w => exact hu.closingWrite hb' hw (todo_of_atFinalStep (Bool.and_eq_true_iff.mp hat).1 hw)
      obtain ⟨hf, hn⟩ := hwrites
      refine (hf.of_same (setPlan_entry _ op _) (setPlan_group _ op _)).groupLaw hn fun op' hb' => ?_
      cases hb'
      exact ⟨rfl, rfl⟩
    · exact hs.2
  all_goals exact hs.2

/-- An operation without writes left has no walk on its way. -/
theorem State.GroupLaw.no_walk {s : State} (hs : s.GroupLaw) {op : Operation} (hb : s.engine.activity = .busy op)
    (ha : op.plan.acts = []) : op.plan.walk = none := by
  cases hw : op.plan.walk with
  | none => rfl
  | some w =>
    have h := ((walk_groupReady_iff s _ _).mp (hs.walk op w hb hw)).2.2
    exact absurd (ha.symm.trans h) nofun

/-- A completion ends an operation that has nothing left to write (R47). -/
theorem State.GroupLaw.complete {s : State} (hs : s.GroupLaw) : s.complete.GroupLaw := by
  unfold State.complete
  split
  · rename_i op hb
    split
    · rename_i hat
      have ha : op.plan.acts = [] := by
        have h := (Bool.and_eq_true_iff.mp hat).2
        simp only [Plan.hasFinalStep, Bool.not_or, Bool.not_not, Bool.and_eq_true, List.isEmpty_iff] at h
        exact h.1
      refine hs.of_open (fun op' hb' => ?_) (fun e => ?_) (fun g => ?_) fun op' => ?_
      · cases hb.symm.trans hb'
        exact hs.no_walk hb ha
      · exact entry_of_table (handBack_table _ _ _ _) e
      · exact group_of_engine (handBack_engine _ _ _ _) g
      · rw [handBack_engine]; nofun
    · exact hs
  all_goals exact hs

theorem State.GroupLaw.handLineOp {s : State} (hs : s.GroupLaw) : s.handLineOp.GroupLaw := by
  unfold State.handLineOp
  split
  · rename_i op hb
    split
    · exact hs.of_plan hb rfl (fun _ => rfl) (fun _ => rfl) rfl rfl
    · exact hs
  all_goals exact hs

theorem State.GroupLaw.handPost {s : State} (hs : s.GroupLaw) : s.handPost.GroupLaw := by
  unfold State.handPost
  split
  · rename_i op hb
    split
    · rename_i p _ _
      exact hs.of_plan hb rfl (entry_of_table (takePost_table s p)) (fun g => group_of_engine (takePost_engine s p) g) rfl rfl
    all_goals exact hs
  all_goals exact hs

theorem clkPeriod_group (s : State) (g : GroupIdx) : s.clkPeriod.group g = s.group g := by
  rw [State.group, clkPeriod_clocks]
  rfl

/-- No owner writes the List Engine (R138). -/
theorem ownerStep_engine (s : State) (k : Command → Bool) : (s.ownerStep k).engine = s.engine := by
  unfold State.ownerStep
  split
  · rfl
  · split
    · rfl
    · rename_i s' st v ho
      split
      · rw [answer_engine]
        simpa using congrArg State.engine (owned_frame ho)
      · rfl

/-- After a reset, or a scheduler clear, no group shows a walk and no entry is a member (R126). -/
theorem groupLaw_of_reset {t : State} (ht : t.table = .reset) (he : t.engine = .reset) : t.GroupLaw :=
  (resetWith_groupLaw false 0).of_same (entry_of_table ht) (group_of_engine he) (by rw [he]; rfl)

/-! ## Every step -/

theorem groupedLists_due : DueKeeps State.GroupedLists where
  report s e h := h.of_owners ((ownersKeep_ownerKeeps s).due.report s e (.refl h.1)) (by simp)
  standing s q h := h.of_owners ((ownersKeep_ownerKeeps s).due.standing s q (.refl h.1)) (by simp)
  nop s h := h.same (by simp) (by simp)
  owner s k h := h.of_owners ((ownersKeep_ownerKeeps s).due.owner s k (.refl h.1)) (ownerStep_engine s k)
  decide s ha h := ⟨listLaw_tableKeeps.due.decide s ha h.1,
    h.2.of_open (fun op hb => absurd (ha.symm.trans hb) nofun) (entry_of_table (decideGrant_table s)) (fun _ => rfl)
      (decideGrant_open s)⟩

theorem groupedLists_grant : GrantKeeps State.GroupedLists where
  service s ho h := by
    refine ⟨listLaw_tableKeeps.grants.service s ho h.1, ?_⟩
    unfold State.grantService
    split
    · exact h.2
    · rename_i hc
      exact h.2.granted h.1.linked ho (.service hc) rfl rfl fun _ => rfl
  command s k ho h := by
    refine ⟨listLaw_tableKeeps.grants.command s k ho h.1, ?_⟩
    unfold State.grantCommand
    split
    · exact h.2
    · split
      · exact h.2
      · rename_i p hp
        split
        · exact h.2.granted h.1.linked ho (commandPlan_plans hp) rfl (openWalk_table s p.walk) fun _ => rfl
        · exact h.2
  trigger s k ho h := by
    refine ⟨listLaw_tableKeeps.grants.trigger s k ho h.1, ?_⟩
    unfold State.grantTrigger
    split
    · exact h.2
    · rename_i c _
      split
      · exact h.2.granted h.1.linked ho (triggerPlan_plans s c) rfl (openWalk_table s _) fun _ => rfl
      · exact h.2

theorem groupedLists_engine : EngineKeeps State.GroupedLists where
  lineOp s h := ⟨listLaw_tableKeeps.engine.lineOp s h.1, h.2.handLineOp⟩
  post s h := ⟨listLaw_tableKeeps.engine.post s h.1, h.2.handPost⟩
  walk _ h := ⟨listLaw_tableKeeps.walk h.1, h.2.walkStep h.1⟩
  final _ h := h.finalStep
  complete s h := ⟨listLaw_tableKeeps.engine.complete s h.1, h.2.complete⟩

theorem groupedLists_window : WindowKeeps State.GroupedLists where
  cmd s b h := h.same (by simp) (by simp)
  writeParam s b h := h.same (by simp) (by simp)
  readParam s h := h.same (by simp) (by simp)
  pptr s b h := h.same (by simp) (by simp)
  readResult s h := h.same (by simp) (by simp)
  popResult s h := h.same (by simp) (by simp)
  readNotice s q h := h.same (by simp) (by simp)
  popNotice s q i h := h.of_owners (popNotice_table_keeps (ownersKeep_ownerKeeps s) (.refl h.1) q i) (by simp)
  vsel s b h := h.same (by simp) (by simp)
  view s h := h.same (by simp) (by simp)
  nsel s b h := h.same (by simp) (by simp)
  now s h := h.same (by simp) (by simp)
  iclr s b h := h.same (by simp) (by simp)
  ien s b h := h.same (by simp) (by simp)
  outop s n o h := h.same (by simp) (by simp)
  misuse s h := h.same (by simp) (by simp)
  flags s b h := h.same (by simp) (by simp)
  enables s b h := h.same (by simp) (by simp)
  clear s h := ⟨listLaw_tableKeeps.reset rfl rfl, groupLaw_of_reset rfl rfl⟩
  discard s h := h.same (by simp) (by simp)
  clearWm s h := h.same (by simp) (by simp)

theorem groupedLists_pin : PinKeeps State.GroupedLists where
  clk s h := ⟨listLaw_tableKeeps.pin.clk s h.1,
    h.2.of_same (entry_of_table (clkPeriod_table s)) (clkPeriod_group s) (clkPeriod_engine s).2⟩
  tki s h := h.same (by simp) (by simp)
  trigger s l h := h.same (by simp) (by simp)
  reset _ _ _ := ⟨listLaw_tableKeeps.reset rfl rfl, groupLaw_of_reset rfl rfl⟩

theorem groupedLists_keeps : Keeps State.GroupedLists where
  due := groupedLists_due
  grant := groupedLists_grant
  engine := groupedLists_engine
  window := groupedLists_window
  pin := groupedLists_pin
  pending _ _ h := h.same rfl rfl

/-- Settles O58: each shared operation keeps the laws of the lists and the groups, and so every step does. -/
theorem groupLawKept : Obligations.GroupLawKept := fun _ _ hl hg e => (step_keeps groupedLists_keeps ⟨hl, hg⟩ e).2

end Sys2Proof.Machine
end

section
/-!
HOLD and RESUME without a walk, whole, commanded and triggered (R114, R116, R125, R139, R158, R161).
-/
namespace Sys2Proof.Machine

/-! ## The write of a hold depth (R114, R116) -/

/-- `t` is `s` with the hold depth `n` at group `g`: nothing else of table, lists, groups and notices is changed, nor
any block that is no requester. -/
def State.DepthWritten (s t : State) (g : GroupIdx) (n : BitVec 4) : Prop :=
  t.group g = { s.group g with depth := n } ∧ (∀ h, h ≠ g → t.group h = s.group h) ∧
    t.table = s.table ∧ (∀ b, t.list b = s.list b) ∧ t.notices = s.notices ∧ s.OutsideKept t

/-- The final step that writes a hold depth, on a state that a grant has left as it was. -/
theorem oneWrite_depthWritten {s t : State} (hT : s.SameTable t) (hG : ∀ h, t.group h = s.group h)
    (hn : t.notices = s.notices) (ho : s.OutsideKept t) (op : Operation) (g : GroupIdx) (n : BitVec 4) :
    s.DepthWritten (t.oneWrite op (.depth g n)) g n := by
  have hg : ∀ h, (t.oneWrite op (.depth g n)).group h = if g = h then { t.group g with depth := n } else t.group h :=
    act_depth_group t op g n
  refine ⟨?_, fun h hne => ?_, hT.table, fun b => ?_, hn, ho.time, ho.out, ho.irq, ho.bus⟩
  · rw [hg, if_pos rfl, hG]
  · rw [hg, if_neg (Ne.symm hne), hG]
  · rw [← hT.list b]
    exact (setActivity_list _ _ b).trans (setGroup_list t g _ b)

/-! ## Plans on a group without a walk -/

theorem Plan.OnGroup.one {p : Plan} {writes : List Act} {st : Status} (h : p.OnGroup none writes st) :
    Plan.One p writes := ⟨h.lineOp, h.post, h.walk, h.purge, h.acts⟩

/-- A plan that claims nothing and opens no walk. -/
def Plan.Light (p : Plan) : Prop := p.claims = [] ∧ p.walk = none

theorem Plan.OnGroup.light {p : Plan} {writes : List Act} {st : Status} (h : p.OnGroup none writes st) : p.Light :=
  ⟨h.claims, h.walk⟩

/-- HOLD of a HELD group opens no walk (R114). -/
theorem holdPlan_light {s : State} {g : GroupIdx} (h : (s.group g).phase = .held) : (s.holdPlan g).Light := by
  by_cases hd : (s.group g).depth = 15
  · exact (holdPlan_limit h hd).light
  · exact (holdPlan_deepens h hd).light

/-- RESUME changes no phase: the group is RUNNING, or HELD with a depth of 2 or more (R116). -/
def State.ResumesStill (s : State) (g : GroupIdx) : Prop :=
  (s.group g).phase = .running ∨ (s.group g).phase = .held ∧ 2 ≤ (s.group g).depth.toNat

theorem resumePlan_lowers {s : State} {g : GroupIdx} (h : s.ResumesStill g) (hp : (s.group g).phase = .held) :
    (s.resumePlan g).OnGroup none [.depth g ((s.group g).depth - 1)] .ok := by
  refine resumePlan_lifts hp fun hd => ?_
  rcases h with hr | ⟨-, h2⟩
  · exact absurd (hp.symm.trans hr) nofun
  · rw [hd] at h2
    exact absurd h2 (by decide)

theorem resumePlan_light {s : State} {g : GroupIdx} (h : s.ResumesStill g) : (s.resumePlan g).Light := by
  rcases h with hr | ⟨hp, h2⟩
  · exact (resumePlan_noEffect hr).light
  · exact (resumePlan_lowers (.inr ⟨hp, h2⟩) hp).light

/-! ## A commanded operation on a group (R139) -/

section
variable {s : State} {i : Instr} {c : Command} {k : Command → Bool} {p : Plan} (hg : s.Grantable .command)
  (hc : s.executing .grantWait = some c) (hk : k c = true) (hp : s.commandPlan c = some p)
include hg hc hk hp

theorem command_granted_light (hi : exec i s = .next (s.commandGrant k)) (h : p.Light) :
    exec i s = .next (s.commandStart p) ∧ s.CommandGranted (s.commandStart p) [] :=
  ⟨hi.trans (congrArg _ (cmd_start hg hc hp hk h.2).1), h.1 ▸ commandStart_granted s p⟩

/-- A commanded operation that writes nothing. -/
theorem command_group_refuses {st : Status} (h : p.OnGroup none [] st) :
    exec .operationCompletion (s.commandStart p) = .next (((s.commandStart p).completedTo .trigger).answer st 0) := by
  have hdone := (cmd_none hg hc hp hk h.one).2
  rw [h.status, h.value] at hdone
  exact hdone

/-- A commanded operation that writes a hold depth. -/
theorem command_group_depth {g : GroupIdx} {n : BitVec 4} (h : p.OnGroup none [.depth g n] .ok) :
    ∃ s2 : State, exec .finalStep (s.commandStart p) = .next s2 ∧ s.DepthWritten s2 g n ∧
      s2.cmd = (s.commandStart p).cmd ∧ s2.trig = s.trig ∧
      exec .operationCompletion s2 = .next ((s2.completedTo .trigger).answer .ok 0) := by
  obtain ⟨-, hfinal, hdone⟩ := cmd_one hg hc hp hk h.one (plain_depth g n)
  rw [h.status, h.value] at hdone
  exact ⟨_, hfinal, oneWrite_depthWritten (commandStart_sameTable s p) (fun _ => rfl) rfl ⟨rfl, rfl, rfl, rfl⟩ _ g n,
    rfl, rfl, hdone⟩

end

/-! ## A triggered operation on a group (R125, R158, R161) -/

section
variable {s : State} {i : Instr} {l : TrigIdx} {c : Capture} {k : TriggerAction → Bool} {p : Plan}
  (hg : s.Grantable .trigger) (hw : s.waitingLine = some (l, c)) (hk : k c.action = true) (hp : s.triggerPlan c = p)
include hg hw hk hp

theorem trigger_granted_light (hi : exec i s = .next (s.triggerGrant k)) (h : p.Light) :
    exec i s = .next (s.triggerStart l c p) ∧ s.TriggerGranted (s.triggerStart l c p) l c [] :=
  ⟨hi.trans (congrArg _ (trig_start hg hw hk hp h.2).1), h.1 ▸ triggerStart_granted s l c p⟩

/-- A triggered operation that writes nothing. -/
theorem trigger_group_refuses {st : Status} (h : p.OnGroup none [] st) :
    exec .operationCompletion (s.triggerStart l c p) = .next (((s.triggerStart l c p).completedTo .expiry).setLine l
      { s.line l with record := .none, miss := (s.line l).miss || st.missed }) := by
  have hdone := (trig_none hg hw hk hp h.one).2
  rw [h.status] at hdone
  cases st <;> exact hdone

/-- A triggered operation that writes a hold depth. -/
theorem trigger_group_depth {g : GroupIdx} {n : BitVec 4} (h : p.OnGroup none [.depth g n] .ok) :
    ∃ s2 : State, exec .finalStep (s.triggerStart l c p) = .next s2 ∧ s.DepthWritten s2 g n ∧ s2.cmd = s.cmd ∧
      s2.trig = (s.triggerStart l c p).trig ∧
      exec .operationCompletion s2 = .next ((s2.completedTo .expiry).setLine l { s.line l with record := .none }) := by
  obtain ⟨-, hfinal, hdone⟩ := trig_one hg hw hk hp h.one (plain_depth g n) fun _ _ => rfl
  rw [h.status] at hdone
  simp only [Bool.or_false] at hdone
  exact ⟨_, hfinal, oneWrite_depthWritten (triggerStart_sameTable s l c p) (fun _ => rfl) rfl ⟨rfl, rfl, rfl, rfl⟩ _ g n,
    rfl, rfl, hdone⟩

end

/-- Settles O38: without a walk both commands decide a plan that writes the depth, or nothing. -/
theorem depthChanges : Obligations.DepthChanges := by
  refine ⟨fun s g hg hc h => ?_, fun s g hg hc h => ?_, fun s l g n0 n1 hg hw h => ?_, fun s l g n0 n1 hg hw h => ?_⟩
  · obtain ⟨hrow, hgrant⟩ := command_granted_light (i := .hold) hg hc rfl rfl rfl (holdPlan_light h)
    exact ⟨_, hrow, hgrant,
      fun hd => command_group_refuses (k := fun _ => true) hg hc rfl rfl (holdPlan_limit h hd),
      fun hd => command_group_depth (k := fun _ => true) hg hc rfl rfl (holdPlan_deepens h hd)⟩
  · obtain ⟨hrow, hgrant⟩ := command_granted_light (i := .resume) hg hc rfl rfl rfl (resumePlan_light h)
    exact ⟨_, hrow, hgrant,
      fun hp => command_group_refuses (k := fun _ => true) hg hc rfl rfl (resumePlan_noEffect hp),
      fun hp => command_group_depth (k := fun _ => true) hg hc rfl rfl (resumePlan_lowers h hp)⟩
  · obtain ⟨hrow, hgrant⟩ := trigger_granted_light (i := .triggerHold) hg hw rfl rfl rfl (holdPlan_light h)
    refine ⟨_, hrow, hgrant, fun hd => ?_,
      fun hd => trigger_group_depth (k := fun _ => true) hg hw rfl rfl (holdPlan_deepens h hd)⟩
    have hdone := trigger_group_refuses (k := fun _ => true) hg hw rfl rfl (holdPlan_limit h hd)
    simpa only [Status.missed, Bool.or_true] using hdone
  · obtain ⟨hrow, hgrant⟩ := trigger_granted_light (i := .triggerResume) hg hw rfl rfl rfl (resumePlan_light h)
    refine ⟨_, hrow, hgrant, fun hp => ?_,
      fun hp => trigger_group_depth (k := fun _ => true) hg hw rfl rfl (resumePlan_lowers h hp)⟩
    have hdone := trigger_group_refuses (k := fun _ => true) hg hw rfl rfl (resumePlan_noEffect hp)
    simpa only [Status.missed, Bool.or_false] using hdone

end Sys2Proof.Machine
end

section
/-!
The steps of a walk, each said once: the opening step of HOLD and RESUME, commanded and triggered, the member steps and
the closing step (R45, R46, R114–R117, R125).
-/
namespace Sys2Proof.Machine

/-! ## The opening step (R115, R117) -/

/-- `t` is `s` with a walk of `g` opened for a client: phase and depth of the group are written, and the operation in flight
holds both NOW values, the members to move and the closing step, and nothing else. -/
def State.WalkOpened (s t : State) (kind : WalkKind) (g : GroupIdx) (client : Client) (todo : List EntryIdx) : Prop :=
  t.group g = { s.group g with phase := kind.opened, depth := kind.depth } ∧
    (∀ h, h ≠ g → t.group h = s.group h) ∧ t.table = s.table ∧ (∀ b, t.list b = s.list b) ∧
    t.engine.rotation = s.engine.rotation ∧ t.notices = s.notices ∧ s.OutsideKept t ∧
    ∃ op, t.engine.activity = .busy op ∧ op.client = client ∧ op.now0 = s.now .tb0 ∧ op.now1 = s.now .tb1 ∧
      op.plan.claims = [] ∧ op.plan.lineOp = none ∧ op.plan.post = none ∧ op.plan.purge = none ∧
      op.plan.status = .ok ∧ op.plan.value = 0 ∧ op.plan.acts = [.closeWalk g kind.closed] ∧
      op.plan.walk = some ⟨kind, g, todo⟩

theorem openWalk_rotation (s : State) (w : Option Walk) : (s.openWalk w).engine.rotation = s.engine.rotation := by
  unfold State.openWalk
  split <;> rfl

theorem openWalk_outside (s : State) (w : Option Walk) : s.OutsideKept (s.openWalk w) :=
  ⟨openWalk_time s w, openWalk_out s w, openWalk_irq s w, openWalk_bus s w⟩

/-- A state whose List Engine is that of a grant with a walk, whatever the grant has done to its requester. -/
theorem walkOpened_of {s t : State} {p : Plan} {kind : WalkKind} {g : GroupIdx} {todo : List EntryIdx} {client : Client}
    (h : p.OnGroup (some ⟨kind, g, todo⟩) [.closeWalk g kind.closed] .ok)
    (he : t.engine = ((s.openWalk p.walk).begin client p).engine) (ht : t.table = s.table)
    (hn : t.notices = s.notices) (ho : s.OutsideKept t) : s.WalkOpened t kind g client todo := by
  have hgroup : ∀ k, t.group k =
      if g = k then { s.group g with phase := kind.opened, depth := kind.depth } else s.group k := fun k => by
    rw [← openWalk_some_group s kind g k todo, ← h.walk, group_of_engine he]
    rfl
  have hnow : ∀ b, (s.openWalk p.walk).now b = s.now b := fun b =>
    congrArg TimebaseRecord.now (timebase_of_time (openWalk_time s p.walk) b)
  refine ⟨?_, fun k hne => ?_, ht, fun b => ?_, ?_, hn, ho, s.operationOf client p, ?_, rfl, rfl, rfl, h.claims, h.lineOp,
    h.post, h.purge, h.status, h.value, h.acts, h.walk⟩
  · rw [hgroup, if_pos rfl]
  · rw [hgroup, if_neg (Ne.symm hne)]
  · rw [list_of_engine he]
    exact (openWalk_begin_sameTable s p.walk client p).list b
  · rw [he]
    exact openWalk_rotation s p.walk
  · rw [he, State.operationOf, ← hnow .tb0, ← hnow .tb1]
    rfl

/-- The grant of a command whose plan walks: the walk is opened, and the command stands in stage ENGINE (R139). -/
theorem command_opens {s : State} {i : Instr} {c : Command} {k : Command → Bool} {p : Plan} {kind : WalkKind}
    {g : GroupIdx} {todo : List EntryIdx} (hi : exec i s = .next (s.commandGrant k)) (hg : s.Grantable .command)
    (hc : s.executing .grantWait = some c) (hk : k c = true) (hp : s.commandPlan c = some p)
    (h : p.OnGroup (some ⟨kind, g, todo⟩) [.closeWalk g kind.closed] .ok) :
    ∃ t, exec i s = .next t ∧ s.WalkOpened t kind g .command todo ∧
      t.cmd = { s.cmd with execution := s.cmd.execution.map fun x => { x with stage := .engine } } ∧
      t.trig = s.trig := by
  refine ⟨_, hi.trans (congrArg _ (commandGrant_of hg hc hp hk)), ?_, ?_, openWalk_trig s p.walk⟩
  · have ho := openWalk_outside s p.walk
    exact walkOpened_of h rfl (openWalk_table s p.walk) (openWalk_notices s p.walk) ⟨ho.time, ho.out, ho.irq, ho.bus⟩
  · have hcmd : ((s.openWalk p.walk).begin .command p).cmd = s.cmd := openWalk_cmd s p.walk
    rw [State.setStage, hcmd]

/-- The grant of a trigger record whose plan walks: the walk is opened, and the record is IN SERVICE (R158). -/
theorem trigger_opens {s : State} {i : Instr} {l : TrigIdx} {c : Capture} {k : TriggerAction → Bool} {kind : WalkKind}
    {g : GroupIdx} {todo : List EntryIdx} (hi : exec i s = .next (s.triggerGrant k)) (hg : s.Grantable .trigger)
    (hw : s.waitingLine = some (l, c)) (hk : k c.action = true)
    (h : (s.triggerPlan c).OnGroup (some ⟨kind, g, todo⟩) [.closeWalk g kind.closed] .ok) :
    ∃ t, exec i s = .next t ∧ s.WalkOpened t kind g (.trigger l) todo ∧
      t.trig = { lines := s.trig.lines.set l { s.line l with record := .inService c none } } ∧ t.cmd = s.cmd := by
  refine ⟨_, hi.trans (congrArg _ (triggerGrant_of hg hw hk)), ?_, ?_,
    openWalk_cmd s (s.triggerPlan c).walk⟩
  · have ho := openWalk_outside s (s.triggerPlan c).walk
    exact walkOpened_of h rfl (openWalk_table s _) (openWalk_notices s _) ⟨ho.time, ho.out, ho.irq, ho.bus⟩
  · have htrig : ((s.openWalk (s.triggerPlan c).walk).begin (.trigger l) (s.triggerPlan c)).trig = s.trig :=
      openWalk_trig s (s.triggerPlan c).walk
    dsimp only [State.setLine, State.line]
    rw [htrig]

/-- Settles O39: HOLD of a RUNNING group, and RESUME of a HELD group with depth 1, decide a plan that walks. -/
theorem walksOpen : Obligations.WalksOpen := by
  refine ⟨fun s g hg hc h => ?_, fun s g hg hc h hd => ?_, fun s l g n0 n1 hg hw h => ?_,
    fun s l g n0 n1 hg hw h hd => ?_⟩
  · exact command_opens (kind := .hold) rfl hg hc rfl rfl (holdPlan_walks h)
  · exact command_opens (kind := .resume) rfl hg hc rfl rfl (resumePlan_walks h hd)
  · exact trigger_opens (kind := .hold) rfl hg hw rfl (holdPlan_walks h)
  · exact trigger_opens (kind := .resume) rfl hg hw rfl (resumePlan_walks h hd)

/-! ## The member steps (R45, R46, R115, R117) -/

theorem exec_walkMemberStep {s : State} {op : Operation} {kind : WalkKind} {g : GroupIdx} {e : EntryIdx}
    {rest : List EntryIdx} (h : s.InFlight op) (hw : op.plan.walk = some ⟨kind, g, e :: rest⟩) :
    exec .walkMemberStep s = .next ((s.setPlan op (op.plan.moved kind g rest)).moveMember kind
      (op.now (s.entry e).behavior.timebase) g e) := by
  rw [← walkStep_of h.busy hw]
  exact congrArg (fun u : State => Host.Outcome.next u.walkStep) (settle_of_settled h.settled)

theorem holdMember_list (s : State) (n : Tick) (g : GroupIdx) (e : EntryIdx) (b : Timebase) :
    (s.holdMember n g e).list b = if (s.entry e).behavior.timebase = b then (s.list b).erase e else s.list b := by
  rw [State.holdMember, raiseHeld_list, list_of_engine (setEntry_engine _ _ _), State.unlink, list_setList]
  split
  · rename_i h; rw [h]
  · rfl

theorem resumeMember_list (s : State) (n : Tick) (g : GroupIdx) (e : EntryIdx) (b : Timebase) :
    (s.resumeMember n g e).list b = if (s.entry e).behavior.timebase = b then
      insertByDistance (fun a => distance (s.entry a).deadline n) e (distance (n + (s.entry e).remaining) n)
        ((s.list b).erase e)
      else s.list b := by
  rw [State.resumeMember, lowerHeld_list, link_list]

/-- Whatever way a walk goes, a member step writes the member, its list and the held count of the group. -/
theorem moveMember_kept (s : State) (kind : WalkKind) (n : Tick) (g : GroupIdx) (e : EntryIdx) :
    (∀ b, b ≠ (s.entry e).behavior.timebase → (s.moveMember kind n g e).list b = s.list b) ∧
      (∀ h, h ≠ g → (s.moveMember kind n g e).group h = s.group h) ∧
      (s.moveMember kind n g e).table.freeList = s.table.freeList ∧
      (s.moveMember kind n g e).notices = s.notices ∧ (s.moveMember kind n g e).cmd = s.cmd ∧
      (s.moveMember kind n g e).trig = s.trig ∧ s.OutsideKept (s.moveMember kind n g e) := by
  cases kind with
  | hold =>
    refine ⟨fun b hb => ?_, fun h hne => ?_, ?_, holdMember_notices s n g e, holdMember_cmd s n g e,
      holdMember_trig s n g e, holdMember_time s n g e, holdMember_out s n g e, holdMember_irq s n g e,
      holdMember_bus s n g e⟩
    · rw [State.moveMember, holdMember_list, if_neg (Ne.symm hb)]
    · rw [State.moveMember, holdMember_group, if_neg (Ne.symm hne)]; rfl
    · simp [State.moveMember, State.holdMember]
  | resume =>
    refine ⟨fun b hb => ?_, fun h hne => ?_, ?_, resumeMember_notices s n g e, resumeMember_cmd s n g e,
      resumeMember_trig s n g e, resumeMember_time s n g e, resumeMember_out s n g e, resumeMember_irq s n g e,
      resumeMember_bus s n g e⟩
    · rw [State.moveMember, resumeMember_list, if_neg (Ne.symm hb)]
    · rw [State.moveMember, resumeMember_group, if_neg (Ne.symm hne)]; rfl
    · rw [State.moveMember, State.resumeMember, lowerHeld_table]
      exact (link_kept s n e _ _).1

/-! ## The closing step (R115, R117) -/

/-- The final step of a walk without members left writes the phase of its group, and leaves the claims. -/
theorem finalStep_closeWalk {s : State} {op : Operation} {kind : WalkKind} {g : GroupIdx} {phase : GroupPhase}
    (h : s.InFlight op) (hw : op.plan.walk = some ⟨kind, g, []⟩) (ha : op.plan.acts = [.closeWalk g phase])
    (h1 : op.plan.lineOp = none) (h2 : op.plan.post = none) (h3 : op.plan.purge = none) :
    exec .finalStep s = .next ((s.act op (.closeWalk g phase)).setPlan op { op.plan with walk := none, acts := [] }) := by
  have hclaims : op.plan.claimsAfter = op.plan.claims := by simp [Plan.claimsAfter, ha, Act.entry]
  have hplan : ({ op.plan with
      claims := op.plan.claimsAfter, purge := none, walk := none, acts := []
      value := op.plan.value + 0 } : Plan) = { op.plan with walk := none, acts := [] } := by
    rw [hclaims, ← h3]; rfl
  rw [exec, execFinalStep, finalStep_of h (by simp [Plan.atFinalStep, Plan.walking, h1, h2, hw])
    (by simp [Plan.hasFinalStep, ha]), ha, h3]
  exact congrArg (fun p => Host.Outcome.next ((s.act op (.closeWalk g phase)).setPlan op p)) hplan

/-- Settles O40: a member step moves the member and its plan goes on with the rest; the closing step writes the phase. -/
theorem walkSteps : Obligations.WalkSteps := by
  refine ⟨fun s op kind g e rest hI hw => ?_, fun s op kind g phase hI hw ha h1 h2 h3 => ?_⟩
  · obtain ⟨hlists, hgroups, hfree, hnotices, hcmd, htrig, hout⟩ := moveMember_kept
      (s.setPlan op (op.plan.moved kind g rest)) kind (op.now (s.entry e).behavior.timebase) g e
    have hlist : ∀ p b, (s.setPlan op p).list b = s.list b := fun _ => setActivity_list s _
    refine ⟨_, exec_walkMemberStep hI hw, ?_, ?_, fun a ha => moveMember_entry_other _ kind _ g ha,
      fun b hb => (hlists b hb).trans (hlist _ b), hgroups, hfree, moveMember_activity _ kind _ g e, hnotices, hcmd,
      htrig, hout.time, hout.out, hout.irq, hout.bus⟩
    · rintro rfl
      refine ⟨?_, ?_, ?_⟩
      · exact (holdMember_entry _ _ g e e).trans (if_pos rfl)
      · refine (holdMember_list _ _ g e _).trans ((if_pos rfl).trans ?_)
        rw [hlist]
      · refine (holdMember_group _ _ g e g).trans ?_
        rw [if_pos rfl]; rfl
    · rintro rfl
      refine ⟨?_, ?_, ?_⟩
      · exact (resumeMember_entry _ _ g e e).trans (if_pos rfl)
      · refine (resumeMember_list _ _ g e _).trans ((if_pos rfl).trans ?_)
        rw [hlist]; rfl
      · refine (resumeMember_group _ _ g e g).trans ?_
        rw [if_pos rfl]; rfl
  · have hgroup := act_closeWalk_group s op g phase
    refine ⟨_, finalStep_closeWalk hI hw ha h1 h2 h3, ?_, fun h hne => ?_, rfl, fun b => ?_, rfl, rfl, rfl,
      ⟨rfl, rfl, rfl, rfl⟩, rfl⟩
    · exact (hgroup g).trans (if_pos rfl)
    · exact (hgroup h).trans (if_neg (Ne.symm hne))
    · exact (setActivity_list _ _ b).trans (setGroup_list s g _ b)

end Sys2Proof.Machine
end

section
/-!
Rows that settle first: each is one operation on the settled state, and the operations of CMD, PARAM, PPTR and the
RESULT port are said once (R128–R131, R143, R144, R147, R191).
-/
namespace Sys2Proof.Machine

/-! ## Rows that settle first -/

/-- What a row that settles first does to the settled part (`exec_settling` ties it to `exec`). The other rows stand for
no operation here. -/
def settledRow (c : Instr) (s : State) : State :=
  match c with
  | .tkiEdge => s.tkiChange
  | .tick b => s.tick b
  | .triggerEdge l => s.triggerChange l
  | .cmd code => s.writeCmd code
  | .lineOperation => s.handLineOp
  | .post => s.handPost
  | .walkMemberStep => s.walkStep
  | .finalStep => s.finalStep
  | .operationCompletion => s.complete
  | .paramWrite b => s.writeParam b
  | .paramRead => s.readParam
  | .pptrWrite b => s.writePptr b
  | .resultRead => s.readResult
  | .resultPop _ => s.popResult
  | .noticeRead q => s.readNotice q
  | .noticePop q i => s.popNotice q i.toNat
  | .vselWrite b => s.writeVsel b
  | .viewRead => s.readView
  | .nselWrite b => s.writeNsel b
  | .nowRead => s.readNow
  | .iclrWrite b => s.writeIclr b
  | .ienWrite b => s.writeIen b
  | .outopSet b => s.lineOp (outopLine b) .set
  | .outopClear b => s.lineOp (outopLine b) .clear
  | .outopToggle b => s.lineOp (outopLine b) .toggle
  | .outopFourthEncoding _ | .refusedWindowWrite _ _ => s.misuse
  | .triggerFlagClear b => s.clearTriggerFlags b
  | .outputEnable b | .masterEnable b => s.writeGctrl b
  | .discard b => s.writeGctrl (b ||| 0x04)
  | .schedulerClear b => s.writeGctrl (b ||| 0x08)
  | .wmClear b => s.writeGctrl (b ||| 0x10)
  | .clkPeriod => s.clkPeriod
  | _ => s

/-- A row that settles first sees the settled part only. -/
theorem exec_settling {c : Instr} (h : rowSettlesFirst c = true) (s : State) :
    exec c s = .next (settledRow c s.settle) := by
  cases c
  case hardwareReset | nop | alloc | setupTiming | setupBehavior | retune | arm | armAt | cancel | free | hold | resume
    | setDivider | start | stop | clearNow | clearFault | queueConfig | flushQueue | bindTrigger | service | triggerArm
    | triggerCancel | triggerHold | triggerResume | releaseReport | standingPop => cases h
  all_goals rfl

theorem exec_settled {c : Instr} (h : rowSettlesFirst c = true) {s : State} (hs : s.settled = true) :
    exec c s = .next (settledRow c s) := by
  rw [exec_settling h, settle_of_settled hs]

/-- Settles O3: settling is complete and idempotent, and a row that settles first sees the settled part only. -/
theorem eventRowsSettleFirst : Obligations.EventRowsSettleFirst := by
  refine ⟨settle_settled, fun s hs => settle_of_settled hs, fun c s hc => ?_⟩
  rw [exec_settling hc, exec_settled hc (settle_settled s)]

/-! ## CMD (R128, R131) -/

/-- The Command Unit after an accepted CMD write, before the take (R128). -/
def State.accepted (s : State) (code : Byte) : State :=
  { s with cmd := { s.cmd with
      queue := s.cmd.queue ++ [{ code := code, params := s.cmd.staging, seq := s.cmd.seq }]
      seq := s.cmd.seq + 1
      pptr := 0 } }

theorem writeCmd_accepted {s : State} (h : s.cmd.queue.length < 4) (code : Byte) :
    s.writeCmd code = (s.accepted code).take := if_pos h

theorem writeCmd_refused {s : State} (h : 4 ≤ s.cmd.queue.length) (code : Byte) :
    s.writeCmd code = { s with irq := { s.irq with rej := true } } := if_neg (Nat.not_lt.mpr h)

theorem exec_cmd_accepted {s : State} (hs : s.settled = true) (h : s.cmd.queue.length < 4) (code : Byte) :
    exec (.cmd code) s = .next (s.accepted code).take := by
  rw [exec_settled rfl hs, settledRow, writeCmd_accepted h]

theorem exec_cmd_refused {s : State} (hs : s.settled = true) (h : 4 ≤ s.cmd.queue.length) (code : Byte) :
    exec (.cmd code) s = .next { s with irq := { s.irq with rej := true } } := by
  rw [exec_settled rfl hs, settledRow, writeCmd_refused h]

/-- Settles O8: the number of queued commands decides between acceptance and REJ. -/
theorem cmdWrites : Obligations.CmdWrites :=
  ⟨fun code _ hs h => exec_cmd_accepted hs h code, fun code _ hs h => exec_cmd_refused hs h code⟩

/-! ## PARAM and PPTR (R129, R130) -/

/-- Settles O10: on the settled part a PARAM row is `writeParam` or `readParam`. -/
theorem paramAccess : Obligations.ParamAccess := fun _ _ hs => ⟨exec_settled rfl hs, exec_settled rfl hs⟩

theorem writePptr_index (s : State) {b : Byte} (h : b.toNat < 8) :
    s.writePptr b = { s with cmd := { s.cmd with pptr := ⟨b.toNat, h⟩ } } := dif_pos h

theorem writePptr_refused (s : State) {b : Byte} (h : 8 ≤ b.toNat) : s.writePptr b = s.misuse :=
  dif_neg (Nat.not_lt.mpr h)

/-- The take leaves the pointer and the staging bytes. -/
theorem take_pptr (s : State) : s.take.cmd.pptr = s.cmd.pptr ∧ s.take.cmd.staging = s.cmd.staging :=
  takeFrom_pptr s.cmd.queue s

/-- A GCTRL write with its CLEAR bit clears, whatever its other actions (R188, R189). -/
theorem writeGctrl_clear (s : State) {b : Byte} (h : b.getLsbD 3 = true) :
    s.writeGctrl b = (s.setEnables b).clear := if_pos h

theorem exec_schedulerClear (b : Byte) (s : State) :
    exec (.schedulerClear b) s = .next (s.settle.setEnables (b ||| 0x08)).clear := by
  have hbit : (b ||| 0x08).getLsbD 3 = true := by simp
  rw [exec_settling rfl, settledRow, writeGctrl_clear _ hbit]

/-- Settles O11: the pointer as it is read, written, kept by a refused CMD write, and set to 0. -/
theorem pptrAccess : Obligations.PptrAccess := by
  refine ⟨fun s => rfl, fun b s h hs => ?_, fun b s hs h => ?_, fun code s hs h => ?_, fun code s hs h => ?_,
    fun tki trg s => ⟨_, exec_hardwareReset tki trg s, rfl⟩, fun b s => ⟨_, exec_schedulerClear b s, rfl⟩⟩
  · rw [exec_settled rfl hs, settledRow, writePptr_index s h]
  · rw [exec_settled rfl hs, settledRow, writePptr_refused s h, State.misuse]
  · exact ⟨_, exec_cmd_accepted hs h code, take_pptr (s.accepted code)⟩
  · exact ⟨_, exec_cmd_refused hs h code, rfl⟩

/-! ## The RESULT port (R143, R144, R147, R191) -/

/-- A result record as the port returns it, with the status codes of R147. -/
theorem resultRecord_bytes (r : ResultRecord) :
    r.bytes = [r.seq.setWidth 8, r.code,
      (match r.status with
        | .ok => 0 | .noEffect => 1 | .badCode => 2 | .badIndex => 3 | .range => 4 | .state => 5
        | .exhausted => 6 | .faulted => 7 | .limit => 8),
      r.value] := by
  rw [ResultRecord.bytes]
  cases r.status <;> rfl

theorem popResult_empty {s : State} (h : s.cmd.results = []) : s.popResult = s.misuse := by
  rw [State.popResult, h]

theorem popResult_cons {s : State} {r : ResultRecord} {rest : List ResultRecord} (h : s.cmd.results = r :: rest) :
    s.popResult = State.take { s with cmd := { s.cmd with
      results := rest, resultPointer := 0, resultLatch := [] } } := by
  rw [State.popResult, h]

/-- Settles O12: a read latches the head record or the empty pattern, and a pop is refused or removes the head. -/
theorem resultPort : Obligations.ResultPort := by
  refine ⟨fun s hs => ?_, fun b s hs h => ?_, fun b s r rest hs h => ?_⟩
  · rw [exec_settled rfl hs, settledRow, State.readResult]
    cases h : s.cmd.results with
    | nil => rfl
    | cons r rest => simp only [resultRecord_bytes]; rfl
  · rw [exec_settled rfl hs, settledRow, popResult_empty h, State.misuse]
  · rw [exec_settled rfl hs, settledRow, popResult_cons h]

end Sys2Proof.Machine
end

section
/-!
Rows of the part whose step is not due (notes/assumptions/2.md), and the answer of a due NOP (R140).
-/
namespace Sys2Proof.Machine

/-! ## Owners, reports and pops -/

theorem ownerStep_not_due {s : State} (h : s.ownerDue = none) (k : Command → Bool) : s.ownerStep k = s := by
  rw [State.ownerStep, h]

theorem answerNop_not_due {s : State} (h : s.nopDue = false) : s.answerNop = s := by
  rw [State.answerNop, h]; rfl

theorem takeWaitingReport_not_due {s : State} {e : EntryIdx} (h : s.reportDue e = false) :
    s.takeWaitingReport e = s := by
  rw [State.takeWaitingReport, h]; rfl

theorem takeStanding_not_due {s : State} {q : QueueId} (h : s.standingDue q = none) : s.takeStanding q = s := by
  rw [State.takeStanding, h]

/-! ## Grants (R49) -/

/-- A BUSY engine, and one that has chosen another requester, offers `r` no grant. -/
theorem not_offers {s : State} {r : Requester} (h : (∃ op, s.engine.activity = .busy op) ∨
    ∃ r', r' ≠ r ∧ s.engine.activity = .chosen r') : s.offers r = false := by
  rcases h with ⟨op, hb⟩ | ⟨r', hne, hr⟩
  · rw [State.offers, hb]
  · simp [State.offers, hr, hne]

section
variable {s : State} (hd : s.dueStep = none)
include hd

theorem commandGrant_not_offered (h : s.offers .command = false) (k : Command → Bool) : s.commandGrant k = s := by
  rw [State.commandGrant, beforeGrant_of_none hd, h]; rfl

theorem triggerGrant_not_offered (h : s.offers .trigger = false) (k : TriggerAction → Bool) :
    s.triggerGrant k = s := by
  rw [State.triggerGrant, beforeGrant_of_none hd, h]; rfl

theorem expiryGrant_not_offered (h : s.offers .expiry = false) : s.expiryGrant = s := by
  rw [State.expiryGrant, beforeGrant_of_none hd, h]; rfl

end

/-- Settles O4: each row is one operation, and that operation answers the same state when it is not due. -/
theorem notDueChangesNothing : Obligations.NotDueChangesNothing := by
  refine ⟨fun s h => ?_, fun s h => congrArg _ (answerNop_not_due h),
    fun s e h => congrArg _ (takeWaitingReport_not_due h), fun s q h => congrArg _ (takeStanding_not_due h),
    fun s hd h => ?_, fun s hd h => ?_, fun s hd h => congrArg _ (expiryGrant_not_offered hd (not_offers h))⟩
  · have row : ∀ k, (Host.Outcome.next (s.ownerStep k) : Answer) = .next s := fun k =>
      congrArg _ (ownerStep_not_due h k)
    exact ⟨row _, row _, row _, row _, row _, row _, row _, row _, row _, row _, row _⟩
  · have row : ∀ k, (Host.Outcome.next (s.commandGrant k) : Answer) = .next s := fun k =>
      congrArg _ (commandGrant_not_offered hd (not_offers h) k)
    exact ⟨row _, row _, row _, row _, row _, row _, row _⟩
  · have row : ∀ k, (Host.Outcome.next (s.triggerGrant k) : Answer) = .next s := fun k =>
      congrArg _ (triggerGrant_not_offered hd (not_offers h) k)
    exact ⟨row _, row _, row _, row _⟩

/-! ## NOP (R140) -/

theorem executing_of_execution {s : State} {x : Execution} {c : Command} (hx : s.cmd.execution = some x)
    (hc : x.command.check = .ok c) : s.executing x.stage = some c := by
  simp [State.executing, hx, hc]

/-- Settles O24: the NOP in stage CHECK is due, and its answer is OK and 0. -/
theorem nopAnswered : Obligations.NopAnswered := by
  intro s x hx hst hc
  have hdue : s.nopDue = true := by rw [State.nopDue, ← hst, executing_of_execution hx hc]; rfl
  rw [exec, execNop, State.answerNop, if_pos hdue]

end Sys2Proof.Machine
end

section
/-!
The take of a command, its checks and its answer (R134–R141, R148, R194).
-/
namespace Sys2Proof.Machine

/-! ## The take and the answer (R134, R136, R141, R148) -/

theorem take_stays {s : State} (h : s.cmd.queue = [] ∨ s.cmd.execution.isSome ∨ 4 ≤ s.cmd.results.length) :
    s.take = s := by
  rcases h with h | h
  · rw [State.take, h, takeFrom, ← h]
  · have hcan : s.canTake = false := by
      rw [Bool.eq_false_iff, ne_eq, canTake_iff]
      rintro ⟨hx, hr⟩
      rcases h with h | h
      · rw [hx] at h; cases h
      · omega
    rw [State.take, takeFrom_stays hcan]

section
variable {s : State} {c : QueuedCommand} {rest : List QueuedCommand} (hq : s.cmd.queue = c :: rest)
  (hx : s.cmd.execution = none) (hr : s.cmd.results.length < 4)
include hq hx hr

theorem take_passes {k : Command} (hc : c.check = .ok k) :
    s.take = { s with cmd := { s.cmd with queue := rest, execution := some ⟨c, k.firstStage⟩ } } := by
  rw [State.take, hq, takeFrom_ok (canTake_iff.mpr ⟨hx, hr⟩) hc]

theorem take_fails {st : Status} (hc : c.check = .error st) :
    s.take = State.take { s with cmd := { s.cmd with
      queue := rest, results := s.cmd.results ++ [⟨c.seq, c.code, st, c.failValue⟩] } } := by
  rw [State.take, hq, takeFrom_error (canTake_iff.mpr ⟨hx, hr⟩) hc]
  exact (takeFrom_queue rest rest (s.addResult c st c.failValue)).symm

end

theorem answer_execution {s : State} {x : Execution} (h : s.cmd.execution = some x) (st : Status) (v : Byte) :
    s.answer st v = State.take { s with cmd := { s.cmd with
      execution := none, results := s.cmd.results ++ [⟨x.command.seq, x.command.code, st, v⟩] } } := by
  rw [State.answer, h]; rfl

/-! ## Commands with one index (R137) -/

/-- A command whose only check is an entry index, such as ARM. -/
theorem withIndex_entry (b : Byte) (k : EntryIdx → Checked) :
    (48 ≤ b.toNat → withIndex (entryOfByte b) k = .error .badIndex) ∧
      ∀ e : EntryIdx, b.toNat = e.val → withIndex (entryOfByte b) k = k e :=
  ⟨fun h => by rw [entryOfByte_none h]; rfl, fun e h => by rw [entryOfByte_of h]; rfl⟩

/-- A command whose only check is a group index, such as HOLD. -/
theorem withIndex_group (b : Byte) (k : GroupIdx → Checked) :
    (8 ≤ b.toNat → withIndex (groupOfByte b) k = .error .badIndex) ∧
      ∀ g : GroupIdx, b.toNat = g.val → withIndex (groupOfByte b) k = k g :=
  ⟨fun h => by rw [groupOfByte_none h]; rfl, fun g h => by rw [groupOfByte_of h]; rfl⟩

/-- A command whose only check is a queue, such as FLUSH QUEUE. -/
theorem withIndex_queue (n : Nat) (k : QueueId → Checked) :
    (2 ≤ n → withIndex (queueOfNat n) k = .error .badIndex) ∧
      ∀ q : QueueId, n = (match q with | .nq0 => 0 | .nq1 => 1) → withIndex (queueOfNat n) k = k q :=
  ⟨fun h => by rw [queueOfNat_none h]; rfl, fun q h => by rw [queueOfNat_of h]; rfl⟩

/-! ## The obligation -/

/-- Settles O9: the take by the head of the queue, the answer, the first stages, and the checks code by code. -/
theorem takeAndAnswer : Obligations.TakeAndAnswer := by
  refine ⟨⟨fun s h => take_stays h, fun s c rest k hq hx hr hc => take_passes hq hx hr hc,
    fun s c rest st hq hx hr hc => take_fails hq hx hr hc⟩, fun s x st v h => answer_execution h st v,
    fun k => ?_, fun c => ?_⟩
  · cases k <;> rfl
  obtain ⟨nop, alloc, setupTiming, setupBehavior, arm, armAt, cancel, free, hold, resume, timebase, queueConfig,
    flushQueue, bindTrigger, retune⟩ := check_of_code c
  refine ⟨check_badCode, nop, fun h => ?_, fun h => ?_, fun h => ?_, fun h => ?_, fun h => ?_, fun h => ?_,
    fun h => ?_, fun h => ?_, fun h => ?_, fun h => ?_, fun h => ?_, fun h => ?_, fun h => ?_, fun h => ?_⟩
  · rw [alloc h]; exact checkAlloc_spec c.params
  · rw [setupTiming h]; exact checkSetupTiming_spec c.params
  · rw [setupBehavior h]
    exact ⟨checkSetupBehavior_index, fun hr => (checkSetupBehavior_rest hr.1).1 hr.2,
      fun hi => (checkSetupBehavior_rest hi).2⟩
  · rw [arm h]; exact withIndex_entry c.params[0] _
  · rw [armAt h]; exact checkArmAt_spec c.params
  · rw [cancel h]; exact checkCancel_spec c.params
  · rw [free h]; exact withIndex_entry c.params[0] _
  · rw [hold h]; exact withIndex_group c.params[0] _
  · rw [resume h]; exact withIndex_group c.params[0] _
  · rw [timebase h]; exact checkTimebase_spec c.params
  · rw [queueConfig h]; exact checkQueueConfig_spec c.params
  · rw [flushQueue h]; exact withIndex_queue c.params[0].toNat _
  · rw [bindTrigger h]; exact checkBindTrigger_spec c.params
  · rw [retune h]; exact checkRetune_spec c.params

end Sys2Proof.Machine
end

section
/-!
The law of the Command Unit (R127, R133, R134, R142), kept by every step: only an answer, a take, a stage, a CMD write,
a RESULT pop, a DISCARD and a clear touch what the law looks at.
-/
namespace Sys2Proof.Machine

/-! ## Takes -/

/-- Where the two bounds hold, a take leaves no command waiting (R134). -/
theorem take_law {s : State} (hq : s.cmd.queue.length ≤ 4)
    (hr : s.cmd.results.length + s.cmd.execution.toList.length ≤ 4) : s.take.CommandLaw := takeFrom_law hq hr

theorem State.CommandLaw.writeCmd {s : State} (h : s.CommandLaw) (code : Byte) : (s.writeCmd code).CommandLaw := by
  by_cases hq : s.cmd.queue.length < 4
  · rw [writeCmd_accepted hq]
    have hlen : (s.accepted code).cmd.queue.length = s.cmd.queue.length + 1 := List.length_append
    exact take_law (by omega) h.results
  · rw [writeCmd_refused (Nat.not_lt.mp hq)]
    exact CommandLaw.of_cmd h rfl

theorem State.CommandLaw.popResult {s : State} (h : s.CommandLaw) : s.popResult.CommandLaw := by
  cases hr : s.cmd.results with
  | nil => rw [popResult_empty hr]; exact CommandLaw.of_cmd h rfl
  | cons r rest =>
    rw [popResult_cons hr]
    have hres := h.results
    rw [hr, List.length_cons] at hres
    exact take_law h.queue (by dsimp only; omega)

/-! ## Owners, grants and completions -/

/-- An owner's step answers the command in execution, on a state with the Command Unit as it was (R138). -/
theorem ownerStep_cases (s : State) (k : Command → Bool) :
    s.ownerStep k = s ∨ ∃ (t : State) (st : Status) (v : Byte), t.cmd = s.cmd ∧ s.ownerStep k = t.answer st v := by
  cases hd : s.ownerDue with
  | none => exact .inl (ownerStep_not_due hd k)
  | some c =>
    obtain ⟨r, hr⟩ := owned_of_owner (ownerDue_some hd).2.1 s
    cases hk : k c with
    | true => exact .inr ⟨r.1, r.2.1, r.2.2, by rw [owned_frame hr], ownerStep_eq hd hr hk⟩
    | false => exact .inl (by simp [State.ownerStep, hd, hr, hk])

theorem State.CommandLaw.ownerStep {s : State} (h : s.CommandLaw) (k : Command → Bool) :
    (s.ownerStep k).CommandLaw := by
  rcases ownerStep_cases s k with he | ⟨t, st, v, hc, he⟩
  · rw [he]; exact h
  · rw [he]; exact answer_law (CommandLaw.of_cmd h hc) st v

theorem State.CommandLaw.answerNop {s : State} (h : s.CommandLaw) : s.answerNop.CommandLaw := by
  unfold State.answerNop
  split
  · exact answer_law h _ _
  · exact h

/-- A grant of the command in execution moves it to stage ENGINE, or is none (R139). -/
theorem State.CommandLaw.grantCommand {s : State} (h : s.CommandLaw) (k : Command → Bool) :
    (s.grantCommand k).CommandLaw := by
  unfold State.grantCommand
  split
  · exact h
  · split
    · exact h
    · split
      · exact setStage_law (CommandLaw.of_cmd h (by simp)) _
      · exact h

theorem State.CommandLaw.handBack {s : State} (h : s.CommandLaw) (client : Client) (st : Status) (v : Nat) :
    (s.handBack client st v).CommandLaw := by
  cases client with
  | expiry => exact h
  | command => exact answer_law h _ _
  | trigger l => exact CommandLaw.of_cmd h rfl

theorem State.CommandLaw.complete {s : State} (h : s.CommandLaw) : s.complete.CommandLaw := by
  unfold State.complete
  split
  · rename_i op _
    have hdone : (s.completedTo op.client.requester.next).CommandLaw := CommandLaw.of_cmd h rfl
    split
    · exact hdone.handBack _ _ _
    · exact h
  all_goals exact h

/-! ## Every step -/

theorem commandLaw_due : DueKeeps State.CommandLaw where
  report s e h := CommandLaw.of_cmd h (by simp)
  standing s q h := CommandLaw.of_cmd h (by simp)
  nop _ h := h.answerNop
  owner _ k h := h.ownerStep k
  decide s _ h := CommandLaw.of_cmd h (by simp)

theorem commandLaw_grant : GrantKeeps State.CommandLaw where
  service s _ h := CommandLaw.of_cmd h (by simp)
  command _ k _ h := h.grantCommand k
  trigger s k _ h := CommandLaw.of_cmd h (by simp)

theorem commandLaw_engine : EngineKeeps State.CommandLaw where
  lineOp s h := CommandLaw.of_cmd h (by simp)
  post s h := CommandLaw.of_cmd h (by simp)
  walk s h := CommandLaw.of_cmd h (by simp)
  final s h := CommandLaw.of_cmd h (by simp)
  complete _ h := h.complete

theorem commandLaw_window : WindowKeeps State.CommandLaw where
  cmd _ code h := h.writeCmd code
  writeParam _ _ h := ⟨h.queue, h.results, h.taken⟩
  readParam _ h := ⟨h.queue, h.results, h.taken⟩
  pptr s b h := by
    unfold State.writePptr
    split
    · exact ⟨h.queue, h.results, h.taken⟩
    · exact CommandLaw.of_cmd h rfl
  readResult _ h := ⟨h.queue, h.results, h.taken⟩
  popResult _ h := h.popResult
  readNotice s q h := CommandLaw.of_cmd h (by simp)
  popNotice s q i h := CommandLaw.of_cmd h (by simp)
  vsel s b h := CommandLaw.of_cmd h (by simp)
  view s h := CommandLaw.of_cmd h (by simp)
  nsel s b h := CommandLaw.of_cmd h (by simp)
  now s h := CommandLaw.of_cmd h (by simp)
  iclr s b h := CommandLaw.of_cmd h (by simp)
  ien s b h := CommandLaw.of_cmd h (by simp)
  outop s n o h := CommandLaw.of_cmd h (by simp)
  misuse s h := CommandLaw.of_cmd h (by simp)
  flags s b h := CommandLaw.of_cmd h (by simp)
  enables s b h := CommandLaw.of_cmd h (by simp)
  clear _ _ := CommandLaw.of_cmd (resetWith_commandLaw false 0) rfl
  discard _ h := ⟨Nat.zero_le _, h.results, .inl rfl⟩
  clearWm s h := CommandLaw.of_cmd h (by simp)

theorem commandLaw_pin : PinKeeps State.CommandLaw where
  clk s h := CommandLaw.of_cmd h (by simp)
  tki s h := CommandLaw.of_cmd h (by simp)
  trigger s l h := CommandLaw.of_cmd h (by simp)
  reset tki trg _ := CommandLaw.of_cmd (resetWith_commandLaw tki trg) rfl

theorem commandLaw_keeps : Keeps State.CommandLaw where
  due := commandLaw_due
  grant := commandLaw_grant
  engine := commandLaw_engine
  window := commandLaw_window
  pin := commandLaw_pin
  pending _ _ h := CommandLaw.of_cmd h rfl

/-- Settles O55: each shared operation keeps the law, and so every step does. -/
theorem commandLawKept : Obligations.CommandLawKept := fun _ _ h e => step_keeps commandLaw_keeps h e

end Sys2Proof.Machine
end

section
/-!
A change of level on a trigger line: whether the binding counts the edge, and what a counted edge makes of the line
(R155–R158).
-/
namespace Sys2Proof.Machine

/-! ## Edges of a trigger line (R155) -/

/-- The line with its last level replaced, before a counted edge is taken (R155). -/
def TriggerLine.toggled (x : TriggerLine) : TriggerLine := { x with level := !x.level }

/-- The binding counts the coming edge if it counts both kinds, or the kind that leaves the last level (R155). -/
theorem counts_toggled_iff (e : BindingEdge) (level : Bool) :
    e.counts (!level) = true ↔ e = .both ∨ e = if level then .falling else .rising := by
  cases e <;> cases level <;> decide

theorem changed_counted {x : TriggerLine} (h : x.edge = .both ∨ x.edge = if x.level then .falling else .rising)
    (now0 now1 : Tick) : x.changed now0 now1 = x.toggled.counted now0 now1 :=
  if_pos ((counts_toggled_iff _ _).mpr h)

theorem changed_uncounted {x : TriggerLine} (h : ¬(x.edge = .both ∨ x.edge = if x.level then .falling else .rising))
    (now0 now1 : Tick) : x.changed now0 now1 = x.toggled :=
  if_neg fun hc => h ((counts_toggled_iff _ _).mp hc)

/-! ## Counted edges (R156–R158) -/

theorem counted_none {x : TriggerLine} (h : x.record = .none) (now0 now1 : Tick) :
    x.counted now0 now1 = { x with record := .pending ⟨x.action, now0, now1⟩ } := by
  rw [TriggerLine.counted, h]

theorem counted_inService {x : TriggerLine} {c : Capture} (h : x.record = .inService c none) (now0 now1 : Tick) :
    x.counted now0 now1 = { x with record := .inService c (some ⟨x.action, now0, now1⟩) } := by
  rw [TriggerLine.counted, h]

/-- An edge is merged into a record that waits already: the pending record or the held edge (R157, R158). -/
theorem counted_merged {x : TriggerLine}
    (h : (∃ c, x.record = .pending c) ∨ ∃ c e, x.record = .inService c (some e)) (now0 now1 : Tick) :
    x.counted now0 now1 = { x with overrun := true } := by
  obtain ⟨c, hr⟩ | ⟨c, e, hr⟩ := h
  · rw [TriggerLine.counted, hr]
  · rw [TriggerLine.counted, hr]

/-! ## The row -/

theorem exec_triggerEdge_settled {s : State} (hs : s.settled = true) (l : TrigIdx) :
    exec (.triggerEdge l) s = .next (s.setLine l ((s.line l).changed (s.now .tb0) (s.now .tb1))) :=
  exec_settled rfl hs

/-- Settles O23: the binding decides whether the edge counts, and the record what a counted edge makes of the line. -/
theorem triggerEdges : Obligations.TriggerEdges := by
  intro l s hs
  dsimp only
  rw [exec_triggerEdge_settled hs]
  refine ⟨fun hc => ?_, fun hc hr => ?_, fun hc hr => ?_, fun c hc hr => ?_, fun hc hr => ?_⟩
  · rw [changed_uncounted hc]; rfl
  · rw [changed_counted hc, counted_none (x := (s.line l).toggled) hr]; rfl
  · rw [changed_counted hc, counted_merged (x := (s.line l).toggled) (.inl hr)]; rfl
  · rw [changed_counted hc, counted_inService (x := (s.line l).toggled) hr]; rfl
  · rw [changed_counted hc, counted_merged (x := (s.line l).toggled) (.inr hr)]; rfl

end Sys2Proof.Machine
end

section
/-!
Output lines: the OUTOP rows and the refused writes, the output hand-over of an operation in flight, and what its
completion gives the client (R47, R49, R158, R161, R166, R168, R170, R184).
-/
namespace Sys2Proof.Machine

/-! ## Operations on a line (R166, R168) -/

/-- The latch with one level of line `n` replaced; the enable and every other block stand. -/
def State.setLevel (s : State) (n : LineIdx) (level : Bool) : State :=
  { s with out := { s.out with latch := s.out.latch.set n level } }

/-- A line operation is one write of the named level (R166). -/
theorem lineOp_level (s : State) (n : LineIdx) (o : LineOp) :
    s.lineOp n o = s.setLevel n (o.apply s.out.latch[n]) := rfl

/-- Bits 0–3 of an OUTOP byte name the line (R193). -/
theorem outopLine_of {b : Byte} {n : LineIdx} (h : b.toNat % 16 = n.val) : outopLine b = n := Fin.ext h

/-- Bits 4–5 of an OUTOP byte choose the row (R168, R193). -/
theorem outopRow_eq (b : Byte) :
    outopRow b = if outopCode b = 0 then .outopSet b else if outopCode b = 1 then .outopClear b
      else if outopCode b = 2 then .outopToggle b else .outopFourthEncoding b := by
  have hcode : outopCode b < 4 := Nat.mod_lt _ (by decide)
  rw [outopRow]
  generalize outopCode b = k at hcode ⊢
  match k with
  | 0 | 1 | 2 | 3 => rfl

/-- Settles O20: on the settled part the rows are line operations on the named line, or set WM only. -/
theorem outopAndRefusedWrites : Obligations.OutopAndRefusedWrites := by
  refine ⟨⟨fun b s n hs hn => ?_, fun b s hs => exec_settled rfl hs, outopRow_eq⟩,
    fun o b s hs => exec_settled rfl hs, fun b => ⟨rfl, rfl, rfl⟩⟩
  rw [exec_settled rfl hs, exec_settled rfl hs, exec_settled rfl hs, settledRow, settledRow, settledRow, outopLine_of hn,
    lineOp_level, lineOp_level, lineOp_level]
  exact ⟨rfl, rfl, rfl⟩

/-! ## The output hand-over (R170) -/

theorem handLineOp_none {s : State} {op : Operation} (hb : s.engine.activity = .busy op) (hl : op.plan.lineOp = none) :
    s.handLineOp = s := by
  rw [State.handLineOp, hb]
  simp only [hl]

/-! ## The completion (R47, R49, R158, R161) -/

/-- When nothing is left to do, the pointer moves on and the outcome goes to the client. -/
theorem exec_completion_of {s : State} {op : Operation} (hI : s.InFlight op) (h : Plan.One op.plan []) {client : Client}
    (hc : op.client = client) :
    exec .operationCompletion s =
      .next ((s.completedTo client.requester.next).handBack client op.plan.status op.plan.value) := by
  subst hc
  rw [exec, execOperationCompletion, complete_done hI h.lineOp h.post h.walk h.purge h.acts]

/-- The record that a held edge leaves when the record in service ends (R158). -/
def recordAfter (heldEdge : Option Capture) : TriggerRecord :=
  match heldEdge with
  | none => .none
  | some c => .pending c

theorem finished_record {x : TriggerLine} {c : Capture} {h : Option Capture} (hx : x.record = .inService c h)
    (st : Status) : (x.finished st).record = recordAfter h := by
  simp only [TriggerLine.finished, hx]
  cases h <;> rfl

/-- The three failed outcomes set MISS (R161). -/
theorem finished_miss (x : TriggerLine) (st : Status) :
    (x.finished st).miss = (x.miss || (st == .state || st == .faulted || st == .limit)) := by
  cases st <;> rfl

/-- The end of a record in service changes the record and MISS of its line only (R158, R161). -/
theorem finished_inService {x : TriggerLine} {c : Capture} {h : Option Capture} (hx : x.record = .inService c h)
    (st : Status) :
    x.finished st = { x with
      record := recordAfter h
      miss := x.miss || (st == .state || st == .faulted || st == .limit) } := by
  rw [← finished_record hx st, ← finished_miss]
  rfl

theorem handBack_completed_trigger (s : State) (r : Requester) (l : TrigIdx) (st : Status) (v : Nat) :
    (s.completedTo r).handBack (.trigger l) st v = (s.completedTo r).setLine l ((s.line l).finished st) := rfl

/-- Settles O47: the hand-over by the operation decided, and the completion by the client. -/
theorem handOvers : Obligations.HandOvers := by
  refine ⟨fun s op hI => ⟨fun hl => ?_, fun n o hl => ?_⟩, fun s op hI hl hp ha hpurge hw => ?_⟩
  · rw [exec_settled rfl hI.settled, settledRow, handLineOp_none hI.busy hl]
  · rw [exec_lineOperation_of hI hl, lineOp_level]
    cases o <;> rfl
  · have hdone : Plan.One op.plan [] := ⟨hl, hp, hw, hpurge, ha⟩
    refine ⟨fun hc => exec_completion_of hI hdone hc, fun hc => exec_completion_of hI hdone hc, fun l c h hc hr => ?_⟩
    rw [exec_completion_of hI hdone hc, handBack_completed_trigger, finished_inService hr]
    cases h <;> rfl

end Sys2Proof.Machine
end

section
/-!
The interrupt and status locations: what ICLR, IEN and the trigger flag clear write, the seven sources with INT#, and
the bytes that the host reads without a side effect (R108, R132, R162, R167, R169, R174, R176, R177, R179, R180, R186,
R193).
-/
namespace Sys2Proof.Machine

/-! ## ICLR and the trigger flag clear (R162, R176) -/

/-- One write of REJ, whatever bit 3 is (R176). -/
theorem writeIclr_eq (s : State) (b : Byte) :
    s.writeIclr b = { s with irq := { s.irq with rej := s.irq.rej && !b.getLsbD 3 } } := by
  rw [State.writeIclr]
  cases b.getLsbD 3 with
  | true => simp only [if_true, Bool.not_true, Bool.and_false]
  | false => simp only [Bool.false_eq_true, if_false, Bool.not_false, Bool.and_true]

/-- Bit n is for OVERRUN of line n, and bit n + 4 for its MISS (R162, R193). -/
theorem clearTriggerFlags_line (s : State) (b : Byte) (l : TrigIdx) :
    (s.clearTriggerFlags b).line l = { s.line l with
      overrun := (s.line l).overrun && !b.getLsbD l.val
      miss := (s.line l).miss && !b.getLsbD (l.val + 4) } :=
  Vector.getElem_ofFn l.isLt

/-- Settles O19: each row is its write on the settled part. -/
theorem flagWrites : Obligations.FlagWrites := by
  refine ⟨⟨fun b s hs => ?_, fun b s hs => exec_settled rfl hs, fun s => rfl⟩, fun b s hs => ?_⟩
  · rw [exec_settled rfl hs, settledRow, writeIclr_eq]
  · exact ⟨_, exec_settled rfl hs, clearTriggerFlags_line s b, rfl, rfl, rfl, rfl, rfl, rfl, rfl, rfl⟩

/-! ## The interrupt sources and INT# (R174, R177, R179) -/

theorem resPending_iff (s : State) : s.resPending = true ↔ s.cmd.results ≠ [] := by
  rw [State.resPending, Bool.not_eq_true', List.isEmpty_eq_false_iff]

theorem faultPending_iff (s : State) (t : Timebase) :
    s.faultPending t = true ↔ (s.timebase t).state = .faulted := by
  rw [State.faultPending, beq_iff_eq]

/-- Each bit of IPEND is its source, and bit 7 is 0 (R177, R193). -/
theorem ipend_bits (s : State) :
    s.ipend.getLsbD 0 = s.notices.nq0.pending ∧ s.ipend.getLsbD 1 = s.notices.nq1.pending ∧
    s.ipend.getLsbD 2 = s.resPending ∧ s.ipend.getLsbD 3 = s.irq.rej ∧
    s.ipend.getLsbD 4 = s.faultPending .tb0 ∧ s.ipend.getLsbD 5 = s.faultPending .tb1 ∧
    s.ipend.getLsbD 6 = s.trgPending ∧ s.ipend.getLsbD 7 = false :=
  byteOfBits_get _ _ _ _ _ _ _

/-- The enables as they are read: bits 0–6 of IEN, and bit 7 clear (R177). -/
theorem ienByte_bit (s : State) (i : Nat) :
    s.ienByte.getLsbD i = true ↔ i < 7 ∧ s.irq.ien.getLsbD i = true := by
  rw [State.ienByte, BitVec.getLsbD_setWidth, Bool.and_eq_true, decide_eq_true_iff]
  constructor
  · rintro ⟨_, hi⟩
    exact ⟨BitVec.lt_of_getLsbD hi, hi⟩
  · rintro ⟨hlt, hi⟩
    exact ⟨by omega, hi⟩

/-- INT# follows the master enable and one pending source whose enable is on (R179). -/
theorem intAsserted_iff (s : State) : s.intAsserted = true ↔ s.irq.master = true ∧
    ∃ i : Fin 7, s.ipend.getLsbD i.val = true ∧ s.irq.ien.getLsbD i.val = true := by
  rw [State.intAsserted, Bool.and_eq_true, and_ne_zero]
  refine and_congr_right fun _ => ⟨?_, ?_⟩
  · rintro ⟨i, _, hp, he⟩
    obtain ⟨hlt, hien⟩ := (ienByte_bit s i).mp he
    exact ⟨⟨i, hlt⟩, hp, hien⟩
  · rintro ⟨i, hp, hien⟩
    exact ⟨i, by omega, hp, (ienByte_bit s i).mpr ⟨i.isLt, hien⟩⟩

/-- Settling leaves the master enable, so INT# reads it as it stands. -/
theorem intLow_iff (s : State) : s.intLow = true ↔ s.irq.master = true ∧
    ∃ i : Fin 7, s.settle.ipend.getLsbD i.val = true ∧ s.irq.ien.getLsbD i.val = true := by
  rw [State.intLow, intAsserted_iff, (settle_out_irq s).2]

/-! ## GSTAT, QLEVEL and VSEL as they read (R108, R180, R186, R193) -/

/-- A flag at its weight in a byte. -/
theorem mul_toNat_eq_ite (v : Nat) (b : Bool) : v * b.toNat = if b then v else 0 := by
  cases b with
  | true => exact Nat.mul_one v
  | false => exact Nat.mul_zero v

theorem gstat_eq (s : State) : s.gstat =
    BitVec.ofNat 8 (s.time.tb0.state.code + 4 * s.time.tb1.state.code + (if s.out.enable then 16 else 0)
      + (if s.irq.master then 32 else 0) + (if s.bus.wm then 64 else 0)
      + (if s.cmd.execution.isSome then 128 else 0)) := by
  simp only [State.gstat, State.commandShown, mul_toNat_eq_ite]

theorem level_eq (n : NoticeQueue) : n.level =
    BitVec.ofNat 8 (n.proper.length + (if n.backlog = [] then 0 else 32) + (if n.headSealed then 64 else 0)
      + (if n.standing.isSome then 128 else 0)) := by
  have hbacklog : (if !n.backlog.isEmpty then 32 else 0) = if n.backlog = [] then 0 else 32 := by
    cases n.backlog with
    | nil => rfl
    | cons x rest => rfl
  simp only [NoticeQueue.level, mul_toNat_eq_ite, hbacklog]

theorem viewItem_code (v : ViewItem) : v.code =
    match v with
    | .entry e => BitVec.ofNat 8 e.val
    | .group g => BitVec.ofNat 8 (64 + g.val)
    | .trigger l => BitVec.ofNat 8 (80 + l.val)
    | .list .tb0 => 96
    | .list .tb1 => 97
    | .freeList => 98 := by
  cases v with
  | entry | group | trigger | freeList => rfl
  | list t => cases t <;> rfl

/-- Settles O53: the sources bit by bit, INT# by the enables, and the reads from the settled part. -/
theorem interruptLevel : Obligations.InterruptLevel := by
  refine ⟨fun s => ?_, intLow_iff, fun s n => rfl, fun s => ?_⟩
  · obtain ⟨h0, h1, h2, h3, h4, h5, h6, h7⟩ := ipend_bits s
    rw [h0, h1, h2, h3, h4, h5, h6]
    exact ⟨qpend_iff _, qpend_iff _, resPending_iff s, Iff.rfl, faultPending_iff s .tb0, faultPending_iff s .tb1,
      trg_iff s, h7⟩
  · exact ⟨congrArg _ (gstat_eq _), rfl, rfl, congrArg _ (level_eq _), congrArg _ (level_eq _),
      congrArg _ (viewItem_code _), _, _, rfl, rfl, fun n => ⟨outByte_low _ n, outByte_high _ n⟩⟩

end Sys2Proof.Machine
end

section
/-!
The register window: GCTRL writes and the scheduler clear, the selectors, and the VIEW and NOW ports with the bytes of
every view (R1, R40, R107, R185, R186, R188, R189, R192, R194).
-/
namespace Sys2Proof.Machine

/-! ## GCTRL without a scheduler clear (R149, R187, R188) -/

/-- A bit that is set already may be set again. -/
theorem or_twoPow_of_getLsbD {w : Nat} {b : BitVec w} {i : Nat} (h : b.getLsbD i = true) :
    b ||| BitVec.twoPow w i = b := by
  refine BitVec.eq_of_getLsbD_eq fun j _ => ?_
  rw [BitVec.getLsbD_or, BitVec.getLsbD_twoPow]
  by_cases hij : i = j
  · subst hij
    rw [h, Bool.true_or]
  · rw [decide_eq_false hij, Bool.and_false, Bool.or_false]

/-- DISCARD and WM clear write different blocks, so each bit decides its own field. -/
theorem writeGctrl_not_clear (s : State) {b : Byte} (h : b.getLsbD 3 = false) :
    s.writeGctrl b = { s with
      out := { s.out with enable := b.getLsbD 0 }
      irq := { s.irq with master := b.getLsbD 1 }
      cmd := { s.cmd with queue := if b.getLsbD 2 then [] else s.cmd.queue }
      bus := { s.bus with wm := if b.getLsbD 4 then false else s.bus.wm } } := by
  rw [State.writeGctrl, h]
  cases b.getLsbD 2 <;> cases b.getLsbD 4 <;> rfl

/-- Settles O7: a row whose own bit is set already writes the byte as it stands. -/
theorem gctrlWrites : Obligations.GctrlWrites := by
  intro b s hs hclear
  have hwrite := writeGctrl_not_clear s hclear
  refine ⟨?_, ?_, fun hdiscard => ?_, fun hwm => ?_⟩
  · rw [exec_settled rfl hs, settledRow, hwrite]
  · rw [exec_settled rfl hs, settledRow, hwrite]
  · have hbyte : b ||| 0x04 = b := or_twoPow_of_getLsbD hdiscard
    rw [exec_settled rfl hs, settledRow, hbyte, hwrite]
  · have hbyte : b ||| 0x10 = b := or_twoPow_of_getLsbD hwm
    rw [exec_settled rfl hs, settledRow, hbyte, hwrite]

/-! ## The scheduler clear (R22, R42, R65, R111, R126, R153, R165, R173, R182, R189) -/

theorem clear_entry (s : State) (e : EntryIdx) : s.clear.entry e = .reset :=
  (entry_of_table rfl e).trans (resetWith_entry false 0 e)

theorem clear_timebase (s : State) (t : Timebase) : s.clear.timebase t = (s.timebase t).cleared := by
  cases t <;> rfl

theorem clear_list (s : State) (t : Timebase) : s.clear.list t = [] :=
  (list_of_engine rfl t).trans (resetWith_list false 0 t)

theorem clear_group (s : State) (g : GroupIdx) : s.clear.group g = .reset :=
  (group_of_engine rfl g).trans (resetWith_group false 0 g)

theorem clear_queue (s : State) (q : QueueId) : s.clear.queue q = .cleared (s.queue q).watermark := by
  cases q <;> rfl

theorem clear_line (s : State) (l : TrigIdx) : s.clear.line l = .reset (s.line l).level :=
  Vector.getElem_map _ l.isLt

/-- The CLEAR bit that the row sets leaves the two enable bits of the byte. -/
theorem setEnables_or_clearBit (s : State) (b : Byte) : s.setEnables (b ||| 0x08) = s.setEnables b := by
  have h0 : (b ||| 0x08).getLsbD 0 = b.getLsbD 0 := by simp
  have h1 : (b ||| 0x08).getLsbD 1 = b.getLsbD 1 := by simp
  rw [State.setEnables, State.setEnables, h0, h1]

theorem exec_schedulerClear_settled (b : Byte) {s : State} (hs : s.settled = true) :
    exec (.schedulerClear b) s = .next (s.setEnables b).clear := by
  rw [exec_schedulerClear, settle_of_settled hs, setEnables_or_clearBit]

/-- Settles O6: block by block, from the clear of the part with its enables set. -/
theorem schedulerClearValues : Obligations.SchedulerClearValues := fun b _ hs =>
  ⟨_, exec_schedulerClear_settled b hs, clear_entry _, rfl, clear_timebase _, rfl, rfl, clear_list _, rfl, rfl,
    clear_group _, clear_queue _, rfl, clear_line _, rfl, rfl, rfl, rfl⟩

/-! ## The selectors (R40, R186) -/

theorem writeVsel_code (s : State) (v : ViewItem) :
    s.writeVsel v.code = { s with bus := { s.bus with vsel := v, viewPointer := 0, viewLatch := [] } } := by
  rw [State.writeVsel, ofCode_code]

/-- A code of no item selects none. -/
theorem ofCode_none {b : Byte} (h : ∀ v : ViewItem, v.code ≠ b) : ViewItem.ofCode b = none :=
  Option.eq_none_iff_forall_ne_some.mpr fun v hv => h v (code_of_ofCode b v hv)

theorem writeVsel_invalid (s : State) {b : Byte} (h : ∀ v : ViewItem, v.code ≠ b) : s.writeVsel b = s.misuse := by
  rw [State.writeVsel, ofCode_none h]

/-- Settles O17: the item of a code is unique, and a byte that is the code of none is refused. -/
theorem selectorWrites : Obligations.SelectorWrites := by
  refine ⟨fun v s hs => ?_, fun b s hs hb => ?_, fun b s hs => exec_settled rfl hs⟩
  · rw [exec_settled rfl hs, settledRow, writeVsel_code]
  · rw [exec_settled rfl hs, settledRow, writeVsel_invalid s hb, State.misuse]

/-! ## Bytes and encodings (R192, R194) -/

/-- FFH stands for no index. -/
theorem indexByte_eq {n : Nat} (x : Option (Fin n)) :
    indexByte x = BitVec.ofNat 8 ((x.map (·.val)).getD 255) := by
  cases x <;> rfl

/-- The three bytes of NOW, low byte first. -/
theorem nowBytes_eq (v : Tick) : nowBytes v =
    [BitVec.ofNat 8 v.toNat, BitVec.ofNat 8 (v.toNat / 256), BitVec.ofNat 8 (v.toNat / 65536)] :=
  congrArg (fun n => [BitVec.ofNat 8 n, byteOf v.toNat 1, byteOf v.toNat 2]) (Nat.div_one v.toNat)

theorem catchUp_bits (c : CatchUp) : 4 * c.code = match c with | .skip => 0 | .keep => 4 := by
  cases c <;> rfl

theorem postMode_bits (m : PostMode) : 16 * m.code = match m with | .off => 0 | .every => 16 | .final => 32 := by
  cases m <;> rfl

theorem queueId_bits (q : QueueId) : 64 * QueueId.code q = match q with | .nq0 => 0 | .nq1 => 64 := by
  cases q <;> rfl

theorem action_bits (a : Action) :
    32 * a.code = match a with | .none => 0 | .set => 32 | .clear => 64 | .toggle => 96 := by
  cases a <;> rfl

theorem modeByte_eq (b : Behavior) : b.modeByte = BitVec.ofNat 8
    (Timebase.code b.timebase + (match b.catchUp with | .skip => 0 | .keep => 4) + (if b.autoFree then 8 else 0)
      + (match b.postMode with | .off => 0 | .every => 16 | .final => 32)
      + (match b.queue with | .nq0 => 0 | .nq1 => 64)) := by
  rw [Behavior.modeByte, catchUp_bits, postMode_bits, queueId_bits, mul_toNat_eq_ite]

theorem actionLineByte_eq (b : Behavior) : b.actionLineByte = BitVec.ofNat 8
    (b.line.val + (match b.action with | .none => 0 | .set => 32 | .clear => 64 | .toggle => 96)) := by
  rw [Behavior.actionLineByte, action_bits]

/-! ## The entry view (R1, R107, R192) -/

theorem entryState_byte (st : EntryState) : BitVec.ofNat 8 st.code =
    match st with | .free => 0 | .idle => 1 | .armed => 2 | .held => 3 | .spent => 4 := by
  cases st <;> rfl

theorem time_toNat (x : Entry) : x.time.toNat =
    match x.state with | .armed => x.deadline.toNat | .held => x.remaining.toNat | _ => 0 := by
  rw [Entry.time]
  cases x.state <;> rfl

theorem countOf_append (n : NoticeQueue) (e : EntryIdx) :
    n.countOf e = (n.proper ++ n.backlog).countP fun x => decide (x.entry = e) :=
  List.countP_append.symm

/-- Whether a backlog names the entry, as a bit (R107). -/
theorem any_entry_toNat (l : List Notice) (e : EntryIdx) :
    (l.any (·.entry == e)).toNat = if l.any fun x => decide (x.entry = e) then 1 else 0 :=
  Bool.cond_eq_ite ..

theorem nextOf_unlisted {s : State} {e : EntryIdx}
    (h : (s.entry e).state = .idle ∨ (s.entry e).state = .held ∨ (s.entry e).state = .spent) : s.nextOf e = none := by
  rw [State.nextOf]
  rcases h with h | h | h <;> rw [h]

/-- A FREE entry has its next on the free list, an ARMED one on the list of its timebase. -/
theorem nextOf_listed {s : State} {e : EntryIdx} {l : List EntryIdx}
    (h : (s.entry e).state = .free ∧ l = s.table.freeList ∨
      (s.entry e).state = .armed ∧ l = s.list (s.entry e).behavior.timebase) : s.nextOf e = following l e := by
  rw [State.nextOf]
  rcases h with ⟨hst, rfl⟩ | ⟨hst, rfl⟩ <;> rw [hst]

/-! ## The group and trigger views (R192) -/

theorem groupPhase_byte (p : GroupPhase) : BitVec.ofNat 8 p.code =
    match p with | .running => 0 | .holding => 1 | .held => 2 | .resuming => 3 := by
  cases p <;> rfl

/-- The condition of the record and its held edge, in bits 5–7. -/
theorem triggerRecord_bits (r : TriggerRecord) : 32 * r.shown.1 + 128 * r.hasHeldEdge.toNat =
    match r with
    | .none => 0 | .pending _ => 32 | .inService _ none => 64 | .inService _ (some _) => 64 + 128 := by
  cases r with
  | none | pending => rfl
  | inService c held => cases held <;> rfl

theorem triggerRecord_capture (r : TriggerRecord) : r.shown.2 =
    match r with | .none => none | .pending c => some c | .inService c _ => some c := by
  cases r <;> rfl

theorem triggerAction_target (a : TriggerAction) : BitVec.ofNat 8 a.target =
    match a with
    | .arm e => BitVec.ofNat 8 e.val | .cancel e => BitVec.ofNat 8 e.val
    | .hold g => BitVec.ofNat 8 g.val | .resume g => BitVec.ofNat 8 g.val := by
  cases a <;> rfl

/-- The record action and bytes 3–9, zeros without a record. -/
theorem capture_fields (c : Option Capture) : Capture.fields c =
    (match c with | none => 0 | some c => c.action.code,
      match c with
      | none => [0, 0, 0, 0, 0, 0, 0]
      | some c => [BitVec.ofNat 8 c.action.target, byteOf c.now0.toNat 0, byteOf c.now0.toNat 1,
          byteOf c.now0.toNat 2, byteOf c.now1.toNat 0, byteOf c.now1.toNat 1, byteOf c.now1.toNat 2]) := by
  cases c <;> rfl

/-- Settles O18: the ports from the settled part, and each view byte by byte from the encodings. -/
theorem viewAndNowReads : Obligations.ViewAndNowReads := by
  refine ⟨fun s hs => exec_settled rfl hs, fun s hs => ?_, fun v => by cases v <;> rfl, fun s e => ?_, fun s e => ?_,
    fun s g => ?_, fun s l => ?_, fun s => ⟨fun b => ?_, ?_⟩⟩
  · rw [exec_settled rfl hs, settledRow, State.readNow, nowBytes_eq]
    rfl
  · rw [State.viewBytes, State.entryView]
    simp only [entryState_byte, modeByte_eq, actionLineByte_eq, indexByte_eq, time_toNat, State.outstanding,
      countOf_append, any_entry_toNat] <;> rfl
  · exact ⟨nextOf_unlisted, fun _ hl => ⟨fun _ h hn => (nextOf_listed hl).trans (following_last h hn),
      fun _ _ _ h hn => (nextOf_listed hl).trans (following_next h hn)⟩⟩
  · exact congrArg (· :: _) (groupPhase_byte _)
  · rw [State.viewBytes, State.triggerView, Nat.add_assoc _ (32 * _), triggerRecord_bits]
    simp only [mul_toNat_eq_ite, capture_fields, triggerAction_target, triggerRecord_capture] <;> rfl
  · rw [State.viewBytes, State.listSummary, indexByte_eq]
  · rw [State.viewBytes, State.freeSummary, indexByte_eq, indexByte_eq]

end Sys2Proof.Machine
end

section
/-!
The queue of steps: `step` takes its front, and no row answers anything but a next state with the same queue
(notes/assumptions/1.md, 2.md, 5.md, 22.md). A row that settles first is one operation on the settled part; each other
row is an owner step, a grant, a report, a standing pop, the NOP or the reset.
-/
namespace Sys2Proof.Machine

/-! ## The front of the queue -/

theorem step_front {s : State} {c : Instr} {rest : List Instr} (h : s.pending = c :: rest) :
    step s = exec c { s with pending := rest } := by
  rw [step, h]

theorem step_idle {s : State} (h : s.pending = []) : step s = .next s := by
  rw [step, h]

/-- Settles O1: the front row runs on the rest of the queue, and an empty queue idles. -/
theorem frontCommandRuns : Obligations.FrontCommandRuns :=
  ⟨fun _ _ _ h => step_front h, fun _ h => step_idle h⟩

/-! ## What leaves the queue as it is -/

@[simp] theorem commandGrant_pending (s : State) (k : Command → Bool) : (s.commandGrant k).pending = s.pending := by
  unfold State.commandGrant; split <;> simp

@[simp] theorem triggerGrant_pending (s : State) (k : TriggerAction → Bool) :
    (s.triggerGrant k).pending = s.pending := by
  unfold State.triggerGrant; split <;> simp

@[simp] theorem expiryGrant_pending (s : State) : s.expiryGrant.pending = s.pending := by
  unfold State.expiryGrant; split <;> simp

@[simp] theorem clear_pending (s : State) : s.clear.pending = s.pending := rfl

@[simp] theorem writeGctrl_pending (s : State) (b : Byte) : (s.writeGctrl b).pending = s.pending := by
  unfold State.writeGctrl; dsimp only; (repeat' split) <;> simp

@[simp] theorem tick_pending (s : State) (t : Timebase) : (s.tick t).pending = s.pending := by
  cases t <;> (unfold State.tick; dsimp only; split) <;> simp

/-- The operation of a row that settles first leaves the queue alone. -/
theorem settledRow_pending (c : Instr) (s : State) : (settledRow c s).pending = s.pending := by
  cases c
  case tkiEdge => exact tkiChange_pending s
  case tick t => exact tick_pending s t
  case triggerEdge l => exact triggerChange_pending s l
  case clkPeriod => exact clkPeriod_pending s
  case lineOperation => exact handLineOp_pending s
  case post => exact handPost_pending s
  case walkMemberStep => exact walkStep_pending s
  case finalStep => exact finalStep_pending s
  case operationCompletion => exact complete_pending s
  case cmd code => exact writeCmd_pending s code
  case pptrWrite b => exact writePptr_pending s b
  case resultPop => exact popResult_pending s
  case noticeRead q => exact readNotice_pending s q
  case noticePop q i => exact popNotice_pending s q i.toNat
  case vselWrite b => exact writeVsel_pending s b
  case iclrWrite b => exact writeIclr_pending s b
  case outputEnable | masterEnable | discard | schedulerClear | wmClear => exact writeGctrl_pending s _
  all_goals rfl

/-! ## Every row completes -/

/-- A row that settles first answers its operation on the settled part. -/
theorem exec_settling_completes {c : Instr} (h : rowSettlesFirst c = true) (s : State) :
    ∃ t, exec c s = .next t ∧ t.pending = s.pending :=
  ⟨_, exec_settling h s, (settledRow_pending c s.settle).trans (settle_pending s)⟩

/-- The other rows take a step that belongs to the event before, grant an operation, or reset the part. -/
theorem exec_notSettling_completes {c : Instr} (h : rowSettlesFirst c = false) (s : State) :
    ∃ t, exec c s = .next t ∧ t.pending = s.pending := by
  cases c
  case hardwareReset tki trg => exact ⟨_, exec_hardwareReset tki trg s, rfl⟩
  case nop => exact ⟨_, rfl, answerNop_pending s⟩
  case alloc | setupTiming | setupBehavior | retune | setDivider | start | stop | clearFault | queueConfig | flushQueue
    | bindTrigger => exact ⟨_, rfl, ownerStep_pending s _⟩
  case arm | armAt | cancel | free | hold | resume | clearNow => exact ⟨_, rfl, commandGrant_pending s _⟩
  case service => exact ⟨_, rfl, expiryGrant_pending s⟩
  case triggerArm | triggerCancel | triggerHold | triggerResume => exact ⟨_, rfl, triggerGrant_pending s _⟩
  case releaseReport e => exact ⟨_, rfl, takeWaitingReport_pending s e⟩
  case standingPop q => exact ⟨_, rfl, takeStanding_pending s q⟩
  all_goals cases h

/-- Settles O2: by whether the row settles the event before first. -/
theorem everyRowCompletes : Obligations.EveryRowCompletes := fun c s => by
  cases h : rowSettlesFirst c with
  | true => exact exec_settling_completes h s
  | false => exact exec_notSettling_completes h s

end Sys2Proof.Machine
end
